-- ==== Sys2Proof/Word.lean ====
section
/-! DEFINITION. The word types of the block: the 64-bit command word (R100, R101) and the 32-bit word of the
register port and of the result register (R32, R38). -/

namespace Sys2Proof

/-- A command word, as the host writes it to the command port (R100). -/
abbrev CmdWord := BitVec 64

/-- A 32-bit word: RES, NCORR, a SYM word, an EPOS entry, the value of a register read (R32, R34, R38, R72). -/
abbrev Word := BitVec 32

end Sys2Proof
end

