-- ==== Sys2Proof/Syntax.lean ====
section
/-! DEFINITION. The commands of the block, one constructor per row of the opcode table (R103), with the operands of R104
at the exact width of their field (R101, R102), and the causes of a fault (R420). -/

namespace Sys2Proof

/-- A command with its operands, in the order of the assembler syntax (R109). Register numbers, counts and indices keep the
field's width, so every value of the type has an encoding. -/
inductive Instr where
  /-- NOP (R156). -/
  | nop
  /-- BGET i (R140). -/
  | bget (i : BitVec 16)
  /-- BSET i (R141). -/
  | bset (i : BitVec 16)
  /-- BCLR i (R142). -/
  | bclr (i : BitVec 16)
  /-- BFLIP i (R143). -/
  | bflip (i : BitVec 16)
  /-- BREAD s, n (R144). -/
  | bread (s : BitVec 16) (n : BitVec 8)
  /-- BWRITE s, n, v (R145). -/
  | bwrite (s : BitVec 16) (n : BitVec 8) (v : BitVec 32)
  /-- BXOR s, n, v (R146). -/
  | bxor (s : BitVec 16) (n : BitVec 8) (v : BitVec 32)
  /-- BROTL s, e (R147). -/
  | brotl (s : BitVec 16) (e : BitVec 32)
  /-- BROTR s, e (R148). -/
  | brotr (s : BitVec 16) (e : BitVec 32)
  /-- BPOPC (R149). -/
  | bpopc
  /-- BNEXT from (R150). -/
  | bnext (start : BitVec 16)
  /-- SYMWR j, v (R151). -/
  | symwr (j : BitVec 16) (v : BitVec 32)
  /-- SYMRD j (R152). -/
  | symrd (j : BitVec 16)
  /-- IDXWR j, v (R153). -/
  | idxwr (j : BitVec 16) (v : BitVec 16)
  /-- IDXRD j (R155). -/
  | idxrd (j : BitVec 16)
  /-- EPOSRD j (R154). -/
  | eposrd (j : BitVec 16)
  /-- GFEXP f, i (R176). -/
  | gfexp (f : BitVec 8) (i : BitVec 16)
  /-- GFLOG f, v (R177). -/
  | gflog (f : BitVec 8) (v : BitVec 16)
  /-- GFMUL f, A, B (R178). -/
  | gfmul (f : BitVec 8) (x y : BitVec 16)
  /-- GFINV f, A (R179). -/
  | gfinv (f : BitVec 8) (x : BitVec 16)
  /-- GFADD f, A, B (R180). -/
  | gfadd (f : BitVec 8) (x y : BitVec 16)
  /-- RSDEC c (R212). -/
  | rsdec (c : BitVec 8)
  /-- HAMDEC h, s (R259). -/
  | hamdec (h : BitVec 8) (s : BitVec 16)
  /-- HAMDECX h (R260). -/
  | hamdecx (h : BitVec 8)
  /-- GOL23 s (R294). -/
  | gol23 (s : BitVec 16)
  /-- GOL24 s (R297). -/
  | gol24 (s : BitVec 16)
  /-- GOL18 s (R299). -/
  | gol18 (s : BitVec 16)
  /-- BPTC s (R336). -/
  | bptc (s : BitVec 16)
  /-- CRCCHK c, s, inbound (R370). -/
  | crcchk (c : BitVec 8) (s : BitVec 16) (inbound : BitVec 1)
  /-- CRC16 s, M (R371). -/
  | crc16 (s : BitVec 16) (msgLen : BitVec 16)
deriving DecidableEq, Repr

/-- The causes of a fault (R420). -/
inductive FaultCause where
  /-- 1 ILLEGAL_OPCODE: the opcode is not in R103. -/
  | illegalOpcode
  /-- 2 RESERVED_FIELD: a field the opcode reserves is not zero. -/
  | reservedField
  /-- 3 BAD_SELECT: the selector names no entry of the configuration. -/
  | badSelect
  /-- 4 BAD_COUNT: a bit count outside 1..32, a rotate range with start above end, a CRC16 message of no bits. -/
  | badCount
  /-- 5 BUF_RANGE: a BUF index or a bit of a window at or beyond BUF_LEN. -/
  | bufRange
  /-- 6 MEM_RANGE: an index outside SYM or IDX, or not below ECNT in EPOS. -/
  | memRange
  /-- 7 BAD_OPERAND: a GF operand or exponent of 2^m or above, a BWRITE or BXOR value of 2^n or above. -/
  | badOperand
  /-- 8 GF_INV_ZERO: GFINV of 0. -/
  | gfInvZero
  /-- 9 IDX_DUP: two of the IDX entries HAMDECX uses are equal. -/
  | idxDup
deriving DecidableEq, Repr

end Sys2Proof
end

