-- ==== Sys2Proof/Decode.lean ====
section
/-! DEFINITION. The command encoding (30_encoding.md): the four fields of a word, the decoder, which is total and rejects by
the fault cause, and after it the encoder. -/

namespace Sys2Proof

/-- The cause code that a fault writes into FAULT (R420). -/
def FaultCause.code : FaultCause → BitVec 8
  | .illegalOpcode => 1
  | .reservedField => 2
  | .badSelect => 3
  | .badCount => 4
  | .bufRange => 5
  | .memRange => 6
  | .badOperand => 7
  | .gfInvZero => 8
  | .idxDup => 9

/-- Field `op`, bits 63:56 (R101). -/
def opField (w : CmdWord) : BitVec 8 := w.extractLsb' 56 8

/-- Field `x`, bits 55:48 (R101). -/
def xField (w : CmdWord) : BitVec 8 := w.extractLsb' 48 8

/-- Field `a`, bits 47:32 (R101). -/
def aField (w : CmdWord) : BitVec 16 := w.extractLsb' 32 16

/-- Field `b`, bits 31:0 (R101). -/
def bField (w : CmdWord) : BitVec 32 := w.extractLsb' 0 32

/-- b[15:0], for the opcodes whose b[31:16] is reserved (R104). -/
def bLow (b : BitVec 32) : BitVec 16 := b.extractLsb' 0 16

/-- b[31:16] (R104). -/
def bHigh (b : BitVec 32) : BitVec 16 := b.extractLsb' 16 16

/-- A command whose reserved fields are zero, or RESERVED_FIELD (R106). -/
def ifReservedZero (zero : Bool) (i : Instr) : Except FaultCause Instr :=
  if zero then .ok i else .error .reservedField

/-- Decode from the four fields: opcode legality first (R105), then the reserved fields (R106). The selector is checked by
the meaning, because what it may name is the configuration's (R107); that keeps the order of R111. -/
def decodeFields (op x : BitVec 8) (a : BitVec 16) (b : BitVec 32) : Except FaultCause Instr :=
  match op.toNat with
  | 0x00 => ifReservedZero (x == 0 && a == 0 && b == 0) .nop
  | 0x10 => ifReservedZero (x == 0 && b == 0) (.bget a)
  | 0x11 => ifReservedZero (x == 0 && b == 0) (.bset a)
  | 0x12 => ifReservedZero (x == 0 && b == 0) (.bclr a)
  | 0x13 => ifReservedZero (x == 0 && b == 0) (.bflip a)
  | 0x14 => ifReservedZero (b == 0) (.bread a x)
  | 0x15 => .ok (.bwrite a x b)
  | 0x16 => .ok (.bxor a x b)
  | 0x17 => ifReservedZero (x == 0) (.brotl a b)
  | 0x18 => ifReservedZero (x == 0) (.brotr a b)
  | 0x19 => ifReservedZero (x == 0 && a == 0 && b == 0) .bpopc
  | 0x1A => ifReservedZero (x == 0 && b == 0) (.bnext a)
  | 0x20 => ifReservedZero (x == 0) (.symwr a b)
  | 0x21 => ifReservedZero (x == 0 && b == 0) (.symrd a)
  | 0x22 => ifReservedZero (x == 0 && bHigh b == 0) (.idxwr a (bLow b))
  | 0x23 => ifReservedZero (x == 0 && b == 0) (.idxrd a)
  | 0x24 => ifReservedZero (x == 0 && b == 0) (.eposrd a)
  | 0x30 => ifReservedZero (b == 0) (.gfexp x a)
  | 0x31 => ifReservedZero (b == 0) (.gflog x a)
  | 0x32 => ifReservedZero (bHigh b == 0) (.gfmul x a (bLow b))
  | 0x33 => ifReservedZero (b == 0) (.gfinv x a)
  | 0x34 => ifReservedZero (bHigh b == 0) (.gfadd x a (bLow b))
  | 0x40 => ifReservedZero (a == 0 && b == 0) (.rsdec x)
  | 0x50 => ifReservedZero (b == 0) (.hamdec x a)
  | 0x51 => ifReservedZero (a == 0 && b == 0) (.hamdecx x)
  | 0x52 => ifReservedZero (x == 0 && b == 0) (.gol23 a)
  | 0x53 => ifReservedZero (x == 0 && b == 0) (.gol24 a)
  | 0x54 => ifReservedZero (x == 0 && b == 0) (.gol18 a)
  | 0x58 => ifReservedZero (x == 0 && b == 0) (.bptc a)
  | 0x60 => ifReservedZero (b.extractLsb' 1 31 == 0) (.crcchk x a (b.extractLsb' 0 1))
  | 0x61 => ifReservedZero (x == 0 && bHigh b == 0) (.crc16 a (bLow b))
  | _ => .error .illegalOpcode

/-- Decode a command word: a command with its operands, or the cause of the fault it raises (R111). -/
def decode (w : CmdWord) : Except FaultCause Instr :=
  decodeFields (opField w) (xField w) (aField w) (bField w)

/-- The word with the given fields (R101). -/
def assembleWord (op x : BitVec 8) (a : BitVec 16) (b : BitVec 32) : CmdWord := op ++ x ++ a ++ b

/-- A 16-bit operand in `b`, with b[31:16] zero (R104). -/
def lowOperand (v : BitVec 16) : BitVec 32 := (0 : BitVec 16) ++ v

/-- The encoding of a command (R103, R104). -/
def encode : Instr → CmdWord
  | .nop => assembleWord 0x00 0 0 0
  | .bget i => assembleWord 0x10 0 i 0
  | .bset i => assembleWord 0x11 0 i 0
  | .bclr i => assembleWord 0x12 0 i 0
  | .bflip i => assembleWord 0x13 0 i 0
  | .bread s n => assembleWord 0x14 n s 0
  | .bwrite s n v => assembleWord 0x15 n s v
  | .bxor s n v => assembleWord 0x16 n s v
  | .brotl s e => assembleWord 0x17 0 s e
  | .brotr s e => assembleWord 0x18 0 s e
  | .bpopc => assembleWord 0x19 0 0 0
  | .bnext f => assembleWord 0x1A 0 f 0
  | .symwr j v => assembleWord 0x20 0 j v
  | .symrd j => assembleWord 0x21 0 j 0
  | .idxwr j v => assembleWord 0x22 0 j (lowOperand v)
  | .idxrd j => assembleWord 0x23 0 j 0
  | .eposrd j => assembleWord 0x24 0 j 0
  | .gfexp f i => assembleWord 0x30 f i 0
  | .gflog f v => assembleWord 0x31 f v 0
  | .gfmul f x y => assembleWord 0x32 f x (lowOperand y)
  | .gfinv f x => assembleWord 0x33 f x 0
  | .gfadd f x y => assembleWord 0x34 f x (lowOperand y)
  | .rsdec c => assembleWord 0x40 c 0 0
  | .hamdec h s => assembleWord 0x50 h s 0
  | .hamdecx h => assembleWord 0x51 h 0 0
  | .gol23 s => assembleWord 0x52 0 s 0
  | .gol24 s => assembleWord 0x53 0 s 0
  | .gol18 s => assembleWord 0x54 0 s 0
  | .bptc s => assembleWord 0x58 0 s 0
  | .crcchk c s inbound => assembleWord 0x60 c s ((0 : BitVec 31) ++ inbound)
  | .crc16 s m => assembleWord 0x61 0 s (lowOperand m)

/-- The command the decoder reads from a word given as the opcode table numbers its bits: bit 0 is the least significant of
the one 64-bit word, and a bit at or above `nbits` is 0. The port takes the whole word at once, so no byte order arises (R76,
R100). -/
def decodeTableWord (nbits w : Nat) : Option Instr :=
  match decode (BitVec.ofNat 64 (w % 2 ^ nbits)) with
  | .ok i => some i
  | .error _ => none

end Sys2Proof
end

