-- ==== Sys2Proof/Config.lean ====
section
/-! DEFINITION. The configuration of the block (R6): every parameter the sources leave open, as plain data. The
configuration is no state (R11, R30): it is fixed when the block is built and no command or reset changes it (R461). Every
table is a function of it. -/

namespace Sys2Proof

/-- What RSDEC does with a symbol outside the code's alphabet: the parameter INVALID_SYMBOL_POLICY (R213). -/
inductive InvalidSymbolPolicy where
  /-- End with the outcome INVALID_INPUT; the default (D20). -/
  | reject
  /-- Count the symbol as 0 in the working copy: the reference behaviour (R213). -/
  | ignore
deriving DecidableEq, Repr

/-- A field slot: the field power m and the generator polynomial P, bit i the coefficient of x^i (R170). -/
structure GfSlot where
  m : Nat
  poly : Nat
deriving DecidableEq, Repr

/-- An RS or BCH configuration (R210). The number t of correctable symbols is a function of `nsyn`. -/
structure RsConfig where
  /-- The selector of the field slot. -/
  slot : Nat
  n : Nat
  k : Nat
  /-- The number of syndromes computed. -/
  nsyn : Nat
  /-- Whether the code is a binary BCH code. -/
  binary : Bool
deriving DecidableEq, Repr

/-- A checksum code (M, C, P, F) (R360): message size, checksum size, polynomial with the x^C term implied, initial fill. -/
structure CrcCode where
  msgLen : Nat
  crcLen : Nat
  poly : Nat
  fill : Nat
deriving DecidableEq, Repr

/-- The mode a CRC slot runs in (R361). -/
inductive CrcMode where
  /-- R367. -/
  | generic
  /-- R368, with the ordered list of (residual value, window positions to flip): PP_RESIDUALS in slot 2. That an extra slot in this
  mode has a list of its own is DESIGN CHOICE: log entry 22. -/
  | residualMap (residuals : List (Nat × List Nat))
  /-- R369. -/
  | fleetsync
deriving DecidableEq, Repr

/-- A CRC slot (R361). -/
structure CrcSlot where
  mode : CrcMode
  code : CrcCode
  acceptInverted : Bool
deriving DecidableEq, Repr

/-- The parameters of R6 whose value is OPEN. The fixed entries of R6 (slots, configurations and tables the spec gives) stand
in the functions that look a selector up. -/
structure Config where
  /-- BUF_LEN. -/
  bufLen : Nat
  /-- GF_EXTRA: field slots 2..255, by selector. -/
  gfExtra : List (Nat × GfSlot)
  /-- EXP_TOP: the table entry exp[2^m - 1] (R173). -/
  expTop : Word
  /-- RS_EXTRA: RS configurations 5..255, by selector. -/
  rsExtra : List (Nat × RsConfig)
  /-- INVALID_SYMBOL_POLICY. -/
  invalidSymbols : InvalidSymbolPolicy
  /-- HAM10_TABLE. -/
  ham10 : List Nat
  /-- HAM17_TABLE. -/
  ham17 : List Nat
  /-- GOLAY_POLY. -/
  golayPoly : Nat
  /-- FS_POLY. -/
  fsPoly : Nat
  /-- LTR_M, LTR_C, LTR_POLY, LTR_FILL. -/
  ltr : CrcCode
  /-- PP_M, PP_C, PP_POLY, PP_FILL. -/
  passport : CrcCode
  /-- PP_RESIDUALS. -/
  passportResiduals : List (Nat × List Nat)
  /-- LJ_M, LJ_C, LJ_POLY, LJ_FILL. -/
  lj : CrcCode
  /-- CRC_EXTRA: CRC slots 4..255, by selector. -/
  crcExtra : List (Nat × CrcSlot)
  /-- N_INST: the number of independent block instances. -/
  nInst : Nat
deriving DecidableEq, Repr

/-- What makes a configuration ill-formed: the reasons for which building an instance is refused (R6, D53). -/
inductive ConfigProblem where
  /-- BUF_LEN lies outside 196..65536 (R6). -/
  | bufLen
  /-- GF_EXTRA has a selector outside 2..255, a repeated selector or a slot that is not well formed (R170). -/
  | gfExtra
  /-- RS_EXTRA has a selector outside 5..255, a repeated selector or a configuration that is not well formed (R210). -/
  | rsExtra
  /-- HAM10_TABLE is not well formed (R251). -/
  | ham10
  /-- HAM17_TABLE is not well formed (R251). -/
  | ham17
  /-- GOLAY_POLY is neither 0xAE3 nor 0xC75 (R292). -/
  | golayPoly
  /-- FS_POLY is no polynomial of R360, or does not make the Fleetsync table entries distinct and nonzero (R372). -/
  | fsPoly
  /-- The LTR code is not well formed (R360). -/
  | ltr
  /-- The Passport code or its residual list is not well formed (R360, R368). -/
  | passport
  /-- The LJ code is not well formed (R360). -/
  | lj
  /-- CRC_EXTRA has a selector outside 4..255, a repeated selector or a slot that is not well formed (R360, R368). -/
  | crcExtra
  /-- N_INST is 0 (R6). -/
  | nInst
deriving DecidableEq, Repr

/-- The configuration of `State.reset`. BUF_LEN, EXP_TOP, GOLAY_POLY and the policy are the spec's own for its test vectors
(95_test_vectors.md, conventions), FS_POLY is its test value (section 2.7.2); every other OPEN value is a well-formed example.
DESIGN CHOICE, unsafe: log entry 1. -/
def Config.reference : Config where
  bufLen := 256
  gfExtra := []
  expTop := 1
  rsExtra := []
  invalidSymbols := .reject
  ham10 := [0xE, 0xD, 0xB, 0x7, 0x3, 0xC]
  ham17 := [0x03, 0x05, 0x06, 0x07, 0x09, 0x0A, 0x0B, 0x0C, 0x0D, 0x0E, 0x0F, 0x11]
  golayPoly := 0xAE3
  fsPoly := 0x1ABD
  ltr := { msgLen := 24, crcLen := 7, poly := 0x09, fill := 0 }
  passport := { msgLen := 24, crcLen := 8, poly := 0x1D, fill := 0 }
  passportResiduals := [(0x01, [31]), (0x03, [30, 31])]
  lj := { msgLen := 48, crcLen := 16, poly := 0x1021, fill := 0 }
  crcExtra := []
  nInst := 1

end Sys2Proof
end

