-- ==== Sys2Proof/Machine/Flags.lean ====
section
/-! DEFINITION. The outcome of a decode command. The block has no condition flag other than STATUS (R40): this file gives
STATUS its codes (R33) and the tiers they belong to (R10). -/

namespace Sys2Proof

/-- What a decode command can end with (R33). PASS is `noError` and FAIL is `uncorrectable`. -/
inductive DecodeStatus where
  | noError
  | corrected
  | uncorrectable
  | passInverted
  | failParity
  | invalidInput
deriving DecidableEq, Repr

/-- The three tiers of R10. -/
inductive Tier where
  | noError
  | corrected
  | uncorrectable
deriving DecidableEq, Repr

/-- The STATUS code (R33). -/
def DecodeStatus.code : DecodeStatus → BitVec 8
  | .noError => 0
  | .corrected => 1
  | .uncorrectable => 2
  | .passInverted => 3
  | .failParity => 4
  | .invalidInput => 5

/-- The tier a status belongs to (R33, C5). -/
def DecodeStatus.tier : DecodeStatus → Tier
  | .noError => .noError
  | .passInverted => .noError
  | .corrected => .corrected
  | .uncorrectable => .uncorrectable
  | .failParity => .uncorrectable
  | .invalidInput => .uncorrectable

/-- STATUS after reset, before any decode command: NONE (R33, R43). -/
def statusNone : BitVec 8 := 0xFF

/-- What a bit decoder answers for a window: the status, and the window positions it flips, in the order it flips them
(R34). -/
structure Repair where
  status : DecodeStatus
  positions : List Nat
deriving DecidableEq, Repr

end Sys2Proof
end

