-- ==== Sys2Proof/Machine/Memory.lean ====
section
/-! DEFINITION. A memory space as sparse data (BUF, SYM, IDX and EPOS: R70 to R74): pairs of an address and a cell in one
canonical form, so that equal contents are equal data. The cell is the space's own smallest unit; the block has no bytes
(R76). -/

namespace Sys2Proof.Machine

/-- A space: its listed cells, addresses strictly rising, none holding what an unlisted address reads as. -/
abbrev Mem (α : Type) := List (Nat × α)

/-- What an unlisted address reads as: the zero of the cell type. The spec leaves a cell nothing has written since reset to a
draw (R463); a draw other than zero is listed. DESIGN CHOICE: log entries 2 and 8. -/
def unlistedCell (α : Type) [Inhabited α] : α := default

/-- Read the cell at an address. -/
def Mem.read {α : Type} [Inhabited α] : Mem α → Nat → α
  | [], _ => unlistedCell α
  | (k, v) :: rest, a => if a = k then v else Mem.read rest a

/-- Drop the cell at an address. -/
def Mem.erase {α : Type} : Mem α → Nat → Mem α
  | [], _ => []
  | (k, v) :: rest, a => if a = k then Mem.erase rest a else (k, v) :: Mem.erase rest a

/-- List a cell at an address that is not listed, in its place. -/
def Mem.insert {α : Type} : Mem α → Nat → α → Mem α
  | [], a, v => [(a, v)]
  | (k, x) :: rest, a, v => if a < k then (a, v) :: (k, x) :: rest else (k, x) :: Mem.insert rest a v

/-- Write a cell, keeping the canonical form. -/
def Mem.write {α : Type} [Inhabited α] [DecidableEq α] (m : Mem α) (a : Nat) (v : α) : Mem α :=
  if v = unlistedCell α then m.erase a else (m.erase a).insert a v

/-- Write a run of cells upward from an address. -/
def Mem.writeRun {α : Type} [Inhabited α] [DecidableEq α] : Mem α → Nat → List α → Mem α
  | m, _, [] => m
  | m, a, v :: vs => Mem.writeRun (m.write a v) (a + 1) vs

/-- The space whose first cells, from an address on, are the given ones and whose other cells are as unlisted. -/
def Mem.ofCells {α : Type} [Inhabited α] [DecidableEq α] : Nat → List α → Mem α
  | _, [] => []
  | a, v :: vs => if v = unlistedCell α then Mem.ofCells (a + 1) vs else (a, v) :: Mem.ofCells (a + 1) vs

/-- The canonical form from an address on: every listed address is at least `lo`, and they rise strictly; no listed cell reads
as an unlisted one does. -/
def Mem.sortedFrom {α : Type} [Inhabited α] [DecidableEq α] : Nat → Mem α → Bool
  | _, [] => true
  | lo, (k, v) :: rest => decide (lo ≤ k) && decide (v ≠ unlistedCell α) && Mem.sortedFrom (k + 1) rest

/-- A space of `size` cells is in canonical form, and lists no address outside the space. -/
def Mem.wf {α : Type} [Inhabited α] [DecidableEq α] (size : Nat) (m : Mem α) : Bool :=
  Mem.sortedFrom 0 m && m.all fun c => decide (c.1 < size)

end Sys2Proof.Machine
end

