-- ==== Sys2Proof/Machine/State.lean ====
section
/-! DEFINITION. The state of one block instance (10_state.md), what the host can do next, and why a step or a build can
stop. -/

namespace Sys2Proof.Machine

/-- The contents of the memories that a reset leaves unspecified (R43, R463): the first cells of each space. A cell the list
does not reach is drawn as zero; a cell beyond the space is dropped. Every contents of the spaces is some draw. -/
structure Draws where
  buf : List Bool
  sym : List (BitVec 32)
  idx : List (BitVec 16)
  epos : List (BitVec 32)
deriving DecidableEq, Repr

/-- What the host can do to the block's state (R467). A register read changes nothing and is a function of the state. -/
inductive HostAction where
  /-- Write a command word to the command port (R100). -/
  | command (word : CmdWord)
  /-- Reset the block; the memories take the draw (R460, R463). -/
  | reset (draws : Draws)
deriving DecidableEq, Repr

/-- The state of R30, and the model's two own fields `cfg` and `port`. -/
structure State where
  /-- The configuration (R6): a parameter of the step relation (R470), which nothing changes (R461). Log entry 3. -/
  cfg : Config
  /-- What the host does next, in order (R467, R468). The block itself records no next command (R31). Log entry 4. -/
  port : List HostAction
  /-- RES (R32). -/
  res : BitVec 32
  /-- STATUS (R33). -/
  status : BitVec 8
  /-- NCORR (R34). -/
  ncorr : BitVec 32
  /-- ECNT (R34). -/
  ecnt : BitVec 8
  /-- EPOS (R34, R74). -/
  epos : Mem (BitVec 32)
  /-- FAULT (R35). -/
  fault : BitVec 8
  /-- FCMD (R36). -/
  fcmd : CmdWord
  /-- BUF (R70). -/
  buf : Mem Bool
  /-- SYM (R72). -/
  sym : Mem (BitVec 32)
  /-- IDX (R73). -/
  idx : Mem (BitVec 16)
deriving DecidableEq, Repr

/-- A reason for which the machine stops dead. The block has none: every fault of R420 is taken as a next state in which FAULT
and FCMD are written (R423) and the block ignores commands until reset (R424). Log entry 6. -/
inductive Fault
deriving DecidableEq, Repr

/-- Why there is no next state. No instruction that has its meaning answers with one. -/
inductive Refusal where
  /-- Raised by `exec` for an instruction that has no meaning in the model; safe. No arm of `exec` raises it. -/
  | notModelled (mnemonic : String)
  /-- Raised by `build` for a configuration that is not well formed (R6, R431, D53), with its first problem (log entry 15); safe,
  because the spec refuses such a build too. -/
  | configRefused (problem : ConfigProblem)
deriving DecidableEq, Repr

/-- N_SYM (R6). -/
def symSize : Nat := 255

/-- N_IDX (R6). -/
def idxSize : Nat := 32

/-- EPOS_CAP (R6). -/
def eposSize : Nat := 255

/-- The state right after a reset of the instance with configuration `cfg`, the memories holding the draw (R43, R460). -/
def State.resetWith (cfg : Config) (d : Draws) : State where
  cfg := cfg
  port := []
  res := 0
  status := statusNone
  ncorr := 0
  ecnt := 0
  epos := Mem.ofCells 0 (d.epos.take eposSize)
  fault := 0
  fcmd := 0
  buf := Mem.ofCells 0 (d.buf.take cfg.bufLen)
  sym := Mem.ofCells 0 (d.sym.take symSize)
  idx := Mem.ofCells 0 (d.idx.take idxSize)

/-- The draw of `State.reset`: every cell zero. DESIGN CHOICE, unsafe: log entry 2. -/
def Draws.zero : Draws := { buf := [], sym := [], idx := [], epos := [] }

/-- The machine right after reset, as the ONE state the host's interface asks for: the reset of R43 at the reference
configuration (log entry 1) with every draw zero (log entry 2). `State.resetWith` is the reset at any configuration and
draw. -/
def State.reset : State := State.resetWith Config.reference Draws.zero

end Sys2Proof.Machine
end

