-- ==== Sys2Proof/Machine/Bits.lean ====
section
/-! DEFINITION. Bit lists and integers (R7, R8): index 0 of a bit list is its first bit and, where the list is read as an
integer, the most significant one. -/

namespace Sys2Proof

/-- mask(n) = 2^n - 1 (R8). -/
def mask (n : Nat) : Nat := 2 ^ n - 1

/-- A bit list read big-endian as an unsigned integer (R7, R76). -/
def bitsToNat (bits : List Bool) : Nat := bits.foldl (fun v b => 2 * v + b.toNat) 0

/-- The n-bit list of an integer, bit n - 1 first: the inverse of `bitsToNat` on lists of n bits (R76). -/
def natToBits (n v : Nat) : List Bool := (List.range n).map fun j => v.testBit (n - 1 - j)

/-- The number of one bits among the low `width` bits (popcount, R8). -/
def popcount (width v : Nat) : Nat := (List.range width).countP fun j => v.testBit j

/-- The exclusive OR of a list of integers, 0 for the empty list. -/
def xorAll (vs : List Nat) : Nat := vs.foldl (· ^^^ ·) 0

/-- The sum of a bit list modulo 2: its parity. -/
def parity (bits : List Bool) : Nat := bits.countP id % 2

end Sys2Proof
end

