-- ==== Sys2Proof/Machine/CrcTable.lean ====
section
/-! DEFINITION. The checksum-table CRC check and correction as a function of the frame's bits (R360 to R371). -/

namespace Sys2Proof

/-- One turn of the division: the register shifted by one, the polynomial folded in on feedback (R362). -/
def CrcCode.shiftIn (c : CrcCode) (q : Nat) (bit : Bool) : Nat :=
  let shifted := (q <<< 1) &&& mask c.crcLen
  if q.testBit (c.crcLen - 1) != bit then shifted ^^^ c.poly else shifted

/-- crc0: division of a message with a zero register, message bit 0 first (R362). -/
def CrcCode.crc0 (c : CrcCode) (message : List Bool) : Nat := message.foldl c.shiftIn 0

/-- The message of M bits with only bit i set (R362). -/
def CrcCode.loneBit (c : CrcCode) (i : Nat) : List Bool := (List.range c.msgLen).map (· == i)

/-- The checksum table's entry T[i]: a message bit's contribution, or a synthetic entry for a checksum bit (R362). -/
def CrcCode.entry (c : CrcCode) (i : Nat) : Nat :=
  if i < c.msgLen then c.crc0 (c.loneBit i) else 2 ^ (c.crcLen - 1 - (i - c.msgLen))

/-- The accumulator: the initial fill and the entries of the set message bits, XORed (R363, R365). -/
def CrcCode.accumulate (c : CrcCode) (w : List Bool) : Nat :=
  c.fill ^^^ xorAll ((List.range c.msgLen).map fun i => if w.getD i false then c.entry i else 0)

/-- The transmitted checksum, big-endian (R364). -/
def CrcCode.transmitted (c : CrcCode) (w : List Bool) : Nat :=
  bitsToNat ((List.range c.crcLen).map fun j => w.getD (c.msgLen + j) false)

/-- The error syndrome (R365). -/
def CrcCode.syndrome (c : CrcCode) (w : List Bool) : Nat := c.accumulate w ^^^ c.transmitted w

/-- The lowest table index whose entry is the syndrome (R366). -/
def CrcCode.scan (c : CrcCode) (syn : Nat) : Option Nat :=
  (List.range (c.msgLen + c.crcLen)).find? fun i => c.entry i == syn

/-- The single-bit search's result as an outcome (R366). -/
def CrcCode.scanRepair (c : CrcCode) (syn : Nat) : Repair :=
  match c.scan syn with
  | some i => { status := .corrected, positions := [i] }
  | none => { status := .uncorrectable, positions := [] }

/-- GENERIC mode (R367). -/
def crcGeneric (c : CrcCode) (acceptInverted inbound : Bool) (w : List Bool) : Repair :=
  let syn := c.syndrome w
  if syn = 0 then { status := .noError, positions := [] }
  else if acceptInverted && inbound && syn == mask c.crcLen then { status := .passInverted, positions := [] }
  else c.scanRepair syn

/-- RESIDUAL_MAP mode (R368): the first pair with the syndrome's value wins. -/
def crcResidualMap (c : CrcCode) (residuals : List (Nat × List Nat)) (w : List Bool) : Repair :=
  let syn := c.syndrome w
  if syn = 0 then { status := .noError, positions := [] }
  else match residuals.find? (fun e => e.1 == syn) with
    | some e => { status := .corrected, positions := e.2 }
    | none => { status := .uncorrectable, positions := [] }

/-- FLEETSYNC mode (R369): the frame's last bit, at window position M + C, is the parity bit. -/
def crcFleetsync (c : CrcCode) (w : List Bool) : Repair :=
  let syn := c.syndrome w
  let par := parity (w.take (c.msgLen + c.crcLen + 1))
  if syn = 0 then
    if par = 0 then { status := .noError, positions := [] } else { status := .failParity, positions := [] }
  else if par = 0 then { status := .uncorrectable, positions := [] }
  else c.scanRepair syn

/-- The number of window bits of a slot's frame: M + C, plus 1 in FLEETSYNC mode (R370). -/
def CrcSlot.frameLen (slot : CrcSlot) : Nat :=
  slot.code.msgLen + slot.code.crcLen + (if slot.mode = .fleetsync then 1 else 0)

/-- The slot's mode on a frame (R370). -/
def CrcSlot.run (slot : CrcSlot) (inbound : Bool) (w : List Bool) : Repair :=
  match slot.mode with
  | .generic => crcGeneric slot.code slot.acceptInverted inbound w
  | .residualMap residuals => crcResidualMap slot.code residuals w
  | .fleetsync => crcFleetsync slot.code w

/-- The code of CRC16 for a message of M bits (R371). -/
def crc16Code (msgLen : Nat) : CrcCode := { msgLen := msgLen, crcLen := 16, poly := 0x1021, fill := 0xFFFF }

/-- The Fleetsync code (R361). -/
def fleetsyncCode (fsPoly : Nat) : CrcCode := { msgLen := 48, crcLen := 15, poly := fsPoly, fill := 0 }

/-- A checksum code is well formed: M >= 1, 1 <= C <= 64, P < 2^C, P odd, F < 2^C (R360). -/
def CrcCode.wf (c : CrcCode) : Bool :=
  decide (1 ≤ c.msgLen) && decide (1 ≤ c.crcLen) && decide (c.crcLen ≤ 64) && decide (c.poly < 2 ^ c.crcLen) &&
    decide (c.poly % 2 = 1) && decide (c.fill < 2 ^ c.crcLen)

/-- The table entries T[0 .. M + C - 1] are distinct and nonzero (R372). -/
def CrcCode.entriesDistinct (c : CrcCode) : Bool :=
  let table := (List.range (c.msgLen + c.crcLen)).map c.entry
  decide table.Nodup && decide (0 ∉ table)

/-- A residual list is well formed: nonzero C-bit values, each with 1 to 3 distinct positions below M + C (R368). -/
def residualsWf (c : CrcCode) (residuals : List (Nat × List Nat)) : Bool :=
  residuals.all fun e =>
    decide (e.1 ≠ 0) && decide (e.1 < 2 ^ c.crcLen) && decide (1 ≤ e.2.length) && decide (e.2.length ≤ 3) &&
      decide e.2.Nodup && e.2.all fun q => decide (q < c.msgLen + c.crcLen)

/-- A CRC slot is well formed (R360, R361, R368). In RESIDUAL_MAP mode its own list is checked against its own M + C, in an extra
slot too: DESIGN CHOICE, log entry 22. -/
def CrcSlot.wf (slot : CrcSlot) : Bool :=
  slot.code.wf && match slot.mode with
    | .generic => true
    | .residualMap residuals => residualsWf slot.code residuals
    | .fleetsync => true

end Sys2Proof
end

