-- ==== Sys2Proof/Machine/Galois.lean ====
section
/-! DEFINITION. GF(2^m) through exponent and logarithm tables (R170 to R175, R182). The tables are functions of the slot. -/

namespace Sys2Proof

/-- 2^m: the number of field elements and the length of both tables (R171, R172). -/
def GfSlot.size (g : GfSlot) : Nat := 2 ^ g.m

/-- N = 2^m - 1: the number of nonzero elements (R170). -/
def GfSlot.order (g : GfSlot) : Nat := 2 ^ g.m - 1

/-- The feedback bits exp[m]: P without the x^m term (R171). -/
def GfSlot.feedback (g : GfSlot) : Nat := g.poly &&& mask g.m

/-- One step of the table construction: multiplication by α (R171). -/
def GfSlot.timesAlpha (g : GfSlot) (v : Nat) : Nat :=
  if 2 ^ (g.m - 1) ≤ v then g.feedback ^^^ ((v ^^^ 2 ^ (g.m - 1)) <<< 1) else v <<< 1

/-- `count` table entries, the first of them `v` and each next one α times the one before (R171). -/
def GfSlot.powersFrom (g : GfSlot) : Nat → Nat → List Nat
  | 0, _ => []
  | count + 1, v => v :: g.powersFrom count (g.timesAlpha v)

/-- exp[0 .. 2^m - 2]: the entries the construction writes (R171). -/
def GfSlot.powers (g : GfSlot) : List Nat :=
  (List.range g.m).map (2 ^ ·) ++ g.powersFrom (g.order - g.m) g.feedback

/-- The exponent table exp[0 .. 2^m - 1], whose last entry is EXP_TOP (R171, R173). -/
def GfSlot.expTable (g : GfSlot) (expTop : Word) : List Word :=
  g.powers.map (BitVec.ofNat 32) ++ [expTop]

/-- log[v] of a nonzero element: the exponent of v (R172). -/
def GfSlot.log (g : GfSlot) (v : Nat) : Nat := g.powers.idxOf v

/-- The log sentinel log[0] (R172). -/
def logSentinel : Word := 0xFFFFFFFF

/-- The logarithm table's entry for v (R172). -/
def GfSlot.logEntry (g : GfSlot) (v : Nat) : Word :=
  if v = 0 then logSentinel else BitVec.ofNat 32 (g.log v)

/-- α^k = exp[k mod N]; it never reads EXP_TOP (R182). -/
def GfSlot.alpha (g : GfSlot) (k : Nat) : Nat := g.powers.getD (k % g.order) 0

/-- The product of two elements (R178). -/
def GfSlot.mul (g : GfSlot) (x y : Nat) : Nat :=
  if x = 0 ∨ y = 0 then 0 else g.alpha (g.log x + g.log y)

/-- The true inverse of a nonzero element, as the solver uses it; it never reads EXP_TOP (R216, R218). -/
def GfSlot.inv (g : GfSlot) (x : Nat) : Nat := g.alpha (g.order - g.log x)

/-- The k-th power of an element (R181), with 0 to the power 0 being 1. -/
def GfSlot.pow (g : GfSlot) (x k : Nat) : Nat :=
  if x = 0 then (if k = 0 then 1 else 0) else g.alpha (k * g.log x)

/-- A slot is well formed: 2 <= m <= 8, bit m of P set, P < 2^(m+1), and P primitive, that is, the construction gives
2^m - 1 distinct nonzero values (R170). -/
def GfSlot.wf (g : GfSlot) : Bool :=
  decide (2 ≤ g.m) && decide (g.m ≤ 8) && g.poly.testBit g.m && decide (g.poly < 2 ^ (g.m + 1)) &&
    decide g.powers.Nodup && decide (0 ∉ g.powers)

end Sys2Proof
end

