-- ==== Sys2Proof/Machine/HammingCode.lean ====
section
/-! DEFINITION. The syndrome-lookup decoder of the Hamming codes as a function of the codeword's bits (R250 to R258). -/

namespace Sys2Proof

/-- A code (n, k, T, secded) (R250). -/
structure HamCode where
  n : Nat
  k : Nat
  table : List Nat
  secded : Bool
deriving DecidableEq, Repr

/-- p = n - k, the number of parity bits (R250). -/
def HamCode.p (c : HamCode) : Nat := c.n - c.k

/-- The checksum table of Hamming(13,9,3) (R252). -/
def ham13Table : List Nat := [0xF, 0xE, 0x7, 0xA, 0x5, 0xB, 0xC, 0x6, 0x3]

/-- The checksum table of Hamming(15,11,3) (R253). -/
def ham15Table : List Nat := [0x9, 0xD, 0xF, 0xE, 0x7, 0xA, 0x5, 0xB, 0xC, 0x6, 0x3]

/-- The checksum table of Hamming(16,11,4) (R254). -/
def ham16Table : List Nat := [0x13, 0x1A, 0x1F, 0x1C, 0x0E, 0x15, 0x0B, 0x16, 0x19, 0x0D, 0x07]

/-- Hamming(13,9,3), the column code of BPTC (R251, R333). -/
def ham13 : HamCode := { n := 13, k := 9, table := ham13Table, secded := false }

/-- Hamming(15,11,3), the row code of BPTC (R251, R334). -/
def ham15 : HamCode := { n := 15, k := 11, table := ham15Table, secded := false }

/-- Hamming(16,11,4) (R251). -/
def ham16 : HamCode := { n := 16, k := 11, table := ham16Table, secded := true }

/-- The calculated checksum: the table entries of the set data bits, XORed (R256). -/
def HamCode.calc (c : HamCode) (w : List Bool) : Nat :=
  xorAll ((List.range c.k).map fun i => if w.getD i false then c.table.getD i 0 else 0)

/-- The transmitted checksum: the trailing parity bits, big-endian (R257). -/
def HamCode.transmitted (c : HamCode) (w : List Bool) : Nat :=
  bitsToNat ((List.range c.p).map fun j => w.getD (c.k + j) false)

/-- The syndrome (R257). -/
def HamCode.syndrome (c : HamCode) (w : List Bool) : Nat := c.calc w ^^^ c.transmitted w

/-- errorIndex: the codeword position whose single error has this syndrome, data bits first (R258). -/
def HamCode.errorIndex (c : HamCode) (syn : Nat) : Option Nat :=
  match (List.range c.k).find? (fun i => c.table.getD i 0 == syn) with
  | some i => some i
  | none => ((List.range c.p).find? fun j => 2 ^ (c.p - 1 - j) == syn).map (c.k + ·)

/-- The decoder core ham_core (R258). -/
def hamCore (c : HamCode) (w : List Bool) : Repair :=
  let syn := c.syndrome w
  if syn = 0 then { status := .noError, positions := [] }
  else if c.secded && popcount c.p syn % 2 == 0 then { status := .uncorrectable, positions := [] }
  else match c.errorIndex syn with
    | some j => { status := .corrected, positions := [j] }
    | none => { status := .uncorrectable, positions := [] }

/-- A checksum table is well formed: k entries, each below 2^p, none 0, none a power of two, no two equal (R251). -/
def hamTableWf (k p : Nat) (table : List Nat) : Bool :=
  table.length == k && decide table.Nodup &&
    table.all fun t => decide (t < 2 ^ p) && decide (t ≠ 0) && (List.range p).all fun j => t != 2 ^ j

end Sys2Proof
end

