-- ==== Sys2Proof/Machine/RsSolver.lean ====
section
/-! DEFINITION. The Berlekamp-Massey Reed-Solomon and BCH solver as a function of the received symbols (R213 to R221).
A polynomial is the list of its coefficients, that of x^0 first (R182). -/

namespace Sys2Proof

/-- t, the number of correctable symbols (R210). -/
def RsConfig.t (c : RsConfig) : Nat := c.nsyn / 2

/-- Whether a symbol value belongs to the code's alphabet (R213). -/
def symbolValid (g : GfSlot) (c : RsConfig) (v : Nat) : Bool :=
  decide (v < g.size) && (!c.binary || decide (v < 2))

/-- The sum of two polynomials. -/
def polyAdd : List Nat → List Nat → List Nat
  | [], q => q
  | p, [] => p
  | a :: p, b :: q => (a ^^^ b) :: polyAdd p q

/-- c · x^shift · p. -/
def GfSlot.polyScaleShift (g : GfSlot) (c shift : Nat) (p : List Nat) : List Nat :=
  List.replicate shift 0 ++ p.map (g.mul c)

/-- The value of a polynomial at y: the sum of p[j] · y^j (R182). -/
def GfSlot.polyEval (g : GfSlot) (p : List Nat) (y : Nat) : Nat :=
  xorAll (p.mapIdx fun j c => g.mul c (g.pow y j))

/-- (p · q) mod x^len. -/
def GfSlot.polyMulMod (g : GfSlot) (p q : List Nat) (len : Nat) : List Nat :=
  (List.range len).map fun k =>
    xorAll ((List.range (k + 1)).map fun i => g.mul (p.getD i 0) (q.getD (k - i) 0))

/-- The syndrome S[i]: the received polynomial at α^i (R215). -/
def GfSlot.syndrome (g : GfSlot) (r : List Nat) (i : Nat) : Nat :=
  xorAll (r.mapIdx fun j v => g.mul v (g.alpha (i * j)))

/-- S[1 .. nsyn], the syndrome S[i] at place i - 1 (R215). -/
def GfSlot.syndromes (g : GfSlot) (nsyn : Nat) (r : List Nat) : List Nat :=
  (List.range nsyn).map fun i => g.syndrome r (i + 1)

/-- The variables of the recursion of R216: Λ, B, L, sh and bd. -/
structure BmState where
  locator : List Nat
  prior : List Nat
  len : Nat
  shift : Nat
  scale : Nat
deriving DecidableEq, Repr

/-- The values the recursion starts from (R216). -/
def BmState.init : BmState :=
  { locator := [1], prior := [1], len := 0, shift := 1, scale := 1 }

/-- The discrepancy of step r (R216). -/
def GfSlot.discrepancy (g : GfSlot) (synd : List Nat) (r : Nat) (b : BmState) : Nat :=
  synd.getD r 0 ^^^
    xorAll ((List.range b.len).map fun i => g.mul (b.locator.getD (i + 1) 0) (synd.getD (r - (i + 1)) 0))

/-- Step r of the recursion (R216). -/
def GfSlot.bmStep (g : GfSlot) (synd : List Nat) (b : BmState) (r : Nat) : BmState :=
  let d := g.discrepancy synd r b
  if d = 0 then { b with shift := b.shift + 1 }
  else
    let locator := polyAdd b.locator (g.polyScaleShift (g.mul d (g.inv b.scale)) b.shift b.prior)
    if 2 * b.len ≤ r then
      { locator := locator, prior := b.locator, len := r + 1 - b.len, shift := 1, scale := d }
    else { b with locator := locator, shift := b.shift + 1 }

/-- The recursion over all the syndromes; its `locator` is Λ and its `len` is L (R216). -/
def GfSlot.berlekampMassey (g : GfSlot) (synd : List Nat) : BmState :=
  (List.range synd.length).foldl (g.bmStep synd) BmState.init

/-- The error positions, in the order of the search: α^i is a root for i = 1 .. N, the error is at x^(N - i) (R217). -/
def GfSlot.chien (g : GfSlot) (locator : List Nat) : List Nat :=
  (List.range g.order).filterMap fun k =>
    if g.polyEval locator (g.alpha (k + 1)) = 0 then some ((g.order - (k + 1)) % g.order) else none

/-- The formal derivative: Λ[i] at x^(i - 1) for odd i up to L (R218). -/
def formalDerivative (locator : List Nat) (len : Nat) : List Nat :=
  (List.range len).map fun i => if i % 2 = 0 then locator.getD (i + 1) 0 else 0

/-- The error value at position p, or none where a guard of R218 fires. -/
def GfSlot.errorValue (g : GfSlot) (evaluator derivative : List Nat) (p : Nat) : Option Nat :=
  let xInv := g.alpha ((g.order - p) % g.order)
  let den := g.polyEval derivative xInv
  let y := g.mul (g.polyEval evaluator xInv) (g.inv den)
  if den = 0 ∨ y = 0 then none else some y

/-- The error values of the located positions, each paired with its position, or none (R218). -/
def GfSlot.forney (g : GfSlot) (locator : List Nat) (len : Nat) (synd positions : List Nat) : Option (List (Nat × Nat)) :=
  let evaluator := g.polyMulMod locator synd synd.length
  let derivative := formalDerivative locator len
  positions.mapM fun p => (g.errorValue evaluator derivative p).map fun y => (p, y)

/-- What the solver answers: the status, and the errors it corrects as (position, error value), positions ascending. -/
structure RsResult where
  status : DecodeStatus
  errors : List (Nat × Nat)
deriving DecidableEq, Repr

/-- The located errors of a nonzero syndrome sequence, ascending, or none where the word is uncorrectable: degree check,
root count, guards of Forney, range check and binary check (R216 to R220). -/
def locateErrors (g : GfSlot) (c : RsConfig) (synd : List Nat) : Option (List (Nat × Nat)) :=
  let bm := g.berlekampMassey synd
  let positions := g.chien bm.locator
  if c.t < bm.len then none
  else if positions.length ≠ bm.len then none
  else match g.forney bm.locator bm.len synd positions with
    | none => none
    | some errors =>
      if errors.any (fun e => decide (c.n ≤ e.1)) then none
      else if c.binary && errors.any (fun e => decide (e.2 ≠ 1)) then none
      else some errors.reverse

/-- The working copy of the received word under IGNORE: an invalid symbol counts as 0 (R213). -/
def workingCopy (g : GfSlot) (c : RsConfig) (r : List Nat) : List Nat :=
  r.map fun v => if symbolValid g c v then v else 0

/-- The solver on a word of valid symbols (R212). -/
def rsSolve (g : GfSlot) (c : RsConfig) (r : List Nat) : RsResult :=
  let synd := g.syndromes c.nsyn r
  if synd.all (· == 0) then { status := .noError, errors := [] }
  else match locateErrors g c synd with
    | none => { status := .uncorrectable, errors := [] }
    | some errors => { status := .corrected, errors := errors }

/-- RSDEC on the n received symbols: the validity policy, then the solver on the working copy (R212, R213). -/
def rsDecode (policy : InvalidSymbolPolicy) (g : GfSlot) (c : RsConfig) (r : List Nat) : RsResult :=
  match policy with
  | .reject =>
    if r.all (symbolValid g c) then rsSolve g c r else { status := .invalidInput, errors := [] }
  | .ignore => rsSolve g c (workingCopy g c r)

end Sys2Proof
end

