-- ==== Sys2Proof/Machine/Operands.lean ====
section
/-! DEFINITION. The operand forms: the selector namespaces of R107 and the windows of bits a command works on (R71, R79). -/

namespace Sys2Proof

/-- The entry a selector names in a list of extra entries. -/
def lookupExtra {α : Type} (entries : List (Nat × α)) (x : Nat) : Option α :=
  (entries.find? fun e => e.1 == x).map (·.2)

/-- Field slot x (R107, R170). -/
def Config.gfSlot (c : Config) (x : Nat) : Option GfSlot :=
  match x with
  | 0 => some { m := 6, poly := 0x43 }
  | 1 => some { m := 8, poly := 0x11D }
  | _ => lookupExtra c.gfExtra x

/-- RS configuration x (R107, R211). -/
def Config.rsConfig (c : Config) (x : Nat) : Option RsConfig :=
  match x with
  | 0 => some { slot := 0, n := 63, k := 16, nsyn := 22, binary := true }
  | 1 => some { slot := 0, n := 24, k := 12, nsyn := 12, binary := false }
  | 2 => some { slot := 0, n := 44, k := 16, nsyn := 28, binary := false }
  | 3 => some { slot := 0, n := 63, k := 35, nsyn := 28, binary := false }
  | 4 => some { slot := 1, n := 12, k := 9, nsyn := 3, binary := false }
  | _ => lookupExtra c.rsExtra x

/-- RS configuration x together with its field slot. -/
def Config.rsCode (c : Config) (x : Nat) : Option (GfSlot × RsConfig) :=
  match c.rsConfig x with
  | none => none
  | some r => (c.gfSlot r.slot).map fun g => (g, r)

/-- Hamming code x (R107, R251). -/
def Config.hamCode (c : Config) (x : Nat) : Option HamCode :=
  match x with
  | 0 => some { n := 10, k := 6, table := c.ham10, secded := false }
  | 1 => some ham13
  | 2 => some ham15
  | 3 => some ham16
  | 4 => some { n := 17, k := 12, table := c.ham17, secded := false }
  | _ => none

/-- CRC slot x (R107, R361). -/
def Config.crcSlot (c : Config) (x : Nat) : Option CrcSlot :=
  match x with
  | 0 => some { mode := .fleetsync, code := fleetsyncCode c.fsPoly, acceptInverted := false }
  | 1 => some { mode := .generic, code := c.ltr, acceptInverted := true }
  | 2 => some { mode := .residualMap c.passportResiduals, code := c.passport, acceptInverted := false }
  | 3 => some { mode := .generic, code := c.lj, acceptInverted := false }
  | _ => lookupExtra c.crcExtra x

end Sys2Proof

namespace Sys2Proof.Machine

/-- The n bits BUF[a .. a + n - 1], in window order (R7). -/
def State.window (s : State) (a n : Nat) : List Bool := (List.range n).map fun j => s.buf.read (a + j)

/-- Whether BUF[a .. a + n - 1] lies wholly inside BUF (R71). -/
def State.fits (s : State) (a n : Nat) : Bool := decide (a + n ≤ s.cfg.bufLen)

/-- The BUF indices IDX[0 .. n - 1] of a scattered codeword (R73, R260). -/
def State.scattered (s : State) (n : Nat) : List Nat := (List.range n).map fun j => (s.idx.read j).toNat

/-- The n received symbols SYM[0 .. n - 1] (R72, R214). -/
def State.symbols (s : State) (n : Nat) : List Nat := (List.range n).map fun j => (s.sym.read j).toNat

end Sys2Proof.Machine
end

