-- ==== Sys2Proof/WellFormed.lean ====
section
/-! DEFINITION. Well-formed configurations (R6: a build refuses any other) and, for a configuration, the well-formed
instructions: those whose selector names an entry (R107). The widths of the operands stand in the types of Syntax.lean. -/

namespace Sys2Proof

/-- The extra entries' selectors lie in lo..255 and do not repeat (R107). -/
def selectorsOk {α : Type} (lo : Nat) (entries : List (Nat × α)) : Bool :=
  entries.all (fun e => decide (lo ≤ e.1) && decide (e.1 ≤ 255)) && decide (entries.map (·.1)).Nodup

/-- An RS configuration is well formed over its field: 1 <= k < n <= N and 1 <= nsyn <= n - k (R210). -/
def RsConfig.wf (g : GfSlot) (r : RsConfig) : Bool :=
  decide (1 ≤ r.k) && decide (r.k < r.n) && decide (r.n ≤ g.order) && decide (1 ≤ r.nsyn) && decide (r.nsyn ≤ r.n - r.k)

/-- R6: 196 <= BUF_LEN <= 65536. -/
def Config.bufLenOk (c : Config) : Bool := decide (196 ≤ c.bufLen) && decide (c.bufLen ≤ 65536)

/-- R170. -/
def Config.gfExtraOk (c : Config) : Bool := selectorsOk 2 c.gfExtra && c.gfExtra.all fun e => e.2.wf

/-- R210, over the field slot the configuration names. -/
def Config.rsExtraOk (c : Config) : Bool :=
  selectorsOk 5 c.rsExtra && c.rsExtra.all fun e =>
    match c.gfSlot e.2.slot with
    | some g => e.2.wf g
    | none => false

/-- R251. -/
def Config.ham10Ok (c : Config) : Bool := hamTableWf 6 4 c.ham10

/-- R251. -/
def Config.ham17Ok (c : Config) : Bool := hamTableWf 12 5 c.ham17

/-- R292. -/
def Config.golayPolyOk (c : Config) : Bool := c.golayPoly == 0xAE3 || c.golayPoly == 0xC75

/-- R360, R372. -/
def Config.fsPolyOk (c : Config) : Bool := (fleetsyncCode c.fsPoly).wf && (fleetsyncCode c.fsPoly).entriesDistinct

/-- R360, R368. -/
def Config.passportOk (c : Config) : Bool := c.passport.wf && residualsWf c.passport c.passportResiduals

/-- R360, R361, R368. -/
def Config.crcExtraOk (c : Config) : Bool := selectorsOk 4 c.crcExtra && c.crcExtra.all fun e => e.2.wf

/-- R6: N_INST >= 1. -/
def Config.nInstOk (c : Config) : Bool := decide (1 ≤ c.nInst)

/-- The checks of a configuration, each with the problem it finds, in the order of R6's rows. -/
def Config.checks (c : Config) : List (Bool × ConfigProblem) :=
  [(c.bufLenOk, .bufLen), (c.gfExtraOk, .gfExtra), (c.rsExtraOk, .rsExtra), (c.ham10Ok, .ham10), (c.ham17Ok, .ham17),
    (c.golayPolyOk, .golayPoly), (c.fsPolyOk, .fsPoly), (c.ltr.wf, .ltr), (c.passportOk, .passport), (c.lj.wf, .lj),
    (c.crcExtraOk, .crcExtra), (c.nInstOk, .nInst)]

/-- The problems of a configuration. -/
def Config.problems (c : Config) : List ConfigProblem :=
  (c.checks.filter fun e => !e.1).map (·.2)

/-- A well-formed configuration: the premise well_formed(config) of R469. -/
def Config.wf (c : Config) : Bool := c.checks.all (·.1)

/-- An instruction is well formed for a configuration when its selector names an entry (R107); one that is not raises
BAD_SELECT. -/
def Instr.wf (c : Config) : Instr → Bool
  | .gfexp f _ => (c.gfSlot f.toNat).isSome
  | .gflog f _ => (c.gfSlot f.toNat).isSome
  | .gfmul f _ _ => (c.gfSlot f.toNat).isSome
  | .gfinv f _ => (c.gfSlot f.toNat).isSome
  | .gfadd f _ _ => (c.gfSlot f.toNat).isSome
  | .rsdec x => (c.rsCode x.toNat).isSome
  | .hamdec h _ => (c.hamCode h.toNat).isSome
  | .hamdecx h => (c.hamCode h.toNat).isSome
  | .crcchk x _ _ => (c.crcSlot x.toNat).isSome
  | .nop => true
  | .bget _ => true
  | .bset _ => true
  | .bclr _ => true
  | .bflip _ => true
  | .bread _ _ => true
  | .bwrite _ _ _ => true
  | .bxor _ _ _ => true
  | .brotl _ _ => true
  | .brotr _ _ => true
  | .bpopc => true
  | .bnext _ => true
  | .symwr _ _ => true
  | .symrd _ => true
  | .idxwr _ _ => true
  | .idxrd _ => true
  | .eposrd _ => true
  | .gol23 _ => true
  | .gol24 _ => true
  | .gol18 _ => true
  | .bptc _ => true
  | .crc16 _ _ => true

end Sys2Proof
end

