-- ==== Sys2Proof/Machine/Ops.lean ====
section
/-! DEFINITION. The operations the meanings share: writing RES and the memories, ending a decode command, running a command
and entering a fault, and the host's moves (build, reset, register read). -/

namespace Sys2Proof.Machine

/-- The three outcomes of a step of this block. -/
abbrev Outcome := Host.Outcome State Fault Refusal

/-- What a command does before the halt and the fault entry are considered: its next state, or the cause it raises. Every check
precedes the first write (R423). -/
abbrev Effect := Except FaultCause State

/-- RES <- v (R32). -/
def State.setRes (s : State) (v : BitVec 32) : State := { s with res := v }

/-- RES <- the value of an integer rule (R8). -/
def State.setResNat (s : State) (v : Nat) : State := s.setRes (BitVec.ofNat 32 v)

/-- BUF[i] <- v. -/
def State.writeBit (s : State) (i : Nat) (v : Bool) : State := { s with buf := s.buf.write i v }

/-- BufRead(a, n): the n bits from BUF[a] on, big-endian (R9, R76). -/
def State.bufRead (s : State) (a n : Nat) : Nat := bitsToNat (s.window a n)

/-- BUF[a ..] <- a run of bits in window order. -/
def State.writeBits (s : State) (a : Nat) (bits : List Bool) : State := { s with buf := s.buf.writeRun a bits }

/-- BufWrite(a, n, v): BUF[a + j] <- v[n-1-j] (R9, R76). -/
def State.bufWrite (s : State) (a n v : Nat) : State := s.writeBits a (natToBits n v)

/-- Flip one BUF bit. -/
def flipBit (m : Mem Bool) (i : Nat) : Mem Bool := m.write i (!m.read i)

/-- Flip BUF bits one after another; a bit named twice is flipped back (R334). -/
def flipBits (m : Mem Bool) (positions : List Nat) : Mem Bool := positions.foldl flipBit m

/-- outcome(status, list) (R9, R34): STATUS, NCORR, ECNT and EPOS[0 ..] are written; EPOS beyond the list keeps its words. -/
def State.outcome (s : State) (status : DecodeStatus) (positions : List Nat) : State :=
  { s with
    status := status.code
    ncorr := BitVec.ofNat 32 positions.length
    ecnt := BitVec.ofNat 8 positions.length
    epos := s.epos.writeRun 0 (positions.map (BitVec.ofNat 32)) }

/-- The end of a bit decoder: the BUF bits its window positions stand for are flipped, and reported in the order of the flips.
`place` gives the BUF index of a window position (R34, R259, R260). -/
def State.applyRepair (s : State) (place : Nat → Nat) (r : Repair) : State :=
  let positions := r.positions.map place
  { s with buf := flipBits s.buf positions }.outcome r.status positions

/-- A decode command on the contiguous window BUF[a .. a + n - 1]: the range check, then the decoder (R71, R79). -/
def windowDecode (s : State) (a n : Nat) (decoder : List Bool → Repair) : Effect :=
  if s.fits a n then .ok (s.applyRepair (a + ·) (decoder (s.window a n))) else .error .bufRange

/-- SYM[p] <- r[p] ^ Y[p] for the located errors, r the working copy (R221). -/
def correctSymbols (m : Mem (BitVec 32)) (r : List Nat) (errors : List (Nat × Nat)) : Mem (BitVec 32) :=
  errors.foldl (fun m e => m.write e.1 (BitVec.ofNat 32 (r.getD e.1 0 ^^^ e.2))) m

/-- The block is halted while FAULT is not 0 (R424). -/
def State.halted (s : State) : Bool := s.fault != 0

/-- Fault entry: FAULT takes the cause, FCMD the complete command word, and nothing else changes (R423). -/
def State.enterFault (s : State) (cause : FaultCause) (word : CmdWord) : State :=
  { s with fault := cause.code, fcmd := word }

/-- A command word that decodes to no command raises its fault (R105, R106); a halted block ignores it (R424). -/
def rejectWord (cause : FaultCause) (word : CmdWord) (s : State) : Outcome :=
  if s.halted then .next s else .next (s.enterFault cause word)

/-- Run a command: a halted block ignores it (R424); otherwise its effect, or the entry of the fault it raises with the
command's own word (R423). -/
def runCommand (i : Instr) (s : State) (effect : Effect) : Outcome :=
  if s.halted then .next s
  else match effect with
    | .ok t => .next t
    | .error cause => .next (s.enterFault cause (encode i))

/-- Reset of a built instance: the configuration stays, the memories take the draw, and what the host does next stays the
host's (R460, R461). There is no other return from a fault (R425). Log entry 12. -/
def State.hostReset (s : State) (d : Draws) : State := { State.resetWith s.cfg d with port := s.port }

/-- Build an instance and reset it, or refuse the configuration (R6, R467, D53), by its first problem. Log entry 15. -/
def build (c : Config) (d : Draws) : Outcome :=
  match c.problems with
  | [] => .next (State.resetWith c d)
  | p :: _ => .refused (.configRefused p)

/-- ID, the constant identity register (R37). -/
def idRegister : BitVec 32 := 0x45444143

/-- The register port (R38): the value of a register by number, 0 for a number not listed. It has no side effect and works in
the halted state. -/
def State.readRegister (s : State) (number : Nat) : BitVec 32 :=
  match number with
  | 0 => s.res
  | 1 => s.status.zeroExtend 32
  | 2 => s.ncorr
  | 3 => s.ecnt.zeroExtend 32
  | 4 => s.fault.zeroExtend 32
  | 5 => s.fcmd.extractLsb' 32 32
  | 6 => s.fcmd.extractLsb' 0 32
  | 7 => idRegister
  | _ => 0

end Sys2Proof.Machine
end

