-- ==== Sys2Proof/Machine/BitBuffer.lean ====
section
/-! DEFINITION. NOP and the bit-buffer commands (40_bitbuf.md). -/

namespace Sys2Proof.Machine

/-- NOP: nothing (R156). -/
def execNop (s : State) : Outcome := runCommand .nop s (.ok s)

/-- BGET: RES <- BUF[i] (R140). -/
def execBget (i : BitVec 16) (s : State) : Outcome :=
  runCommand (.bget i) s <|
    if s.cfg.bufLen ≤ i.toNat then .error .bufRange
    else .ok (s.setResNat (s.buf.read i.toNat).toNat)

/-- BSET: BUF[i] <- 1 (R141). -/
def execBset (i : BitVec 16) (s : State) : Outcome :=
  runCommand (.bset i) s <|
    if s.cfg.bufLen ≤ i.toNat then .error .bufRange
    else .ok (s.writeBit i.toNat true)

/-- BCLR: BUF[i] <- 0 (R142). -/
def execBclr (i : BitVec 16) (s : State) : Outcome :=
  runCommand (.bclr i) s <|
    if s.cfg.bufLen ≤ i.toNat then .error .bufRange
    else .ok (s.writeBit i.toNat false)

/-- BFLIP: BUF[i] <- 1 - BUF[i] (R143). -/
def execBflip (i : BitVec 16) (s : State) : Outcome :=
  runCommand (.bflip i) s <|
    if s.cfg.bufLen ≤ i.toNat then .error .bufRange
    else .ok { s with buf := flipBit s.buf i.toNat }

/-- The checks of a run of n bits at a: the count, then the range (R144 to R146). -/
def checkedRun (s : State) (a n : Nat) (effect : Effect) : Effect :=
  if n = 0 ∨ 32 < n then .error .badCount
  else if s.fits a n then effect
  else .error .bufRange

/-- The value check of BWRITE and BXOR: v < 2^n (R145, R146). A 32-bit value always fits 32 bits. -/
def checkedValue (n v : Nat) (effect : Effect) : Effect :=
  if 2 ^ n ≤ v then .error .badOperand else effect

/-- BREAD: RES <- BufRead(s, n) (R144). -/
def execBread (a : BitVec 16) (n : BitVec 8) (s : State) : Outcome :=
  runCommand (.bread a n) s <|
    checkedRun s a.toNat n.toNat (.ok (s.setResNat (s.bufRead a.toNat n.toNat)))

/-- BWRITE: BufWrite(s, n, v) (R145). -/
def execBwrite (a : BitVec 16) (n : BitVec 8) (v : BitVec 32) (s : State) : Outcome :=
  runCommand (.bwrite a n v) s <|
    checkedRun s a.toNat n.toNat <| checkedValue n.toNat v.toNat <|
      .ok (s.bufWrite a.toNat n.toNat v.toNat)

/-- BXOR: each bit of the run XORed with the value's bit, aligned as BREAD reads (R146). -/
def execBxor (a : BitVec 16) (n : BitVec 8) (v : BitVec 32) (s : State) : Outcome :=
  runCommand (.bxor a n v) s <|
    checkedRun s a.toNat n.toNat <| checkedValue n.toNat v.toNat <|
      .ok (s.writeBits a.toNat (List.zipWith xor (s.window a.toNat n.toNat) (natToBits n.toNat v.toNat)))

/-- The checks of a rotate range from a to e inclusive (R147, R148). -/
def checkedRange (s : State) (a e : Nat) (effect : Effect) : Effect :=
  if e < a then .error .badCount
  else if s.cfg.bufLen ≤ e then .error .bufRange
  else effect

/-- A bit list turned left by one: place j takes old[(j + 1) mod L] (R147). -/
def rotatedLeft (old : List Bool) : List Bool :=
  (List.range old.length).map fun j => old.getD ((j + 1) % old.length) false

/-- A bit list turned right by one: place (j + 1) mod L takes old[j] (R148). -/
def rotatedRight (old : List Bool) : List Bool :=
  (List.range old.length).map fun j => old.getD ((j + (old.length - 1)) % old.length) false

/-- BROTL: the inclusive range turned left by one position (R147). -/
def execBrotl (a : BitVec 16) (e : BitVec 32) (s : State) : Outcome :=
  runCommand (.brotl a e) s <|
    checkedRange s a.toNat e.toNat <|
      .ok (s.writeBits a.toNat (rotatedLeft (s.window a.toNat (e.toNat - a.toNat + 1))))

/-- BROTR: the inclusive range turned right by one position (R148). -/
def execBrotr (a : BitVec 16) (e : BitVec 32) (s : State) : Outcome :=
  runCommand (.brotr a e) s <|
    checkedRange s a.toNat e.toNat <|
      .ok (s.writeBits a.toNat (rotatedRight (s.window a.toNat (e.toNat - a.toNat + 1))))

/-- BPOPC: RES <- the number of one bits of BUF (R149). -/
def execBpopc (s : State) : Outcome :=
  runCommand .bpopc s <|
    .ok (s.setResNat ((List.range s.cfg.bufLen).countP fun i => s.buf.read i))

/-- What BNEXT answers when no bit is set (R150). -/
def noSetBit : BitVec 32 := 0xFFFFFFFF

/-- The lowest set bit at or after `start` (R150). -/
def State.nextSetBit (s : State) (start : Nat) : Option Nat :=
  (List.range' start (s.cfg.bufLen - start)).find? fun i => s.buf.read i

/-- BNEXT: RES <- the index of the first set bit at or after `start`, or 0xFFFFFFFF (R150). -/
def execBnext (start : BitVec 16) (s : State) : Outcome :=
  runCommand (.bnext start) s <|
    if s.cfg.bufLen < start.toNat then .error .bufRange
    else match s.nextSetBit start.toNat with
      | some i => .ok (s.setResNat i)
      | none => .ok (s.setRes noSetBit)

end Sys2Proof.Machine
end

