-- ==== Sys2Proof/Machine/BptcCode.lean ====
section
/-! DEFINITION. The BPTC(196,96) row and column decoder as a function of the window's 196 bits (R330 to R336). -/

namespace Sys2Proof

/-- The permutation: the window position of the deinterleaved bit i (R331). -/
def bptcPosition (i : Nat) : Nat := i * 181 % 196

/-- The deinterleaved index of cell (r, c) (R332). -/
def bptcCell (r c : Nat) : Nat := 1 + 15 * r + c

/-- The deinterleaved bits of a window (R331). -/
def bptcDeinterleave (w : List Bool) : List Bool :=
  (List.range 196).map fun i => w.getD (bptcPosition i) false

/-- The deinterleaved indices of column c, top row first (R333). -/
def bptcColumn (c : Nat) : List Nat := (List.range 13).map fun r => bptcCell r c

/-- The deinterleaved indices of row r, left column first (R334). -/
def bptcRow (r : Nat) : List Nat := (List.range 15).map fun c => bptcCell r c

/-- The working values of the decoder: the matrix, the window positions flipped so far, and whether a subblock was
uncorrectable (R336). -/
structure BptcState where
  matrix : List Bool
  flips : List Nat
  anyUnc : Bool
deriving DecidableEq, Repr

/-- One subblock: the core decoder on the cells named, a correction applied to the matrix and to the flip list (R333, R334). -/
def bptcSubblock (code : HamCode) (b : BptcState) (cells : List Nat) : BptcState :=
  let r := hamCore code (cells.map fun i => b.matrix.getD i false)
  let hit := r.positions.map fun j => cells.getD j 0
  { matrix := hit.foldl (fun d i => d.set i (!d.getD i false)) b.matrix
    flips := b.flips ++ hit.map bptcPosition
    anyUnc := b.anyUnc || r.status == .uncorrectable }

/-- All columns, then the nine data rows (R333, R334, R336). -/
def bptcPasses (w : List Bool) : BptcState :=
  let start : BptcState := { matrix := bptcDeinterleave w, flips := [], anyUnc := false }
  let columns := ((List.range 15).map bptcColumn).foldl (bptcSubblock ham13) start
  ((List.range 9).map bptcRow).foldl (bptcSubblock ham15) columns

/-- BPTC on a 196-bit window (R335, R336): some flip happened exactly when some subblock was corrected. -/
def bptcDecode (w : List Bool) : Repair :=
  let b := bptcPasses w
  if b.anyUnc then { status := .uncorrectable, positions := b.flips }
  else if b.flips = [] then { status := .noError, positions := [] }
  else { status := .corrected, positions := b.flips }

end Sys2Proof
end

