-- ==== Sys2Proof/Machine/Bptc.lean ====
section
/-! DEFINITION. BPTC (45_bptc.md, R336). -/

namespace Sys2Proof.Machine

/-- BPTC: the window BUF[s .. s + 195], repaired in place (R336). -/
def execBptc (a : BitVec 16) (s : State) : Outcome :=
  runCommand (.bptc a) s <| windowDecode s a.toNat 196 bptcDecode

end Sys2Proof.Machine
end

