-- ==== Sys2Proof/Machine/Crc.lean ====
section
/-! DEFINITION. CRCCHK and CRC16 (46_crc.md, R370, R371). -/

namespace Sys2Proof.Machine

/-- CRCCHK: check and correct the frame of slot c at s, with the inbound flag b[0] (R370). -/
def execCrcchk (c : BitVec 8) (a : BitVec 16) (inbound : BitVec 1) (s : State) : Outcome :=
  runCommand (.crcchk c a inbound) s <|
    match s.cfg.crcSlot c.toNat with
    | none => .error .badSelect
    | some slot => windowDecode s a.toNat slot.frameLen (slot.run (inbound == 1))

/-- CRC16: GENERIC mode with the message size of the command (R371). -/
def execCrc16 (a : BitVec 16) (msgLen : BitVec 16) (s : State) : Outcome :=
  runCommand (.crc16 a msgLen) s <|
    if msgLen = 0 then .error .badCount
    else windowDecode s a.toNat (msgLen.toNat + 16) (crcGeneric (crc16Code msgLen.toNat) false false)

end Sys2Proof.Machine
end

