-- ==== Sys2Proof/Machine/GfAlu.lean ====
section
/-! DEFINITION. The Galois-field commands (41_gf_alu.md, R176 to R180). -/

namespace Sys2Proof.Machine

/-- A command on field slot f; an undefined slot raises BAD_SELECT before any operand check (R107). -/
def withSlot (s : State) (f : BitVec 8) (effect : GfSlot → Effect) : Effect :=
  match s.cfg.gfSlot f.toNat with
  | none => .error .badSelect
  | some g => effect g

/-- The operand check of the GF commands: v < 2^m (R175 to R180). -/
def checkedElement (g : GfSlot) (v : BitVec 16) (effect : Effect) : Effect :=
  if g.size ≤ v.toNat then .error .badOperand else effect

/-- GFEXP: RES <- exp[i]; exp[N] is EXP_TOP (R176). -/
def execGfexp (f : BitVec 8) (i : BitVec 16) (s : State) : Outcome :=
  runCommand (.gfexp f i) s <| withSlot s f fun g => checkedElement g i <|
    .ok (s.setRes ((g.expTable s.cfg.expTop).getD i.toNat 0))

/-- GFLOG: RES <- log[v]; log[0] is the sentinel (R177). -/
def execGflog (f : BitVec 8) (v : BitVec 16) (s : State) : Outcome :=
  runCommand (.gflog f v) s <| withSlot s f fun g => checkedElement g v <|
    .ok (s.setRes (g.logEntry v.toNat))

/-- GFMUL: RES <- A · B (R178). -/
def execGfmul (f : BitVec 8) (x y : BitVec 16) (s : State) : Outcome :=
  runCommand (.gfmul f x y) s <| withSlot s f fun g => checkedElement g x <| checkedElement g y <|
    .ok (s.setResNat (g.mul x.toNat y.toNat))

/-- GFINV: RES <- exp[N - log[A]]; the element 1 reads exp[N], which is EXP_TOP (R179). -/
def execGfinv (f : BitVec 8) (x : BitVec 16) (s : State) : Outcome :=
  runCommand (.gfinv f x) s <| withSlot s f fun g => checkedElement g x <|
    if x = 0 then .error .gfInvZero
    else .ok (s.setRes ((g.expTable s.cfg.expTop).getD (g.order - g.log x.toNat) 0))

/-- GFADD: RES <- A ^ B (R180). -/
def execGfadd (f : BitVec 8) (x y : BitVec 16) (s : State) : Outcome :=
  runCommand (.gfadd f x y) s <| withSlot s f fun g => checkedElement g x <| checkedElement g y <|
    .ok (s.setResNat (x.toNat ^^^ y.toNat))

end Sys2Proof.Machine
end

