-- ==== Sys2Proof/Machine/GolayCode.lean ====
section
/-! DEFINITION. The Golay decoders as functions of the window's bits (R290 to R299). -/

namespace Sys2Proof

/-- Rotation of a 23-bit integer to the left (R291). -/
def rotl23 (u i : Nat) : Nat := ((u <<< i) ||| (u >>> (23 - i))) &&& mask 23

/-- Rotation of a 23-bit integer to the right (R291). -/
def rotr23 (u i : Nat) : Nat := ((u >>> i) ||| (u <<< (23 - i))) &&& mask 23

/-- `count` turns of the division loop (R292). -/
def golayDivide (poly : Nat) : Nat → Nat → Nat
  | 0, q => q
  | count + 1, q => golayDivide poly count ((if q % 2 = 1 then q ^^^ poly else q) >>> 1)

/-- The syndrome: the 11-bit remainder placed in integer bits 12..22 (R292). -/
def golaySyndrome (poly u : Nat) : Nat := golayDivide poly 12 u <<< 12

/-- The rotations of one trial, from rotation i on, `count` of them; `u` is the trial word rotated left by i (R293). -/
def golayRotations (poly threshold : Nat) : Nat → Nat → Nat → Option Nat
  | 0, _, _ => none
  | count + 1, i, u =>
    if popcount 23 (golaySyndrome poly u) ≤ threshold then some (rotr23 (u ^^^ golaySyndrome poly u) i)
    else golayRotations poly threshold count (i + 1) (rotl23 u 1)

/-- One trial of the search (R293). -/
def golayTrial (poly threshold u : Nat) : Option Nat :=
  if golaySyndrome poly u = 0 then some u else golayRotations poly threshold 23 0 u

/-- golay23_correct: the trial without a flip, then the trials that flip integer bit 0, 1, ..., 22 (R293). -/
def golay23Correct (poly v : Nat) : Option Nat :=
  match golayTrial poly 3 v with
  | some u => some u
  | none => (List.range 23).findSome? fun t => golayTrial poly 2 (v ^^^ 2 ^ t)

/-- The window positions q in 0..22 where the integers u and v differ, ascending (R294, R296). -/
def golayDifference (u v : Nat) : List Nat :=
  (List.range 23).filter fun q => (u ^^^ v).testBit (22 - q)

/-- GOL23 on a 23-bit window (R294). Flipping the positions of `golayDifference` is writing u back. The failing branch is that
of R295. -/
def golay23Decode (poly : Nat) (w : List Bool) : Repair :=
  let v := bitsToNat w
  match golay23Correct poly v with
  | none => { status := .uncorrectable, positions := [] }
  | some u =>
    if u = v then { status := .noError, positions := [] }
    else { status := .corrected, positions := golayDifference u v }

/-- golay24_core on a 24-bit window (R296). -/
def golay24Decode (poly : Nat) (w : List Bool) : Repair :=
  let v := bitsToNat (w.take 23)
  match golay23Correct poly v with
  | none => { status := .uncorrectable, positions := [] }
  | some u =>
    let e := golayDifference u v
    let odd := (popcount 23 u + (w.getD 23 false).toNat) % 2
    if e = [] then
      if odd = 0 then { status := .noError, positions := [] } else { status := .corrected, positions := [23] }
    else if odd = 0 then { status := .corrected, positions := e }
    else if e.length ≤ 2 then { status := .corrected, positions := e ++ [23] }
    else { status := .uncorrectable, positions := [] }

/-- golay18_core on an 18-bit window: six leading zero bits, the 24-bit decoder, a repair of a padding bit refused (R298). -/
def golay18Decode (poly : Nat) (w : List Bool) : Repair :=
  let r := golay24Decode poly (List.replicate 6 false ++ w)
  if r.positions.any (fun q => decide (q < 6)) then { status := .uncorrectable, positions := [] }
  else { status := r.status, positions := r.positions.map (· - 6) }

end Sys2Proof
end

