-- ==== Sys2Proof/Machine/Golay.lean ====
section
/-! DEFINITION. GOL23, GOL24 and GOL18 (44_golay.md, R294, R297, R299). -/

namespace Sys2Proof.Machine

/-- GOL23: the window BUF[s .. s + 22] (R294). -/
def execGol23 (a : BitVec 16) (s : State) : Outcome :=
  runCommand (.gol23 a) s <| windowDecode s a.toNat 23 (golay23Decode s.cfg.golayPoly)

/-- GOL24: the window BUF[s .. s + 23] (R297). -/
def execGol24 (a : BitVec 16) (s : State) : Outcome :=
  runCommand (.gol24 a) s <| windowDecode s a.toNat 24 (golay24Decode s.cfg.golayPoly)

/-- GOL18: the window BUF[s .. s + 17] (R299). -/
def execGol18 (a : BitVec 16) (s : State) : Outcome :=
  runCommand (.gol18 a) s <| windowDecode s a.toNat 18 (golay18Decode s.cfg.golayPoly)

end Sys2Proof.Machine
end

