-- ==== Sys2Proof/Machine/Hamming.lean ====
section
/-! DEFINITION. HAMDEC and HAMDECX (43_hamming.md, R259, R260). -/

namespace Sys2Proof.Machine

/-- A command on Hamming code h; an undefined code raises BAD_SELECT (R107). -/
def withHamCode (s : State) (h : BitVec 8) (effect : HamCode → Effect) : Effect :=
  match s.cfg.hamCode h.toNat with
  | none => .error .badSelect
  | some code => effect code

/-- HAMDEC: the codeword is the window BUF[s .. s + n - 1] (R259). -/
def execHamdec (h : BitVec 8) (a : BitVec 16) (s : State) : Outcome :=
  runCommand (.hamdec h a) s <| withHamCode s h fun code => windowDecode s a.toNat code.n (hamCore code)

/-- The scattered decode: the codeword's bit j is BUF[indices[j]]; range first, then duplicates (R260). -/
def scatteredDecode (s : State) (indices : List Nat) (decoder : List Bool → Repair) : Effect :=
  if indices.any (fun i => decide (s.cfg.bufLen ≤ i)) then .error .bufRange
  else if ¬ indices.Nodup then .error .idxDup
  else .ok (s.applyRepair (fun j => indices.getD j 0) (decoder (indices.map fun i => s.buf.read i)))

/-- HAMDECX: the codeword is scattered over BUF[IDX[0]] .. BUF[IDX[n - 1]] (R260). -/
def execHamdecx (h : BitVec 8) (s : State) : Outcome :=
  runCommand (.hamdecx h) s <| withHamCode s h fun code => scatteredDecode s (s.scattered code.n) (hamCore code)

end Sys2Proof.Machine
end

