-- ==== Sys2Proof/Machine/ReedSolomon.lean ====
section
/-! DEFINITION. RSDEC (42_rs_bm.md, R212). -/

namespace Sys2Proof.Machine

/-- The end of RSDEC: the located symbols are corrected from the working copy, and their positions reported, ascending
(R212, R221). Under IGNORE the working copy holds 0 for an invalid symbol (R213). -/
def State.applyRs (s : State) (g : GfSlot) (c : RsConfig) (r : RsResult) : State :=
  { s with sym := correctSymbols s.sym (workingCopy g c (s.symbols c.n)) r.errors }.outcome r.status (r.errors.map Prod.fst)

/-- RSDEC: decode SYM[0 .. n - 1] under configuration c and correct it in place (R212). It has no operand fault but the
selector's. -/
def execRsdec (c : BitVec 8) (s : State) : Outcome :=
  runCommand (.rsdec c) s <|
    match s.cfg.rsCode c.toNat with
    | none => .error .badSelect
    | some (g, code) => .ok (s.applyRs g code (rsDecode s.cfg.invalidSymbols g code (s.symbols code.n)))

end Sys2Proof.Machine
end

