-- ==== Sys2Proof/Machine/WordMemory.lean ====
section
/-! DEFINITION. The commands of the symbol, index and position memories (40_bitbuf.md, R151 to R155). -/

namespace Sys2Proof.Machine

/-- SYMWR: SYM[j] <- v; any 32-bit value is accepted (R151). -/
def execSymwr (j : BitVec 16) (v : BitVec 32) (s : State) : Outcome :=
  runCommand (.symwr j v) s <|
    if symSize ≤ j.toNat then .error .memRange
    else .ok { s with sym := s.sym.write j.toNat v }

/-- SYMRD: RES <- SYM[j] (R152). -/
def execSymrd (j : BitVec 16) (s : State) : Outcome :=
  runCommand (.symrd j) s <|
    if symSize ≤ j.toNat then .error .memRange
    else .ok (s.setRes (s.sym.read j.toNat))

/-- IDXWR: IDX[j] <- v (R153). -/
def execIdxwr (j : BitVec 16) (v : BitVec 16) (s : State) : Outcome :=
  runCommand (.idxwr j v) s <|
    if idxSize ≤ j.toNat then .error .memRange
    else .ok { s with idx := s.idx.write j.toNat v }

/-- IDXRD: RES <- zext_32(IDX[j]) (R155). -/
def execIdxrd (j : BitVec 16) (s : State) : Outcome :=
  runCommand (.idxrd j) s <|
    if idxSize ≤ j.toNat then .error .memRange
    else .ok (s.setRes ((s.idx.read j.toNat).zeroExtend 32))

/-- EPOSRD: RES <- EPOS[j] for j below ECNT (R154). -/
def execEposrd (j : BitVec 16) (s : State) : Outcome :=
  runCommand (.eposrd j) s <|
    if s.ecnt.toNat ≤ j.toNat then .error .memRange
    else .ok (s.setRes (s.epos.read j.toNat))

end Sys2Proof.Machine
end

