-- ==== Sys2Proof/Machine/Dispatch.lean ====
section
/-! DEFINITION. The meaning of each command, one arm per constructor of Instr. -/

namespace Sys2Proof.Machine

def exec (i : Instr) (s : State) : Host.Outcome State Fault Refusal :=
  match i with
  | .nop => Sys2Proof.Machine.execNop s
  | .bget n => Sys2Proof.Machine.execBget n s
  | .bset n => Sys2Proof.Machine.execBset n s
  | .bclr n => Sys2Proof.Machine.execBclr n s
  | .bflip n => Sys2Proof.Machine.execBflip n s
  | .bread a n => Sys2Proof.Machine.execBread a n s
  | .bwrite a n v => Sys2Proof.Machine.execBwrite a n v s
  | .bxor a n v => Sys2Proof.Machine.execBxor a n v s
  | .brotl a e => Sys2Proof.Machine.execBrotl a e s
  | .brotr a e => Sys2Proof.Machine.execBrotr a e s
  | .bpopc => Sys2Proof.Machine.execBpopc s
  | .bnext a => Sys2Proof.Machine.execBnext a s
  | .symwr j v => Sys2Proof.Machine.execSymwr j v s
  | .symrd j => Sys2Proof.Machine.execSymrd j s
  | .idxwr j v => Sys2Proof.Machine.execIdxwr j v s
  | .idxrd j => Sys2Proof.Machine.execIdxrd j s
  | .eposrd j => Sys2Proof.Machine.execEposrd j s
  | .gfexp f n => Sys2Proof.Machine.execGfexp f n s
  | .gflog f v => Sys2Proof.Machine.execGflog f v s
  | .gfmul f x y => Sys2Proof.Machine.execGfmul f x y s
  | .gfinv f x => Sys2Proof.Machine.execGfinv f x s
  | .gfadd f x y => Sys2Proof.Machine.execGfadd f x y s
  | .rsdec c => Sys2Proof.Machine.execRsdec c s
  | .hamdec h a => Sys2Proof.Machine.execHamdec h a s
  | .hamdecx h => Sys2Proof.Machine.execHamdecx h s
  | .gol23 a => Sys2Proof.Machine.execGol23 a s
  | .gol24 a => Sys2Proof.Machine.execGol24 a s
  | .gol18 a => Sys2Proof.Machine.execGol18 a s
  | .bptc a => Sys2Proof.Machine.execBptc a s
  | .crcchk c a inbound => Sys2Proof.Machine.execCrcchk c a inbound s
  | .crc16 a m => Sys2Proof.Machine.execCrc16 a m s

end Sys2Proof.Machine
end

