-- ==== Sys2Proof/Machine/Port.lean ====
section
/-! DEFINITION. The command port (R100, R467): taking the host's next move, and placing a command word there. -/

namespace Sys2Proof.Machine

/-- The host's next move and the state without it, or none when the host does nothing more (R100, R468). -/
def State.fetch (s : State) : Option (HostAction × State) :=
  match s.port with
  | [] => none
  | action :: rest => some (action, { s with port := rest })

/-- The state in which the host issues this word next, before everything it would have done. -/
def State.issue (s : State) (word : CmdWord) : State := { s with port := .command word :: s.port }

/-- The word whose bits are `w` below `nbits` and 0 above, as the opcode table numbers them. -/
def tableWord (nbits w : Nat) : CmdWord := BitVec.ofNat 64 (w % 2 ^ nbits)

end Sys2Proof.Machine
end

