-- ==== Sys2Proof/Machine/Step.lean ====
section
/-! DEFINITION. One step (R470): the block executes the next command word the host issues, or is reset; without a move of the
host it is idle. -/

namespace Sys2Proof.Machine

/-- One step. A command is executed whole (R100); a word that is no command raises its fault (R111); a reset is taken between
commands (R460). With nothing issued the block stays as it is: log entry 5. -/
def step (s : State) : Host.Outcome State Fault Refusal :=
  match s.fetch with
  | none => .next s
  | some (.reset d, t) => .next (t.hostReset d)
  | some (.command word, t) =>
    match decode word with
    | .ok i => exec i t
    | .error cause => rejectWord cause word t

/-- The state in which the host's next move is to issue the instruction whose bits are `w`. Log entry 4. -/
def State.withFetchWord (s : State) (nbits w : Nat) : State := s.issue (tableWord nbits w)

end Sys2Proof.Machine
end

