-- ==== Sys2Proof/Machine/Encoders.lean ====
section
/-! DEFINITION. The encoders the spec gives for information (R227, R262, R301, R341, R373) and the DMR payload of a BPTC block
(R340). The block has no encoder: no command uses these. -/

namespace Sys2Proof

/-- g(x) = the product of (x + α^i) for i = 1 .. nsyn (R227). -/
def GfSlot.generator (g : GfSlot) : Nat → List Nat
  | 0 => [1]
  | i + 1 => polyAdd (0 :: g.generator i) ((g.generator i).map (g.mul (g.alpha (i + 1))))

/-- One turn of the division by a monic polynomial of degree `deg`: the register r, low coefficient first, takes the next
coefficient (R227). -/
def GfSlot.remainderStep (g : GfSlot) (monic : List Nat) (deg : Nat) (r : List Nat) (next : Nat) : List Nat :=
  let top := r.getD (deg - 1) 0
  (List.range deg).map fun j => (if j = 0 then next else r.getD (j - 1) 0) ^^^ g.mul top (monic.getD j 0)

/-- The remainder of a polynomial by a monic one of degree `deg` (R227). -/
def GfSlot.remainder (g : GfSlot) (monic : List Nat) (deg : Nat) (p : List Nat) : List Nat :=
  p.reverse.foldl (g.remainderStep monic deg) (List.replicate deg 0)

/-- The systematic codeword of k message symbols: the remainder of x^nsyn d(x) at positions 0 .. nsyn - 1, the message at
nsyn .. n - 1 (R227). -/
def rsEncode (g : GfSlot) (c : RsConfig) (message : List Nat) : List Nat :=
  g.remainder (g.generator c.nsyn) c.nsyn (List.replicate c.nsyn 0 ++ message) ++ message

/-- The generator of BCH(63,16), bit j the coefficient of x^j (R227). -/
def bchGenerator : Nat := 0xCD930BDD3B2B

/-- The Hamming codeword of k data bits: the data, then the checksum, most significant bit first (R262). -/
def HamCode.encode (c : HamCode) (data : List Bool) : List Bool := data ++ natToBits c.p (c.calc data)

/-- The Golay(23) codeword of 12 data bits, as an integer (R301). -/
def golay23Encode (poly d : Nat) : Nat := (golayDivide poly 12 d <<< 12) ||| d

/-- The Golay(24) window of 12 data bits (R301). -/
def golay24Encode (poly d : Nat) : List Bool :=
  natToBits 23 (golay23Encode poly d) ++ [popcount 23 (golay23Encode poly d) % 2 == 1]

/-- The Golay(18) window of a Golay(24) codeword whose six leading bits are 0 (R301). -/
def golay18Encode (poly d : Nat) : List Bool := (golay24Encode poly d).drop 6

/-- The deinterleaved bits of a BPTC block: d[0], then 13 rows of 15 cells. `data r c` is the data cell of row r < 9 and column
c < 11 (R341). -/
def bptcMatrix (d0 : Bool) (data : Nat → Nat → Bool) : List Bool :=
  let row := fun r => ham15.encode ((List.range 11).map (data r))
  let rows := (List.range 9).map row
  let column := fun c => ham13.encode (rows.map fun r => r.getD c false)
  d0 :: (List.range 13).flatMap fun r => (List.range 15).map fun c => (column c).getD r false

/-- The window of a BPTC block: the deinterleaved bit i stands at window position 181 i mod 196 (R331, R341). -/
def bptcEncode (d0 : Bool) (data : Nat → Nat → Bool) : List Bool :=
  let d := bptcMatrix d0 data
  (List.range 196).map fun q => d.getD (((List.range 196).find? fun i => bptcPosition i == q).getD 0) false

/-- The 96 payload bits of a window in the DMR layout (R340). -/
def bptcPayload (w : List Bool) : List Bool :=
  let d := bptcDeinterleave w
  ((List.range 8).map fun c => d.getD (bptcCell 0 (c + 3)) false) ++
    (List.range 8).flatMap fun r => (List.range 11).map fun c => d.getD (bptcCell (r + 1) c) false

/-- A valid frame: the message, then crc0(m) ^ F, most significant bit first (R373). -/
def CrcCode.encode (c : CrcCode) (message : List Bool) : List Bool :=
  message ++ natToBits c.crcLen (c.crc0 message ^^^ c.fill)

/-- A valid frame of a slot: in FLEETSYNC mode a parity bit follows (R373). -/
def CrcSlot.encode (slot : CrcSlot) (message : List Bool) : List Bool :=
  let frame := slot.code.encode message
  if slot.mode = .fleetsync then frame ++ [parity frame == 1] else frame

end Sys2Proof
end

