-- ==== Sys2Proof/Machine/System.lean ====
section
/-! DEFINITION. Several instances of the block (R86, R430): a product of independent single instances, in any interleaving.
Which instance moves next is an input of the step. -/

namespace Sys2Proof.Machine

/-- The instances, each with its own state, port and fault (R430). -/
structure System where
  instances : List State
deriving DecidableEq, Repr

/-- The instances share one configuration, and there are N_INST of them (R6, R430). -/
def System.wf (c : Config) (sys : System) : Bool :=
  c.wf && decide (sys.instances.length = c.nInst) && sys.instances.all fun s => decide (s.cfg = c)

/-- Instance k takes one step; a number that names no instance, or a step with no next state, moves nothing (R430). -/
def System.stepAt (sys : System) (k : Nat) : System :=
  match sys.instances[k]? with
  | none => sys
  | some s =>
    match step s with
    | .next t => { instances := sys.instances.set k t }
    | .fault _ => sys
    | .refused _ => sys

/-- An interleaving: the instances that step, in order (R430). -/
def System.run (sys : System) (schedule : List Nat) : System := schedule.foldl System.stepAt sys

end Sys2Proof.Machine
end

