-- ==== Sys2Proof/Safety.lean ====
section
/-! DEFINITION. The terms claims use: what a command may write (R39), the cells a command reads (R462), a run and its end
(R468), the launch premises (R469), and the invariant of the states of a built instance. -/

namespace Sys2Proof.Machine

/-- The row of an instruction in the opcode table (R103, R104): the bits it fixes, and the mask of the fixed bits. Every bit of
the mask outside `op` is reserved (R106). -/
def tableRow : Instr → CmdWord × CmdWord
  | .nop => (0x0000000000000000, 0xFFFFFFFFFFFFFFFF)
  | .bget _ => (0x1000000000000000, 0xFFFF0000FFFFFFFF)
  | .bset _ => (0x1100000000000000, 0xFFFF0000FFFFFFFF)
  | .bclr _ => (0x1200000000000000, 0xFFFF0000FFFFFFFF)
  | .bflip _ => (0x1300000000000000, 0xFFFF0000FFFFFFFF)
  | .bread _ _ => (0x1400000000000000, 0xFF000000FFFFFFFF)
  | .bwrite _ _ _ => (0x1500000000000000, 0xFF00000000000000)
  | .bxor _ _ _ => (0x1600000000000000, 0xFF00000000000000)
  | .brotl _ _ => (0x1700000000000000, 0xFFFF000000000000)
  | .brotr _ _ => (0x1800000000000000, 0xFFFF000000000000)
  | .bpopc => (0x1900000000000000, 0xFFFFFFFFFFFFFFFF)
  | .bnext _ => (0x1A00000000000000, 0xFFFF0000FFFFFFFF)
  | .symwr _ _ => (0x2000000000000000, 0xFFFF000000000000)
  | .symrd _ => (0x2100000000000000, 0xFFFF0000FFFFFFFF)
  | .idxwr _ _ => (0x2200000000000000, 0xFFFF0000FFFF0000)
  | .idxrd _ => (0x2300000000000000, 0xFFFF0000FFFFFFFF)
  | .eposrd _ => (0x2400000000000000, 0xFFFF0000FFFFFFFF)
  | .gfexp _ _ => (0x3000000000000000, 0xFF000000FFFFFFFF)
  | .gflog _ _ => (0x3100000000000000, 0xFF000000FFFFFFFF)
  | .gfmul _ _ _ => (0x3200000000000000, 0xFF000000FFFF0000)
  | .gfinv _ _ => (0x3300000000000000, 0xFF000000FFFFFFFF)
  | .gfadd _ _ _ => (0x3400000000000000, 0xFF000000FFFF0000)
  | .rsdec _ => (0x4000000000000000, 0xFF00FFFFFFFFFFFF)
  | .hamdec _ _ => (0x5000000000000000, 0xFF000000FFFFFFFF)
  | .hamdecx _ => (0x5100000000000000, 0xFF00FFFFFFFFFFFF)
  | .gol23 _ => (0x5200000000000000, 0xFFFF0000FFFFFFFF)
  | .gol24 _ => (0x5300000000000000, 0xFFFF0000FFFFFFFF)
  | .gol18 _ => (0x5400000000000000, 0xFFFF0000FFFFFFFF)
  | .bptc _ => (0x5800000000000000, 0xFFFF0000FFFFFFFF)
  | .crcchk _ _ _ => (0x6000000000000000, 0xFF000000FFFFFFFE)
  | .crc16 _ _ => (0x6100000000000000, 0xFFFF0000FFFF0000)

/-- The opcodes R105 lists as illegal. -/
def illegalOpcode (op : Nat) : Prop :=
  (0x01 ≤ op ∧ op ≤ 0x0F) ∨ (0x1B ≤ op ∧ op ≤ 0x1F) ∨ (0x25 ≤ op ∧ op ≤ 0x2F) ∨ (0x35 ≤ op ∧ op ≤ 0x3F) ∨
    (0x41 ≤ op ∧ op ≤ 0x4F) ∨ (0x55 ≤ op ∧ op ≤ 0x57) ∨ (0x59 ≤ op ∧ op ≤ 0x5F) ∨ (0x62 ≤ op ∧ op ≤ 0xFF)

/-- The pieces of state a command may write, as the table of R39 groups them: `outcome` is STATUS, NCORR, ECNT and EPOS. -/
inductive Part where
  | res
  | buf
  | sym
  | idx
  | outcome
deriving DecidableEq, Repr

/-- The table of R39: what a command that completes may write. -/
def mayWrite : Instr → List Part
  | .nop => []
  | .bget _ => [.res]
  | .bread _ _ => [.res]
  | .bpopc => [.res]
  | .bnext _ => [.res]
  | .bset _ => [.buf]
  | .bclr _ => [.buf]
  | .bflip _ => [.buf]
  | .bwrite _ _ _ => [.buf]
  | .bxor _ _ _ => [.buf]
  | .brotl _ _ => [.buf]
  | .brotr _ _ => [.buf]
  | .symwr _ _ => [.sym]
  | .symrd _ => [.res]
  | .idxrd _ => [.res]
  | .eposrd _ => [.res]
  | .idxwr _ _ => [.idx]
  | .gfexp _ _ => [.res]
  | .gflog _ _ => [.res]
  | .gfmul _ _ _ => [.res]
  | .gfinv _ _ => [.res]
  | .gfadd _ _ _ => [.res]
  | .rsdec _ => [.sym, .outcome]
  | .hamdec _ _ => [.buf, .outcome]
  | .hamdecx _ => [.buf, .outcome]
  | .gol23 _ => [.buf, .outcome]
  | .gol24 _ => [.buf, .outcome]
  | .gol18 _ => [.buf, .outcome]
  | .bptc _ => [.buf, .outcome]
  | .crcchk _ _ _ => [.buf, .outcome]
  | .crc16 _ _ => [.buf, .outcome]

/-- Two states hold the same in a part. -/
def samePart (s t : State) : Part → Prop
  | .res => t.res = s.res
  | .buf => t.buf = s.buf
  | .sym => t.sym = s.sym
  | .idx => t.idx = s.idx
  | .outcome => t.status = s.status ∧ t.ncorr = s.ncorr ∧ t.ecnt = s.ecnt ∧ t.epos = s.epos

/-- The BUF indices a command may write (R39, R79): none for a command that writes no BUF bit. -/
def bufWindow (s : State) : Instr → List Nat
  | .bset i => [i.toNat]
  | .bclr i => [i.toNat]
  | .bflip i => [i.toNat]
  | .bwrite a n _ => List.range' a.toNat n.toNat
  | .bxor a n _ => List.range' a.toNat n.toNat
  | .brotl a e => List.range' a.toNat (e.toNat - a.toNat + 1)
  | .brotr a e => List.range' a.toNat (e.toNat - a.toNat + 1)
  | .hamdec h a => List.range' a.toNat (((s.cfg.hamCode h.toNat).map (·.n)).getD 0)
  | .hamdecx h => s.scattered (((s.cfg.hamCode h.toNat).map (·.n)).getD 0)
  | .gol23 a => List.range' a.toNat 23
  | .gol24 a => List.range' a.toNat 24
  | .gol18 a => List.range' a.toNat 18
  | .bptc a => List.range' a.toNat 196
  | .crcchk c a _ => List.range' a.toNat (((s.cfg.crcSlot c.toNat).map (·.frameLen)).getD 0)
  | .crc16 a m => List.range' a.toNat (m.toNat + 16)
  | .nop => []
  | .bget _ => []
  | .bread _ _ => []
  | .bpopc => []
  | .bnext _ => []
  | .symwr _ _ => []
  | .symrd _ => []
  | .idxwr _ _ => []
  | .idxrd _ => []
  | .eposrd _ => []
  | .gfexp _ _ => []
  | .gflog _ _ => []
  | .gfmul _ _ _ => []
  | .gfinv _ _ => []
  | .gfadd _ _ _ => []
  | .rsdec _ => []

/-- A memory cell of the block. -/
inductive Cell where
  | buf (i : Nat)
  | sym (j : Nat)
  | idx (j : Nat)
deriving DecidableEq, Repr

/-- The cells the host must have written before a command, by the table of R462. -/
def cellsRead (s : State) : Instr → List Cell
  | .bget i => [.buf i.toNat]
  | .bflip i => [.buf i.toNat]
  | .bread a n => (List.range' a.toNat n.toNat).map .buf
  | .bxor a n _ => (List.range' a.toNat n.toNat).map .buf
  | .brotl a e => (List.range' a.toNat (e.toNat - a.toNat + 1)).map .buf
  | .brotr a e => (List.range' a.toNat (e.toNat - a.toNat + 1)).map .buf
  | .bpopc => (List.range s.cfg.bufLen).map .buf
  | .bnext a => (List.range' a.toNat (s.cfg.bufLen - a.toNat)).map .buf
  | .symrd j => [.sym j.toNat]
  | .idxrd j => [.idx j.toNat]
  | .rsdec c => (List.range (((s.cfg.rsConfig c.toNat).map (·.n)).getD 0)).map .sym
  | .hamdec h a => (bufWindow s (.hamdec h a)).map .buf
  | .hamdecx h =>
    (List.range (((s.cfg.hamCode h.toNat).map (·.n)).getD 0)).map .idx ++ (bufWindow s (.hamdecx h)).map .buf
  | .gol23 a => (bufWindow s (.gol23 a)).map .buf
  | .gol24 a => (bufWindow s (.gol24 a)).map .buf
  | .gol18 a => (bufWindow s (.gol18 a)).map .buf
  | .bptc a => (bufWindow s (.bptc a)).map .buf
  | .crcchk c a inbound => (bufWindow s (.crcchk c a inbound)).map .buf
  | .crc16 a m => (bufWindow s (.crc16 a m)).map .buf
  | .nop => []
  | .bset _ => []
  | .bclr _ => []
  | .bwrite _ _ _ => []
  | .symwr _ _ => []
  | .idxwr _ _ => []
  | .eposrd _ => []
  | .gfexp _ _ => []
  | .gflog _ _ => []
  | .gfmul _ _ _ => []
  | .gfinv _ _ => []
  | .gfadd _ _ _ => []

/-- A BUF index, or a bit of a window, lies at or beyond BUF_LEN; or BNEXT starts beyond it: the condition of BUF_RANGE
(R71, R420). -/
def reachesBeyond (s : State) (i : Instr) : Prop :=
  (∃ p, (.buf p ∈ cellsRead s i ∨ p ∈ bufWindow s i) ∧ s.cfg.bufLen ≤ p) ∨ ∃ f, i = .bnext f ∧ s.cfg.bufLen < f.toNat

/-- The condition of BAD_COUNT (R420): a bit count of 0 or above 32, a rotate range with start > end, a message size of 0. The
other commands have no count. -/
def badCount : Instr → Prop
  | .bread _ n => n.toNat = 0 ∨ 32 < n.toNat
  | .bwrite _ n _ => n.toNat = 0 ∨ 32 < n.toNat
  | .bxor _ n _ => n.toNat = 0 ∨ 32 < n.toNat
  | .brotl a e => e.toNat < a.toNat
  | .brotr a e => e.toNat < a.toNat
  | .crc16 _ m => m.toNat = 0
  | .nop => False
  | .bget _ => False
  | .bset _ => False
  | .bclr _ => False
  | .bflip _ => False
  | .bpopc => False
  | .bnext _ => False
  | .symwr _ _ => False
  | .symrd _ => False
  | .idxwr _ _ => False
  | .idxrd _ => False
  | .eposrd _ => False
  | .gfexp _ _ => False
  | .gflog _ _ => False
  | .gfmul _ _ _ => False
  | .gfinv _ _ => False
  | .gfadd _ _ _ => False
  | .rsdec _ => False
  | .hamdec _ _ => False
  | .hamdecx _ => False
  | .gol23 _ => False
  | .gol24 _ => False
  | .gol18 _ => False
  | .bptc _ => False
  | .crcchk _ _ _ => False

/-- The cells a command writes with a value of the command word, so that no draw remains in them (R462). -/
def cellsStored : Instr → List Cell
  | .bset i => [.buf i.toNat]
  | .bclr i => [.buf i.toNat]
  | .bwrite a n _ => (List.range' a.toNat n.toNat).map .buf
  | .symwr j _ => [.sym j.toNat]
  | .idxwr j _ => [.idx j.toNat]
  | .nop => []
  | .bget _ => []
  | .bflip _ => []
  | .bread _ _ => []
  | .bxor _ _ _ => []
  | .brotl _ _ => []
  | .brotr _ _ => []
  | .bpopc => []
  | .bnext _ => []
  | .symrd _ => []
  | .idxrd _ => []
  | .eposrd _ => []
  | .gfexp _ _ => []
  | .gflog _ _ => []
  | .gfmul _ _ _ => []
  | .gfinv _ _ => []
  | .gfadd _ _ _ => []
  | .rsdec _ => []
  | .hamdec _ _ => []
  | .hamdecx _ => []
  | .gol23 _ => []
  | .gol24 _ => []
  | .gol18 _ => []
  | .bptc _ => []
  | .crcchk _ _ _ => []
  | .crc16 _ _ => []

/-- The value of a cell. -/
def sameCell (s t : State) : Cell → Prop
  | .buf i => s.buf.read i = t.buf.read i
  | .sym j => s.sym.read j = t.sym.read j
  | .idx j => s.idx.read j = t.idx.read j

/-- Two states agree on everything a claim about a run may read (R468): every register, EPOS below ECNT, and the cells that
`held` names. -/
def sameResult (held : Cell → Prop) (s t : State) : Prop :=
  s.cfg = t.cfg ∧ s.port = t.port ∧ s.res = t.res ∧ s.status = t.status ∧ s.ncorr = t.ncorr ∧ s.ecnt = t.ecnt ∧
    s.fault = t.fault ∧ s.fcmd = t.fcmd ∧ (∀ j < s.ecnt.toNat, s.epos.read j = t.epos.read j) ∧ ∀ c, held c → sameCell s t c

/-- The start of a run: a build with a configuration, a reset with a draw, and the words the host will issue (R468). -/
def runStart (c : Config) (d : Draws) (words : List CmdWord) : State :=
  { State.resetWith c d with port := words.map .command }

/-- The state a run of the given number of steps ends in (R468); a step that has no next state ends the run where it is. -/
def runSteps : Nat → State → State
  | 0, s => s
  | n + 1, s =>
    match step s with
    | .next t => runSteps n t
    | .fault _ => s
    | .refused _ => s

/-- The end of the run of a list of words: one step for each word (R468). -/
def runEnd (c : Config) (d : Draws) (words : List CmdWord) : State := runSteps words.length (runStart c d words)

/-- The command runs and raises no fault. -/
def completes (s : State) (i : Instr) : Bool :=
  match exec i s with
  | .next t => t.fault == 0
  | .fault _ => false
  | .refused _ => false

/-- The cells the checks of a command look at: the IDX entries of HAMDECX (R260). Every other check is of operands alone. -/
def cellsChecked (s : State) : Instr → List Cell
  | .hamdecx h => (List.range (((s.cfg.hamCode h.toNat).map (·.n)).getD 0)).map .idx
  | _ => []

/-- The cells a command reads in a state (R462): none in a halted block (R424), the row of R462 where it completes, and where it
faults only those its checks look at, since every check comes before the rest (R423). Log entry 23. -/
def cellsUsed (s : State) (i : Instr) : List Cell :=
  if s.halted then [] else if completes s i then cellsRead s i else cellsChecked s i

/-- The cells the host's next move reads. -/
def State.nextReads (s : State) : List Cell :=
  match s.port with
  | .command w :: _ =>
    match decode w with
    | .ok i => cellsUsed s i
    | .error _ => []
  | .reset _ :: _ => []
  | [] => []

/-- The cells the host has written since the last reset, after its next move, `done` being those before it: a command that faults
writes none (R423), and a reset draws every cell anew (R463). -/
def State.nextDone (s : State) (done : List Cell) : List Cell :=
  match s.port with
  | .command w :: _ =>
    match decode w with
    | .ok i => if completes s i then cellsStored i ++ done else done
    | .error _ => done
  | .reset _ :: _ => []
  | [] => done

/-- The premise written(cells) of R469 for the next n steps, `done` being the cells the host has written so far: the host wrote each
of the named cells before the first command that reads it. It says nothing of a cell not named, nor of one no command reads. -/
def written (cells : List Cell) : Nat → List Cell → State → Bool
  | 0, _, _ => true
  | n + 1, done, s =>
    (s.nextReads.all fun x => decide (x ∈ cells → x ∈ done)) &&
      match step s with
      | .next t => written cells n (s.nextDone done) t
      | .fault _ => true
      | .refused _ => true

/-- The cells the host has written since the last reset, after n steps. -/
def writtenAfter : Nat → List Cell → State → List Cell
  | 0, done, _ => done
  | n + 1, done, s =>
    match step s with
    | .next t => writtenAfter n (s.nextDone done) t
    | .fault _ => done
    | .refused _ => done

/-- Every cell of BUF, SYM and IDX: written(every cell) is the premise that no result of a run depends on a draw (R463). -/
def allCells (c : Config) : List Cell :=
  (List.range c.bufLen).map .buf ++ (List.range symSize).map .sym ++ (List.range idxSize).map .idx

/-- A good end: the words have been consumed and no fault stands: the premise no_fault of R469 (R468). -/
def goodEnd (s : State) : Prop := s.port = [] ∧ s.fault = 0

/-- A faulted run is one that ends with FAULT not 0 (R468). -/
def faultedEnd (s : State) : Prop := s.fault ≠ 0

/-- Every space of the block is in canonical form and lists no cell outside the space (R70 to R74). -/
def State.memoriesWf (s : State) : Prop :=
  s.buf.wf s.cfg.bufLen = true ∧ s.sym.wf symSize = true ∧ s.idx.wf idxSize = true ∧ s.epos.wf eposSize = true

/-- The legal values of STATUS (R33) and of FAULT (R420), and FCMD before any fault (R36). -/
def State.codesLegal (s : State) : Prop :=
  (s.status.toNat ≤ 5 ∨ s.status = statusNone) ∧ s.fault.toNat ≤ 9 ∧ (s.fault = 0 → s.fcmd = 0)

/-- What the outcome registers say together: NCORR and ECNT are the length of the position list, which has at most 127 entries
(R34, R44); CORRECTED comes with a correction and the NoError tier without one (R33, R10). -/
def State.outcomeConsistent (s : State) : Prop :=
  s.ncorr.toNat = s.ecnt.toNat ∧ s.ecnt.toNat ≤ 127 ∧ (s.status = DecodeStatus.code .corrected → s.ecnt ≠ 0) ∧
    (s.status = DecodeStatus.code .noError ∨ s.status = DecodeStatus.code .passInverted ∨ s.status = statusNone → s.ecnt = 0)

/-- The invariant of the states a built instance reaches. -/
def State.invariant (s : State) : Prop :=
  s.cfg.wf = true ∧ s.memoriesWf ∧ s.codesLegal ∧ s.outcomeConsistent

/-! The terms statements about single commands use. -/

/-- The command's one effect is the entry of this fault (R423). -/
def raises (i : Instr) (s : State) (cause : FaultCause) : Prop :=
  exec i s = .next { s with fault := cause.code, fcmd := encode i }

/-- The sum of R76: the n bits f 0, .., f (n - 1) as an integer, the first of them the most significant. -/
def bitSum (n : Nat) (f : Nat → Bool) : Nat := ∑ j ∈ Finset.range n, (f j).toNat * 2 ^ (n - 1 - j)

/-- What outcome(status, positions) leaves (R9, R34): the outcome registers and EPOS as it writes them, EPOS from the end of the
list on as before, and every piece of state but BUF and SYM as before. -/
def State.endsWith (s t : State) (status : DecodeStatus) (positions : List Nat) : Prop :=
  t.status = status.code ∧ t.ncorr = BitVec.ofNat 32 positions.length ∧ t.ecnt = BitVec.ofNat 8 positions.length ∧
    (∀ j, t.epos.read j =
      if j < positions.length then BitVec.ofNat 32 (positions.getD j 0) else s.epos.read j) ∧
    t.cfg = s.cfg ∧ t.port = s.port ∧ t.res = s.res ∧ t.fault = s.fault ∧ t.fcmd = s.fcmd ∧ t.idx = s.idx

/-- The end of a bit decoder that reports these BUF indices: the outcome, SYM as before, and each BUF bit flipped as often as its
index is reported (R34, R334). -/
def State.repairs (s t : State) (status : DecodeStatus) (positions : List Nat) : Prop :=
  s.endsWith t status positions ∧ t.sym = s.sym ∧
    ∀ i, t.buf.read i = (s.buf.read i ^^ decide (positions.count i % 2 = 1))

/-- s with the BUF bits of these indices inverted. -/
def State.withErrors (s : State) (positions : List Nat) : State := { s with buf := flipBits s.buf positions }

/-- The decode commands that work on BUF bits (R70). -/
def isBitDecoder : Instr → Bool
  | .hamdec _ _ => true
  | .hamdecx _ => true
  | .gol23 _ => true
  | .gol24 _ => true
  | .gol18 _ => true
  | .bptc _ => true
  | .crcchk _ _ _ => true
  | .crc16 _ _ => true
  | .nop => false
  | .bget _ => false
  | .bset _ => false
  | .bclr _ => false
  | .bflip _ => false
  | .bread _ _ => false
  | .bwrite _ _ _ => false
  | .bxor _ _ _ => false
  | .brotl _ _ => false
  | .brotr _ _ => false
  | .bpopc => false
  | .bnext _ => false
  | .symwr _ _ => false
  | .symrd _ => false
  | .idxwr _ _ => false
  | .idxrd _ => false
  | .eposrd _ => false
  | .gfexp _ _ => false
  | .gflog _ _ => false
  | .gfmul _ _ _ => false
  | .gfinv _ _ => false
  | .gfadd _ _ _ => false
  | .rsdec _ => false

/-- The most positions a bit decoder reports (R44). -/
def positionBound : Instr → Nat
  | .hamdec _ _ => 1
  | .hamdecx _ => 1
  | .bptc _ => 24
  | _ => 3

/-- The bit decoders whose CORRECTED output is a codeword, so that decoding it again gives NO_ERROR (R80): every one but BPTC, and
CRCCHK in GENERIC mode only. RSDEC, which R80 lists too, works on SYM. -/
def redecodes (s : State) : Instr → Prop
  | .hamdec _ _ => True
  | .hamdecx _ => True
  | .gol23 _ => True
  | .gol24 _ => True
  | .gol18 _ => True
  | .crc16 _ _ => True
  | .crcchk c _ _ => ∃ slot, s.cfg.crcSlot c.toNat = some slot ∧ slot.mode = .generic
  | _ => False

end Sys2Proof.Machine

namespace Sys2Proof

/-! Fields (41_gf_alu.md) and received words (42_rs_bm.md). -/

/-- Multiplication by α: a doubling, and P added when the x^m term appears (R171). -/
def GfSlot.double (g : GfSlot) (v : Nat) : Nat := if 2 * v < 2 ^ g.m then 2 * v else (2 * v) ^^^ g.poly

/-- α^i for i of any size (R171). -/
def GfSlot.alphaPower (g : GfSlot) (i : Nat) : Nat := g.double^[i] 1

/-- The value at α^i of the polynomial with the coefficients r 0, .., r (n - 1) (R215). -/
def GfSlot.valueAt (g : GfSlot) (r : Nat → Nat) (n i : Nat) : Nat :=
  xorAll ((List.range n).map fun j => g.mul (r j) (g.alpha (i * j)))

/-- An error word of R224: values of the field at positions 0 .. N - 1, at most t of them nonzero, 0 or 1 in a binary
configuration, with the syndromes of the received word r. -/
def errorWord (g : GfSlot) (c : RsConfig) (r e : Nat → Nat) : Prop :=
  (∀ j, e j < g.size) ∧ (∀ j, g.order ≤ j → e j = 0) ∧ (c.binary = true → ∀ j, e j ≤ 1) ∧
    ((List.range g.order).filter fun j => e j ≠ 0).length ≤ c.t ∧
    ∀ i, 1 ≤ i → i ≤ c.nsyn → g.valueAt e g.order i = g.valueAt r c.n i

/-- The working copy of the received word, by position (R213, R214). -/
def Machine.State.received (s : Machine.State) (g : GfSlot) (c : RsConfig) (j : Nat) : Nat :=
  if symbolValid g c (s.sym.read j).toNat then (s.sym.read j).toNat else 0

/-- Every received symbol belongs to the alphabet (R213). -/
def Machine.State.allValid (s : Machine.State) (g : GfSlot) (c : RsConfig) : Prop :=
  ∀ j < c.n, symbolValid g c (s.sym.read j).toNat = true

/-- The received word has only zero syndromes (R215). -/
def Machine.State.isCodeword (s : Machine.State) (g : GfSlot) (c : RsConfig) : Prop :=
  ∀ i, 1 ≤ i → i ≤ c.nsyn → g.valueAt (s.received g c) c.n i = 0

/-! Codewords of the bit codes. -/

/-- The window positions, ascending, at which a 23-bit integer differs from a window (R290, R294). -/
def golayErrors (u : Nat) (w : List Bool) : List Nat :=
  (List.range 23).filter fun q => u.testBit (22 - q) != w.getD q false

/-- Cell (r, c) of a window (R331, R332). -/
def bptcCellOf (w : List Bool) (r c : Nat) : Bool := w.getD ((1 + 15 * r + c) * 181 % 196) false

/-- The 13 bits of column c, top row first (R333). -/
def bptcColumnOf (w : List Bool) (c : Nat) : List Bool := (List.range 13).map fun r => bptcCellOf w r c

/-- The 15 bits of row r, left column first (R334). -/
def bptcRowOf (w : List Bool) (r : Nat) : List Bool := (List.range 15).map fun c => bptcCellOf w r c

/-- All 24 subblocks of a block are codewords (R337). -/
def bptcValid (w : List Bool) : Prop :=
  (∀ c < 15, ham13.syndrome (bptcColumnOf w c) = 0) ∧ ∀ r < 9, ham15.syndrome (bptcRowOf w r) = 0

/-- The window positions the column pass flips, in its order: that of cell (j, c) is (1 + 15 j + c) · 181 mod 196 (R331, R333). -/
def bptcColumnFlips (w : List Bool) : List Nat :=
  (List.range 15).flatMap fun c => (hamCore ham13 (bptcColumnOf w c)).positions.map fun j => (1 + 15 * j + c) * 181 % 196

/-- The window positions the row pass flips, in its order, in a window as the column pass left it (R334). -/
def bptcRowFlips (w : List Bool) : List Nat :=
  (List.range 9).flatMap fun r => (hamCore ham15 (bptcRowOf w r)).positions.map fun j => (1 + 15 * r + j) * 181 % 196

/-- A window with the bits at these positions flipped, each as often as it is listed. -/
def flipWindow (w : List Bool) (positions : List Nat) : List Bool :=
  w.mapIdx fun q b => b ^^ decide (positions.count q % 2 = 1)

/-- Multiplication by x modulo G(x) = x^C + P(x) (R360, R362). -/
def CrcCode.timesX (c : CrcCode) (q : Nat) : Nat :=
  if 2 * q < 2 ^ c.crcLen then 2 * q else (2 * q - 2 ^ c.crcLen) ^^^ c.poly

/-- x^k mod G(x) (R372). -/
def CrcCode.powerOfX (c : CrcCode) (k : Nat) : Nat := c.timesX^[k] 1

/-- The single-bit search's end for a syndrome (R366): CORRECTED at the lowest position of the frame at BUF[a] whose table entry is
the syndrome, FAIL with nothing flipped where no entry is. -/
def Machine.State.searchEnds (s t : Machine.State) (c : CrcCode) (a syn : Nat) : Prop :=
  (∀ i < c.msgLen + c.crcLen, c.entry i = syn → (∀ k < i, c.entry k ≠ syn) → s.repairs t .corrected [a + i]) ∧
    ((∀ i < c.msgLen + c.crcLen, c.entry i ≠ syn) → s.repairs t .uncorrectable [])

/-- The end of GENERIC mode for a syndrome (R367): `inverted` says that the slot accepts an inverted checksum and the frame is
inbound. -/
def Machine.State.genericEnds (s t : Machine.State) (c : CrcCode) (inverted : Prop) (a syn : Nat) : Prop :=
  (syn = 0 → s.repairs t .noError []) ∧
    (syn ≠ 0 → inverted ∧ syn = mask c.crcLen → s.repairs t .passInverted []) ∧
    (syn ≠ 0 → ¬ (inverted ∧ syn = mask c.crcLen) → s.searchEnds t c a syn)

end Sys2Proof
end

