-- ==== Sys2Proof/Certificates/Slice0/Obligations.lean ====
section
/-! DEFINITION. The statements for the provers. A statement about a state holds for every configuration the state carries; where
it needs one of R6, it says `cfg.wf`, the premise well_formed(config) of R469. -/

open Sys2Proof Sys2Proof.Machine

/-! Encoding (30_encoding.md). -/

/-- R103, R104: no bit of an encoding is dropped. Every value of every operand is in the type. -/
def Obligations.DecodeInvertsEncode : Prop := ∀ i : Instr, decode (encode i) = .ok i

/-- R101: a word has one meaning, and the encoder writes that word; so FCMD, which takes `encode i`, holds the complete word of
R423. -/
def Obligations.EncodeInvertsDecode : Prop := ∀ (w : CmdWord) (i : Instr), decode w = .ok i → encode i = w

/-- R105: exactly the opcodes it lists are illegal, and such a word raises ILLEGAL_OPCODE and has no other effect. -/
def Obligations.IllegalOpcodeFaults : Prop :=
  ∀ w : CmdWord,
    (decode w = .error .illegalOpcode ↔ illegalOpcode (opField w).toNat) ∧
    (illegalOpcode (opField w).toNat → ∀ (s : State) (rest : List HostAction),
      s.port = .command w :: rest → s.fault = 0 →
        ∃ t, step s = .next t ∧ t = { s with port := t.port, fault := 1, fcmd := w })

/-- R106: a word with a legal opcode raises RESERVED_FIELD, and has no other effect, exactly when a bit its row of the opcode
table reserves is not zero. -/
def Obligations.ReservedFieldFaults : Prop :=
  ∀ w : CmdWord,
    (decode w = .error .reservedField ↔
      ∃ i : Instr, opField w = opField (encode i) ∧ w &&& (tableRow i).2 ≠ (tableRow i).1) ∧
    (∀ i : Instr, opField w = opField (encode i) → w &&& (tableRow i).2 ≠ (tableRow i).1 →
      ∀ (s : State) (rest : List HostAction),
        s.port = .command w :: rest → s.fault = 0 →
          ∃ t, step s = .next t ∧ t = { s with port := t.port, fault := 2, fcmd := w })

/-- The example words of R140, R145, R153, R178, R212, R259, R260, R294, R336, R370 and R371, field by field. -/
def Obligations.SpecWordsDecode : Prop :=
  decode 0x1000000200000000 = .ok (.bget 2) ∧
  decode 0x15080000000000A5 = .ok (.bwrite 0 8 0xA5) ∧
  decode 0x2200000000000064 = .ok (.idxwr 0 100) ∧
  decode 0x32010053000000CA = .ok (.gfmul 1 0x53 0xCA) ∧
  decode 0x4004000000000000 = .ok (.rsdec 4) ∧
  decode 0x5002000000000000 = .ok (.hamdec 2 0) ∧
  decode 0x5101000000000000 = .ok (.hamdecx 1) ∧
  decode 0x5200000A00000000 = .ok (.gol23 10) ∧
  decode 0x5800000000000000 = .ok (.bptc 0) ∧
  decode 0x6000000000000000 = .ok (.crcchk 0 0 0) ∧
  decode 0x6100000000000040 = .ok (.crc16 0 64)

/-! The step, the halt, reset and faults (10_state.md, 60_exceptions.md, 70_reset_and_hazards.md). -/

/-- A step runs the command the host issues next. The list of the host's moves is the model's own field (log entry 4). -/
def Obligations.StepRunsDecoded : Prop :=
  ∀ (s : State) (w : CmdWord) (rest : List HostAction) (i : Instr),
    s.port = .command w :: rest → decode w = .ok i → step s = exec i { s with port := rest }

/-- Every step takes the host's next move and no other, whatever the move is; without a move the block stays as it is. The field
`port` and both of these are the model's choice, not a rule of the spec (log entries 4, 5 and 12). -/
def Obligations.HostMovesTaken : Prop :=
  (∀ s : State, s.port = [] → step s = .next s) ∧
    ∀ (s : State) (a : HostAction) (rest : List HostAction), s.port = a :: rest → ∃ t, step s = .next t ∧ t.port = rest

/-- R424: a halted block ignores every command word, legal or not. -/
def Obligations.HaltedBlockIgnores : Prop :=
  ∀ s : State, s.fault ≠ 0 →
    (∀ i : Instr, exec i s = .next s) ∧
    ∀ (w : CmdWord) (rest : List HostAction), s.port = .command w :: rest → step s = .next { s with port := rest }

/-- R43, R460: what a reset leaves, in a halted block too: the registers at their values, the memories at the draw, the
configuration as it was. -/
def Obligations.ResetTaken : Prop :=
  ∀ (s : State) (d : Draws) (rest : List HostAction), s.port = .reset d :: rest →
    ∃ t, step s = .next t ∧ t.res = 0 ∧ t.status = 0xFF ∧ t.ncorr = 0 ∧ t.ecnt = 0 ∧ t.fault = 0 ∧ t.fcmd = 0 ∧
      t.readRegister 7 = 0x45444143 ∧ t.cfg = s.cfg ∧
      (∀ i < s.cfg.bufLen, t.buf.read i = d.buf.getD i false) ∧ (∀ j < 255, t.sym.read j = d.sym.getD j 0) ∧
      (∀ j < 32, t.idx.read j = d.idx.getD j 0) ∧ ∀ j < 255, t.epos.read j = d.epos.getD j 0

/-- The registers of R43 in the one state the host starts from. Its configuration and its draw are the model's choice (log
entries 1 and 2), and this says nothing of them. -/
def Obligations.ResetStateRegisters : Prop :=
  State.reset.res = 0 ∧ State.reset.status = 0xFF ∧ State.reset.ncorr = 0 ∧ State.reset.ecnt = 0 ∧
    State.reset.fault = 0 ∧ State.reset.fcmd = 0 ∧ State.reset.readRegister 7 = 0x45444143

/-- R38: the value of every register number. -/
def Obligations.RegisterPortValues : Prop :=
  ∀ s : State, s.readRegister 0 = s.res ∧ (s.readRegister 1).toNat = s.status.toNat ∧ s.readRegister 2 = s.ncorr ∧
    (s.readRegister 3).toNat = s.ecnt.toNat ∧ (s.readRegister 4).toNat = s.fault.toNat ∧
    s.fcmd = s.readRegister 5 ++ s.readRegister 6 ∧ s.readRegister 7 = 0x45444143 ∧
    ∀ n, 8 ≤ n → s.readRegister n = 0

/-- R6, R431: a build admits exactly the well-formed configurations and refuses every other. That the refusal names a problem of the
configuration, and that the build of an admitted one answers the reset state at once, where R467 lists the reset as a move of its
own, is the model's choice, not a rule of the spec (log entry 15). -/
def Obligations.BuildAdmitsWellFormed : Prop :=
  ∀ (c : Config) (d : Draws),
    (c.wf = true → build c d = .next (State.resetWith c d)) ∧
    (c.wf = false → ∃ p, p ∈ c.problems ∧ build c d = .refused (.configRefused p))

/-- Every command has a next state, since a fault of R420 is one: the model's reading of R421, R423 and R424 (log entry 6). Every
step has one too, the idle step included, for which R470 enables none: the model's choice (log entry 5). Neither is a rule of the
spec in these words. -/
def Obligations.EveryCommandAnswers : Prop :=
  (∀ (i : Instr) (s : State), ∃ t, exec i s = .next t) ∧ ∀ s : State, ∃ t, step s = .next t

/-- R423: a word that faults, legal or not, writes FAULT and FCMD and nothing else, FCMD the complete word. -/
def Obligations.FaultEntryPrecise : Prop :=
  ∀ (s t : State) (w : CmdWord) (rest : List HostAction), s.port = .command w :: rest → s.fault = 0 →
    step s = .next t → t.fault ≠ 0 → ∃ c : FaultCause, t = { s with port := t.port, fault := c.code, fcmd := w }

/-- R39: what each command may write, down to the cells; a command that faults writes none of it. -/
def Obligations.WritersTable : Prop :=
  ∀ (i : Instr) (s t : State), s.cfg.wf = true → s.fault = 0 → exec i s = .next t →
    t.cfg = s.cfg ∧ t.port = s.port ∧
    (∀ p, p ∉ mayWrite i → samePart s t p) ∧
    (∀ a, a ∉ bufWindow s i → t.buf.read a = s.buf.read a) ∧
    (∀ c, i = .rsdec c → ∀ r, s.cfg.rsConfig c.toNat = some r → ∀ j, r.n ≤ j → t.sym.read j = s.sym.read j) ∧
    (∀ j v, i = .symwr j v → ∀ k, k ≠ j.toNat → t.sym.read k = s.sym.read k) ∧
    (∀ j v, i = .idxwr j v → ∀ k, k ≠ j.toNat → t.idx.read k = s.idx.read k) ∧
    (t.fault = 0 → t.fcmd = s.fcmd) ∧ (t.fault ≠ 0 → ∀ p, samePart s t p)

/-- The invariant holds after the reset of every well-formed configuration, whatever the draw. -/
def Obligations.InvariantAtReset : Prop :=
  State.reset.invariant ∧ ∀ (c : Config) (d : Draws), c.wf = true → (State.resetWith c d).invariant

/-- Every step keeps the invariant: the spaces keep their canonical form and their size, STATUS and FAULT hold legal codes only,
NCORR and ECNT agree, at most 127 positions are reported, and CORRECTED comes with a position. -/
def Obligations.InvariantKept : Prop :=
  ∀ s t : State, s.invariant → step s = .next t → t.invariant

/-- R463, R468, R469: under the premise written(cells), the end of a run does not depend on the draws of the named cells: the
registers, EPOS below ECNT, every cell not named and every named cell the run has written are the same for two draws that differ in
named cells only. For `allCells c` the draws are any two. -/
def Obligations.DrawIndependence : Prop :=
  ∀ (c : Config) (d₁ d₂ : Draws) (words : List CmdWord) (cells : List Cell), c.wf = true →
    (∀ x, x ∉ cells → sameCell (runStart c d₁ words) (runStart c d₂ words) x) →
    written cells words.length [] (runStart c d₁ words) = true →
    sameResult (fun x => x ∉ cells ∨ x ∈ writtenAfter words.length [] (runStart c d₁ words)) (runEnd c d₁ words) (runEnd c d₂ words)

/-- R430, R86: a step of one instance leaves the others alone, and no interleaving changes any instance's result. -/
def Obligations.InterleavingsAgree : Prop :=
  (∀ (sys : System) (j k : Nat), j ≠ k → (sys.stepAt k).instances[j]? = sys.instances[j]?) ∧
    ∀ (sys : System) (a b : List Nat), a.Perm b → sys.run a = sys.run b

/-- R107: the defined entries of the four selector namespaces, and BAD_SELECT for every other selector. -/
def Obligations.UndefinedSelectorFaults : Prop :=
  (∀ (c : Config) (x : Nat),
    ((c.gfSlot x).isSome = true ↔ x < 2 ∨ x ∈ c.gfExtra.map (·.1)) ∧
    ((c.rsConfig x).isSome = true ↔ x < 5 ∨ x ∈ c.rsExtra.map (·.1)) ∧
    ((c.hamCode x).isSome = true ↔ x < 5) ∧
    ((c.crcSlot x).isSome = true ↔ x < 4 ∨ x ∈ c.crcExtra.map (·.1))) ∧
  ∀ (s : State) (i : Instr), s.fault = 0 → i.wf s.cfg = false → raises i s .badSelect

/-- R71, R422 and the rows of R420 for the two causes: with a defined selector, a command raises BAD_COUNT exactly where its count
is bad; otherwise it raises BUF_RANGE where it would reach a BUF bit at or beyond BUF_LEN, or BNEXT starts beyond it, and, in a
block of a well-formed configuration, nowhere else. -/
def Obligations.BeyondBufferFaults : Prop :=
  ∀ (s : State) (i : Instr), s.fault = 0 → i.wf s.cfg = true →
    (raises i s .badCount ↔ badCount i) ∧
    (¬ badCount i → reachesBeyond s i → raises i s .bufRange) ∧
    (s.cfg.wf = true → raises i s .bufRange → ¬ badCount i ∧ reachesBeyond s i)

/-! Bit buffer (40_bitbuf.md). -/

/-- R156. -/
def Obligations.NopDoesNothing : Prop := ∀ s : State, exec .nop s = .next s

/-- R140. -/
def Obligations.BgetReadsBit : Prop :=
  ∀ (s : State) (i : BitVec 16), s.fault = 0 →
    (s.cfg.bufLen ≤ i.toNat → raises (.bget i) s .bufRange) ∧
    (i.toNat < s.cfg.bufLen → exec (.bget i) s = .next { s with res := if s.buf.read i.toNat then 1 else 0 })

/-- R141, R142, R143. -/
def Obligations.SetClearFlipBit : Prop :=
  ∀ (s : State) (i : BitVec 16), s.fault = 0 →
    (s.cfg.bufLen ≤ i.toNat →
      raises (.bset i) s .bufRange ∧ raises (.bclr i) s .bufRange ∧ raises (.bflip i) s .bufRange) ∧
    (i.toNat < s.cfg.bufLen →
      (∃ t, exec (.bset i) s = .next t ∧ t = { s with buf := t.buf } ∧
        ∀ j, t.buf.read j = if j = i.toNat then true else s.buf.read j) ∧
      (∃ t, exec (.bclr i) s = .next t ∧ t = { s with buf := t.buf } ∧
        ∀ j, t.buf.read j = if j = i.toNat then false else s.buf.read j) ∧
      ∃ t, exec (.bflip i) s = .next t ∧ t = { s with buf := t.buf } ∧
        ∀ j, t.buf.read j = if j = i.toNat then !s.buf.read j else s.buf.read j)

/-- R144, with the sum of R76. -/
def Obligations.BreadSum : Prop :=
  ∀ (s : State) (a : BitVec 16) (n : BitVec 8), s.fault = 0 →
    (n.toNat = 0 ∨ 32 < n.toNat → raises (.bread a n) s .badCount) ∧
    (1 ≤ n.toNat → n.toNat ≤ 32 →
      (s.cfg.bufLen < a.toNat + n.toNat → raises (.bread a n) s .bufRange) ∧
      (a.toNat + n.toNat ≤ s.cfg.bufLen →
        exec (.bread a n) s =
          .next { s with res := BitVec.ofNat 32 (bitSum n.toNat fun j => s.buf.read (a.toNat + j)) }))

/-- R145. -/
def Obligations.BwriteStores : Prop :=
  ∀ (s : State) (a : BitVec 16) (n : BitVec 8) (v : BitVec 32), s.fault = 0 →
    (n.toNat = 0 ∨ 32 < n.toNat → raises (.bwrite a n v) s .badCount) ∧
    (1 ≤ n.toNat → n.toNat ≤ 32 →
      (s.cfg.bufLen < a.toNat + n.toNat → raises (.bwrite a n v) s .bufRange) ∧
      (a.toNat + n.toNat ≤ s.cfg.bufLen →
        (2 ^ n.toNat ≤ v.toNat → raises (.bwrite a n v) s .badOperand) ∧
        (v.toNat < 2 ^ n.toNat →
          ∃ t, exec (.bwrite a n v) s = .next t ∧ t = { s with buf := t.buf } ∧
            (∀ j < n.toNat, t.buf.read (a.toNat + j) = v.getLsbD (n.toNat - 1 - j)) ∧
            ∀ i, i < a.toNat ∨ a.toNat + n.toNat ≤ i → t.buf.read i = s.buf.read i)))

/-- R146, bit by bit and as integers. -/
def Obligations.BxorStores : Prop :=
  ∀ (s : State) (a : BitVec 16) (n : BitVec 8) (v : BitVec 32), s.fault = 0 →
    (n.toNat = 0 ∨ 32 < n.toNat → raises (.bxor a n v) s .badCount) ∧
    (1 ≤ n.toNat → n.toNat ≤ 32 →
      (s.cfg.bufLen < a.toNat + n.toNat → raises (.bxor a n v) s .bufRange) ∧
      (a.toNat + n.toNat ≤ s.cfg.bufLen →
        (2 ^ n.toNat ≤ v.toNat → raises (.bxor a n v) s .badOperand) ∧
        (v.toNat < 2 ^ n.toNat →
          ∃ t, exec (.bxor a n v) s = .next t ∧ t = { s with buf := t.buf } ∧
            (∀ j < n.toNat, t.buf.read (a.toNat + j) = (s.buf.read (a.toNat + j) ^^ v.getLsbD (n.toNat - 1 - j))) ∧
            (∀ i, i < a.toNat ∨ a.toNat + n.toNat ≤ i → t.buf.read i = s.buf.read i) ∧
            t.bufRead a.toNat n.toNat = s.bufRead a.toNat n.toNat ^^^ v.toNat)))

/-- R147, R148: the cells after a rotation by one, and the same as an integer; L = e - s + 1. -/
def Obligations.RotateByOne : Prop :=
  ∀ (s : State) (a : BitVec 16) (e : BitVec 32), s.fault = 0 →
    (e.toNat < a.toNat → raises (.brotl a e) s .badCount ∧ raises (.brotr a e) s .badCount) ∧
    (a.toNat ≤ e.toNat → s.cfg.bufLen ≤ e.toNat → raises (.brotl a e) s .bufRange ∧ raises (.brotr a e) s .bufRange) ∧
    (a.toNat ≤ e.toNat → e.toNat < s.cfg.bufLen → ∀ L v, L = e.toNat - a.toNat + 1 → v = s.bufRead a.toNat L →
      (∃ t, exec (.brotl a e) s = .next t ∧ t = { s with buf := t.buf } ∧
        (∀ j < L, t.buf.read (a.toNat + j) = s.buf.read (a.toNat + (j + 1) % L)) ∧
        (∀ i, i < a.toNat ∨ e.toNat < i → t.buf.read i = s.buf.read i) ∧
        t.bufRead a.toNat L = ((v <<< 1) ||| (v >>> (L - 1))) &&& mask L) ∧
      ∃ t, exec (.brotr a e) s = .next t ∧ t = { s with buf := t.buf } ∧
        (∀ j < L, t.buf.read (a.toNat + (j + 1) % L) = s.buf.read (a.toNat + j)) ∧
        (∀ i, i < a.toNat ∨ e.toNat < i → t.buf.read i = s.buf.read i) ∧
        t.bufRead a.toNat L = ((v >>> 1) ||| (v <<< (L - 1))) &&& mask L)

/-- R157 and R77: BROTR undoes BROTL, BXOR undoes itself and is BFLIP on one bit, BREAD and BGET return what BWRITE wrote, BSET
on a cleared bit adds one to BPOPC. -/
def Obligations.BufferRoundTrips : Prop :=
  ∀ (s : State) (a : BitVec 16), s.fault = 0 →
    (∀ e : BitVec 32, a.toNat ≤ e.toNat → e.toNat < s.cfg.bufLen →
      ∃ t u, exec (.brotl a e) s = .next t ∧ exec (.brotr a e) t = .next u ∧ ∀ i, u.buf.read i = s.buf.read i) ∧
    (a.toNat < s.cfg.bufLen → ∃ t, exec (.bxor a 1 1) s = .next t ∧ exec (.bflip a) s = .next t) ∧
    (∀ (n : BitVec 8) (v : BitVec 32), 1 ≤ n.toNat → n.toNat ≤ 32 → a.toNat + n.toNat ≤ s.cfg.bufLen →
      v.toNat < 2 ^ n.toNat →
      (∃ t u, exec (.bxor a n v) s = .next t ∧ exec (.bxor a n v) t = .next u ∧ ∀ i, u.buf.read i = s.buf.read i) ∧
      ∃ t, exec (.bwrite a n v) s = .next t ∧ exec (.bread a n) t = .next { t with res := v } ∧
        ∀ (k : BitVec 16) (j : Nat), j < n.toNat → k.toNat = a.toNat + j →
          exec (.bget k) t = .next { t with res := if v.getLsbD (n.toNat - 1 - j) then 1 else 0 }) ∧
    (a.toNat < s.cfg.bufLen → s.buf.read a.toNat = false →
      ∃ t u v, exec (.bset a) s = .next t ∧ exec .bpopc s = .next u ∧ exec .bpopc t = .next v ∧ v.res = u.res + 1)

/-- R149. -/
def Obligations.BpopcCounts : Prop :=
  ∀ s : State, s.fault = 0 →
    exec .bpopc s =
      .next { s with res := BitVec.ofNat 32 (∑ i ∈ Finset.range s.cfg.bufLen, (s.buf.read i).toNat) }

/-- R150. -/
def Obligations.BnextFindsFirst : Prop :=
  ∀ (s : State) (f : BitVec 16), s.fault = 0 →
    (s.cfg.bufLen < f.toNat → raises (.bnext f) s .bufRange) ∧
    (∀ i, f.toNat ≤ i → i < s.cfg.bufLen → s.buf.read i = true →
      (∀ k, f.toNat ≤ k → k < i → s.buf.read k = false) →
      exec (.bnext f) s = .next { s with res := BitVec.ofNat 32 i }) ∧
    (f.toNat ≤ s.cfg.bufLen → (∀ k, f.toNat ≤ k → k < s.cfg.bufLen → s.buf.read k = false) →
      exec (.bnext f) s = .next { s with res := 0xFFFFFFFF })

/-! Word memories (40_bitbuf.md). -/

/-- R151, R152. -/
def Obligations.SymbolMemory : Prop :=
  ∀ (s : State) (j : BitVec 16) (v : BitVec 32), s.fault = 0 →
    (255 ≤ j.toNat → raises (.symwr j v) s .memRange ∧ raises (.symrd j) s .memRange) ∧
    (j.toNat < 255 →
      (∃ t, exec (.symwr j v) s = .next t ∧ t = { s with sym := t.sym } ∧
        ∀ k, t.sym.read k = if k = j.toNat then v else s.sym.read k) ∧
      exec (.symrd j) s = .next { s with res := s.sym.read j.toNat })

/-- R153, R155. -/
def Obligations.IndexMemory : Prop :=
  ∀ (s : State) (j v : BitVec 16), s.fault = 0 →
    (32 ≤ j.toNat → raises (.idxwr j v) s .memRange ∧ raises (.idxrd j) s .memRange) ∧
    (j.toNat < 32 →
      (∃ t, exec (.idxwr j v) s = .next t ∧ t = { s with idx := t.idx } ∧
        ∀ k, t.idx.read k = if k = j.toNat then v else s.idx.read k) ∧
      exec (.idxrd j) s = .next { s with res := BitVec.ofNat 32 (s.idx.read j.toNat).toNat })

/-- R154. -/
def Obligations.EposrdReads : Prop :=
  ∀ (s : State) (j : BitVec 16), s.fault = 0 →
    (s.ecnt.toNat ≤ j.toNat → raises (.eposrd j) s .memRange) ∧
    (j.toNat < s.ecnt.toNat → exec (.eposrd j) s = .next { s with res := s.epos.read j.toNat })

/-! Galois field (41_gf_alu.md). N is 2^m - 1. -/

/-- R176, R171, R173: the exponent table, entry N of which is the configuration's EXP_TOP. -/
def Obligations.GfexpTable : Prop :=
  ∀ (s : State) (f : BitVec 8) (i : BitVec 16) (g : GfSlot), s.cfg.wf = true → s.fault = 0 →
    s.cfg.gfSlot f.toNat = some g →
    (2 ^ g.m ≤ i.toNat → raises (.gfexp f i) s .badOperand) ∧
    (i.toNat = 2 ^ g.m - 1 → exec (.gfexp f i) s = .next { s with res := s.cfg.expTop }) ∧
    (i.toNat < 2 ^ g.m - 1 → exec (.gfexp f i) s = .next { s with res := BitVec.ofNat 32 (g.alphaPower i.toNat) })

/-- R177, R172: the logarithm table is the inverse of the exponent table on the nonzero elements, and log[0] is the sentinel. -/
def Obligations.GflogInverts : Prop :=
  ∀ (s : State) (f : BitVec 8) (v : BitVec 16) (g : GfSlot), s.cfg.wf = true → s.fault = 0 →
    s.cfg.gfSlot f.toNat = some g →
    (2 ^ g.m ≤ v.toNat → raises (.gflog f v) s .badOperand) ∧
    (v.toNat = 0 → exec (.gflog f v) s = .next { s with res := 0xFFFFFFFF }) ∧
    (0 < v.toNat → v.toNat < 2 ^ g.m → ∃ k, k < 2 ^ g.m - 1 ∧ g.alphaPower k = v.toNat ∧
      exec (.gflog f v) s = .next { s with res := BitVec.ofNat 32 k })

/-- R178: the product through the logarithms, never through EXP_TOP. -/
def Obligations.GfmulAddsLogs : Prop :=
  ∀ (s : State) (f : BitVec 8) (x y : BitVec 16) (g : GfSlot), s.cfg.wf = true → s.fault = 0 →
    s.cfg.gfSlot f.toNat = some g →
    (2 ^ g.m ≤ x.toNat ∨ 2 ^ g.m ≤ y.toNat → raises (.gfmul f x y) s .badOperand) ∧
    (x.toNat < 2 ^ g.m → y.toNat < 2 ^ g.m →
      exec (.gfmul f x y) s = .next { s with res := BitVec.ofNat 32 (g.mul x.toNat y.toNat) } ∧
      (x.toNat = 0 ∨ y.toNat = 0 → g.mul x.toNat y.toNat = 0) ∧
      ∀ i j, g.alphaPower i = x.toNat → g.alphaPower j = y.toNat →
        g.mul x.toNat y.toNat = g.alphaPower ((i + j) % (2 ^ g.m - 1)))

/-- R179: the true inverse of every element from 2 on; the element 1 gives EXP_TOP; 0 raises GF_INV_ZERO. -/
def Obligations.GfinvInverts : Prop :=
  ∀ (s : State) (f : BitVec 8) (x : BitVec 16) (g : GfSlot), s.cfg.wf = true → s.fault = 0 →
    s.cfg.gfSlot f.toNat = some g →
    (2 ^ g.m ≤ x.toNat → raises (.gfinv f x) s .badOperand) ∧
    (x.toNat = 0 → raises (.gfinv f x) s .gfInvZero) ∧
    (x.toNat = 1 → exec (.gfinv f x) s = .next { s with res := s.cfg.expTop }) ∧
    (2 ≤ x.toNat → x.toNat < 2 ^ g.m → ∃ k, 0 < k ∧ k < 2 ^ g.m - 1 ∧ g.alphaPower k = x.toNat ∧
      exec (.gfinv f x) s = .next { s with res := BitVec.ofNat 32 (g.alphaPower (2 ^ g.m - 1 - k)) } ∧
      g.mul x.toNat (g.alphaPower (2 ^ g.m - 1 - k)) = 1)

/-- R180. -/
def Obligations.GfaddXors : Prop :=
  ∀ (s : State) (f : BitVec 8) (x y : BitVec 16) (g : GfSlot), s.fault = 0 → s.cfg.gfSlot f.toNat = some g →
    (2 ^ g.m ≤ x.toNat ∨ 2 ^ g.m ≤ y.toNat → raises (.gfadd f x y) s .badOperand) ∧
    (x.toNat < 2 ^ g.m → y.toNat < 2 ^ g.m →
      exec (.gfadd f x y) s = .next { s with res := BitVec.ofNat 32 (x ^^^ y).toNat })

/-- R181, for every slot a configuration can have: `g.mul` is GFMUL's product (GfmulAddsLogs) and addition is XOR. -/
def Obligations.FieldLaws : Prop :=
  ∀ g : GfSlot, g.wf = true → ∀ x y z : Nat, x < g.size → y < g.size → z < g.size →
    g.mul x y < g.size ∧ g.mul x y = g.mul y x ∧ g.mul (g.mul x y) z = g.mul x (g.mul y z) ∧
    g.mul x (y ^^^ z) = g.mul x y ^^^ g.mul x z ∧ g.mul x 1 = x ∧ g.mul x 0 = 0 ∧ x ^^^ x = 0 ∧ x ^^^ 0 = x ∧
    (x ≠ 0 → g.mul x (g.inv x) = 1) ∧
    ∀ k, x ≠ 0 → (g.mul x)^[k] 1 = g.alphaPower (k * g.log x % g.order)

/-! Reed-Solomon and BCH (42_rs_bm.md). -/

/-- R222, R223: RSDEC always ends with an outcome, and what it may write. -/
def Obligations.RsdecCompletes : Prop :=
  ∀ (s : State) (c : BitVec 8) (g : GfSlot) (code : RsConfig), s.cfg.wf = true → s.fault = 0 →
    s.cfg.rsCode c.toNat = some (g, code) →
    code.t ≤ 127 ∧
    ∃ t st ps, exec (.rsdec c) s = .next t ∧ s.endsWith t st ps ∧ t.buf = s.buf ∧
      (st = .noError ∨ st = .corrected ∨ st = .uncorrectable ∨ st = .invalidInput) ∧
      (st = .corrected → 1 ≤ ps.length ∧ ps.length ≤ code.t ∧ ps.Pairwise (· < ·) ∧ ∀ p ∈ ps, p < code.n) ∧
      (st ≠ .corrected → ps = [] ∧ t.sym = s.sym) ∧ ∀ j, j ∉ ps → t.sym.read j = s.sym.read j

/-- R213, R215: an invalid symbol under REJECT ends with INVALID_INPUT; otherwise zero syndromes of the working copy end with
NO_ERROR. SYM is unchanged in both cases, its invalid words too. -/
def Obligations.RsdecValidity : Prop :=
  ∀ (s : State) (c : BitVec 8) (g : GfSlot) (code : RsConfig), s.fault = 0 → s.cfg.rsCode c.toNat = some (g, code) →
    (s.cfg.invalidSymbols = .reject → ¬ s.allValid g code →
      ∃ t, exec (.rsdec c) s = .next t ∧ s.endsWith t .invalidInput [] ∧ t.buf = s.buf ∧ t.sym = s.sym) ∧
    (s.cfg.invalidSymbols = .ignore ∨ s.allValid g code → s.isCodeword g code →
      ∃ t, exec (.rsdec c) s = .next t ∧ s.endsWith t .noError [] ∧ t.buf = s.buf ∧ t.sym = s.sym)

/-- R224 at weight 1, so R226's "one corrupted symbol": in every configuration with at least two syndromes, a codeword with one
wrong symbol is restored and its position reported. -/
def Obligations.RsSingleErrorRestored : Prop :=
  ∀ (s : State) (c : BitVec 8) (g : GfSlot) (code : RsConfig) (p e : Nat), s.cfg.wf = true → s.fault = 0 →
    s.cfg.rsCode c.toNat = some (g, code) → 2 ≤ code.nsyn → s.allValid g code → s.isCodeword g code →
    p < code.n → 0 < e → e < g.size → (code.binary = true → e = 1) →
    ∀ s', s' = { s with sym := s.sym.write p (s.sym.read p ^^^ BitVec.ofNat 32 e) } →
      ∃ t, exec (.rsdec c) s' = .next t ∧ s'.endsWith t .corrected [p] ∧ t.buf = s'.buf ∧
        ∀ j, t.sym.read j = s.sym.read j

/-- R226: two wrong symbols of RS(12,9) are UNCORRECTABLE, and SYM is unchanged. -/
def Obligations.ShortCodeTwoErrorsDetected : Prop :=
  ∀ (s : State) (g : GfSlot) (code : RsConfig) (p q e f : Nat), s.cfg.wf = true → s.fault = 0 →
    s.cfg.rsCode 4 = some (g, code) → s.allValid g code → s.isCodeword g code →
    p < 12 → q < 12 → p ≠ q → 0 < e → e < 256 → 0 < f → f < 256 →
    ∀ m s', m = s.sym.write p (s.sym.read p ^^^ BitVec.ofNat 32 e) →
      s' = { s with sym := m.write q (s.sym.read q ^^^ BitVec.ofNat 32 f) } →
      ∃ t, exec (.rsdec 4) s' = .next t ∧ s'.endsWith t .uncorrectable [] ∧ t.buf = s'.buf ∧ t.sym = s'.sym

/-- R224: the bounded-distance characterization of RSDEC, for every well-formed configuration. -/
def Obligations.RsBoundedDistance : Prop :=
  ∀ (s : State) (c : BitVec 8) (g : GfSlot) (code : RsConfig), s.cfg.wf = true → s.fault = 0 →
    s.cfg.rsCode c.toNat = some (g, code) → s.cfg.invalidSymbols = .ignore ∨ s.allValid g code →
    (∀ e e', errorWord g code (s.received g code) e → errorWord g code (s.received g code) e' → ∀ j, e j = e' j) ∧
    (s.isCodeword g code → ∃ t, exec (.rsdec c) s = .next t ∧ s.endsWith t .noError [] ∧ t.buf = s.buf ∧ t.sym = s.sym) ∧
    (¬ s.isCodeword g code → ∀ e, errorWord g code (s.received g code) e → (∀ j, code.n ≤ j → e j = 0) →
      ∃ t, exec (.rsdec c) s = .next t ∧
        s.endsWith t .corrected ((List.range code.n).filter fun j => e j ≠ 0) ∧ t.buf = s.buf ∧
        ∀ j, t.sym.read j = if e j = 0 then s.sym.read j else BitVec.ofNat 32 (s.received g code j ^^^ e j)) ∧
    (¬ s.isCodeword g code → (∀ e, errorWord g code (s.received g code) e → ∃ j, code.n ≤ j ∧ e j ≠ 0) →
      ∃ t, exec (.rsdec c) s = .next t ∧ s.endsWith t .uncorrectable [] ∧ t.buf = s.buf ∧ t.sym = s.sym)

/-! The bit decoders (43_hamming.md to 46_crc.md). -/

/-- R34, R44, R71: a bit decoder whose window lies in BUF always ends with an outcome, flips exactly what it reports inside its
window, and changes no other BUF bit; the bounds on the number of positions. -/
def Obligations.BitDecodersComplete : Prop :=
  ∀ (s : State) (i : Instr), s.cfg.wf = true → s.fault = 0 → isBitDecoder i = true → i.wf s.cfg = true →
    (∀ p ∈ bufWindow s i, p < s.cfg.bufLen) → (bufWindow s i).Nodup → (∀ a, i ≠ .crc16 a 0) →
    ∃ t st ps, exec i s = .next t ∧ s.repairs t st ps ∧ (∀ p ∈ ps, p ∈ bufWindow s i) ∧
      ps.length ≤ positionBound i ∧ (st = .corrected → ps ≠ []) ∧
      (st ≠ .corrected → ps = [] ∨ ∃ a, i = .bptc a ∧ st = .uncorrectable)

/-- R261: a codeword passes unchanged, and a single wrong bit at any place of it is corrected, for every Hamming code. -/
def Obligations.HammingSingleError : Prop :=
  ∀ (s : State) (h : BitVec 8) (a : BitVec 16) (code : HamCode) (data : List Bool), s.cfg.wf = true → s.fault = 0 →
    s.cfg.hamCode h.toNat = some code → a.toNat + code.n ≤ s.cfg.bufLen → data.length = code.k →
    s.window a.toNat code.n = code.encode data →
    (∃ t, exec (.hamdec h a) s = .next t ∧ s.repairs t .noError []) ∧
    ∀ j < code.n, ∀ s', s' = s.withErrors [a.toNat + j] →
      ∃ t, exec (.hamdec h a) s' = .next t ∧ s'.repairs t .corrected [a.toNat + j] ∧
        ∀ i, t.buf.read i = s.buf.read i

/-- R260: HAMDECX through any distinct indices; its two faults, in the order of their codes; and that it is HAMDEC where
IDX[j] = a + j. -/
def Obligations.HamdecxScattered : Prop :=
  ∀ (s : State) (h : BitVec 8) (code : HamCode) (l : List Nat), s.cfg.wf = true → s.fault = 0 →
    s.cfg.hamCode h.toNat = some code → l = (List.range code.n).map (fun j => (s.idx.read j).toNat) →
    ((∃ i ∈ l, s.cfg.bufLen ≤ i) → raises (.hamdecx h) s .bufRange) ∧
    ((∀ i ∈ l, i < s.cfg.bufLen) →
      (¬ l.Nodup → raises (.hamdecx h) s .idxDup) ∧
      (l.Nodup → ∀ data : List Bool, data.length = code.k → l.map (fun i => s.buf.read i) = code.encode data →
        (∃ t, exec (.hamdecx h) s = .next t ∧ s.repairs t .noError []) ∧
        ∀ p ∈ l, ∀ s', s' = s.withErrors [p] →
          ∃ t, exec (.hamdecx h) s' = .next t ∧ s'.repairs t .corrected [p] ∧ ∀ i, t.buf.read i = s.buf.read i) ∧
      ∀ a : BitVec 16, l = List.range' a.toNat code.n → exec (.hamdecx h) s = exec (.hamdec h a) s)

/-- R261: two wrong bits. Hamming(16,11,4) detects them; Hamming(15,11,3) always corrects a third place; Hamming(13,9,3) ends
UNCORRECTABLE exactly on the syndromes 0x9 and 0xD. -/
def Obligations.HammingDoubleErrors : Prop :=
  ∀ (s : State) (a : BitVec 16) (data : List Bool) (j k : Nat), s.fault = 0 → j < k →
    (a.toNat + 16 ≤ s.cfg.bufLen → data.length = 11 → s.window a.toNat 16 = ham16.encode data → k < 16 →
      ∀ s', s' = s.withErrors [a.toNat + j, a.toNat + k] →
        ∃ t, exec (.hamdec 3 a) s' = .next t ∧ s'.repairs t .uncorrectable []) ∧
    (a.toNat + 15 ≤ s.cfg.bufLen → data.length = 11 → s.window a.toNat 15 = ham15.encode data → k < 15 →
      ∀ s', s' = s.withErrors [a.toNat + j, a.toNat + k] →
        ∃ t i, exec (.hamdec 2 a) s' = .next t ∧ i < 15 ∧ i ≠ j ∧ i ≠ k ∧ s'.repairs t .corrected [a.toNat + i]) ∧
    (a.toNat + 13 ≤ s.cfg.bufLen →
      ∃ t, exec (.hamdec 1 a) s = .next t ∧
        (t.status = 2 ↔ ham13.syndrome (s.window a.toNat 13) = 0x9 ∨ ham13.syndrome (s.window a.toNat 13) = 0xD))

/-- R294, R295: GOL23 moves every word to the codeword within distance 3 of it, and never ends UNCORRECTABLE. -/
def Obligations.Gol23Nearest : Prop :=
  ∀ (s : State) (a : BitVec 16), s.cfg.wf = true → s.fault = 0 → a.toNat + 23 ≤ s.cfg.bufLen →
    ∃ t u ps, exec (.gol23 a) s = .next t ∧ (∃ d < 2 ^ 12, u = golay23Encode s.cfg.golayPoly d) ∧
      ps = golayErrors u (s.window a.toNat 23) ∧ ps.length ≤ 3 ∧
      s.repairs t (if ps = [] then .noError else .corrected) (ps.map (a.toNat + ·)) ∧ t.bufRead a.toNat 23 = u

/-- R296, R297: GOL24 restores a codeword with up to three wrong bits, and ends UNCORRECTABLE on four. -/
def Obligations.Gol24Corrects : Prop :=
  ∀ (s : State) (a : BitVec 16) (d : Nat) (ps : List Nat), s.cfg.wf = true → s.fault = 0 →
    a.toNat + 24 ≤ s.cfg.bufLen → d < 2 ^ 12 → s.window a.toNat 24 = golay24Encode s.cfg.golayPoly d →
    ps.Pairwise (· < ·) → (∀ q ∈ ps, q < 24) → ∀ s', s' = s.withErrors (ps.map (a.toNat + ·)) →
    (ps.length ≤ 3 → ∃ t, exec (.gol24 a) s' = .next t ∧
      s'.repairs t (if ps = [] then .noError else .corrected) (ps.map (a.toNat + ·)) ∧
      ∀ i, t.buf.read i = s.buf.read i) ∧
    (ps.length = 4 → ∃ t, exec (.gol24 a) s' = .next t ∧ s'.repairs t .uncorrectable [])

/-- R298, R299: the same of GOL18, whose codewords are the Golay(24) codewords with six leading zeros, those dropped. -/
def Obligations.Gol18Corrects : Prop :=
  ∀ (s : State) (a : BitVec 16) (d : Nat) (ps : List Nat), s.cfg.wf = true → s.fault = 0 →
    a.toNat + 18 ≤ s.cfg.bufLen → d < 2 ^ 12 →
    List.replicate 6 false ++ s.window a.toNat 18 = golay24Encode s.cfg.golayPoly d →
    ps.Pairwise (· < ·) → (∀ q ∈ ps, q < 18) → ∀ s', s' = s.withErrors (ps.map (a.toNat + ·)) →
    (ps.length ≤ 3 → ∃ t, exec (.gol18 a) s' = .next t ∧
      s'.repairs t (if ps = [] then .noError else .corrected) (ps.map (a.toNat + ·)) ∧
      ∀ i, t.buf.read i = s.buf.read i) ∧
    (ps.length = 4 → ∃ t, exec (.gol18 a) s' = .next t ∧ s'.repairs t .uncorrectable [])

/-- R333 to R336, R338. For every window: the two passes flip and report, in this order, what the columns' and then the rows'
decoders correct; UNCORRECTABLE exactly where some subblock is uncorrectable, which is a column with syndrome 0x9 or 0xD (R261),
and the flips stay; NO_ERROR exactly where all 24 subblocks are codewords; CORRECTED otherwise; the bit at offset 0 never changes.
For a block of 24 codewords: one wrong bit at any window offset 1..195 is corrected; a wrong bit at offset 0 is not seen. -/
def Obligations.BptcSingleError : Prop :=
  ∀ (s : State) (a : BitVec 16) (w v : List Bool), s.fault = 0 → a.toNat + 196 ≤ s.cfg.bufLen →
    w = s.window a.toNat 196 → v = flipWindow w (bptcColumnFlips w) →
    (∃ t st, exec (.bptc a) s = .next t ∧
      s.repairs t st ((bptcColumnFlips w ++ bptcRowFlips v).map (a.toNat + ·)) ∧
      t.buf.read a.toNat = s.buf.read a.toNat ∧
      (st = .uncorrectable ↔ (∃ c < 15, (hamCore ham13 (bptcColumnOf w c)).status = .uncorrectable) ∨
        ∃ r < 9, (hamCore ham15 (bptcRowOf v r)).status = .uncorrectable) ∧
      (st = .uncorrectable ↔ ∃ c < 15, ham13.syndrome (bptcColumnOf w c) = 0x9 ∨ ham13.syndrome (bptcColumnOf w c) = 0xD) ∧
      (st = .noError ↔ bptcValid w) ∧ (st = .noError ∨ st = .corrected ∨ st = .uncorrectable)) ∧
    (bptcValid w →
      (∃ t, exec (.bptc a) s = .next t ∧ s.repairs t .noError []) ∧
      (∀ q, 1 ≤ q → q < 196 → ∀ s', s' = s.withErrors [a.toNat + q] →
        ∃ t, exec (.bptc a) s' = .next t ∧ s'.repairs t .corrected [a.toNat + q] ∧
          ∀ i, t.buf.read i = s.buf.read i) ∧
      ∀ s', s' = s.withErrors [a.toNat] → ∃ t, exec (.bptc a) s' = .next t ∧ s'.repairs t .noError [])

/-- R362, R365, R372: the table's entries are the powers of x modulo G, the first message bit's the highest; and the accumulator
is the division's remainder with the fill XORed in. -/
def Obligations.CrcTableEntries : Prop :=
  ∀ c : CrcCode, c.wf = true →
    (∀ i < c.msgLen + c.crcLen, c.entry i = c.powerOfX (c.msgLen + c.crcLen - 1 - i)) ∧
    ∀ w : List Bool, c.msgLen ≤ w.length → c.accumulate w = c.crc0 (w.take c.msgLen) ^^^ c.fill

/-- R366, R367, R372: CRCCHK on a slot of GENERIC mode. For every window: PASS for the syndrome 0, PASS_INVERTED for the all-ones
syndrome of an inbound frame of a slot that accepts it, otherwise CORRECTED at the lowest table entry with the syndrome, and FAIL
where there is none. A valid frame passes; a single wrong bit is corrected exactly where no earlier table entry equals its own and
no inverted pass hides it; a complemented checksum passes inverted for an inbound frame of a slot that accepts it, and for no
other. -/
def Obligations.CrcGenericFrames : Prop :=
  ∀ (s : State) (x : BitVec 8) (a : BitVec 16) (inbound : BitVec 1) (slot : CrcSlot) (n : Nat),
    s.cfg.wf = true → s.fault = 0 → s.cfg.crcSlot x.toNat = some slot → slot.mode = .generic →
    n = slot.code.msgLen + slot.code.crcLen → a.toNat + n ≤ s.cfg.bufLen →
    (∃ t, exec (.crcchk x a inbound) s = .next t ∧
      s.genericEnds t slot.code (slot.acceptInverted = true ∧ inbound = 1) a.toNat
        (slot.code.syndrome (s.window a.toNat n))) ∧
    ∀ message : List Bool, message.length = slot.code.msgLen → s.window a.toNat n = slot.code.encode message →
      (∃ t, exec (.crcchk x a inbound) s = .next t ∧ s.repairs t .noError []) ∧
      (∀ i < n, ∀ s', s' = s.withErrors [a.toNat + i] →
        ∃ t st ps, exec (.crcchk x a inbound) s' = .next t ∧ s'.repairs t st ps ∧
          (st = .corrected ∧ ps = [a.toNat + i] ↔
            (∀ k < i, slot.code.entry k ≠ slot.code.entry i) ∧
              ¬ (slot.acceptInverted = true ∧ inbound = 1 ∧ slot.code.entry i = mask slot.code.crcLen))) ∧
      ∀ s', s' = s.withErrors (List.range' (a.toNat + slot.code.msgLen) slot.code.crcLen) →
        ∃ t st ps, exec (.crcchk x a inbound) s' = .next t ∧ s'.repairs t st ps ∧
          (st = .passInverted ↔ slot.acceptInverted = true ∧ inbound = 1) ∧ (st = .passInverted → ps = [])

/-- R366, R369, R372: the Fleetsync frame. For every window: the syndrome and the frame's parity choose between PASS, FAIL_PARITY,
FAIL and the single-bit search. A valid frame passes, one wrong bit among 0..62 is corrected, the parity bit alone gives
FAIL_PARITY, and every two wrong bits give FAIL. -/
def Obligations.FleetsyncFrames : Prop :=
  ∀ (s : State) (a : BitVec 16) (inbound : BitVec 1) (slot : CrcSlot) (syn par : Nat), s.cfg.wf = true → s.fault = 0 →
    s.cfg.crcSlot 0 = some slot → a.toNat + 64 ≤ s.cfg.bufLen → syn = slot.code.syndrome (s.window a.toNat 64) →
    par = (∑ q ∈ Finset.range 64, (s.buf.read (a.toNat + q)).toNat) % 2 →
    (∃ t, exec (.crcchk 0 a inbound) s = .next t ∧
      (syn = 0 → par = 0 → s.repairs t .noError []) ∧ (syn = 0 → par = 1 → s.repairs t .failParity []) ∧
      (syn ≠ 0 → par = 0 → s.repairs t .uncorrectable []) ∧ (syn ≠ 0 → par = 1 → s.searchEnds t slot.code a.toNat syn)) ∧
    ∀ message : List Bool, message.length = 48 → s.window a.toNat 64 = slot.encode message →
      (∃ t, exec (.crcchk 0 a inbound) s = .next t ∧ s.repairs t .noError []) ∧
      (∀ q < 63, ∀ s', s' = s.withErrors [a.toNat + q] →
        ∃ t, exec (.crcchk 0 a inbound) s' = .next t ∧ s'.repairs t .corrected [a.toNat + q] ∧
          ∀ i, t.buf.read i = s.buf.read i) ∧
      (∀ s', s' = s.withErrors [a.toNat + 63] →
        ∃ t, exec (.crcchk 0 a inbound) s' = .next t ∧ s'.repairs t .failParity []) ∧
      ∀ q r, q < r → r < 64 → ∀ s', s' = s.withErrors [a.toNat + q, a.toNat + r] →
        ∃ t, exec (.crcchk 0 a inbound) s' = .next t ∧ s'.repairs t .uncorrectable []

/-- R371, R372: the faults of CRC16; how it ends on every window, which is GENERIC mode without an inverted pass; a valid frame
passes; every single wrong bit of a frame with M up to 32,751 is corrected. -/
def Obligations.Crc16SingleError : Prop :=
  ∀ (s : State) (a m : BitVec 16), s.fault = 0 →
    (m = 0 → raises (.crc16 a m) s .badCount) ∧
    (m ≠ 0 → s.cfg.bufLen < a.toNat + m.toNat + 16 → raises (.crc16 a m) s .bufRange) ∧
    (m ≠ 0 → a.toNat + m.toNat + 16 ≤ s.cfg.bufLen →
      ∃ t, exec (.crc16 a m) s = .next t ∧
        s.genericEnds t (crc16Code m.toNat) False a.toNat
          ((crc16Code m.toNat).syndrome (s.window a.toNat (m.toNat + 16)))) ∧
    ∀ message : List Bool, m ≠ 0 → a.toNat + m.toNat + 16 ≤ s.cfg.bufLen → message.length = m.toNat →
      s.window a.toNat (m.toNat + 16) = (crc16Code m.toNat).encode message →
      (∃ t, exec (.crc16 a m) s = .next t ∧ s.repairs t .noError []) ∧
      (m.toNat ≤ 32751 → ∀ i < m.toNat + 16, ∀ s', s' = s.withErrors [a.toNat + i] →
        ∃ t, exec (.crc16 a m) s' = .next t ∧ s'.repairs t .corrected [a.toNat + i] ∧
          ∀ k, t.buf.read k = s.buf.read k)

/-- R368: the RESIDUAL_MAP mode; the syndrome is that of R365. For slot 2 the pairs are PP_RESIDUALS. That an extra slot in this mode
has pairs of its own, which this statement covers too, is the model's choice, not a rule of the spec (log entry 22). -/
def Obligations.ResidualMapMode : Prop :=
  ∀ (s : State) (x : BitVec 8) (a : BitVec 16) (inbound : BitVec 1) (slot : CrcSlot) (pairs : List (Nat × List Nat)) (syn : Nat),
    s.fault = 0 → s.cfg.crcSlot x.toNat = some slot → slot.mode = .residualMap pairs →
    a.toNat + slot.code.msgLen + slot.code.crcLen ≤ s.cfg.bufLen →
    syn = slot.code.syndrome (s.window a.toNat (slot.code.msgLen + slot.code.crcLen)) →
    (syn = 0 → ∃ t, exec (.crcchk x a inbound) s = .next t ∧ s.repairs t .noError []) ∧
    (syn ≠ 0 → ∀ before qs after, pairs = before ++ (syn, qs) :: after → (∀ e ∈ before, e.1 ≠ syn) →
      ∃ t, exec (.crcchk x a inbound) s = .next t ∧ s.repairs t .corrected (qs.map (a.toNat + ·))) ∧
    (syn ≠ 0 → (∀ e ∈ pairs, e.1 ≠ syn) →
      ∃ t, exec (.crcchk x a inbound) s = .next t ∧ s.repairs t .uncorrectable [])

/-- R80, R261, R300, R372: after CORRECTED, the same command again gives NO_ERROR and changes no BUF bit, for every bit decoder that
R80 lists without a condition. RSDEC, the other one it lists, is RsdecRedecodes. -/
def Obligations.RedecodeGivesNoError : Prop :=
  ∀ (s t : State) (i : Instr), s.cfg.wf = true → s.fault = 0 → redecodes s i → exec i s = .next t → t.fault = 0 →
    t.status = DecodeStatus.code .corrected → ∃ u, exec i t = .next u ∧ t.repairs u .noError []

/-- "After CORRECTED, SYM[0..n-1] has all-zero syndromes, so a second RSDEC with the same configuration gives NO_ERROR and leaves SYM
unchanged" (42_rs_bm.md, R225, which the spec derives from R224; R80). The syndromes are those of the working copy, in which an
invalid symbol under IGNORE counts as 0 (R213). -/
def Obligations.RsdecRedecodes : Prop :=
  ∀ (s t : State) (c : BitVec 8) (g : GfSlot) (code : RsConfig), s.cfg.wf = true → s.fault = 0 →
    s.cfg.rsCode c.toNat = some (g, code) → exec (.rsdec c) s = .next t → t.status = DecodeStatus.code .corrected →
    t.isCodeword g code ∧ ∃ u, exec (.rsdec c) t = .next u ∧ t.endsWith u .noError [] ∧ u.buf = t.buf ∧ u.sym = t.sym
end

