-- ==== Sys2Proof/Laws/Bits.lean ====
section
/-! SUPPORT. Bit lists and integers: the two readings are inverse, and what each bit is. -/

namespace Sys2Proof

theorem bitsToNat_foldl (bits : List Bool) (v : Nat) :
    bits.foldl (fun v b => 2 * v + b.toNat) v = v * 2 ^ bits.length + bitsToNat bits := by
  induction bits generalizing v with
  | nil => simp [bitsToNat]
  | cons b bs ih =>
    simp only [bitsToNat, List.foldl_cons, List.length_cons] at *
    rw [ih, ih (2 * 0 + b.toNat)]
    ring

@[simp] theorem bitsToNat_nil : bitsToNat [] = 0 := rfl

theorem bitsToNat_cons (b : Bool) (bs : List Bool) :
    bitsToNat (b :: bs) = b.toNat * 2 ^ bs.length + bitsToNat bs := by
  have h := bitsToNat_foldl bs (2 * 0 + b.toNat)
  simpa [bitsToNat] using h

theorem bitsToNat_lt (bits : List Bool) : bitsToNat bits < 2 ^ bits.length := by
  induction bits with
  | nil => simp
  | cons b bs ih =>
    rw [bitsToNat_cons, List.length_cons, pow_succ]
    cases b <;> simp <;> omega

/-- Bit j of the list is bit len - 1 - j of the integer (R7). -/
theorem testBit_bitsToNat (bits : List Bool) (k : Nat) (h : k < bits.length) :
    (bitsToNat bits).testBit k = bits.getD (bits.length - 1 - k) false := by
  induction bits with
  | nil => simp at h
  | cons b bs ih =>
    rw [bitsToNat_cons, mul_comm, Nat.testBit_two_pow_mul_add _ (bitsToNat_lt bs)]
    simp only [List.length_cons] at h ⊢
    by_cases hk : k < bs.length
    · have e : bs.length + 1 - 1 - k = (bs.length - 1 - k) + 1 := by omega
      rw [if_pos hk, ih hk, e]
      simp
    · have hk' : k = bs.length := by omega
      subst hk'
      cases b <;> simp

theorem testBit_bitsToNat_of_le (bits : List Bool) (k : Nat) (h : bits.length ≤ k) :
    (bitsToNat bits).testBit k = false :=
  Nat.testBit_lt_two_pow (lt_of_lt_of_le (bitsToNat_lt bits) (Nat.pow_le_pow_right (by decide) h))

@[simp] theorem length_natToBits (n v : Nat) : (natToBits n v).length = n := by simp [natToBits]

theorem getElem_natToBits (n v j : Nat) (h : j < (natToBits n v).length) :
    (natToBits n v)[j] = v.testBit (n - 1 - j) := by simp [natToBits]

theorem getD_natToBits (n v j : Nat) (h : j < n) : (natToBits n v).getD j false = v.testBit (n - 1 - j) := by
  simp [natToBits, h]

/-- Reading back what was written gives the value modulo 2^n (R77). -/
theorem bitsToNat_natToBits (n v : Nat) : bitsToNat (natToBits n v) = v % 2 ^ n := by
  apply Nat.eq_of_testBit_eq
  intro k
  rw [Nat.testBit_mod_two_pow]
  by_cases hk : k < n
  · rw [testBit_bitsToNat _ _ (by simpa using hk), length_natToBits, getD_natToBits _ _ _ (by omega)]
    have e : n - 1 - (n - 1 - k) = k := by omega
    simp [hk, e]
  · rw [testBit_bitsToNat_of_le _ _ (by simpa using hk)]
    simp [hk]

theorem natToBits_bitsToNat (bits : List Bool) : natToBits bits.length (bitsToNat bits) = bits := by
  apply List.ext_getElem (by simp)
  intro j h₁ h₂
  rw [getElem_natToBits, testBit_bitsToNat _ _ (by omega)]
  have e : bits.length - 1 - (bits.length - 1 - j) = j := by omega
  simp [e, h₂]

theorem xorAll_foldl (vs : List Nat) (v : Nat) : vs.foldl (· ^^^ ·) v = v ^^^ xorAll vs := by
  induction vs generalizing v with
  | nil => simp [xorAll]
  | cons a vs ih =>
    simp only [xorAll, List.foldl_cons] at *
    rw [ih, ih (0 ^^^ a), Nat.zero_xor, Nat.xor_assoc]

@[simp] theorem xorAll_nil : xorAll [] = 0 := rfl

@[simp] theorem xorAll_cons (v : Nat) (vs : List Nat) : xorAll (v :: vs) = v ^^^ xorAll vs := by
  rw [xorAll, List.foldl_cons, xorAll_foldl, Nat.zero_xor]

theorem xorAll_append (us vs : List Nat) : xorAll (us ++ vs) = xorAll us ^^^ xorAll vs := by
  induction us with
  | nil => simp
  | cons u us ih => simp [ih, Nat.xor_assoc]

/-- The exclusive OR of termwise exclusive ORs. -/
theorem xorAll_map_xor {α : Type} (f g : α → Nat) (l : List α) :
    xorAll (l.map fun a => f a ^^^ g a) = xorAll (l.map f) ^^^ xorAll (l.map g) := by
  induction l with
  | nil => simp
  | cons a l ih =>
    simp only [List.map_cons, xorAll_cons, ih]
    apply Nat.eq_of_testBit_eq
    intro k
    simp only [Nat.testBit_xor]
    cases (f a).testBit k <;> cases (g a).testBit k <;> simp

/-- A bound on every term is a bound on the exclusive OR. -/
theorem xorAll_lt (vs : List Nat) (k : Nat) (h : ∀ v ∈ vs, v < 2 ^ k) : xorAll vs < 2 ^ k := by
  induction vs with
  | nil => simp
  | cons v vs ih =>
    rw [xorAll_cons]
    exact Nat.xor_lt_two_pow (h v (by simp)) (ih fun u hu => h u (by simp [hu]))

end Sys2Proof
end

