-- ==== Sys2Proof/Laws/Decoders.lean ====
section
/-! SUPPORT. What every bit decoder's answer looks like: its positions lie in the window, there are as many as R44 allows, and
CORRECTED comes with at least one (R10, R33, R34). -/

namespace Sys2Proof

/-- Everything the Hamming core can answer (R258). -/
theorem hamCore_cases (c : HamCode) (w : List Bool) :
    (c.syndrome w = 0 ∧ hamCore c w = { status := .noError, positions := [] }) ∨
    (∃ j, c.errorIndex (c.syndrome w) = some j ∧ hamCore c w = { status := .corrected, positions := [j] }) ∨
    hamCore c w = { status := .uncorrectable, positions := [] } := by
  unfold hamCore
  by_cases h₀ : c.syndrome w = 0
  · simp [h₀]
  · rw [if_neg h₀]
    split
    · exact .inr (.inr rfl)
    · split
      · rename_i j hj
        exact .inr (.inl ⟨j, hj, rfl⟩)
      · exact .inr (.inr rfl)

/-- An error index lies in the codeword. -/
theorem HamCode.errorIndex_lt {c : HamCode} {syn j : Nat} (hk : c.k ≤ c.n) (h : c.errorIndex syn = some j) : j < c.n := by
  unfold HamCode.errorIndex at h
  split at h
  · rename_i i hi
    cases h
    have := List.mem_of_find?_eq_some hi
    rw [List.mem_range] at this
    omega
  · rw [Option.map_eq_some_iff] at h
    obtain ⟨i, hi, rfl⟩ := h
    have := List.mem_of_find?_eq_some hi
    rw [List.mem_range, HamCode.p] at this
    omega

theorem hamCore_positions_lt {c : HamCode} (hk : c.k ≤ c.n) (w : List Bool) : ∀ j ∈ (hamCore c w).positions, j < c.n := by
  rcases hamCore_cases c w with ⟨-, h⟩ | ⟨j, hj, h⟩ | h
  · simp [h]
  · simpa [h] using HamCode.errorIndex_lt hk hj
  · simp [h]

theorem hamCore_length_le (c : HamCode) (w : List Bool) : (hamCore c w).positions.length ≤ 1 := by
  rcases hamCore_cases c w with ⟨-, h⟩ | ⟨j, -, h⟩ | h <;> simp [h]

/-- A Hamming code reports a position exactly when it corrects. -/
theorem hamCore_positions_iff (c : HamCode) (w : List Bool) :
    (hamCore c w).positions = [] ↔ (hamCore c w).status ≠ .corrected := by
  rcases hamCore_cases c w with ⟨-, h⟩ | ⟨j, -, h⟩ | h <;> simp [h]

/-! Golay. -/

theorem golayDifference_lt {u v q : Nat} (h : q ∈ golayDifference u v) : q < 23 := by
  simp only [golayDifference, List.mem_filter, List.mem_range] at h
  exact h.1

/-- 23-bit integers that differ, differ at a window position. -/
theorem golayDifference_ne_nil {u v : Nat} (hu : u < 2 ^ 23) (hv : v < 2 ^ 23) (h : u ≠ v) : golayDifference u v ≠ [] := by
  intro hd
  apply h
  apply Nat.eq_of_testBit_eq
  intro k
  by_cases hk : k < 23
  · have := (List.filter_eq_nil_iff.1 hd) (22 - k) (by simp; omega)
    rw [show 22 - (22 - k) = k by omega, Nat.testBit_xor] at this
    simpa using this
  · have hb : 2 ^ 23 ≤ 2 ^ k := Nat.pow_le_pow_right (by decide) (by omega)
    rw [Nat.testBit_lt_two_pow (lt_of_lt_of_le hu hb), Nat.testBit_lt_two_pow (lt_of_lt_of_le hv hb)]

theorem rotr23_lt (u i : Nat) : rotr23 u i < 2 ^ 23 := by
  unfold rotr23 mask
  exact Nat.and_lt_two_pow _ (by decide)

theorem golayRotations_lt {poly threshold count i u r : Nat} (h : golayRotations poly threshold count i u = some r) :
    r < 2 ^ 23 := by
  induction count generalizing i u with
  | zero => cases h
  | succ count ih =>
    simp only [golayRotations] at h
    split at h
    · cases h; exact rotr23_lt _ _
    · exact ih h

theorem golayTrial_lt {poly threshold u r : Nat} (hu : u < 2 ^ 23) (h : golayTrial poly threshold u = some r) :
    r < 2 ^ 23 := by
  unfold golayTrial at h
  split at h
  · cases h; exact hu
  · exact golayRotations_lt h

/-- The word the search answers with has 23 bits. -/
theorem golay23Correct_lt {poly v u : Nat} (hv : v < 2 ^ 23) (h : golay23Correct poly v = some u) : u < 2 ^ 23 := by
  unfold golay23Correct at h
  split at h
  · cases h; exact golayTrial_lt hv ‹_›
  · obtain ⟨t, ht, hr⟩ := List.exists_of_findSome?_eq_some h
    rw [List.mem_range] at ht
    exact golayTrial_lt (Nat.xor_lt_two_pow hv (Nat.pow_lt_pow_right (by decide) ht)) hr

theorem golay23_positions_lt (poly : Nat) (w : List Bool) : ∀ q ∈ (golay23Decode poly w).positions, q < 23 := by
  unfold golay23Decode
  simp only
  split
  · simp
  · split
    · simp
    · exact fun q h => golayDifference_lt h

theorem golay24_positions_lt (poly : Nat) (w : List Bool) : ∀ q ∈ (golay24Decode poly w).positions, q < 24 := by
  unfold golay24Decode
  simp only
  split
  · simp
  · rename_i u _
    have hd : ∀ q ∈ golayDifference u (bitsToNat (w.take 23)), q < 24 :=
      fun q h => lt_trans (golayDifference_lt h) (by decide)
    split_ifs
    · simp
    · simp
    · exact hd
    · intro q hq
      rcases List.mem_append.1 hq with hq | hq
      · exact hd q hq
      · rw [List.mem_singleton] at hq; omega
    · simp

theorem golay18_positions_lt (poly : Nat) (w : List Bool) : ∀ q ∈ (golay18Decode poly w).positions, q < 18 := by
  have h := golay24_positions_lt poly (List.replicate 6 false ++ w)
  unfold golay18Decode
  simp only
  split
  · simp
  · rename_i hp
    intro q hq
    rw [List.mem_map] at hq
    obtain ⟨r, hr, rfl⟩ := hq
    have := h r hr
    have h6 : ¬ r < 6 := by
      intro h'
      exact hp (List.any_eq_true.2 ⟨r, hr, by simpa using h'⟩)
    omega

/-! BPTC. -/

theorem bptcPosition_lt (i : Nat) : bptcPosition i < 196 := Nat.mod_lt _ (by decide)

/-- One subblock adds at most one flip, of a cell of the subblock (R333, R334). -/
theorem bptcSubblock_flips (code : HamCode) (b : BptcState) (cells : List Nat) :
    (bptcSubblock code b cells).flips =
      b.flips ++ ((hamCore code (cells.map fun i => b.matrix.getD i false)).positions.map fun j => bptcPosition (cells.getD j 0)) := by
  simp [bptcSubblock, List.map_map, Function.comp_def]

theorem bptcSubblock_length_le (code : HamCode) (b : BptcState) (cells : List Nat) :
    (bptcSubblock code b cells).flips.length ≤ b.flips.length + 1 := by
  rw [bptcSubblock_flips, List.length_append, List.length_map]
  have := hamCore_length_le code (cells.map fun i => b.matrix.getD i false)
  omega

theorem bptcFold_length_le (code : HamCode) (blocks : List (List Nat)) (b : BptcState) :
    (blocks.foldl (bptcSubblock code) b).flips.length ≤ b.flips.length + blocks.length := by
  induction blocks generalizing b with
  | nil => simp
  | cons c blocks ih =>
    have h₁ := ih (bptcSubblock code b c)
    have h₂ := bptcSubblock_length_le code b c
    simp only [List.foldl_cons, List.length_cons]
    omega

theorem bptcFold_flips_lt (code : HamCode) (blocks : List (List Nat)) (b : BptcState) (h : ∀ q ∈ b.flips, q < 196) :
    ∀ q ∈ (blocks.foldl (bptcSubblock code) b).flips, q < 196 := by
  induction blocks generalizing b with
  | nil => exact h
  | cons c blocks ih =>
    refine ih _ ?_
    intro q hq
    rw [bptcSubblock_flips, List.mem_append, List.mem_map] at hq
    rcases hq with hq | ⟨j, -, rfl⟩
    · exact h q hq
    · exact bptcPosition_lt _

theorem bptcPasses_flips_lt (w : List Bool) : ∀ q ∈ (bptcPasses w).flips, q < 196 :=
  bptcFold_flips_lt _ _ _ (bptcFold_flips_lt _ _ _ (by simp))

/-- At most 15 + 9 flips happen (R334). -/
theorem bptcPasses_length_le (w : List Bool) : (bptcPasses w).flips.length ≤ 24 := by
  unfold bptcPasses
  simp only
  have h₁ := bptcFold_length_le ham13 ((List.range 15).map bptcColumn)
    { matrix := bptcDeinterleave w, flips := [], anyUnc := false }
  have h₂ := bptcFold_length_le ham15 ((List.range 9).map bptcRow)
    (((List.range 15).map bptcColumn).foldl (bptcSubblock ham13)
      { matrix := bptcDeinterleave w, flips := [], anyUnc := false })
  simp only [List.length_map, List.length_range, List.length_nil] at h₁ h₂
  omega

/-- Everything BPTC can answer (R335). -/
theorem bptcDecode_cases (w : List Bool) :
    ((bptcPasses w).anyUnc = true ∧ bptcDecode w = { status := .uncorrectable, positions := (bptcPasses w).flips }) ∨
    ((bptcPasses w).flips = [] ∧ bptcDecode w = { status := .noError, positions := [] }) ∨
    ((bptcPasses w).flips ≠ [] ∧ bptcDecode w = { status := .corrected, positions := (bptcPasses w).flips }) := by
  unfold bptcDecode
  simp only
  split_ifs with h₁ h₂
  · exact .inl ⟨h₁, rfl⟩
  · exact .inr (.inl ⟨h₂, rfl⟩)
  · exact .inr (.inr ⟨h₂, rfl⟩)

theorem bptc_positions_lt (w : List Bool) : ∀ q ∈ (bptcDecode w).positions, q < 196 := by
  rcases bptcDecode_cases w with ⟨-, h⟩ | ⟨-, h⟩ | ⟨-, h⟩
  · rw [h]; exact bptcPasses_flips_lt w
  · simp [h]
  · rw [h]; exact bptcPasses_flips_lt w

/-! CRC. -/

theorem CrcCode.scan_lt {c : CrcCode} {syn i : Nat} (h : c.scan syn = some i) : i < c.msgLen + c.crcLen :=
  List.mem_range.1 (List.mem_of_find?_eq_some h)

/-- Everything the single-bit search can answer (R366). -/
theorem CrcCode.scanRepair_cases (c : CrcCode) (syn : Nat) :
    (∃ i, c.scan syn = some i ∧ c.scanRepair syn = { status := .corrected, positions := [i] }) ∨
    (c.scan syn = none ∧ c.scanRepair syn = { status := .uncorrectable, positions := [] }) := by
  unfold CrcCode.scanRepair
  split
  · exact .inl ⟨_, ‹_›, rfl⟩
  · exact .inr ⟨‹_›, rfl⟩

/-- Everything GENERIC mode can answer (R367). -/
theorem crcGeneric_cases (c : CrcCode) (acceptInverted inbound : Bool) (w : List Bool) :
    (c.syndrome w = 0 ∧ crcGeneric c acceptInverted inbound w = { status := .noError, positions := [] }) ∨
    (c.syndrome w ≠ 0 ∧ acceptInverted = true ∧ inbound = true ∧ c.syndrome w = mask c.crcLen ∧
      crcGeneric c acceptInverted inbound w = { status := .passInverted, positions := [] }) ∨
    (c.syndrome w ≠ 0 ∧ ¬ (acceptInverted = true ∧ inbound = true ∧ c.syndrome w = mask c.crcLen) ∧
      crcGeneric c acceptInverted inbound w = c.scanRepair (c.syndrome w)) := by
  unfold crcGeneric
  simp only
  split_ifs with h₁ h₂
  · exact .inl ⟨h₁, rfl⟩
  · simp only [Bool.and_eq_true, beq_iff_eq] at h₂
    exact .inr (.inl ⟨h₁, h₂.1.1, h₂.1.2, h₂.2, rfl⟩)
  · simp only [Bool.and_eq_true, beq_iff_eq] at h₂
    exact .inr (.inr ⟨h₁, fun h => h₂ ⟨⟨h.1, h.2.1⟩, h.2.2⟩, rfl⟩)

/-- Everything FLEETSYNC mode can answer (R369). -/
theorem crcFleetsync_cases (c : CrcCode) (w : List Bool) :
    (c.syndrome w = 0 ∧ parity (w.take (c.msgLen + c.crcLen + 1)) = 0 ∧
      crcFleetsync c w = { status := .noError, positions := [] }) ∨
    (c.syndrome w = 0 ∧ parity (w.take (c.msgLen + c.crcLen + 1)) ≠ 0 ∧
      crcFleetsync c w = { status := .failParity, positions := [] }) ∨
    (c.syndrome w ≠ 0 ∧ parity (w.take (c.msgLen + c.crcLen + 1)) = 0 ∧
      crcFleetsync c w = { status := .uncorrectable, positions := [] }) ∨
    (c.syndrome w ≠ 0 ∧ parity (w.take (c.msgLen + c.crcLen + 1)) ≠ 0 ∧
      crcFleetsync c w = c.scanRepair (c.syndrome w)) := by
  unfold crcFleetsync
  simp only
  split_ifs with h₁ h₂ h₂
  · exact .inl ⟨h₁, h₂, rfl⟩
  · exact .inr (.inl ⟨h₁, h₂, rfl⟩)
  · exact .inr (.inr (.inl ⟨h₁, h₂, rfl⟩))
  · exact .inr (.inr (.inr ⟨h₁, h₂, rfl⟩))

/-- Everything RESIDUAL_MAP mode can answer (R368). -/
theorem crcResidualMap_cases (c : CrcCode) (pairs : List (Nat × List Nat)) (w : List Bool) :
    (c.syndrome w = 0 ∧ crcResidualMap c pairs w = { status := .noError, positions := [] }) ∨
    (∃ e ∈ pairs, c.syndrome w ≠ 0 ∧ e.1 = c.syndrome w ∧
      crcResidualMap c pairs w = { status := .corrected, positions := e.2 }) ∨
    (c.syndrome w ≠ 0 ∧ (∀ e ∈ pairs, e.1 ≠ c.syndrome w) ∧
      crcResidualMap c pairs w = { status := .uncorrectable, positions := [] }) := by
  unfold crcResidualMap
  simp only
  split_ifs with h₁
  · exact .inl ⟨h₁, rfl⟩
  · split
    · rename_i e he
      exact .inr (.inl ⟨e, List.mem_of_find?_eq_some he, h₁, by simpa using List.find?_some he, rfl⟩)
    · rename_i he
      exact .inr (.inr ⟨h₁, fun e hm => by simpa using List.find?_eq_none.1 he e hm, rfl⟩)

/-! RSDEC. -/

/-- Everything the solver can answer (R212). -/
theorem rsSolve_cases (g : GfSlot) (c : RsConfig) (r : List Nat) :
    ((∀ v ∈ g.syndromes c.nsyn r, v = 0) ∧ rsSolve g c r = { status := .noError, errors := [] }) ∨
    ((∃ v ∈ g.syndromes c.nsyn r, v ≠ 0) ∧
      ((∃ errors, locateErrors g c (g.syndromes c.nsyn r) = some errors ∧
          rsSolve g c r = { status := .corrected, errors := errors }) ∨
        (locateErrors g c (g.syndromes c.nsyn r) = none ∧
          rsSolve g c r = { status := .uncorrectable, errors := [] }))) := by
  unfold rsSolve
  simp only
  split_ifs with h
  · exact .inl ⟨by simpa [List.all_eq_true] using h, rfl⟩
  · refine .inr ⟨by simpa [List.all_eq_true] using h, ?_⟩
    split
    · exact .inr ⟨‹_›, rfl⟩
    · exact .inl ⟨_, ‹_›, rfl⟩

/-- What RSDEC's policy does with the received word (R213). -/
theorem rsDecode_cases (policy : InvalidSymbolPolicy) (g : GfSlot) (c : RsConfig) (r : List Nat) :
    (policy = .reject ∧ (∃ v ∈ r, symbolValid g c v = false) ∧
      rsDecode policy g c r = { status := .invalidInput, errors := [] }) ∨
    ((policy = .ignore ∨ ∀ v ∈ r, symbolValid g c v = true) ∧
      rsDecode policy g c r = rsSolve g c (workingCopy g c r)) := by
  have hcopy : (∀ v ∈ r, symbolValid g c v = true) → workingCopy g c r = r := by
    intro h
    unfold workingCopy
    rw [List.map_congr_left (g := id) (by intro v hv; simp [h v hv]), List.map_id]
  cases policy with
  | ignore => exact .inr ⟨.inl rfl, rfl⟩
  | reject =>
    by_cases h : ∀ v ∈ r, symbolValid g c v = true
    · refine .inr ⟨.inr h, ?_⟩
      rw [hcopy h]
      have hall : r.all (symbolValid g c) = true := List.all_eq_true.2 h
      simp [rsDecode, hall]
    · refine .inl ⟨rfl, by simpa using h, ?_⟩
      have : r.all (symbolValid g c) = false := by
        rw [Bool.eq_false_iff]
        simpa [List.all_eq_true] using h
      simp [rsDecode, this]

theorem length_forney {g : GfSlot} {locator synd positions : List Nat} {len : Nat} {errors : List (Nat × Nat)}
    (h : g.forney locator len synd positions = some errors) : errors.map Prod.fst = positions := by
  unfold GfSlot.forney at h
  simp only at h
  induction positions generalizing errors with
  | nil => simp at h; simp [h]
  | cons p ps ih =>
    simp only [List.mapM_cons, Option.bind_eq_bind, Option.bind_eq_some_iff, Option.map_eq_some_iff,
      Option.pure_def, Option.some.injEq] at h
    obtain ⟨e, ⟨y, -, rfl⟩, es, hes, rfl⟩ := h
    simp [ih hes]

/-- The Chien search lists its positions in falling order, each below N (R217). -/
theorem GfSlot.chien_pairwise (g : GfSlot) (locator : List Nat) : (g.chien locator).Pairwise (· > ·) := by
  unfold GfSlot.chien
  rw [List.pairwise_filterMap]
  refine List.Pairwise.imp_of_mem ?_ List.pairwise_lt_range
  intro a b ha hb hab p hp q hq
  rw [List.mem_range] at ha hb
  split at hp
  · split at hq
    · cases hp
      cases hq
      have e₁ : (g.order - (a + 1)) % g.order = g.order - (a + 1) := Nat.mod_eq_of_lt (by omega)
      have e₂ : (g.order - (b + 1)) % g.order = g.order - (b + 1) := Nat.mod_eq_of_lt (by omega)
      rw [e₁, e₂]
      show g.order - (b + 1) < g.order - (a + 1)
      omega
    · cases hq
  · cases hp

/-- What the located errors are: at most t of them, positions rising and inside the code, values 1 in a binary code
(R216, R217, R219, R220). -/
theorem locateErrors_spec {g : GfSlot} {c : RsConfig} {synd : List Nat} {errors : List (Nat × Nat)}
    (h : locateErrors g c synd = some errors) :
    errors.length = (g.berlekampMassey synd).len ∧ errors.length ≤ c.t ∧
      (errors.map Prod.fst).Pairwise (· < ·) ∧ (∀ e ∈ errors, e.1 < c.n) ∧
      (c.binary = true → ∀ e ∈ errors, e.2 = 1) := by
  unfold locateErrors at h
  simp only at h
  split_ifs at h with h₁ h₂
  split at h
  · cases h
  · rename_i errs hf
    split_ifs at h with h₃ h₄
    cases h
    have hp := length_forney hf
    have hl : errs.length = (g.berlekampMassey synd).len := by
      have := congrArg List.length hp
      rw [List.length_map] at this
      simpa [this] using h₂
    refine ⟨by simpa using hl, by simp; omega, ?_, ?_, ?_⟩
    · rw [List.map_reverse, hp, List.pairwise_reverse]
      exact g.chien_pairwise _
    · intro e he
      rw [List.mem_reverse] at he
      by_contra hn
      exact h₃ (List.any_eq_true.2 ⟨e, he, by simpa using hn⟩)
    · intro hb e he
      rw [List.mem_reverse] at he
      by_contra hn
      exact h₄ (by rw [hb, Bool.true_and]; exact List.any_eq_true.2 ⟨e, he, by simpa using hn⟩)

/-- The register length never falls (R216). -/
theorem GfSlot.bmStep_len_le (g : GfSlot) (synd : List Nat) (b : BmState) (r : Nat) : b.len ≤ (g.bmStep synd b r).len := by
  unfold GfSlot.bmStep
  simp only
  split_ifs
  · exact le_rfl
  · show b.len ≤ r + 1 - b.len
    omega
  · exact le_rfl

end Sys2Proof
end

