-- ==== Sys2Proof/Laws/Memory.lean ====
section
/-! SUPPORT. The laws of the sparse spaces: what a read after a write gives, that every operation keeps the canonical form,
and that canonical spaces with equal contents are equal. -/

namespace Sys2Proof.Machine

variable {α : Type} [Inhabited α]

@[simp] theorem Mem.read_nil (a : Nat) : Mem.read ([] : Mem α) a = unlistedCell α := rfl

theorem Mem.read_cons (k a : Nat) (v : α) (m : Mem α) :
    Mem.read ((k, v) :: m) a = if a = k then v else Mem.read m a := rfl

theorem Mem.read_erase (m : Mem α) (a b : Nat) :
    (m.erase a).read b = if b = a then unlistedCell α else m.read b := by
  induction m with
  | nil => simp [Mem.erase]
  | cons c m ih =>
    obtain ⟨k, v⟩ := c
    simp only [Mem.erase]
    by_cases hak : a = k
    · subst hak
      rw [if_pos rfl, ih, Mem.read_cons]
      by_cases hb : b = a <;> simp [hb]
    · rw [if_neg hak, Mem.read_cons, Mem.read_cons, ih]
      by_cases hb : b = k
      · subst hb
        simp [Ne.symm hak]
      · simp [hb]

omit [Inhabited α] in
/-- No cell is listed at an address. -/
def Mem.absent (m : Mem α) (a : Nat) : Prop := ∀ c ∈ m, c.1 ≠ a

omit [Inhabited α] in
theorem Mem.absent_erase (m : Mem α) (a : Nat) : (m.erase a).absent a := by
  induction m with
  | nil => simp [Mem.erase, Mem.absent]
  | cons c m ih =>
    obtain ⟨k, v⟩ := c
    simp only [Mem.erase]
    by_cases hak : a = k
    · rw [if_pos hak]; exact ih
    · rw [if_neg hak]
      intro c hc
      rcases List.mem_cons.1 hc with rfl | hc
      · exact fun h => hak h.symm
      · exact ih c hc

theorem Mem.read_insert (m : Mem α) (a b : Nat) (v : α) (h : m.absent a) :
    (m.insert a v).read b = if b = a then v else m.read b := by
  induction m with
  | nil => simp [Mem.insert, Mem.read_cons]
  | cons c m ih =>
    obtain ⟨k, x⟩ := c
    have hk : k ≠ a := h (k, x) (by simp)
    have hm : Mem.absent m a := fun c hc => h c (by simp [hc])
    simp only [Mem.insert]
    by_cases hlt : a < k
    · rw [if_pos hlt, Mem.read_cons]
    · rw [if_neg hlt, Mem.read_cons, Mem.read_cons, ih hm]
      by_cases hb : b = k
      · subst hb; simp [hk]
      · simp [hb]

variable [DecidableEq α]

/-- A read after a write gives the value written at its address, and every other cell as before. -/
@[simp] theorem Mem.read_write (m : Mem α) (a b : Nat) (v : α) :
    (m.write a v).read b = if b = a then v else m.read b := by
  unfold Mem.write
  by_cases hv : v = unlistedCell α
  · rw [if_pos hv, Mem.read_erase, hv]
  · rw [if_neg hv, Mem.read_insert _ _ _ _ (Mem.absent_erase m a), Mem.read_erase]
    by_cases hb : b = a <;> simp [hb]

/-- A run written from an address on: cell a holds the run's cell a - lo where it lies in the run, and is as before
elsewhere. -/
theorem Mem.read_writeRun (vs : List α) (m : Mem α) (lo a : Nat) :
    (m.writeRun lo vs).read a = if lo ≤ a ∧ a < lo + vs.length then vs.getD (a - lo) default else m.read a := by
  induction vs generalizing m lo with
  | nil =>
    have h : ¬ (lo ≤ a ∧ a < lo + ([] : List α).length) := by simp
    rw [if_neg h]; rfl
  | cons v vs ih =>
    rw [Mem.writeRun, ih, Mem.read_write]
    by_cases h₁ : a = lo
    · subst h₁
      have : ¬ (a + 1 ≤ a ∧ a < a + 1 + vs.length) := by omega
      simp
    · by_cases h₂ : lo + 1 ≤ a ∧ a < lo + 1 + vs.length
      · have h₃ : lo ≤ a ∧ a < lo + (v :: vs).length := by simp; omega
        have e : a - lo = (a - (lo + 1)) + 1 := by omega
        rw [if_pos h₂, if_pos h₃, e]
        simp
      · have h₃ : ¬ (lo ≤ a ∧ a < lo + (v :: vs).length) := by simp; omega
        rw [if_neg h₂, if_neg h₃, if_neg h₁]

theorem Mem.read_ofCells (vs : List α) (lo a : Nat) :
    (Mem.ofCells lo vs).read a = if lo ≤ a ∧ a < lo + vs.length then vs.getD (a - lo) default else unlistedCell α := by
  induction vs generalizing lo with
  | nil =>
    have h : ¬ (lo ≤ a ∧ a < lo + ([] : List α).length) := by simp
    rw [if_neg h]; rfl
  | cons v vs ih =>
    simp only [Mem.ofCells]
    have step : (if v = unlistedCell α then Mem.ofCells (lo + 1) vs else (lo, v) :: Mem.ofCells (lo + 1) vs).read a =
        if a = lo then v else (Mem.ofCells (lo + 1) vs).read a := by
      by_cases hv : v = unlistedCell α
      · rw [if_pos hv]
        by_cases ha : a = lo
        · subst ha
          rw [ih, if_neg (by omega), if_pos rfl, hv]
        · rw [if_neg ha]
      · rw [if_neg hv, Mem.read_cons]
    rw [step, ih]
    by_cases h₁ : a = lo
    · subst h₁; simp
    · by_cases h₂ : lo + 1 ≤ a ∧ a < lo + 1 + vs.length
      · have h₃ : lo ≤ a ∧ a < lo + (v :: vs).length := by simp; omega
        have e : a - lo = (a - (lo + 1)) + 1 := by omega
        rw [if_neg h₁, if_pos h₂, if_pos h₃, e]
        simp
      · have h₃ : ¬ (lo ≤ a ∧ a < lo + (v :: vs).length) := by simp; omega
        rw [if_neg h₁, if_neg h₂, if_neg h₃]

/-! The canonical form. -/

theorem Mem.sortedFrom_mono {lo lo' : Nat} (h : lo' ≤ lo) {m : Mem α} (hm : m.sortedFrom lo = true) :
    m.sortedFrom lo' = true := by
  cases m with
  | nil => rfl
  | cons c m =>
    obtain ⟨k, v⟩ := c
    simp only [Mem.sortedFrom, Bool.and_eq_true, decide_eq_true_eq] at hm ⊢
    exact ⟨⟨by omega, hm.1.2⟩, hm.2⟩

theorem Mem.sortedFrom_erase {lo : Nat} {m : Mem α} (a : Nat) (hm : m.sortedFrom lo = true) :
    (m.erase a).sortedFrom lo = true := by
  induction m generalizing lo with
  | nil => rfl
  | cons c m ih =>
    obtain ⟨k, v⟩ := c
    simp only [Mem.sortedFrom, Bool.and_eq_true, decide_eq_true_eq] at hm
    simp only [Mem.erase]
    by_cases hak : a = k
    · rw [if_pos hak]
      exact Mem.sortedFrom_mono (by omega) (ih hm.2)
    · rw [if_neg hak]
      simp only [Mem.sortedFrom, Bool.and_eq_true, decide_eq_true_eq]
      exact ⟨hm.1, ih hm.2⟩

theorem Mem.sortedFrom_insert {lo : Nat} {m : Mem α} {a : Nat} {v : α} (hv : v ≠ unlistedCell α) (hlo : lo ≤ a)
    (ha : m.absent a) (hm : m.sortedFrom lo = true) : (m.insert a v).sortedFrom lo = true := by
  induction m generalizing lo with
  | nil => simp [Mem.insert, Mem.sortedFrom, hv, hlo]
  | cons c m ih =>
    obtain ⟨k, x⟩ := c
    have hk : k ≠ a := ha (k, x) (by simp)
    simp only [Mem.sortedFrom, Bool.and_eq_true, decide_eq_true_eq] at hm
    simp only [Mem.insert]
    by_cases hlt : a < k
    · rw [if_pos hlt]
      simp only [Mem.sortedFrom, Bool.and_eq_true, decide_eq_true_eq]
      exact ⟨⟨hlo, hv⟩, ⟨by omega, hm.1.2⟩, hm.2⟩
    · rw [if_neg hlt]
      simp only [Mem.sortedFrom, Bool.and_eq_true, decide_eq_true_eq]
      exact ⟨hm.1, ih (by omega) (fun c hc => ha c (by simp [hc])) hm.2⟩

omit [Inhabited α] [DecidableEq α] in
theorem Mem.mem_erase {m : Mem α} {a : Nat} {c : Nat × α} (h : c ∈ m.erase a) : c ∈ m := by
  induction m with
  | nil => exact h
  | cons d m ih =>
    obtain ⟨k, v⟩ := d
    simp only [Mem.erase] at h
    by_cases hak : a = k
    · rw [if_pos hak] at h; exact List.mem_cons_of_mem _ (ih h)
    · rw [if_neg hak] at h
      rcases List.mem_cons.1 h with rfl | h
      · exact List.mem_cons_self
      · exact List.mem_cons_of_mem _ (ih h)

omit [Inhabited α] [DecidableEq α] in
theorem Mem.mem_insert {m : Mem α} {a : Nat} {v : α} {c : Nat × α} (h : c ∈ m.insert a v) : c = (a, v) ∨ c ∈ m := by
  induction m with
  | nil => simpa [Mem.insert] using h
  | cons d m ih =>
    obtain ⟨k, x⟩ := d
    simp only [Mem.insert] at h
    by_cases hlt : a < k
    · rw [if_pos hlt] at h
      rcases List.mem_cons.1 h with h | h
      · exact .inl h
      · exact .inr h
    · rw [if_neg hlt] at h
      rcases List.mem_cons.1 h with rfl | h
      · exact .inr List.mem_cons_self
      · rcases ih h with h | h
        · exact .inl h
        · exact .inr (List.mem_cons_of_mem _ h)

theorem Mem.wf_iff {size : Nat} {m : Mem α} :
    m.wf size = true ↔ m.sortedFrom 0 = true ∧ ∀ c ∈ m, c.1 < size := by
  simp [Mem.wf, List.all_eq_true]

/-- A write inside the space keeps the canonical form. -/
theorem Mem.wf_write {size a : Nat} {m : Mem α} (v : α) (ha : a < size) (hm : m.wf size = true) :
    (m.write a v).wf size = true := by
  rw [Mem.wf_iff] at hm ⊢
  unfold Mem.write
  by_cases hv : v = unlistedCell α
  · rw [if_pos hv]
    exact ⟨Mem.sortedFrom_erase a hm.1, fun c hc => hm.2 c (Mem.mem_erase hc)⟩
  · rw [if_neg hv]
    refine ⟨Mem.sortedFrom_insert hv (by omega) (Mem.absent_erase m a) (Mem.sortedFrom_erase a hm.1), ?_⟩
    intro c hc
    rcases Mem.mem_insert hc with rfl | hc
    · exact ha
    · exact hm.2 c (Mem.mem_erase hc)

/-- A run written inside the space keeps the canonical form. -/
theorem Mem.wf_writeRun {size : Nat} (vs : List α) {m : Mem α} {lo : Nat} (h : lo + vs.length ≤ size)
    (hm : m.wf size = true) : (m.writeRun lo vs).wf size = true := by
  induction vs generalizing m lo with
  | nil => exact hm
  | cons v vs ih =>
    simp only [List.length_cons] at h
    exact ih (by omega) (Mem.wf_write v (by omega) hm)

theorem Mem.sortedFrom_ofCells (vs : List α) (lo : Nat) : (Mem.ofCells lo vs).sortedFrom lo = true := by
  induction vs generalizing lo with
  | nil => rfl
  | cons v vs ih =>
    simp only [Mem.ofCells]
    by_cases hv : v = unlistedCell α
    · rw [if_pos hv]; exact Mem.sortedFrom_mono (by omega) (ih (lo + 1))
    · rw [if_neg hv]; simp [Mem.sortedFrom, hv, ih]

theorem Mem.mem_ofCells {vs : List α} {lo : Nat} {c : Nat × α} (h : c ∈ Mem.ofCells lo vs) :
    c.1 < lo + vs.length := by
  induction vs generalizing lo with
  | nil => simp [Mem.ofCells] at h
  | cons v vs ih =>
    simp only [Mem.ofCells] at h
    simp only [List.length_cons]
    by_cases hv : v = unlistedCell α
    · rw [if_pos hv] at h; have := ih h; omega
    · rw [if_neg hv] at h
      rcases List.mem_cons.1 h with rfl | h
      · simp
      · have := ih h; omega

/-- A drawn space is in canonical form. -/
theorem Mem.wf_ofCells {size : Nat} (vs : List α) (h : vs.length ≤ size) : (Mem.ofCells 0 vs).wf size = true :=
  Mem.wf_iff.2 ⟨Mem.sortedFrom_ofCells vs 0, fun _ hc => lt_of_lt_of_le (Mem.mem_ofCells hc) (by omega)⟩

theorem Mem.read_of_sortedFrom {m : Mem α} {lo a : Nat} (hm : m.sortedFrom lo = true) (h : a < lo) :
    m.read a = unlistedCell α := by
  induction m generalizing lo with
  | nil => rfl
  | cons c m ih =>
    obtain ⟨k, v⟩ := c
    simp only [Mem.sortedFrom, Bool.and_eq_true, decide_eq_true_eq] at hm
    rw [Mem.read_cons, if_neg (by omega)]
    exact ih hm.2 (by omega)

theorem Mem.eq_of_sortedFrom {m m' : Mem α} {lo : Nat} (hm : m.sortedFrom lo = true) (hm' : m'.sortedFrom lo = true)
    (h : ∀ a, m.read a = m'.read a) : m = m' := by
  induction m generalizing lo m' with
  | nil =>
    cases m' with
    | nil => rfl
    | cons c m' =>
      obtain ⟨k, v⟩ := c
      simp only [Mem.sortedFrom, Bool.and_eq_true, decide_eq_true_eq] at hm'
      have := h k
      rw [Mem.read_nil, Mem.read_cons, if_pos rfl] at this
      exact absurd this.symm hm'.1.2
  | cons c m ih =>
    obtain ⟨k, v⟩ := c
    cases m' with
    | nil =>
      simp only [Mem.sortedFrom, Bool.and_eq_true, decide_eq_true_eq] at hm
      have := h k
      rw [Mem.read_nil, Mem.read_cons, if_pos rfl] at this
      exact absurd this hm.1.2
    | cons c' m' =>
      obtain ⟨k', v'⟩ := c'
      simp only [Mem.sortedFrom, Bool.and_eq_true, decide_eq_true_eq] at hm hm'
      have hk : k = k' := by
        rcases lt_trichotomy k k' with hlt | heq | hgt
        · have := h k
          rw [Mem.read_cons, if_pos rfl, Mem.read_cons, if_neg (by omega),
            Mem.read_of_sortedFrom hm'.2 (by omega)] at this
          exact absurd this hm.1.2
        · exact heq
        · have := h k'
          rw [Mem.read_cons, if_neg (by omega), Mem.read_of_sortedFrom hm.2 (by omega), Mem.read_cons,
            if_pos rfl] at this
          exact absurd this.symm hm'.1.2
      subst hk
      have hv : v = v' := by have := h k; simpa [Mem.read_cons] using this
      subst hv
      have hr : ∀ a, Mem.read m a = Mem.read m' a := by
        intro a
        by_cases ha : a = k
        · rw [Mem.read_of_sortedFrom hm.2 (by omega), Mem.read_of_sortedFrom hm'.2 (by omega)]
        · have := h a
          rwa [Mem.read_cons, Mem.read_cons, if_neg ha, if_neg ha] at this
      rw [ih hm.2 hm'.2 hr]

/-- Canonical spaces with equal contents are equal data. -/
theorem Mem.eq_of_wf {size size' : Nat} {m m' : Mem α} (hm : m.wf size = true) (hm' : m'.wf size' = true)
    (h : ∀ a, m.read a = m'.read a) : m = m' :=
  Mem.eq_of_sortedFrom (Mem.wf_iff.1 hm).1 (Mem.wf_iff.1 hm').1 h

/-- A canonical space reads as unlisted outside itself. -/
theorem Mem.read_outside {size a : Nat} {m : Mem α} (hm : m.wf size = true) (ha : size ≤ a) :
    m.read a = unlistedCell α := by
  have h := (Mem.wf_iff.1 hm).2
  clear hm
  induction m with
  | nil => rfl
  | cons c m ih =>
    obtain ⟨k, v⟩ := c
    have hk : k < size := h (k, v) (by simp)
    rw [Mem.read_cons, if_neg (by omega)]
    exact ih fun c hc => h c (by simp [hc])

end Sys2Proof.Machine
end

