-- ==== Sys2Proof/Laws/State.lean ====
section
/-! SUPPORT. What each field is after each shared update, so that no proof unfolds a record update. -/

namespace Sys2Proof.Machine

/-! State.setRes -/

@[simp] theorem State.setRes_cfg (s : State) (v : BitVec 32) : (s.setRes v).cfg = s.cfg := rfl

@[simp] theorem State.setRes_port (s : State) (v : BitVec 32) : (s.setRes v).port = s.port := rfl

@[simp] theorem State.setRes_res (s : State) (v : BitVec 32) : (s.setRes v).res = v := rfl

@[simp] theorem State.setRes_status (s : State) (v : BitVec 32) : (s.setRes v).status = s.status := rfl

@[simp] theorem State.setRes_ncorr (s : State) (v : BitVec 32) : (s.setRes v).ncorr = s.ncorr := rfl

@[simp] theorem State.setRes_ecnt (s : State) (v : BitVec 32) : (s.setRes v).ecnt = s.ecnt := rfl

@[simp] theorem State.setRes_epos (s : State) (v : BitVec 32) : (s.setRes v).epos = s.epos := rfl

@[simp] theorem State.setRes_fault (s : State) (v : BitVec 32) : (s.setRes v).fault = s.fault := rfl

@[simp] theorem State.setRes_fcmd (s : State) (v : BitVec 32) : (s.setRes v).fcmd = s.fcmd := rfl

@[simp] theorem State.setRes_buf (s : State) (v : BitVec 32) : (s.setRes v).buf = s.buf := rfl

@[simp] theorem State.setRes_sym (s : State) (v : BitVec 32) : (s.setRes v).sym = s.sym := rfl

@[simp] theorem State.setRes_idx (s : State) (v : BitVec 32) : (s.setRes v).idx = s.idx := rfl

/-! State.setResNat -/

@[simp] theorem State.setResNat_cfg (s : State) (v : Nat) : (s.setResNat v).cfg = s.cfg := rfl

@[simp] theorem State.setResNat_port (s : State) (v : Nat) : (s.setResNat v).port = s.port := rfl

@[simp] theorem State.setResNat_res (s : State) (v : Nat) : (s.setResNat v).res = BitVec.ofNat 32 v := rfl

@[simp] theorem State.setResNat_status (s : State) (v : Nat) : (s.setResNat v).status = s.status := rfl

@[simp] theorem State.setResNat_ncorr (s : State) (v : Nat) : (s.setResNat v).ncorr = s.ncorr := rfl

@[simp] theorem State.setResNat_ecnt (s : State) (v : Nat) : (s.setResNat v).ecnt = s.ecnt := rfl

@[simp] theorem State.setResNat_epos (s : State) (v : Nat) : (s.setResNat v).epos = s.epos := rfl

@[simp] theorem State.setResNat_fault (s : State) (v : Nat) : (s.setResNat v).fault = s.fault := rfl

@[simp] theorem State.setResNat_fcmd (s : State) (v : Nat) : (s.setResNat v).fcmd = s.fcmd := rfl

@[simp] theorem State.setResNat_buf (s : State) (v : Nat) : (s.setResNat v).buf = s.buf := rfl

@[simp] theorem State.setResNat_sym (s : State) (v : Nat) : (s.setResNat v).sym = s.sym := rfl

@[simp] theorem State.setResNat_idx (s : State) (v : Nat) : (s.setResNat v).idx = s.idx := rfl

/-! State.writeBit -/

@[simp] theorem State.writeBit_cfg (s : State) (i : Nat) (v : Bool) : (s.writeBit i v).cfg = s.cfg := rfl

@[simp] theorem State.writeBit_port (s : State) (i : Nat) (v : Bool) : (s.writeBit i v).port = s.port := rfl

@[simp] theorem State.writeBit_res (s : State) (i : Nat) (v : Bool) : (s.writeBit i v).res = s.res := rfl

@[simp] theorem State.writeBit_status (s : State) (i : Nat) (v : Bool) : (s.writeBit i v).status = s.status := rfl

@[simp] theorem State.writeBit_ncorr (s : State) (i : Nat) (v : Bool) : (s.writeBit i v).ncorr = s.ncorr := rfl

@[simp] theorem State.writeBit_ecnt (s : State) (i : Nat) (v : Bool) : (s.writeBit i v).ecnt = s.ecnt := rfl

@[simp] theorem State.writeBit_epos (s : State) (i : Nat) (v : Bool) : (s.writeBit i v).epos = s.epos := rfl

@[simp] theorem State.writeBit_fault (s : State) (i : Nat) (v : Bool) : (s.writeBit i v).fault = s.fault := rfl

@[simp] theorem State.writeBit_fcmd (s : State) (i : Nat) (v : Bool) : (s.writeBit i v).fcmd = s.fcmd := rfl

@[simp] theorem State.writeBit_buf (s : State) (i : Nat) (v : Bool) : (s.writeBit i v).buf = s.buf.write i v := rfl

@[simp] theorem State.writeBit_sym (s : State) (i : Nat) (v : Bool) : (s.writeBit i v).sym = s.sym := rfl

@[simp] theorem State.writeBit_idx (s : State) (i : Nat) (v : Bool) : (s.writeBit i v).idx = s.idx := rfl

/-! State.writeBits -/

@[simp] theorem State.writeBits_cfg (s : State) (a : Nat) (bits : List Bool) : (s.writeBits a bits).cfg = s.cfg := rfl

@[simp] theorem State.writeBits_port (s : State) (a : Nat) (bits : List Bool) : (s.writeBits a bits).port = s.port := rfl

@[simp] theorem State.writeBits_res (s : State) (a : Nat) (bits : List Bool) : (s.writeBits a bits).res = s.res := rfl

@[simp] theorem State.writeBits_status (s : State) (a : Nat) (bits : List Bool) : (s.writeBits a bits).status = s.status := rfl

@[simp] theorem State.writeBits_ncorr (s : State) (a : Nat) (bits : List Bool) : (s.writeBits a bits).ncorr = s.ncorr := rfl

@[simp] theorem State.writeBits_ecnt (s : State) (a : Nat) (bits : List Bool) : (s.writeBits a bits).ecnt = s.ecnt := rfl

@[simp] theorem State.writeBits_epos (s : State) (a : Nat) (bits : List Bool) : (s.writeBits a bits).epos = s.epos := rfl

@[simp] theorem State.writeBits_fault (s : State) (a : Nat) (bits : List Bool) : (s.writeBits a bits).fault = s.fault := rfl

@[simp] theorem State.writeBits_fcmd (s : State) (a : Nat) (bits : List Bool) : (s.writeBits a bits).fcmd = s.fcmd := rfl

@[simp] theorem State.writeBits_buf (s : State) (a : Nat) (bits : List Bool) : (s.writeBits a bits).buf = s.buf.writeRun a bits := rfl

@[simp] theorem State.writeBits_sym (s : State) (a : Nat) (bits : List Bool) : (s.writeBits a bits).sym = s.sym := rfl

@[simp] theorem State.writeBits_idx (s : State) (a : Nat) (bits : List Bool) : (s.writeBits a bits).idx = s.idx := rfl

/-! State.bufWrite -/

@[simp] theorem State.bufWrite_cfg (s : State) (a n v : Nat) : (s.bufWrite a n v).cfg = s.cfg := rfl

@[simp] theorem State.bufWrite_port (s : State) (a n v : Nat) : (s.bufWrite a n v).port = s.port := rfl

@[simp] theorem State.bufWrite_res (s : State) (a n v : Nat) : (s.bufWrite a n v).res = s.res := rfl

@[simp] theorem State.bufWrite_status (s : State) (a n v : Nat) : (s.bufWrite a n v).status = s.status := rfl

@[simp] theorem State.bufWrite_ncorr (s : State) (a n v : Nat) : (s.bufWrite a n v).ncorr = s.ncorr := rfl

@[simp] theorem State.bufWrite_ecnt (s : State) (a n v : Nat) : (s.bufWrite a n v).ecnt = s.ecnt := rfl

@[simp] theorem State.bufWrite_epos (s : State) (a n v : Nat) : (s.bufWrite a n v).epos = s.epos := rfl

@[simp] theorem State.bufWrite_fault (s : State) (a n v : Nat) : (s.bufWrite a n v).fault = s.fault := rfl

@[simp] theorem State.bufWrite_fcmd (s : State) (a n v : Nat) : (s.bufWrite a n v).fcmd = s.fcmd := rfl

@[simp] theorem State.bufWrite_buf (s : State) (a n v : Nat) : (s.bufWrite a n v).buf = s.buf.writeRun a (natToBits n v) := rfl

@[simp] theorem State.bufWrite_sym (s : State) (a n v : Nat) : (s.bufWrite a n v).sym = s.sym := rfl

@[simp] theorem State.bufWrite_idx (s : State) (a n v : Nat) : (s.bufWrite a n v).idx = s.idx := rfl

/-! State.outcome -/

@[simp] theorem State.outcome_cfg (s : State) (st : DecodeStatus) (ps : List Nat) : (s.outcome st ps).cfg = s.cfg := rfl

@[simp] theorem State.outcome_port (s : State) (st : DecodeStatus) (ps : List Nat) : (s.outcome st ps).port = s.port := rfl

@[simp] theorem State.outcome_res (s : State) (st : DecodeStatus) (ps : List Nat) : (s.outcome st ps).res = s.res := rfl

@[simp] theorem State.outcome_status (s : State) (st : DecodeStatus) (ps : List Nat) : (s.outcome st ps).status = st.code := rfl

@[simp] theorem State.outcome_ncorr (s : State) (st : DecodeStatus) (ps : List Nat) : (s.outcome st ps).ncorr = BitVec.ofNat 32 ps.length := rfl

@[simp] theorem State.outcome_ecnt (s : State) (st : DecodeStatus) (ps : List Nat) : (s.outcome st ps).ecnt = BitVec.ofNat 8 ps.length := rfl

@[simp] theorem State.outcome_epos (s : State) (st : DecodeStatus) (ps : List Nat) : (s.outcome st ps).epos = s.epos.writeRun 0 (ps.map (BitVec.ofNat 32)) := rfl

@[simp] theorem State.outcome_fault (s : State) (st : DecodeStatus) (ps : List Nat) : (s.outcome st ps).fault = s.fault := rfl

@[simp] theorem State.outcome_fcmd (s : State) (st : DecodeStatus) (ps : List Nat) : (s.outcome st ps).fcmd = s.fcmd := rfl

@[simp] theorem State.outcome_buf (s : State) (st : DecodeStatus) (ps : List Nat) : (s.outcome st ps).buf = s.buf := rfl

@[simp] theorem State.outcome_sym (s : State) (st : DecodeStatus) (ps : List Nat) : (s.outcome st ps).sym = s.sym := rfl

@[simp] theorem State.outcome_idx (s : State) (st : DecodeStatus) (ps : List Nat) : (s.outcome st ps).idx = s.idx := rfl

/-! State.applyRepair -/

@[simp] theorem State.applyRepair_cfg (s : State) (place : Nat → Nat) (r : Repair) : (s.applyRepair place r).cfg = s.cfg := rfl

@[simp] theorem State.applyRepair_port (s : State) (place : Nat → Nat) (r : Repair) : (s.applyRepair place r).port = s.port := rfl

@[simp] theorem State.applyRepair_res (s : State) (place : Nat → Nat) (r : Repair) : (s.applyRepair place r).res = s.res := rfl

@[simp] theorem State.applyRepair_status (s : State) (place : Nat → Nat) (r : Repair) : (s.applyRepair place r).status = r.status.code := rfl

@[simp] theorem State.applyRepair_ncorr (s : State) (place : Nat → Nat) (r : Repair) : (s.applyRepair place r).ncorr = BitVec.ofNat 32 (r.positions.map place).length := rfl

@[simp] theorem State.applyRepair_ecnt (s : State) (place : Nat → Nat) (r : Repair) : (s.applyRepair place r).ecnt = BitVec.ofNat 8 (r.positions.map place).length := rfl

@[simp] theorem State.applyRepair_epos (s : State) (place : Nat → Nat) (r : Repair) : (s.applyRepair place r).epos = s.epos.writeRun 0 ((r.positions.map place).map (BitVec.ofNat 32)) := rfl

@[simp] theorem State.applyRepair_fault (s : State) (place : Nat → Nat) (r : Repair) : (s.applyRepair place r).fault = s.fault := rfl

@[simp] theorem State.applyRepair_fcmd (s : State) (place : Nat → Nat) (r : Repair) : (s.applyRepair place r).fcmd = s.fcmd := rfl

@[simp] theorem State.applyRepair_buf (s : State) (place : Nat → Nat) (r : Repair) : (s.applyRepair place r).buf = flipBits s.buf (r.positions.map place) := rfl

@[simp] theorem State.applyRepair_sym (s : State) (place : Nat → Nat) (r : Repair) : (s.applyRepair place r).sym = s.sym := rfl

@[simp] theorem State.applyRepair_idx (s : State) (place : Nat → Nat) (r : Repair) : (s.applyRepair place r).idx = s.idx := rfl

/-! State.enterFault -/

@[simp] theorem State.enterFault_cfg (s : State) (cause : FaultCause) (w : CmdWord) : (s.enterFault cause w).cfg = s.cfg := rfl

@[simp] theorem State.enterFault_port (s : State) (cause : FaultCause) (w : CmdWord) : (s.enterFault cause w).port = s.port := rfl

@[simp] theorem State.enterFault_res (s : State) (cause : FaultCause) (w : CmdWord) : (s.enterFault cause w).res = s.res := rfl

@[simp] theorem State.enterFault_status (s : State) (cause : FaultCause) (w : CmdWord) : (s.enterFault cause w).status = s.status := rfl

@[simp] theorem State.enterFault_ncorr (s : State) (cause : FaultCause) (w : CmdWord) : (s.enterFault cause w).ncorr = s.ncorr := rfl

@[simp] theorem State.enterFault_ecnt (s : State) (cause : FaultCause) (w : CmdWord) : (s.enterFault cause w).ecnt = s.ecnt := rfl

@[simp] theorem State.enterFault_epos (s : State) (cause : FaultCause) (w : CmdWord) : (s.enterFault cause w).epos = s.epos := rfl

@[simp] theorem State.enterFault_fault (s : State) (cause : FaultCause) (w : CmdWord) : (s.enterFault cause w).fault = cause.code := rfl

@[simp] theorem State.enterFault_fcmd (s : State) (cause : FaultCause) (w : CmdWord) : (s.enterFault cause w).fcmd = w := rfl

@[simp] theorem State.enterFault_buf (s : State) (cause : FaultCause) (w : CmdWord) : (s.enterFault cause w).buf = s.buf := rfl

@[simp] theorem State.enterFault_sym (s : State) (cause : FaultCause) (w : CmdWord) : (s.enterFault cause w).sym = s.sym := rfl

@[simp] theorem State.enterFault_idx (s : State) (cause : FaultCause) (w : CmdWord) : (s.enterFault cause w).idx = s.idx := rfl

/-! State.hostReset -/

@[simp] theorem State.hostReset_cfg (s : State) (d : Draws) : (s.hostReset d).cfg = s.cfg := rfl

@[simp] theorem State.hostReset_port (s : State) (d : Draws) : (s.hostReset d).port = s.port := rfl

@[simp] theorem State.hostReset_res (s : State) (d : Draws) : (s.hostReset d).res = 0 := rfl

@[simp] theorem State.hostReset_status (s : State) (d : Draws) : (s.hostReset d).status = statusNone := rfl

@[simp] theorem State.hostReset_ncorr (s : State) (d : Draws) : (s.hostReset d).ncorr = 0 := rfl

@[simp] theorem State.hostReset_ecnt (s : State) (d : Draws) : (s.hostReset d).ecnt = 0 := rfl

@[simp] theorem State.hostReset_epos (s : State) (d : Draws) : (s.hostReset d).epos = Mem.ofCells 0 (d.epos.take eposSize) := rfl

@[simp] theorem State.hostReset_fault (s : State) (d : Draws) : (s.hostReset d).fault = 0 := rfl

@[simp] theorem State.hostReset_fcmd (s : State) (d : Draws) : (s.hostReset d).fcmd = 0 := rfl

@[simp] theorem State.hostReset_buf (s : State) (d : Draws) : (s.hostReset d).buf = Mem.ofCells 0 (d.buf.take s.cfg.bufLen) := rfl

@[simp] theorem State.hostReset_sym (s : State) (d : Draws) : (s.hostReset d).sym = Mem.ofCells 0 (d.sym.take symSize) := rfl

@[simp] theorem State.hostReset_idx (s : State) (d : Draws) : (s.hostReset d).idx = Mem.ofCells 0 (d.idx.take idxSize) := rfl

/-! State.issue -/

@[simp] theorem State.issue_cfg (s : State) (w : CmdWord) : (s.issue w).cfg = s.cfg := rfl

@[simp] theorem State.issue_port (s : State) (w : CmdWord) : (s.issue w).port = .command w :: s.port := rfl

@[simp] theorem State.issue_res (s : State) (w : CmdWord) : (s.issue w).res = s.res := rfl

@[simp] theorem State.issue_status (s : State) (w : CmdWord) : (s.issue w).status = s.status := rfl

@[simp] theorem State.issue_ncorr (s : State) (w : CmdWord) : (s.issue w).ncorr = s.ncorr := rfl

@[simp] theorem State.issue_ecnt (s : State) (w : CmdWord) : (s.issue w).ecnt = s.ecnt := rfl

@[simp] theorem State.issue_epos (s : State) (w : CmdWord) : (s.issue w).epos = s.epos := rfl

@[simp] theorem State.issue_fault (s : State) (w : CmdWord) : (s.issue w).fault = s.fault := rfl

@[simp] theorem State.issue_fcmd (s : State) (w : CmdWord) : (s.issue w).fcmd = s.fcmd := rfl

@[simp] theorem State.issue_buf (s : State) (w : CmdWord) : (s.issue w).buf = s.buf := rfl

@[simp] theorem State.issue_sym (s : State) (w : CmdWord) : (s.issue w).sym = s.sym := rfl

@[simp] theorem State.issue_idx (s : State) (w : CmdWord) : (s.issue w).idx = s.idx := rfl

/-! State.applyRs -/

@[simp] theorem State.applyRs_cfg (s : State) (g : GfSlot) (c : RsConfig) (r : RsResult) :
    (s.applyRs g c r).cfg = s.cfg := rfl

@[simp] theorem State.applyRs_port (s : State) (g : GfSlot) (c : RsConfig) (r : RsResult) :
    (s.applyRs g c r).port = s.port := rfl

@[simp] theorem State.applyRs_res (s : State) (g : GfSlot) (c : RsConfig) (r : RsResult) :
    (s.applyRs g c r).res = s.res := rfl

@[simp] theorem State.applyRs_status (s : State) (g : GfSlot) (c : RsConfig) (r : RsResult) :
    (s.applyRs g c r).status = r.status.code := rfl

@[simp] theorem State.applyRs_ncorr (s : State) (g : GfSlot) (c : RsConfig) (r : RsResult) :
    (s.applyRs g c r).ncorr = BitVec.ofNat 32 (r.errors.map Prod.fst).length := rfl

@[simp] theorem State.applyRs_ecnt (s : State) (g : GfSlot) (c : RsConfig) (r : RsResult) :
    (s.applyRs g c r).ecnt = BitVec.ofNat 8 (r.errors.map Prod.fst).length := rfl

@[simp] theorem State.applyRs_epos (s : State) (g : GfSlot) (c : RsConfig) (r : RsResult) :
    (s.applyRs g c r).epos = s.epos.writeRun 0 ((r.errors.map Prod.fst).map (BitVec.ofNat 32)) := rfl

@[simp] theorem State.applyRs_fault (s : State) (g : GfSlot) (c : RsConfig) (r : RsResult) :
    (s.applyRs g c r).fault = s.fault := rfl

@[simp] theorem State.applyRs_fcmd (s : State) (g : GfSlot) (c : RsConfig) (r : RsResult) :
    (s.applyRs g c r).fcmd = s.fcmd := rfl

@[simp] theorem State.applyRs_buf (s : State) (g : GfSlot) (c : RsConfig) (r : RsResult) :
    (s.applyRs g c r).buf = s.buf := rfl

@[simp] theorem State.applyRs_sym (s : State) (g : GfSlot) (c : RsConfig) (r : RsResult) :
    (s.applyRs g c r).sym = correctSymbols s.sym (workingCopy g c (s.symbols c.n)) r.errors := rfl

@[simp] theorem State.applyRs_idx (s : State) (g : GfSlot) (c : RsConfig) (r : RsResult) :
    (s.applyRs g c r).idx = s.idx := rfl

/-! State.resetWith -/

@[simp] theorem State.resetWith_cfg (c : Config) (d : Draws) : (State.resetWith c d).cfg = c := rfl

@[simp] theorem State.resetWith_port (c : Config) (d : Draws) : (State.resetWith c d).port = [] := rfl

@[simp] theorem State.resetWith_res (c : Config) (d : Draws) : (State.resetWith c d).res = 0 := rfl

@[simp] theorem State.resetWith_status (c : Config) (d : Draws) : (State.resetWith c d).status = statusNone := rfl

@[simp] theorem State.resetWith_ncorr (c : Config) (d : Draws) : (State.resetWith c d).ncorr = 0 := rfl

@[simp] theorem State.resetWith_ecnt (c : Config) (d : Draws) : (State.resetWith c d).ecnt = 0 := rfl

@[simp] theorem State.resetWith_epos (c : Config) (d : Draws) : (State.resetWith c d).epos = Mem.ofCells 0 (d.epos.take eposSize) := rfl

@[simp] theorem State.resetWith_fault (c : Config) (d : Draws) : (State.resetWith c d).fault = 0 := rfl

@[simp] theorem State.resetWith_fcmd (c : Config) (d : Draws) : (State.resetWith c d).fcmd = 0 := rfl

@[simp] theorem State.resetWith_buf (c : Config) (d : Draws) : (State.resetWith c d).buf = Mem.ofCells 0 (d.buf.take c.bufLen) := rfl

@[simp] theorem State.resetWith_sym (c : Config) (d : Draws) : (State.resetWith c d).sym = Mem.ofCells 0 (d.sym.take symSize) := rfl

@[simp] theorem State.resetWith_idx (c : Config) (d : Draws) : (State.resetWith c d).idx = Mem.ofCells 0 (d.idx.take idxSize) := rfl

end Sys2Proof.Machine
end

