-- ==== Sys2Proof/Laws/Ops.lean ====
section
/-! SUPPORT. For each shared operation, once, everything it can do. -/

namespace Sys2Proof.Machine

/-! The halt and the running of a command. -/

theorem State.halted_iff (s : State) : s.halted = true ↔ s.fault ≠ 0 := by simp [State.halted]

@[simp] theorem State.halted_eq_false (s : State) : s.halted = false ↔ s.fault = 0 := by simp [State.halted]

/-- A halted block ignores every command (R424). -/
theorem runCommand_halted {s : State} (h : s.fault ≠ 0) (i : Instr) (e : Effect) : runCommand i s e = .next s := by
  have hh : s.halted = true := (State.halted_iff s).2 h
  simp [runCommand, hh]

/-- A command whose checks pass takes its effect. -/
theorem runCommand_ok {s : State} (h : s.fault = 0) (i : Instr) (t : State) : runCommand i s (.ok t) = .next t := by
  simp [runCommand, State.halted, h]

/-- A command that raises a cause enters the fault (R423). -/
theorem runCommand_error {s : State} (h : s.fault = 0) (i : Instr) (c : FaultCause) :
    runCommand i s (.error c) = .next (s.enterFault c (encode i)) := by
  simp [runCommand, State.halted, h]

/-- A command always has a next state. -/
theorem runCommand_answers (i : Instr) (s : State) (e : Effect) : ∃ t, runCommand i s e = .next t := by
  unfold runCommand
  split
  · exact ⟨_, rfl⟩
  · split <;> exact ⟨_, rfl⟩

/-- Everything running a command can do: nothing in a halted block, the effect, or the entry of the fault. -/
theorem runCommand_cases {i : Instr} {s t : State} {e : Effect} (h : runCommand i s e = .next t) :
    (s.fault ≠ 0 ∧ t = s) ∨ (s.fault = 0 ∧ e = .ok t) ∨
      ∃ c, s.fault = 0 ∧ e = .error c ∧ t = s.enterFault c (encode i) := by
  by_cases hf : s.fault = 0
  · cases e with
    | ok u =>
      rw [runCommand_ok hf] at h
      cases h
      exact .inr (.inl ⟨hf, rfl⟩)
    | error c =>
      rw [runCommand_error hf] at h
      cases h
      exact .inr (.inr ⟨c, hf, rfl, rfl⟩)
  · rw [runCommand_halted hf] at h
    cases h
    exact .inl ⟨hf, rfl⟩

/-- A cause code is never 0: a fault entry always halts (R420). -/
theorem FaultCause.code_ne_zero (c : FaultCause) : c.code ≠ 0 := by cases c <;> decide

theorem FaultCause.code_le (c : FaultCause) : c.code.toNat ≤ 9 := by cases c <;> decide

theorem FaultCause.code_injective {c d : FaultCause} (h : c.code = d.code) : c = d := by
  cases c <;> cases d <;> first | rfl | exact absurd h (by decide)

/-- A word that is no command enters its fault, or is ignored by a halted block; there is always a next state. -/
theorem rejectWord_eq (c : FaultCause) (w : CmdWord) (s : State) :
    rejectWord c w s = .next (if s.fault = 0 then s.enterFault c w else s) := by
  by_cases h : s.fault = 0
  · have hh : s.halted = false := (State.halted_eq_false s).2 h
    rw [if_pos h]
    simp [rejectWord, hh]
  · have hh : s.halted = true := (State.halted_iff s).2 h
    rw [if_neg h]
    simp [rejectWord, hh]

/-! The checks of the operand forms. -/

@[simp] theorem State.fits_iff (s : State) (a n : Nat) : s.fits a n = true ↔ a + n ≤ s.cfg.bufLen := by
  simp [State.fits]

/-- A contiguous decode either takes its repair or raises BUF_RANGE, according to the window alone (R71). -/
theorem windowDecode_eq (s : State) (a n : Nat) (dec : List Bool → Repair) :
    windowDecode s a n dec =
      if a + n ≤ s.cfg.bufLen then .ok (s.applyRepair (a + ·) (dec (s.window a n))) else .error .bufRange := by
  by_cases h : a + n ≤ s.cfg.bufLen <;> simp [windowDecode, State.fits, h]

theorem windowDecode_cases {s t : State} {a n : Nat} {dec : List Bool → Repair} (h : windowDecode s a n dec = .ok t) :
    a + n ≤ s.cfg.bufLen ∧ t = s.applyRepair (a + ·) (dec (s.window a n)) := by
  rw [windowDecode_eq] at h
  split at h
  · cases h; exact ⟨‹_›, rfl⟩
  · cases h

theorem checkedRun_cases {s t : State} {a n : Nat} {e : Effect} (h : checkedRun s a n e = .ok t) :
    1 ≤ n ∧ n ≤ 32 ∧ a + n ≤ s.cfg.bufLen ∧ e = .ok t := by
  unfold checkedRun at h
  split at h
  · cases h
  · split at h
    · rename_i h₁ h₂
      rw [State.fits_iff] at h₂
      exact ⟨by omega, by omega, h₂, h⟩
    · cases h

theorem checkedValue_cases {n v : Nat} {e : Effect} {t : State} (h : checkedValue n v e = .ok t) :
    v < 2 ^ n ∧ e = .ok t := by
  unfold checkedValue at h
  split at h
  · cases h
  · exact ⟨by omega, h⟩

theorem checkedRange_cases {s t : State} {a b : Nat} {e : Effect} (h : checkedRange s a b e = .ok t) :
    a ≤ b ∧ b < s.cfg.bufLen ∧ e = .ok t := by
  unfold checkedRange at h
  split at h
  · cases h
  · split at h
    · cases h
    · exact ⟨by omega, by omega, h⟩

theorem withSlot_cases {s t : State} {f : BitVec 8} {e : GfSlot → Effect} (h : withSlot s f e = .ok t) :
    ∃ g, s.cfg.gfSlot f.toNat = some g ∧ e g = .ok t := by
  unfold withSlot at h
  split at h
  · cases h
  · exact ⟨_, ‹_›, h⟩

theorem checkedElement_cases {g : GfSlot} {v : BitVec 16} {e : Effect} {t : State} (h : checkedElement g v e = .ok t) :
    v.toNat < g.size ∧ e = .ok t := by
  unfold checkedElement at h
  split at h
  · cases h
  · exact ⟨by omega, h⟩

theorem withHamCode_cases {s t : State} {f : BitVec 8} {e : HamCode → Effect} (h : withHamCode s f e = .ok t) :
    ∃ c, s.cfg.hamCode f.toNat = some c ∧ e c = .ok t := by
  unfold withHamCode at h
  split at h
  · cases h
  · exact ⟨_, ‹_›, h⟩

theorem scatteredDecode_cases {s t : State} {l : List Nat} {dec : List Bool → Repair}
    (h : scatteredDecode s l dec = .ok t) :
    (∀ i ∈ l, i < s.cfg.bufLen) ∧ l.Nodup ∧
      t = s.applyRepair (fun j => l.getD j 0) (dec (l.map fun i => s.buf.read i)) := by
  unfold scatteredDecode at h
  split at h
  · cases h
  · split at h
    · cases h
    · rename_i h₁ h₂
      cases h
      refine ⟨?_, by simpa using h₂, rfl⟩
      simpa using h₁

/-! Windows of BUF. -/

@[simp] theorem State.length_window (s : State) (a n : Nat) : (s.window a n).length = n := by simp [State.window]

theorem State.getD_window (s : State) (a n j : Nat) (h : j < n) : (s.window a n).getD j false = s.buf.read (a + j) := by
  simp [State.window, h]

theorem State.getElem_window (s : State) (a n j : Nat) (h : j < (s.window a n).length) :
    (s.window a n)[j] = s.buf.read (a + j) := by simp [State.window]

/-- BufRead gives an n-bit value. -/
theorem State.bufRead_lt (s : State) (a n : Nat) : s.bufRead a n < 2 ^ n := by
  simpa [State.bufRead] using bitsToNat_lt (s.window a n)

/-- BUF[a] is the most significant bit of a BufRead (R76). -/
theorem State.testBit_bufRead (s : State) (a n k : Nat) (h : k < n) :
    (s.bufRead a n).testBit k = s.buf.read (a + (n - 1 - k)) := by
  rw [State.bufRead, testBit_bitsToNat _ _ (by simpa using h), State.length_window,
    State.getD_window _ _ _ _ (by omega)]

/-- BUF after a BufWrite: bit j of the run is bit n - 1 - j of the value, every other bit is as before (R76). -/
theorem State.read_bufWrite (s : State) (a n v i : Nat) :
    (s.bufWrite a n v).buf.read i = if a ≤ i ∧ i < a + n then v.testBit (n - 1 - (i - a)) else s.buf.read i := by
  rw [State.bufWrite_buf, Mem.read_writeRun, length_natToBits]
  by_cases h : a ≤ i ∧ i < a + n
  · rw [if_pos h, if_pos h]
    exact getD_natToBits n v (i - a) (by omega)
  · rw [if_neg h, if_neg h]

theorem State.read_writeBits (s : State) (a i : Nat) (bits : List Bool) :
    (s.writeBits a bits).buf.read i =
      if a ≤ i ∧ i < a + bits.length then bits.getD (i - a) false else s.buf.read i := by
  rw [State.writeBits_buf, Mem.read_writeRun]; rfl

/-! Flips. -/

theorem read_flipBit (m : Mem Bool) (i a : Nat) : (flipBit m i).read a = (m.read a ^^ decide (a = i)) := by
  rw [flipBit, Mem.read_write]
  by_cases h : a = i
  · subst h; simp
  · simp [h]

/-- A bit is flipped as often as its index is listed (R334). -/
theorem read_flipBits (m : Mem Bool) (ps : List Nat) (a : Nat) :
    (flipBits m ps).read a = (m.read a ^^ decide (ps.count a % 2 = 1)) := by
  induction ps generalizing m with
  | nil => simp [flipBits]
  | cons p ps ih =>
    have step : flipBits m (p :: ps) = flipBits (flipBit m p) ps := rfl
    rw [step, ih, read_flipBit, List.count_cons]
    by_cases h : a = p
    · subst h
      rcases Nat.mod_two_eq_zero_or_one (List.count a ps) with hc | hc <;>
        cases m.read a <;> simp [hc, Nat.add_mod]
    · have h' : ¬ p = a := fun e => h e.symm
      simp [h, h']

theorem read_flipBits_of_notMem (m : Mem Bool) {ps : List Nat} {a : Nat} (h : a ∉ ps) :
    (flipBits m ps).read a = m.read a := by
  rw [read_flipBits, List.count_eq_zero_of_not_mem h]; simp

theorem read_flipBits_of_mem (m : Mem Bool) {ps : List Nat} {a : Nat} (hn : ps.Nodup) (h : a ∈ ps) :
    (flipBits m ps).read a = !m.read a := by
  rw [read_flipBits, List.count_eq_one_of_mem hn h]; simp

theorem wf_flipBits {size : Nat} (ps : List Nat) {m : Mem Bool} (h : ∀ p ∈ ps, p < size) (hm : m.wf size = true) :
    (flipBits m ps).wf size = true := by
  induction ps generalizing m with
  | nil => exact hm
  | cons p ps ih =>
    exact ih (fun q hq => h q (by simp [hq])) (Mem.wf_write _ (h p (by simp)) hm)

/-! The error-position list after an outcome (R34). -/

/-- EPOS after an outcome: the listed positions in front, every later entry as before. -/
theorem State.read_outcome_epos (s : State) (st : DecodeStatus) (ps : List Nat) (j : Nat) :
    (s.outcome st ps).epos.read j = if j < ps.length then BitVec.ofNat 32 (ps.getD j 0) else s.epos.read j := by
  rw [State.outcome_epos, Mem.read_writeRun]
  by_cases h : j < ps.length
  · rw [if_pos (by simpa using h), if_pos h]
    simp [h]
  · rw [if_neg (by simpa using h), if_neg h]

/-! One step (R470). -/

/-- With nothing issued the block is idle. -/
theorem step_idle {s : State} (h : s.port = []) : step s = .next s := by simp [step, State.fetch, h]

/-- A word that decodes runs as its command. -/
theorem step_command {s : State} {w : CmdWord} {rest : List HostAction} {i : Instr}
    (hp : s.port = .command w :: rest) (hd : decode w = .ok i) : step s = exec i { s with port := rest } := by
  simp [step, State.fetch, hp, hd]

/-- A word that is no command is rejected by the cause the decoder names. -/
theorem step_reject {s : State} {w : CmdWord} {rest : List HostAction} {c : FaultCause}
    (hp : s.port = .command w :: rest) (hd : decode w = .error c) :
    step s = rejectWord c w { s with port := rest } := by
  simp [step, State.fetch, hp, hd]

theorem step_reset {s : State} {d : Draws} {rest : List HostAction} (hp : s.port = .reset d :: rest) :
    step s = .next ({ s with port := rest }.hostReset d) := by
  simp [step, State.fetch, hp]

/-- Placing a word changes the port only, and the next step fetches exactly it. -/
theorem State.fetch_issue (s : State) (w : CmdWord) : (s.issue w).fetch = some (.command w, s) := rfl

theorem step_withFetchWord {s : State} {nbits w : Nat} {i : Instr} (h : decode (tableWord nbits w) = .ok i) :
    step (s.withFetchWord nbits w) = exec i s :=
  step_command (s := s.withFetchWord nbits w) rfl h

end Sys2Proof.Machine
end

