-- ==== Sys2Proof/Laws/Exec.lean ====
section
/-! SUPPORT. Every meaning is one use of `runCommand`, and what follows from that for all instructions at once. -/

namespace Sys2Proof.Machine

/-- Every instruction runs as its own command. -/
theorem exec_runs (i : Instr) (s : State) : ∃ e, exec i s = runCommand i s e := by
  cases i
  case nop => exact ⟨.ok s, rfl⟩
  case bpopc => simp only [exec, execBpopc]; exact ⟨_, rfl⟩
  all_goals exact ⟨_, rfl⟩

/-- A halted block ignores every instruction (R424). -/
theorem exec_halted {s : State} (h : s.fault ≠ 0) (i : Instr) : exec i s = .next s := by
  obtain ⟨e, he⟩ := exec_runs i s
  rw [he, runCommand_halted h]

/-- What a running block answers: the effect of the command, or the entry of the fault the effect names (R423). -/
theorem exec_cases {i : Instr} {s t : State} (hs : s.fault = 0) (h : exec i s = .next t) :
    (∃ e, exec i s = runCommand i s e ∧ e = .ok t) ∨ ∃ c, t = s.enterFault c (encode i) := by
  obtain ⟨e, he⟩ := exec_runs i s
  rcases runCommand_cases (he ▸ h) with ⟨hf, -⟩ | ⟨-, hok⟩ | ⟨c, -, -, ht⟩
  · exact absurd hs hf
  · exact .inl ⟨e, he, hok⟩
  · exact .inr ⟨c, ht⟩

/-- A command completes exactly where it answers a state without a fault. -/
theorem completes_iff {s : State} {i : Instr} : completes s i = true ↔ ∃ t, exec i s = .next t ∧ t.fault = 0 := by
  obtain ⟨e, he⟩ := exec_runs i s
  obtain ⟨t, ht⟩ := runCommand_answers i s e
  simp [completes, he, ht]

/-- A command that completes reads the row of R462. -/
theorem cellsUsed_completes {s : State} {i : Instr} (h : completes s i = true) : cellsUsed s i = cellsRead s i := by
  have hs : s.halted = false := by
    by_contra hn
    obtain ⟨t, ht, hf⟩ := completes_iff.1 h
    have hs : s.fault ≠ 0 := fun h0 => hn ((State.halted_eq_false s).2 h0)
    rw [exec_halted hs] at ht
    cases ht
    exact hs hf
  simp [cellsUsed, hs, h]

end Sys2Proof.Machine
end

