-- ==== Sys2Proof/Laws/Fields.lean ====
section
/-! SUPPORT. The fields of an assembled word (R101), the two halves of `b` (R104), and the word its fields make. -/

namespace Sys2Proof

theorem getLsbD_assembleWord (op x : BitVec 8) (a : BitVec 16) (b : BitVec 32) (i : Nat) :
    (assembleWord op x a b).getLsbD i =
      if i < 32 then b.getLsbD i
      else if i < 48 then a.getLsbD (i - 32)
      else if i < 56 then x.getLsbD (i - 48)
      else op.getLsbD (i - 56) := by
  simp only [assembleWord, BitVec.getLsbD_append]
  split_ifs <;> first | rfl | omega

@[simp] theorem opField_assembleWord (op x : BitVec 8) (a : BitVec 16) (b : BitVec 32) :
    opField (assembleWord op x a b) = op := by
  ext i hi
  simp only [opField, BitVec.getElem_extractLsb', getLsbD_assembleWord]
  rw [if_neg (by omega), if_neg (by omega), if_neg (by omega), BitVec.getLsbD_eq_getElem (by omega)]
  congr 1; omega

@[simp] theorem xField_assembleWord (op x : BitVec 8) (a : BitVec 16) (b : BitVec 32) :
    xField (assembleWord op x a b) = x := by
  ext i hi
  simp only [xField, BitVec.getElem_extractLsb', getLsbD_assembleWord]
  rw [if_neg (by omega), if_neg (by omega), if_pos (by omega), BitVec.getLsbD_eq_getElem (by omega)]
  congr 1; omega

@[simp] theorem aField_assembleWord (op x : BitVec 8) (a : BitVec 16) (b : BitVec 32) :
    aField (assembleWord op x a b) = a := by
  ext i hi
  simp only [aField, BitVec.getElem_extractLsb', getLsbD_assembleWord]
  rw [if_neg (by omega), if_pos (by omega), BitVec.getLsbD_eq_getElem (by omega)]
  congr 1; omega

@[simp] theorem bField_assembleWord (op x : BitVec 8) (a : BitVec 16) (b : BitVec 32) :
    bField (assembleWord op x a b) = b := by
  ext i hi
  simp only [bField, BitVec.getElem_extractLsb', getLsbD_assembleWord]
  rw [if_pos (by omega), BitVec.getLsbD_eq_getElem (by omega)]
  congr 1; omega

/-- A word is made of its four fields (R101). -/
theorem assembleWord_fields (w : CmdWord) : assembleWord (opField w) (xField w) (aField w) (bField w) = w := by
  apply BitVec.eq_of_getLsbD_eq
  intro i hi
  rw [getLsbD_assembleWord]
  simp only [opField, xField, aField, bField, BitVec.getLsbD_extractLsb']
  split_ifs with h₁ h₂ h₃
  · simp [h₁]
  · rw [decide_eq_true (by omega), Bool.true_and]; congr 1; omega
  · rw [decide_eq_true (by omega), Bool.true_and]; congr 1; omega
  · rw [decide_eq_true (by omega), Bool.true_and]; congr 1; omega

theorem getLsbD_lowOperand (v : BitVec 16) (i : Nat) : (lowOperand v).getLsbD i = v.getLsbD i := by
  rw [lowOperand, BitVec.getLsbD_append]
  by_cases h : i < 16
  · simp [h]
  · simp [h, BitVec.getLsbD_of_ge v i (by omega)]

@[simp] theorem bLow_lowOperand (v : BitVec 16) : bLow (lowOperand v) = v := by
  ext i hi
  rw [bLow, BitVec.getElem_extractLsb', getLsbD_lowOperand, Nat.zero_add, BitVec.getLsbD_eq_getElem hi]

@[simp] theorem bHigh_lowOperand (v : BitVec 16) : bHigh (lowOperand v) = 0 := by
  ext i hi
  rw [bHigh, BitVec.getElem_extractLsb', getLsbD_lowOperand, BitVec.getLsbD_of_ge v _ (by omega)]
  simp

/-- `b` with a zero upper half is its lower half. -/
theorem lowOperand_bLow {b : BitVec 32} (h : bHigh b = 0) : lowOperand (bLow b) = b := by
  apply BitVec.eq_of_getLsbD_eq
  intro i hi
  have hb : ∀ j < 16, b.getLsbD (16 + j) = false := by
    intro j hj
    have := congrArg (fun v => v.getLsbD j) h
    simpa [bHigh, BitVec.getLsbD_extractLsb', hj] using this
  rw [getLsbD_lowOperand, bLow, BitVec.getLsbD_extractLsb', Nat.zero_add]
  by_cases hi' : i < 16
  · simp [hi']
  · have := hb (i - 16) (by omega)
    rw [show 16 + (i - 16) = i by omega] at this
    simp [hi', this]

end Sys2Proof
end

