-- ==== Sys2Proof/Laws/Galois.lean ====
section
/-! SUPPORT. The tables of a well-formed field slot: the table step is the doubling modulo P, doubling is linear and injective,
the powers are exactly the nonzero elements, and α^N = 1 (R170 to R174). -/

namespace Sys2Proof

namespace GfSlot

variable {g : GfSlot}

/-- What the check of a slot says (R170). -/
theorem wf_iff : g.wf = true ↔ 2 ≤ g.m ∧ g.m ≤ 8 ∧ g.poly.testBit g.m = true ∧ g.poly < 2 ^ (g.m + 1) ∧
    g.powers.Nodup ∧ 0 ∉ g.powers := by
  simp [GfSlot.wf, and_assoc]

/-- P is its feedback bits and the x^m term (R171). -/
theorem feedback_eq (hb : g.poly.testBit g.m = true) (hp : g.poly < 2 ^ (g.m + 1)) : g.feedback = g.poly ^^^ 2 ^ g.m := by
  apply Nat.eq_of_testBit_eq
  intro k
  rw [feedback, mask, Nat.testBit_and, Nat.testBit_two_pow_sub_one, Nat.testBit_xor, Nat.testBit_two_pow]
  rcases lt_trichotomy k g.m with h | h | h
  · simp [h, h.ne']
  · subst h; simp [hb]
  · have hk : g.poly.testBit k = false :=
      Nat.testBit_lt_two_pow (lt_of_lt_of_le hp (Nat.pow_le_pow_right (by decide) h))
    simp [hk, h.ne]

/-- The table step is the doubling modulo P (R171). -/
theorem timesAlpha_eq_double (hm : 1 ≤ g.m) (hb : g.poly.testBit g.m = true) (hp : g.poly < 2 ^ (g.m + 1)) (v : Nat) :
    g.timesAlpha v = g.double v := by
  obtain ⟨n, hn⟩ : ∃ n, g.m = n + 1 := ⟨g.m - 1, by omega⟩
  have hpow : 2 ^ g.m = 2 * 2 ^ (g.m - 1) := by rw [hn, Nat.add_sub_cancel, pow_succ]; ring
  unfold timesAlpha double
  rw [Nat.shiftLeft_eq, Nat.shiftLeft_eq]
  by_cases h : 2 ^ (g.m - 1) ≤ v
  · rw [if_pos h, if_neg (by omega), feedback_eq hb hp]
    have hx : (v ^^^ 2 ^ (g.m - 1)) * 2 ^ 1 = (2 * v) ^^^ 2 ^ g.m := by
      apply Nat.eq_of_testBit_eq
      intro k
      rw [hpow, pow_one, mul_comm _ 2]
      cases k with
      | zero => simp
      | succ k => simp [Nat.testBit_succ, Nat.xor_div_two]
    rw [hx]
    apply Nat.eq_of_testBit_eq
    intro k
    simp only [Nat.testBit_xor]
    cases g.poly.testBit k <;> cases (2 ^ g.m).testBit k <;> cases (2 * v).testBit k <;> rfl
  · rw [if_neg h, if_pos (by omega), pow_one, mul_comm]

/-- Doubling stays in the field. -/
theorem double_lt (hb : g.poly.testBit g.m = true) (hp : g.poly < 2 ^ (g.m + 1)) {v : Nat} (hv : v < 2 ^ g.m) :
    g.double v < 2 ^ g.m := by
  unfold double
  split
  · assumption
  · rename_i h
    have h2 : 2 * v < 2 ^ (g.m + 1) := by rw [pow_succ]; omega
    apply Nat.lt_pow_two_of_testBit
    intro k hk
    rcases Nat.lt_or_eq_of_le hk with hk | hk
    · rw [Nat.testBit_xor, Nat.testBit_lt_two_pow (lt_of_lt_of_le h2 (Nat.pow_le_pow_right (by decide) hk)),
        Nat.testBit_lt_two_pow (lt_of_lt_of_le hp (Nat.pow_le_pow_right (by decide) hk))]
      rfl
    · subst hk
      have ht : (2 * v).testBit g.m = true := by
        obtain ⟨w, hw⟩ : ∃ w, 2 * v = 2 ^ g.m * 1 + w := ⟨2 * v - 2 ^ g.m, by omega⟩
        rw [hw, Nat.testBit_two_pow_mul_add _ (by rw [pow_succ] at h2; omega)]
        simp
      rw [Nat.testBit_xor, ht, hb]; rfl

/-- Doubling is linear on the field. -/
theorem double_xor {v w : Nat} (hv : v < 2 ^ g.m)
    (hw : w < 2 ^ g.m) : g.double (v ^^^ w) = g.double v ^^^ g.double w := by
  have hx : 2 * (v ^^^ w) = (2 * v) ^^^ (2 * w) := by
    apply Nat.eq_of_testBit_eq
    intro k
    cases k with
    | zero => simp
    | succ k => simp [Nat.testBit_succ, Nat.xor_div_two]
  have top : ∀ u, u < 2 ^ g.m → ((2 * u).testBit g.m = true ↔ ¬ 2 * u < 2 ^ g.m) := by
    intro u hu
    constructor
    · intro h hlt
      rw [Nat.testBit_lt_two_pow hlt] at h
      cases h
    · intro h
      obtain ⟨t, ht⟩ : ∃ t, 2 * u = 2 ^ g.m * 1 + t := ⟨2 * u - 2 ^ g.m, by omega⟩
      rw [ht, Nat.testBit_two_pow_mul_add _ (by omega)]
      simp
  have hvw : v ^^^ w < 2 ^ g.m := Nat.xor_lt_two_pow hv hw
  have e := top _ hvw
  rw [hx, Nat.testBit_xor] at e
  have ev := top v hv
  have ew := top w hw
  unfold double
  rw [hx]
  by_cases h₁ : 2 * v < 2 ^ g.m <;> by_cases h₂ : 2 * w < 2 ^ g.m
  · have b₁ : (2 * v).testBit g.m = false := by simpa [h₁] using ev
    have b₂ : (2 * w).testBit g.m = false := by simpa [h₂] using ew
    rw [b₁, b₂] at e
    have h₃ : (2 * v) ^^^ (2 * w) < 2 ^ g.m := by simpa using e
    rw [if_pos h₁, if_pos h₂, if_pos h₃]
  · have b₁ : (2 * v).testBit g.m = false := by simpa [h₁] using ev
    have b₂ : (2 * w).testBit g.m = true := ew.2 h₂
    rw [b₁, b₂] at e
    have h₃ : ¬ (2 * v) ^^^ (2 * w) < 2 ^ g.m := by simpa using e
    rw [if_pos h₁, if_neg h₂, if_neg h₃, Nat.xor_assoc]
  · have b₁ : (2 * v).testBit g.m = true := ev.2 h₁
    have b₂ : (2 * w).testBit g.m = false := by simpa [h₂] using ew
    rw [b₁, b₂] at e
    have h₃ : ¬ (2 * v) ^^^ (2 * w) < 2 ^ g.m := by simpa using e
    rw [if_neg h₁, if_pos h₂, if_neg h₃]
    apply Nat.eq_of_testBit_eq
    intro k
    simp only [Nat.testBit_xor]
    cases g.poly.testBit k <;> cases (2 * v).testBit k <;> cases (2 * w).testBit k <;> rfl
  · have b₁ : (2 * v).testBit g.m = true := ev.2 h₁
    have b₂ : (2 * w).testBit g.m = true := ew.2 h₂
    rw [b₁, b₂] at e
    have h₃ : (2 * v) ^^^ (2 * w) < 2 ^ g.m := by simpa using e
    rw [if_neg h₁, if_neg h₂, if_pos h₃]
    apply Nat.eq_of_testBit_eq
    intro k
    simp only [Nat.testBit_xor]
    cases g.poly.testBit k <;> cases (2 * v).testBit k <;> cases (2 * w).testBit k <;> rfl

/-! The table of powers. -/

@[simp] theorem length_powersFrom (g : GfSlot) (count v : Nat) : (g.powersFrom count v).length = count := by
  induction count generalizing v with
  | zero => rfl
  | succ count ih => simp [powersFrom, ih]

theorem getElem_powersFrom (g : GfSlot) (count v i : Nat) (h : i < (g.powersFrom count v).length) :
    (g.powersFrom count v)[i] = g.timesAlpha^[i] v := by
  induction count generalizing v i with
  | zero => simp at h
  | succ count ih =>
    cases i with
    | zero => simp [powersFrom]
    | succ i => simp [powersFrom, ih]

theorem m_le_order : g.m ≤ g.order := by
  have : g.m < 2 ^ g.m := Nat.lt_two_pow_self
  unfold order
  omega

/-- The table has N entries. -/
theorem length_powers (_hm : 1 ≤ g.m) : g.powers.length = g.order := by
  have := m_le_order (g := g)
  simp [powers]
  omega

/-- The first m powers of α are the powers of 2. -/
theorem alphaPower_low {i : Nat} (h : i < g.m) : g.alphaPower i = 2 ^ i := by
  induction i with
  | zero => rfl
  | succ i ih =>
    have hp : 2 * 2 ^ i < 2 ^ g.m := by
      rw [← pow_succ']
      exact Nat.pow_lt_pow_right (by decide) h
    rw [alphaPower, Function.iterate_succ_apply', ← alphaPower, ih (by omega), double, if_pos hp, pow_succ']

theorem alphaPower_succ (g : GfSlot) (i : Nat) : g.alphaPower (i + 1) = g.double (g.alphaPower i) :=
  Function.iterate_succ_apply' _ _ _

/-- α^(i + j) is α^i doubled j times. -/
theorem alphaPower_add (g : GfSlot) (i j : Nat) : g.alphaPower (i + j) = g.double^[j] (g.alphaPower i) := by
  rw [alphaPower, alphaPower, add_comm, Function.iterate_add_apply]

/-- α^m is the feedback bits (R171, R174). -/
theorem alphaPower_m (hm : 1 ≤ g.m) (hb : g.poly.testBit g.m = true) (hp : g.poly < 2 ^ (g.m + 1)) :
    g.alphaPower g.m = g.feedback := by
  obtain ⟨n, hn⟩ : ∃ n, g.m = n + 1 := ⟨g.m - 1, by omega⟩
  have hlow : g.alphaPower n = 2 ^ n := alphaPower_low (by omega)
  have e : 2 * 2 ^ n = 2 ^ g.m := by rw [hn, pow_succ']
  rw [feedback_eq hb hp]
  conv_lhs => rw [hn]
  rw [alphaPower_succ, hlow, double, if_neg (by omega), e, Nat.xor_comm]

/-- Every entry of the table is the power of α with its index. -/
theorem getElem_powers (hm : 1 ≤ g.m) (hb : g.poly.testBit g.m = true) (hp : g.poly < 2 ^ (g.m + 1)) (i : Nat)
    (h : i < g.powers.length) : g.powers[i] = g.alphaPower i := by
  have hf : g.timesAlpha = g.double := funext (timesAlpha_eq_double hm hb hp)
  by_cases hi : i < g.m
  · rw [alphaPower_low hi]
    simp only [powers]
    rw [List.getElem_append_left (by simpa using hi)]
    simp
  · simp only [powers]
    rw [List.getElem_append_right (by simpa using hi), getElem_powersFrom, hf]
    simp only [List.length_map, List.length_range]
    rw [← alphaPower_m hm hb hp, ← alphaPower_add]
    congr 1
    omega

theorem alphaPower_lt (hm : 1 ≤ g.m) (hb : g.poly.testBit g.m = true) (hp : g.poly < 2 ^ (g.m + 1)) (i : Nat) :
    g.alphaPower i < 2 ^ g.m := by
  induction i with
  | zero => exact Nat.one_lt_two_pow (by omega)
  | succ i ih => rw [alphaPower_succ]; exact double_lt hb hp ih

/-- Every nonzero element is in the table: N distinct nonzero values below 2^m are all of them (R172). -/
theorem mem_powers (h : g.wf = true) {v : Nat} (h₀ : v ≠ 0) (hv : v < 2 ^ g.m) : v ∈ g.powers := by
  obtain ⟨hm, -, hb, hp, hnd, hz⟩ := wf_iff.1 h
  have hsub : g.powers ⊆ (List.range (2 ^ g.m)).erase 0 := by
    intro u hu
    obtain ⟨i, hi, rfl⟩ := List.mem_iff_getElem.1 hu
    rw [(List.nodup_range).mem_erase_iff, List.mem_range, getElem_powers (by omega) hb hp]
    refine ⟨?_, alphaPower_lt (by omega) hb hp i⟩
    rw [← getElem_powers (by omega) hb hp i hi]
    exact fun e => hz (e ▸ hu)
  have hlen : ((List.range (2 ^ g.m)).erase 0).length ≤ g.powers.length := by
    rw [length_powers (by omega), List.length_erase_of_mem (by simp), List.length_range, order]
  have hperm := (List.subperm_of_subset hnd hsub).perm_of_length_le hlen
  exact hperm.mem_iff.2 ((List.nodup_range).mem_erase_iff.2 ⟨h₀, List.mem_range.2 hv⟩)

/-- P has a constant term. -/
theorem poly_odd (h : g.wf = true) : g.poly % 2 = 1 := by
  obtain ⟨hm, -, hb, hp, hnd, -⟩ := wf_iff.1 h
  by_contra hodd
  have heven : ∀ i, 1 ≤ i → g.alphaPower i % 2 = 0 := by
    intro i hi
    obtain ⟨k, rfl⟩ : ∃ k, i = k + 1 := ⟨i - 1, by omega⟩
    rw [alphaPower_succ, double]
    split
    · omega
    · have ht := Nat.testBit_xor (2 * g.alphaPower k) g.poly 0
      simp only [Nat.testBit_zero] at ht
      have h2 : g.poly % 2 = 0 := by omega
      rw [h2] at ht
      simpa using ht
  have h4 : 2 ^ 2 ≤ 2 ^ g.m := Nat.pow_le_pow_right (by decide) hm
  obtain ⟨i, hi, e⟩ := List.mem_iff_getElem.1 (mem_powers h (v := 3) (by decide) (by omega))
  rw [getElem_powers (by omega) hb hp] at e
  have hi0 : i ≠ 0 := by
    rintro rfl
    have e1 : (1 : Nat) = 3 := e
    omega
  have := heven i (by omega)
  omega

/-- Doubling is injective on the field. -/
theorem double_injective (h : g.wf = true) {v w : Nat} (he : g.double v = g.double w) : v = w := by
  have hodd := poly_odd h
  have par : ∀ u, ((2 * u) ^^^ g.poly) % 2 = 1 := by
    intro u
    have ht := Nat.testBit_xor (2 * u) g.poly 0
    simp only [Nat.testBit_zero] at ht
    rw [hodd] at ht
    simpa using ht
  unfold double at he
  split at he <;> split at he
  · omega
  · have := par w; omega
  · have := par v; omega
  · have := congrArg (· ^^^ g.poly) he
    simp only [Nat.xor_assoc, Nat.xor_self, Nat.xor_zero] at this
    omega

/-- α^N = 1. -/
theorem alphaPower_order (h : g.wf = true) : g.alphaPower g.order = 1 := by
  obtain ⟨hm, -, hb, hp, hnd, hz⟩ := wf_iff.1 h
  have hinj : ∀ n i j, g.double^[n] i = g.double^[n] j → i = j := by
    intro n
    induction n with
    | zero => exact fun i j e => e
    | succ n ih =>
      intro i j e
      rw [Function.iterate_succ_apply, Function.iterate_succ_apply] at e
      exact double_injective h (ih _ _ e)
  have hlen := length_powers (g := g) (by omega)
  have hord : 0 < g.order := by have := m_le_order (g := g); omega
  have hne : g.alphaPower g.order ≠ 0 := by
    intro e
    have h0 : g.double 0 = 0 := by simp [double]
    have hz' : g.double^[g.order] 0 = 0 := by
      have : ∀ n, g.double^[n] 0 = 0 := by
        intro n
        induction n with
        | zero => rfl
        | succ n ih => rw [Function.iterate_succ_apply, h0, ih]
      exact this _
    have : (1 : Nat) = 0 := hinj g.order 1 0 (by rw [hz']; exact e)
    omega
  obtain ⟨j, hj, e⟩ := List.mem_iff_getElem.1 (mem_powers h hne (alphaPower_lt (by omega) hb hp _))
  rw [getElem_powers (by omega) hb hp] at e
  rw [hlen] at hj
  have hback : g.alphaPower (g.order - j) = 1 := by
    apply hinj j
    rw [← alphaPower_add, show g.order - j + j = g.order by omega, ← e]
    rfl
  rcases Nat.eq_zero_or_pos j with h0 | hpos
  · subst h0; simpa using hback
  · exfalso
    have i₁ : g.order - j < g.powers.length := by omega
    have i₂ : 0 < g.powers.length := by omega
    have : g.order - j = 0 := by
      apply (List.Nodup.getElem_inj_iff hnd (hi := i₁) (hj := i₂)).1
      rw [getElem_powers (by omega) hb hp, getElem_powers (by omega) hb hp, hback]
      rfl
    omega

/-- The powers of α repeat with period N. -/
theorem alphaPower_mod (h : g.wf = true) (i : Nat) : g.alphaPower (i % g.order) = g.alphaPower i := by
  conv_rhs => rw [← Nat.mod_add_div i g.order]
  generalize i / g.order = q
  induction q with
  | zero => simp
  | succ q ih =>
    rw [Nat.mul_succ, ← add_assoc, add_comm _ g.order, alphaPower_add, alphaPower_order h]
    exact ih

/-- α^k of R182 is the power of α. -/
theorem alpha_eq (h : g.wf = true) (k : Nat) : g.alpha k = g.alphaPower k := by
  obtain ⟨hm, -, hb, hp, -, -⟩ := wf_iff.1 h
  have hlen := length_powers (g := g) (by omega)
  have hord : 0 < g.order := by have := m_le_order (g := g); omega
  have hk : k % g.order < g.powers.length := by rw [hlen]; exact Nat.mod_lt _ hord
  rw [alpha, List.getD_eq_getElem _ _ hk, getElem_powers (by omega) hb hp, alphaPower_mod h]

/-- The logarithm of a nonzero element is below N (R172). -/
theorem log_lt (h : g.wf = true) {v : Nat} (h₀ : v ≠ 0) (hv : v < 2 ^ g.m) : g.log v < g.order := by
  obtain ⟨hm, -⟩ := wf_iff.1 h
  rw [← length_powers (g := g) (by omega)]
  exact List.idxOf_lt_length_iff.2 (mem_powers h h₀ hv)

/-- exp[log[v]] = v (R174). -/
theorem alphaPower_log (h : g.wf = true) {v : Nat} (h₀ : v ≠ 0) (hv : v < 2 ^ g.m) : g.alphaPower (g.log v) = v := by
  obtain ⟨hm, -, hb, hp, -, -⟩ := wf_iff.1 h
  have hi := List.idxOf_lt_length_iff.2 (mem_powers h h₀ hv)
  have e := getElem_powers (by omega) hb hp _ hi
  rw [log, ← e]
  exact List.getElem_idxOf hi

/-- log[exp[i]] = i for i below N (R174). -/
theorem log_alphaPower (h : g.wf = true) {i : Nat} (hi : i < g.order) : g.log (g.alphaPower i) = i := by
  obtain ⟨hm, -, hb, hp, hnd, -⟩ := wf_iff.1 h
  have hi' : i < g.powers.length := by rw [length_powers (by omega)]; exact hi
  rw [log, ← getElem_powers (by omega) hb hp i hi']
  exact List.Nodup.idxOf_getElem hnd i hi'

end GfSlot

end Sys2Proof
end

