-- ==== Sys2Proof/Laws/PerInstr.lean ====
section
/-! SUPPORT. For every instruction: its encoding fits its row of the opcode table (R103, R104). -/

namespace Sys2Proof

/-- A field-by-field mask of an assembled word. -/
theorem assembleWord_and (op x op' x' : BitVec 8) (a a' : BitVec 16) (b b' : BitVec 32) :
    assembleWord op x a b &&& assembleWord op' x' a' b' =
      assembleWord (op &&& op') (x &&& x') (a &&& a') (b &&& b') := by
  apply BitVec.eq_of_getLsbD_eq
  intro i _
  simp only [BitVec.getLsbD_and, getLsbD_assembleWord]
  split_ifs <;> rfl

/-- A mask given by its fields, on an assembled word. -/
theorem assembleWord_mask {op x op' x' : BitVec 8} {a a' : BitVec 16} {b b' : BitVec 32} {m v : CmdWord}
    (hm : m = assembleWord op' x' a' b') (hv : v = assembleWord (op &&& op') (x &&& x') (a &&& a') (b &&& b')) :
    assembleWord op x a b &&& m = v := by
  rw [hm, hv, assembleWord_and]

/-- A 16-bit operand leaves b[31:16] zero (R104). -/
theorem lowOperand_and (v : BitVec 16) : lowOperand v &&& 0xFFFF0000 = 0 := by
  apply BitVec.eq_of_getLsbD_eq
  intro i hi
  rw [BitVec.getLsbD_and, getLsbD_lowOperand]
  by_cases h : i < 16
  · have e : ∀ j < 16, (0xFFFF0000 : BitVec 32).getLsbD j = false := by decide
    rw [show (0xFFFF0000 : BitVec 32).getLsbD i = false from e i h]; simp
  · rw [BitVec.getLsbD_of_ge v i (by omega)]; simp

/-- The inbound flag leaves b[31:1] zero (R104). -/
theorem flagOperand_and (v : BitVec 1) : ((0 : BitVec 31) ++ v) &&& 0xFFFFFFFE = 0 := by
  revert v; decide

end Sys2Proof

namespace Sys2Proof.Laws.EncodingFits

/-- The bits of the encoding that the instruction's row fixes are those the row matches. -/
def Statement (i : Instr) : Prop := encode i &&& (Machine.tableRow i).2 = (Machine.tableRow i).1

theorem nop : Statement .nop :=
  assembleWord_mask (op' := 0xFF) (x' := 0xFF) (a' := 0xFFFF) (b' := 0xFFFFFFFF) (by rfl) (by simp; rfl)

theorem bget (p : BitVec 16) : Statement (.bget p) :=
  assembleWord_mask (op' := 0xFF) (x' := 0xFF) (a' := 0x0) (b' := 0xFFFFFFFF) (by rfl) (by simp; rfl)

theorem bset (p : BitVec 16) : Statement (.bset p) :=
  assembleWord_mask (op' := 0xFF) (x' := 0xFF) (a' := 0x0) (b' := 0xFFFFFFFF) (by rfl) (by simp; rfl)

theorem bclr (p : BitVec 16) : Statement (.bclr p) :=
  assembleWord_mask (op' := 0xFF) (x' := 0xFF) (a' := 0x0) (b' := 0xFFFFFFFF) (by rfl) (by simp; rfl)

theorem bflip (p : BitVec 16) : Statement (.bflip p) :=
  assembleWord_mask (op' := 0xFF) (x' := 0xFF) (a' := 0x0) (b' := 0xFFFFFFFF) (by rfl) (by simp; rfl)

theorem bread (p : BitVec 16) (q : BitVec 8) : Statement (.bread p q) :=
  assembleWord_mask (op' := 0xFF) (x' := 0x0) (a' := 0x0) (b' := 0xFFFFFFFF) (by rfl) (by simp; rfl)

theorem bwrite (p : BitVec 16) (q : BitVec 8) (r : BitVec 32) : Statement (.bwrite p q r) :=
  assembleWord_mask (op' := 0xFF) (x' := 0x0) (a' := 0x0) (b' := 0x0) (by rfl) (by simp; rfl)

theorem bxor (p : BitVec 16) (q : BitVec 8) (r : BitVec 32) : Statement (.bxor p q r) :=
  assembleWord_mask (op' := 0xFF) (x' := 0x0) (a' := 0x0) (b' := 0x0) (by rfl) (by simp; rfl)

theorem brotl (p : BitVec 16) (q : BitVec 32) : Statement (.brotl p q) :=
  assembleWord_mask (op' := 0xFF) (x' := 0xFF) (a' := 0x0) (b' := 0x0) (by rfl) (by simp; rfl)

theorem brotr (p : BitVec 16) (q : BitVec 32) : Statement (.brotr p q) :=
  assembleWord_mask (op' := 0xFF) (x' := 0xFF) (a' := 0x0) (b' := 0x0) (by rfl) (by simp; rfl)

theorem bpopc : Statement .bpopc :=
  assembleWord_mask (op' := 0xFF) (x' := 0xFF) (a' := 0xFFFF) (b' := 0xFFFFFFFF) (by rfl) (by simp; rfl)

theorem bnext (p : BitVec 16) : Statement (.bnext p) :=
  assembleWord_mask (op' := 0xFF) (x' := 0xFF) (a' := 0x0) (b' := 0xFFFFFFFF) (by rfl) (by simp; rfl)

theorem symwr (p : BitVec 16) (q : BitVec 32) : Statement (.symwr p q) :=
  assembleWord_mask (op' := 0xFF) (x' := 0xFF) (a' := 0x0) (b' := 0x0) (by rfl) (by simp; rfl)

theorem symrd (p : BitVec 16) : Statement (.symrd p) :=
  assembleWord_mask (op' := 0xFF) (x' := 0xFF) (a' := 0x0) (b' := 0xFFFFFFFF) (by rfl) (by simp; rfl)

theorem idxwr (p : BitVec 16) (q : BitVec 16) : Statement (.idxwr p q) :=
  assembleWord_mask (op' := 0xFF) (x' := 0xFF) (a' := 0x0) (b' := 0xFFFF0000) (by rfl) (by rw [lowOperand_and]; simp; rfl)

theorem idxrd (p : BitVec 16) : Statement (.idxrd p) :=
  assembleWord_mask (op' := 0xFF) (x' := 0xFF) (a' := 0x0) (b' := 0xFFFFFFFF) (by rfl) (by simp; rfl)

theorem eposrd (p : BitVec 16) : Statement (.eposrd p) :=
  assembleWord_mask (op' := 0xFF) (x' := 0xFF) (a' := 0x0) (b' := 0xFFFFFFFF) (by rfl) (by simp; rfl)

theorem gfexp (p : BitVec 8) (q : BitVec 16) : Statement (.gfexp p q) :=
  assembleWord_mask (op' := 0xFF) (x' := 0x0) (a' := 0x0) (b' := 0xFFFFFFFF) (by rfl) (by simp; rfl)

theorem gflog (p : BitVec 8) (q : BitVec 16) : Statement (.gflog p q) :=
  assembleWord_mask (op' := 0xFF) (x' := 0x0) (a' := 0x0) (b' := 0xFFFFFFFF) (by rfl) (by simp; rfl)

theorem gfmul (p : BitVec 8) (q : BitVec 16) (r : BitVec 16) : Statement (.gfmul p q r) :=
  assembleWord_mask (op' := 0xFF) (x' := 0x0) (a' := 0x0) (b' := 0xFFFF0000) (by rfl) (by rw [lowOperand_and]; simp; rfl)

theorem gfinv (p : BitVec 8) (q : BitVec 16) : Statement (.gfinv p q) :=
  assembleWord_mask (op' := 0xFF) (x' := 0x0) (a' := 0x0) (b' := 0xFFFFFFFF) (by rfl) (by simp; rfl)

theorem gfadd (p : BitVec 8) (q : BitVec 16) (r : BitVec 16) : Statement (.gfadd p q r) :=
  assembleWord_mask (op' := 0xFF) (x' := 0x0) (a' := 0x0) (b' := 0xFFFF0000) (by rfl) (by rw [lowOperand_and]; simp; rfl)

theorem rsdec (p : BitVec 8) : Statement (.rsdec p) :=
  assembleWord_mask (op' := 0xFF) (x' := 0x0) (a' := 0xFFFF) (b' := 0xFFFFFFFF) (by rfl) (by simp; rfl)

theorem hamdec (p : BitVec 8) (q : BitVec 16) : Statement (.hamdec p q) :=
  assembleWord_mask (op' := 0xFF) (x' := 0x0) (a' := 0x0) (b' := 0xFFFFFFFF) (by rfl) (by simp; rfl)

theorem hamdecx (p : BitVec 8) : Statement (.hamdecx p) :=
  assembleWord_mask (op' := 0xFF) (x' := 0x0) (a' := 0xFFFF) (b' := 0xFFFFFFFF) (by rfl) (by simp; rfl)

theorem gol23 (p : BitVec 16) : Statement (.gol23 p) :=
  assembleWord_mask (op' := 0xFF) (x' := 0xFF) (a' := 0x0) (b' := 0xFFFFFFFF) (by rfl) (by simp; rfl)

theorem gol24 (p : BitVec 16) : Statement (.gol24 p) :=
  assembleWord_mask (op' := 0xFF) (x' := 0xFF) (a' := 0x0) (b' := 0xFFFFFFFF) (by rfl) (by simp; rfl)

theorem gol18 (p : BitVec 16) : Statement (.gol18 p) :=
  assembleWord_mask (op' := 0xFF) (x' := 0xFF) (a' := 0x0) (b' := 0xFFFFFFFF) (by rfl) (by simp; rfl)

theorem bptc (p : BitVec 16) : Statement (.bptc p) :=
  assembleWord_mask (op' := 0xFF) (x' := 0xFF) (a' := 0x0) (b' := 0xFFFFFFFF) (by rfl) (by simp; rfl)

theorem crcchk (p : BitVec 8) (q : BitVec 16) (r : BitVec 1) : Statement (.crcchk p q r) :=
  assembleWord_mask (op' := 0xFF) (x' := 0x0) (a' := 0x0) (b' := 0xFFFFFFFE) (by rfl) (by rw [flagOperand_and]; simp; rfl)

theorem crc16 (p : BitVec 16) (q : BitVec 16) : Statement (.crc16 p q) :=
  assembleWord_mask (op' := 0xFF) (x' := 0xFF) (a' := 0x0) (b' := 0xFFFF0000) (by rfl) (by rw [lowOperand_and]; simp; rfl)

end Sys2Proof.Laws.EncodingFits
end

