-- ==== Sys2Proof/Machine/Assembler.lean ====
section
/-! DEFINITION. The assembler syntax of R109 and the pseudo-instructions of R110: from a line of text to the command words it
stands for. The assembler writes fields, not checked commands: a reserved field it sets makes a word the block faults on. -/

namespace Sys2Proof

/-- Why a line is no assembler text. -/
inductive AsmError where
  /-- The mnemonic is none of R109 or R110. -/
  | mnemonic
  /-- The number of operands is not the mnemonic's. -/
  | operands
  /-- An operand is neither a number nor a symbolic selector of the mnemonic's namespace. -/
  | number
  /-- A value does not fit its field. -/
  | range
deriving DecidableEq, Repr

/-- The operand forms of R109, in the order the operands are written. -/
inductive AsmForm where
  | plain
  | a
  | ax
  | axb
  | ab
  | x
  | xa
  | xab
  /-- CRCCHK c, s with an optional flag. -/
  | xaOptB
deriving DecidableEq, Repr

/-- Mnemonic, opcode, operand form and symbolic selectors (R103, R109). -/
structure AsmRow where
  name : List Char
  op : Nat
  form : AsmForm
  selectors : List (List Char)
deriving DecidableEq, Repr

/-- The symbolic selectors of each namespace, in the order of their numbers (R109). -/
def gfNames : List (List Char) := [['g', 'f', '6'], ['g', 'f', '8']]

/-- RS configurations (R109). -/
def rsNames : List (List Char) :=
  [['b', 'c', 'h', '6', '3', '_', '1', '6'], ['r', 's', '2', '4', '_', '1', '2'], ['r', 's', '4', '4', '_', '1', '6'],
    ['r', 's', '6', '3', '_', '3', '5'], ['r', 's', '1', '2', '_', '9']]

/-- Hamming codes (R109). -/
def hamNames : List (List Char) := [['h', '1', '0'], ['h', '1', '3'], ['h', '1', '5'], ['h', '1', '6'], ['h', '1', '7']]

/-- CRC slots (R109). -/
def crcNames : List (List Char) :=
  [['f', 'l', 'e', 'e', 't', 's', 'y', 'n', 'c'], ['l', 't', 'r'], ['p', 'a', 's', 's', 'p', 'o', 'r', 't'], ['l', 'j']]

/-- The rows of R109. -/
def asmRows : List AsmRow :=
  [ { name := ['N', 'O', 'P'], op := 0x00, form := .plain, selectors := [] },
    { name := ['B', 'G', 'E', 'T'], op := 0x10, form := .a, selectors := [] },
    { name := ['B', 'S', 'E', 'T'], op := 0x11, form := .a, selectors := [] },
    { name := ['B', 'C', 'L', 'R'], op := 0x12, form := .a, selectors := [] },
    { name := ['B', 'F', 'L', 'I', 'P'], op := 0x13, form := .a, selectors := [] },
    { name := ['B', 'R', 'E', 'A', 'D'], op := 0x14, form := .ax, selectors := [] },
    { name := ['B', 'W', 'R', 'I', 'T', 'E'], op := 0x15, form := .axb, selectors := [] },
    { name := ['B', 'X', 'O', 'R'], op := 0x16, form := .axb, selectors := [] },
    { name := ['B', 'R', 'O', 'T', 'L'], op := 0x17, form := .ab, selectors := [] },
    { name := ['B', 'R', 'O', 'T', 'R'], op := 0x18, form := .ab, selectors := [] },
    { name := ['B', 'P', 'O', 'P', 'C'], op := 0x19, form := .plain, selectors := [] },
    { name := ['B', 'N', 'E', 'X', 'T'], op := 0x1A, form := .a, selectors := [] },
    { name := ['S', 'Y', 'M', 'W', 'R'], op := 0x20, form := .ab, selectors := [] },
    { name := ['S', 'Y', 'M', 'R', 'D'], op := 0x21, form := .a, selectors := [] },
    { name := ['I', 'D', 'X', 'W', 'R'], op := 0x22, form := .ab, selectors := [] },
    { name := ['I', 'D', 'X', 'R', 'D'], op := 0x23, form := .a, selectors := [] },
    { name := ['E', 'P', 'O', 'S', 'R', 'D'], op := 0x24, form := .a, selectors := [] },
    { name := ['G', 'F', 'E', 'X', 'P'], op := 0x30, form := .xa, selectors := gfNames },
    { name := ['G', 'F', 'L', 'O', 'G'], op := 0x31, form := .xa, selectors := gfNames },
    { name := ['G', 'F', 'M', 'U', 'L'], op := 0x32, form := .xab, selectors := gfNames },
    { name := ['G', 'F', 'I', 'N', 'V'], op := 0x33, form := .xa, selectors := gfNames },
    { name := ['G', 'F', 'A', 'D', 'D'], op := 0x34, form := .xab, selectors := gfNames },
    { name := ['R', 'S', 'D', 'E', 'C'], op := 0x40, form := .x, selectors := rsNames },
    { name := ['H', 'A', 'M', 'D', 'E', 'C'], op := 0x50, form := .xa, selectors := hamNames },
    { name := ['H', 'A', 'M', 'D', 'E', 'C', 'X'], op := 0x51, form := .x, selectors := hamNames },
    { name := ['G', 'O', 'L', '2', '3'], op := 0x52, form := .a, selectors := [] },
    { name := ['G', 'O', 'L', '2', '4'], op := 0x53, form := .a, selectors := [] },
    { name := ['G', 'O', 'L', '1', '8'], op := 0x54, form := .a, selectors := [] },
    { name := ['B', 'P', 'T', 'C'], op := 0x58, form := .a, selectors := [] },
    { name := ['C', 'R', 'C', 'C', 'H', 'K'], op := 0x60, form := .xaOptB, selectors := crcNames },
    { name := ['C', 'R', 'C', '1', '6'], op := 0x61, form := .ab, selectors := [] } ]

/-- Whether a character is white space. -/
def isBlank (c : Char) : Bool := c == ' ' || c == '\t' || c == '\r'

/-- The characters before a comment (R109: `;` starts one). -/
def withoutComment (line : List Char) : List Char := line.takeWhile (· != ';')

/-- A text without white space at its ends. -/
def trimmed (cs : List Char) : List Char := ((cs.dropWhile isBlank).reverse.dropWhile isBlank).reverse

/-- The pieces of a text between commas. -/
def commaPieces : List Char → List (List Char)
  | [] => [[]]
  | c :: cs =>
    if c == ',' then [] :: commaPieces cs
    else match commaPieces cs with
      | [] => [[c]]
      | p :: ps => (c :: p) :: ps

/-- The value of a digit in a base of at most 16. -/
def digitValue (base : Nat) (c : Char) : Option Nat :=
  let v :=
    if '0' ≤ c ∧ c ≤ '9' then some (c.toNat - '0'.toNat)
    else if 'a' ≤ c ∧ c ≤ 'f' then some (c.toNat - 'a'.toNat + 10)
    else if 'A' ≤ c ∧ c ≤ 'F' then some (c.toNat - 'A'.toNat + 10)
    else none
  v.filter (· < base)

/-- The number a nonempty run of digits stands for. -/
def digitsValue (base : Nat) (cs : List Char) : Option Nat :=
  if cs.isEmpty then none
  else cs.foldl (fun acc c => acc.bind fun n => (digitValue base c).map (n * base + ·)) (some 0)

/-- A number: decimal, or hexadecimal after `0x` (R109). -/
def parseNumber : List Char → Option Nat
  | '0' :: 'x' :: cs => digitsValue 16 cs
  | cs => digitsValue 10 cs

/-- An operand that names a configuration entry: a number or a symbolic selector (R109). -/
def parseSelector (selectors : List (List Char)) (cs : List Char) : Option Nat :=
  if cs ∈ selectors then some (selectors.idxOf cs) else parseNumber cs

/-- The word of an opcode and its field values, where each fits its field (R101). -/
def wordOfFields (op x a b : Nat) : Except AsmError CmdWord :=
  if x < 2 ^ 8 ∧ a < 2 ^ 16 ∧ b < 2 ^ 32 then
    .ok (assembleWord (BitVec.ofNat 8 op) (BitVec.ofNat 8 x) (BitVec.ofNat 16 a) (BitVec.ofNat 32 b))
  else .error .range

/-- The word of a row with its operands' values (R109). -/
def wordOfForm (op : Nat) (form : AsmForm) (vs : List Nat) : Except AsmError CmdWord :=
  match form, vs with
  | .plain, [] => wordOfFields op 0 0 0
  | .a, [a] => wordOfFields op 0 a 0
  | .ax, [a, x] => wordOfFields op x a 0
  | .axb, [a, x, b] => wordOfFields op x a b
  | .ab, [a, b] => wordOfFields op 0 a b
  | .x, [x] => wordOfFields op x 0 0
  | .xa, [x, a] => wordOfFields op x a 0
  | .xab, [x, a, b] => wordOfFields op x a b
  | .xaOptB, [x, a] => wordOfFields op x a 0
  | .xaOptB, [x, a, b] => if b < 2 then wordOfFields op x a b else .error .range
  | _, _ => .error .operands

/-- The values of the operand texts; only the first may name a selector. -/
def operandValues (selectors : List (List Char)) : List (List Char) → Option (List Nat)
  | [] => some []
  | p :: ps =>
    match parseSelector selectors p, ps.mapM parseNumber with
    | some v, some vs => some (v :: vs)
    | _, _ => none

/-- One chunk of BLOAD for every 32 bits, the last one shorter: BWRITE s + 32 q, n_q, v_q (R110). `fuel` bounds the number of
chunks. -/
def bloadChunks : Nat → Nat → List Bool → List (Except AsmError CmdWord)
  | 0, _, _ => []
  | fuel + 1, s, bits =>
    if bits.isEmpty then []
    else wordOfFields 0x15 (bits.take 32).length s (bitsToNat (bits.take 32)) :: bloadChunks fuel (s + 32) (bits.drop 32)

/-- BLOAD s, bits (R110). -/
def expandBload (s : Nat) (bits : List Bool) : Except AsmError (List CmdWord) :=
  (bloadChunks bits.length s bits).mapM id

/-- SYMLOAD or IDXLOAD: one write of opcode `op` for each value, the index rising (R110). -/
def expandLoad (op : Nat) : Nat → List Nat → Except AsmError (List CmdWord)
  | _, [] => .ok []
  | j, v :: vs =>
    match wordOfFields op 0 j v, expandLoad op (j + 1) vs with
    | .ok w, .ok ws => .ok (w :: ws)
    | .error e, _ => .error e
    | _, .error e => .error e

/-- The bits of a quoted string of the characters 0 and 1 (R110). -/
def parseBits (cs : List Char) : Option (List Bool) :=
  match cs with
  | '"' :: rest =>
    match rest.reverse with
    | '"' :: body => body.reverse.mapM fun c => if c == '0' then some false else if c == '1' then some true else none
    | _ => none
  | _ => none

/-- The words of a mnemonic with its operand texts (R109, R110). -/
def assembleOperands (name : List Char) (pieces : List (List Char)) : Except AsmError (List CmdWord) :=
  if name = ['B', 'L', 'O', 'A', 'D'] then
    match pieces with
    | [s, bits] =>
      match parseNumber s, parseBits bits with
      | some s, some bits => expandBload s bits
      | _, _ => .error .number
    | _ => .error .operands
  else if name = ['S', 'Y', 'M', 'L', 'O', 'A', 'D'] ∨ name = ['I', 'D', 'X', 'L', 'O', 'A', 'D'] then
    match pieces.mapM parseNumber with
    | some (j :: v :: vs) => expandLoad (if name = ['S', 'Y', 'M', 'L', 'O', 'A', 'D'] then 0x20 else 0x22) j (v :: vs)
    | some _ => .error .operands
    | none => .error .number
  else match asmRows.find? (·.name == name) with
    | none => .error .mnemonic
    | some row =>
      match operandValues row.selectors pieces with
      | none => .error .number
      | some vs => (wordOfForm row.op row.form vs).map ([·])

/-- The words a line stands for; an empty line or a comment stands for none (R109, R110). -/
def assembleLine (line : List Char) : Except AsmError (List CmdWord) :=
  let text := trimmed (withoutComment line)
  let name := text.takeWhile (!isBlank ·)
  let operands := trimmed (text.dropWhile (!isBlank ·))
  if text.isEmpty then .ok []
  else assembleOperands name (if operands.isEmpty then [] else (commaPieces operands).map trimmed)

end Sys2Proof
end

