-- ==== Sys2Proof/Tests/Slice0.lean ====
section
/-! SUPPORT. Tests: the checks of a configuration, the decoding of every command from a word the spec writes out, one step of
each command on an example of its rule, and for every statement with hypotheses a state and operands that meet them. Expected
values are the spec's (the Example line of the rule named, or 95_test_vectors.md). -/

set_option Elab.async false

namespace Sys2Proof.Tests

open Sys2Proof.Machine

/-! Helpers. -/

/-- The bits of a number, the first the most significant. -/
def bitsOf (n v : Nat) : List Bool := natToBits n v

/-- The reset state of the reference configuration whose BUF starts with these bits. -/
def withBuf (bits : List Bool) : State := State.resetWith Config.reference { Draws.zero with buf := bits }

/-- The reset state of the reference configuration whose SYM starts with these words. -/
def withSym (words : List (BitVec 32)) : State := State.resetWith Config.reference { Draws.zero with sym := words }

/-- The next state, or the state itself where there is none. -/
def after (i : Instr) (s : State) : State :=
  match exec i s with
  | .next t => t
  | .fault _ => s
  | .refused _ => s

/-- The state after one step, or the state itself where there is none. -/
def stepped (s : State) : State :=
  match step s with
  | .next t => t
  | .fault _ => s
  | .refused _ => s

/-- The outcome registers: STATUS, NCORR, ECNT, and EPOS below ECNT. -/
def outcomeOf (s : State) : Nat × Nat × Nat × List Nat :=
  (s.status.toNat, s.ncorr.toNat, s.ecnt.toNat, (List.range s.ecnt.toNat).map fun j => (s.epos.read j).toNat)

/-- FAULT and FCMD. -/
def faultOf (s : State) : Nat × CmdWord := (s.fault.toNat, s.fcmd)

/-! Well-formedness: one ill-formed configuration for each check (R6), and the selectors (R107). -/

theorem test_wf_reference : Config.reference.wf = true := by decide +kernel

theorem test_wf_bufLen_low : { Config.reference with bufLen := 195 }.problems = [.bufLen] := by decide +kernel

theorem test_wf_bufLen_high : { Config.reference with bufLen := 65537 }.problems = [.bufLen] := by decide +kernel

/-- x^4 + x^3 + x^2 + x + 1 is irreducible and not primitive (R170). -/
theorem test_wf_gfExtra_not_primitive : { Config.reference with gfExtra := [(2, { m := 4, poly := 0x1F })] }.problems = [.gfExtra] := by
  decide +kernel

theorem test_wf_gfExtra_selector : { Config.reference with gfExtra := [(1, { m := 4, poly := 0x13 })] }.problems = [.gfExtra] := by
  decide +kernel

theorem test_wf_gfExtra_m : { Config.reference with gfExtra := [(2, { m := 9, poly := 0x211 })] }.problems = [.gfExtra] := by
  decide +kernel

theorem test_wf_rsExtra_k :
    { Config.reference with rsExtra := [(5, { slot := 0, n := 10, k := 10, nsyn := 1, binary := false })] }.problems = [.rsExtra] := by
  decide +kernel

theorem test_wf_rsExtra_slot :
    { Config.reference with rsExtra := [(5, { slot := 7, n := 10, k := 6, nsyn := 4, binary := false })] }.problems = [.rsExtra] := by
  decide +kernel

theorem test_wf_ham10 : { Config.reference with ham10 := [0xE, 0xD, 0xB, 0x7, 0x3, 0x8] }.problems = [.ham10] := by decide +kernel

theorem test_wf_ham17 : { Config.reference with ham17 := [3, 5, 6, 7, 9, 10, 11, 12, 13, 14, 15, 3] }.problems = [.ham17] := by
  decide +kernel

theorem test_wf_golayPoly : { Config.reference with golayPoly := 0xAE2 }.problems = [.golayPoly] := by decide +kernel

/-- 0x0001 is a polynomial of R360, but x^15 + 1 repeats its table entries (R372). -/
theorem test_wf_fsPoly : { Config.reference with fsPoly := 1 }.problems = [.fsPoly] := by decide +kernel

theorem test_wf_ltr : { Config.reference with ltr := { msgLen := 24, crcLen := 7, poly := 8, fill := 0 } }.problems = [.ltr] := by
  decide +kernel

theorem test_wf_passport : { Config.reference with passportResiduals := [(0, [3])] }.problems = [.passport] := by decide +kernel

theorem test_wf_passport_positions : { Config.reference with passportResiduals := [(1, [32])] }.problems = [.passport] := by
  decide +kernel

theorem test_wf_lj : { Config.reference with lj := { msgLen := 48, crcLen := 65, poly := 1, fill := 0 } }.problems = [.lj] := by
  decide +kernel

theorem test_wf_crcExtra :
    { Config.reference with
      crcExtra := [(4, { mode := .generic, code := { msgLen := 0, crcLen := 4, poly := 3, fill := 0 }, acceptInverted := false })] }.problems =
      [.crcExtra] := by
  decide +kernel

theorem test_wf_nInst : { Config.reference with nInst := 0 }.problems = [.nInst] := by decide +kernel

theorem test_wf_instr_gf : Instr.wf Config.reference (.gfexp 2 0) = false ∧ Instr.wf Config.reference (.gfexp 1 0) = true := by
  decide +kernel

theorem test_wf_instr_rs : Instr.wf Config.reference (.rsdec 5) = false ∧ Instr.wf Config.reference (.rsdec 4) = true := by
  decide +kernel

theorem test_wf_instr_ham : Instr.wf Config.reference (.hamdecx 5) = false ∧ Instr.wf Config.reference (.hamdec 4 0) = true := by
  decide +kernel

theorem test_wf_instr_crc : Instr.wf Config.reference (.crcchk 4 0 0) = false ∧ Instr.wf Config.reference (.crcchk 3 0 0) = true := by
  decide +kernel

/-! Decoding: for every command the word of an Example line of its rule. -/

theorem test_decode_nop : decode 0x0000000000000000 = .ok .nop := by decide

theorem test_decode_bget : decode 0x1000000200000000 = .ok (.bget 2) := by decide

theorem test_decode_bset : decode 0x1100000700000000 = .ok (.bset 7) := by decide

theorem test_decode_bclr : decode 0x1200000700000000 = .ok (.bclr 7) := by decide

theorem test_decode_bflip : decode 0x1300003200000000 = .ok (.bflip 50) := by decide

theorem test_decode_bread : decode 0x1408000000000000 = .ok (.bread 0 8) := by decide

theorem test_decode_bwrite : decode 0x15080000000000A5 = .ok (.bwrite 0 8 0xA5) := by decide

theorem test_decode_bxor : decode 0x160400000000000F = .ok (.bxor 0 4 0xF) := by decide

theorem test_decode_brotl : decode 0x1700000700000000 = .ok (.brotl 7 0) := by decide

theorem test_decode_brotr : decode 0x1800000000000007 = .ok (.brotr 0 7) := by decide

theorem test_decode_bpopc : decode 0x1900000000000000 = .ok .bpopc := by decide

theorem test_decode_bnext : decode 0x1A0000C400000000 = .ok (.bnext 196) := by decide

theorem test_decode_symwr : decode 0x2000000300000005 = .ok (.symwr 3 5) := by decide

theorem test_decode_symrd : decode 0x2100000300000000 = .ok (.symrd 3) := by decide

theorem test_decode_idxwr : decode 0x2200000000000064 = .ok (.idxwr 0 100) := by decide

theorem test_decode_idxrd : decode 0x2300002000000000 = .ok (.idxrd 32) := by decide

theorem test_decode_eposrd : decode 0x2400000200000000 = .ok (.eposrd 2) := by decide

theorem test_decode_gfexp : decode 0x3001000800000000 = .ok (.gfexp 1 8) := by decide

theorem test_decode_gflog : decode 0x3101005300000000 = .ok (.gflog 1 0x53) := by decide

theorem test_decode_gfmul : decode 0x32010053000000CA = .ok (.gfmul 1 0x53 0xCA) := by decide

theorem test_decode_gfinv : decode 0x3301005300000000 = .ok (.gfinv 1 0x53) := by decide

theorem test_decode_gfadd : decode 0x3400002A00000015 = .ok (.gfadd 0 0x2A 0x15) := by decide

theorem test_decode_rsdec : decode 0x4004000000000000 = .ok (.rsdec 4) := by decide

theorem test_decode_hamdec : decode 0x5002000000000000 = .ok (.hamdec 2 0) := by decide

theorem test_decode_hamdecx : decode 0x5101000000000000 = .ok (.hamdecx 1) := by decide

theorem test_decode_gol23 : decode 0x5200000A00000000 = .ok (.gol23 10) := by decide

theorem test_decode_gol24 : decode 0x5300000000000000 = .ok (.gol24 0) := by decide

theorem test_decode_gol18 : decode 0x5400001400000000 = .ok (.gol18 20) := by decide

theorem test_decode_bptc : decode 0x5800000000000000 = .ok (.bptc 0) := by decide

/-- CRCCHK ltr, 16, 1: the selector, the start and the flag in their fields (R104). -/
theorem test_decode_crcchk : decode 0x6001001000000001 = .ok (.crcchk 1 16 1) := by decide

theorem test_decode_crc16 : decode 0x6100000000000040 = .ok (.crc16 0 64) := by decide

theorem test_decode_illegal : decode 0x6200000000000000 = .error .illegalOpcode := by decide

/-- R153's example: a 17-bit value in IDXWR. -/
theorem test_decode_reserved : decode 0x2200000000010000 = .error .reservedField := by decide

theorem test_decode_reserved_flag : decode 0x6001001000000002 = .error .reservedField := by decide

/-! One step of each command, on the examples of the rules. -/

theorem test_nop : exec .nop (withBuf [true]) = .next (withBuf [true]) := rfl

theorem test_bget : (after (.bget 2) (withBuf (bitsOf 8 0xA5))).res = 1 ∧
    faultOf (after (.bget 256) State.reset) = (5, 0x1000010000000000) := by decide +kernel

theorem test_bset : (after (.bset 7) State.reset).buf = [(7, true)] ∧ (after (.bset 7) State.reset).res = 0 := by decide +kernel

theorem test_bclr : (after (.bclr 7) (withBuf (bitsOf 8 1))).buf = [] := by decide +kernel

theorem test_bflip : (after (.bflip 50) (after (.bset 50) State.reset)).buf = [] := by decide +kernel

theorem test_bread : (after (.bread 0 8) (withBuf (bitsOf 8 0xA5))).res = 0xA5 ∧
    faultOf (after (.bread 0 0) State.reset) = (4, 0x1400000000000000) := by decide +kernel

theorem test_bwrite : (after (.bwrite 0 8 0xA5) State.reset).buf = [(0, true), (2, true), (5, true), (7, true)] ∧
    faultOf (after (.bwrite 0 4 0x10) State.reset) = (7, 0x1504000000000010) := by decide +kernel

theorem test_bxor : (after (.bxor 0 4 0xF) (withBuf (bitsOf 8 0xA5))).bufRead 0 8 = 0x55 := by decide +kernel

theorem test_brotl : (after (.brotl 0 7) (withBuf (bitsOf 8 0x81))).bufRead 0 8 = 0x03 ∧
    faultOf (after (.brotl 7 0) State.reset) = (4, 0x1700000700000000) := by decide +kernel

theorem test_brotr : (after (.brotr 0 7) (withBuf (bitsOf 8 0xC0))).bufRead 0 8 = 0x60 := by decide +kernel

theorem test_bpopc : (after .bpopc (withBuf (bitsOf 16 0x0123))).res = 4 := by decide +kernel

theorem test_bnext : (after (.bnext 8) (withBuf (bitsOf 16 0x0123))).res = 10 ∧
    (after (.bnext 16) (withBuf (bitsOf 16 0x0123))).res = 0xFFFFFFFF := by decide +kernel

theorem test_bnext_end : (after (.bnext 256) State.reset).res = 0xFFFFFFFF ∧ (after (.bnext 257) State.reset).fault = 5 := by
  decide +kernel

theorem test_symwr : (after (.symwr 3 5) State.reset).sym = [(3, 5)] ∧
    faultOf (after (.symwr 255 0) State.reset) = (6, 0x200000FF00000000) := by decide +kernel

theorem test_symrd : (after (.symrd 3) (withSym [0, 0, 0, 5])).res = 5 := by decide +kernel

theorem test_idxwr : (after (.idxwr 0 100) State.reset).idx = [(0, 100)] := by decide +kernel

theorem test_idxrd : (after (.idxrd 0) (after (.idxwr 0 100) State.reset)).res = 100 ∧
    (after (.idxrd 32) State.reset).fault = 6 := by decide +kernel

/-- The list of R154's example: positions 10, 15 and 32 reported by GOL23. -/
theorem test_eposrd : (after (.eposrd 2) (State.reset.outcome .corrected [10, 15, 32])).res = 32 ∧
    faultOf (after (.eposrd 3) (State.reset.outcome .corrected [10, 15, 32])) = (6, 0x2400000300000000) := by decide +kernel

theorem test_gfexp : (after (.gfexp 1 8) State.reset).res = 0x1D ∧ (after (.gfexp 0 6) State.reset).res = 0x03 := by
  decide +kernel

/-- EXP_TOP is the configuration's (R173), and index 2^m is out of the table. -/
theorem test_gfexp_top : (after (.gfexp 1 255) (State.resetWith { Config.reference with expTop := 0x77 } Draws.zero)).res = 0x77 ∧
    (after (.gfexp 1 256) State.reset).fault = 7 := by decide +kernel

theorem test_gflog : (after (.gflog 1 0x53) State.reset).res = 206 ∧ (after (.gflog 0 0) State.reset).res = 0xFFFFFFFF := by
  decide +kernel

theorem test_gfmul : (after (.gfmul 1 0x53 0xCA) State.reset).res = 0x8F ∧
    faultOf (after (.gfmul 0 64 3) State.reset) = (7, 0x3200004000000003) := by decide +kernel

theorem test_gfinv : (after (.gfinv 1 0x53) State.reset).res = 0x8C ∧
    faultOf (after (.gfinv 1 0) State.reset) = (8, 0x3301000000000000) := by decide +kernel

theorem test_gfadd : (after (.gfadd 0 0x2A 0x15) State.reset).res = 0x3F ∧ (after (.gfadd 0 0x2A 0x40) State.reset).fault = 7 := by
  decide +kernel

theorem test_rsdec : outcomeOf (after (.rsdec 4) (withSym [0, 0, 0, 5])) = (1, 1, 1, [3]) ∧
    (after (.rsdec 4) (withSym [0, 0, 0, 5])).sym = [] := by decide +kernel

/-- A symbol 2 in the binary code under REJECT (R212's example). -/
theorem test_rsdec_invalid : outcomeOf (after (.rsdec 0) (withSym [0, 0, 0, 2])) = (5, 0, 0, []) ∧
    (after (.rsdec 0) (withSym [0, 0, 0, 2])).sym = [(3, 2)] := by decide +kernel

theorem test_hamdec : outcomeOf (after (.hamdec 2 0) (withBuf (bitsOf 15 0b101110101110100))) = (1, 1, 1, [4]) ∧
    (after (.hamdec 2 0) (withBuf (bitsOf 15 0b101110101110100))).bufRead 0 15 = 0b101100101110100 := by decide +kernel

/-- Indices 100 + 2 j, the Hamming(13,9) codeword 1100101011011 with bit 12 flipped (R260's example). -/
theorem test_hamdecx :
    outcomeOf (after (.hamdecx 1) (State.resetWith Config.reference { Draws.zero with
      idx := (List.range 13).map fun j => BitVec.ofNat 16 (100 + 2 * j)
      buf := List.replicate 100 false ++ (bitsOf 13 0b1100101011010).flatMap fun b => [b, false] })) = (1, 1, 1, [124]) ∧
    (after (.hamdecx 1) State.reset).fault = 9 := by decide +kernel

theorem test_gol23 : outcomeOf (after (.gol23 10) (after (.bset 32) (after (.bset 15) (after (.bset 10) State.reset)))) =
    (1, 3, 3, [10, 15, 32]) := by decide +kernel

theorem test_gol24 : outcomeOf (after (.gol24 0) (withBuf (bitsOf 24 0x800001))) = (1, 2, 2, [0, 23]) := by decide +kernel

theorem test_gol24_four : outcomeOf (after (.gol24 0) (withBuf (bitsOf 4 0xF))) = (2, 0, 0, []) := by decide +kernel

theorem test_gol18 : outcomeOf (after (.gol18 20) (after (.bset 20) State.reset)) = (1, 1, 1, [20]) := by decide +kernel

/-- The vector of R339, first bit first. -/
def bptcVector : List Bool :=
  bitsOf 196 0b0101011000000110110110000011010101011000100110000101000100110011011100110000010011000110100000111001001101000110001001101001100000110100101100001001111000010000011111010010000110001001000100011010

/-- R339, and the example of R336. -/
theorem test_bptc_vector :
    outcomeOf (after (.bptc 0) (withBuf bptcVector)) = (0, 0, 0, []) ∧
    outcomeOf (after (.bptc 0) (after (.bflip 50) (withBuf bptcVector))) = (1, 1, 1, [50]) := by decide +kernel

/-- R335: in the zero block, cells (9, 14) and (12, 14) wrong give column 14 the syndrome 8 + 1 = 9, which no entry has; the wrong
cell (0, 0), at offset 181, is repaired all the same, and reported. -/
theorem test_bptc_partial :
    outcomeOf (after (.bptc 0) (after (.bset 181) (after (.bset 15) (after (.bset 102) State.reset)))) = (2, 1, 1, [181]) := by
  decide +kernel

/-- The three frames of R370's example. -/
theorem test_crcchk : (after (.crcchk 0 0 0) State.reset).status = 0 ∧
    (after (.crcchk 0 0 0) (after (.bset 63) State.reset)).status = 4 ∧
    (after (.crcchk 0 0 0) (after (.bset 62) (after (.bset 61) State.reset))).status = 2 := by decide +kernel

/-- R367 on the LTR slot: two wrong checksum bits give the syndrome 3, no entry; all seven give an inverted pass, if inbound. -/
theorem test_crcchk_generic :
    outcomeOf (after (.crcchk 1 225 1) (after (.bwrite 254 2 3) State.reset)) = (2, 0, 0, []) ∧
    outcomeOf (after (.crcchk 1 225 1) (after (.bwrite 249 7 127) State.reset)) = (3, 0, 0, []) ∧
    outcomeOf (after (.crcchk 1 225 0) (after (.bwrite 249 7 127) State.reset)) = (2, 0, 0, []) := by decide +kernel

/-- The frame of R371's example, with BUF[10] flipped. -/
theorem test_crc16 :
    outcomeOf (after (.crc16 0 64) (after (.bflip 10) (withBuf (bitsOf 80 0x0123456789ABCDEF56AA)))) = (1, 1, 1, [10]) := by
  decide +kernel

/-- R367: the zero frame with M = 1 has the syndrome 0xFFFF of the fill, which is no table entry, and CRC16 has no inverted pass. -/
theorem test_crc16_fail : outcomeOf (after (.crc16 0 1) State.reset) = (2, 0, 0, []) := by decide +kernel

/-- R424: after a fault the next word changes nothing, and the first fault stays recorded. -/
theorem test_halted : after (.bset 0) (after (.bget 256) State.reset) = after (.bget 256) State.reset := by decide +kernel

theorem test_reset_after_fault :
    stepped { after (.bget 256) State.reset with port := [.reset Draws.zero] } = State.reset := by decide +kernel

/-- R110: BLOAD of 33 bits is two BWRITE words. -/
theorem test_assemble_bload :
    expandBload 0 (bitsOf 33 0x1FFFFFFFF) = .ok [0x15200000FFFFFFFF, 0x1501002000000001] := by decide +kernel

theorem test_assemble_line :
    assembleLine ['C', 'R', 'C', 'C', 'H', 'K', ' ', 'l', 't', 'r', ',', ' ', '0', 'x', '1', '0', ',', ' ', '1'] =
      .ok [0x6001001000000001] := by decide +kernel

/-! Witnesses: for each statement with hypotheses, a state and operands that meet all of them together. -/

/-- The reset state of another configuration. -/
def withConfig (c : Config) : State := State.resetWith c Draws.zero

/-- A halted block. -/
def haltedState : State := after (.bget 256) State.reset

/-- The words of witness_DrawIndependence. -/
def drawWords : List CmdWord := [0x15080000000000A5, 0x1408000000000000, 0x1000000800000000, 0x1000010000000000]

theorem witness_EncodeInvertsDecode : decode 0x1000000200000000 = .ok (.bget 2) := by decide

/-- Both ends of every range R105 lists, on the port of a running block. -/
theorem witness_IllegalOpcodeFaults :
    (∀ op ∈ [0x01, 0x0F, 0x1B, 0x1F, 0x25, 0x2F, 0x35, 0x3F, 0x41, 0x4F, 0x55, 0x57, 0x59, 0x5F, 0x62, 0xFF],
      illegalOpcode (opField (assembleWord (BitVec.ofNat 8 op) 0 0 0)).toNat) ∧
    (State.reset.issue 0x6200000000000000).port = .command 0x6200000000000000 :: [] ∧ State.reset.fault = 0 := by
  unfold illegalOpcode; decide +kernel

theorem witness_ReservedFieldFaults :
    opField 1 = opField (encode .nop) ∧ (1 : CmdWord) &&& (tableRow .nop).2 ≠ (tableRow .nop).1 ∧
    opField 0x6001001000000002 = opField (encode (.crcchk 1 16 0)) ∧
    (0x6001001000000002 : CmdWord) &&& (tableRow (.crcchk 1 16 0)).2 ≠ (tableRow (.crcchk 1 16 0)).1 ∧
    (State.reset.issue 1).port = .command 1 :: [] ∧ (State.reset.issue 1).fault = 0 := by decide +kernel

theorem witness_StepRunsDecoded :
    (State.reset.issue 0x1100000700000000).port = .command 0x1100000700000000 :: [] ∧
    decode 0x1100000700000000 = .ok (.bset 7) := by decide +kernel

theorem witness_HostMovesTaken :
    State.reset.port = [] ∧ (State.reset.issue 0xFF).port = .command 0xFF :: [] ∧
    { haltedState with port := [.reset Draws.zero] }.port = .reset Draws.zero :: [] := ⟨rfl, rfl, rfl⟩

theorem witness_HaltedBlockIgnores :
    haltedState.fault ≠ 0 ∧ (haltedState.issue 0).fault ≠ 0 ∧ (haltedState.issue 0).port = .command 0 :: [] := by decide +kernel

theorem witness_ResetTaken : { haltedState with port := [.reset Draws.zero] }.port = .reset Draws.zero :: [] := rfl

theorem witness_RegisterPortValues : (8 : Nat) ≤ 8 := le_rfl

theorem witness_BuildAdmitsWellFormed :
    Config.reference.wf = true ∧ { Config.reference with bufLen := 195 }.wf = false := by decide +kernel

theorem witness_FaultEntryPrecise :
    (State.reset.issue 0x1000010000000000).port = .command 0x1000010000000000 :: [] ∧
    (State.reset.issue 0x1000010000000000).fault = 0 ∧ step (State.reset.issue 0x1000010000000000) = .next haltedState ∧
    haltedState.fault ≠ 0 :=
  ⟨rfl, rfl, rfl, by decide +kernel⟩

/-- A completed command, a faulting one, and one of each kind the statement's clauses name. -/
theorem witness_WritersTable :
    State.reset.cfg.wf = true ∧ State.reset.fault = 0 ∧
    exec (.bset 7) State.reset = .next (after (.bset 7) State.reset) ∧ (after (.bset 7) State.reset).fault = 0 ∧
    exec (.bget 256) State.reset = .next haltedState ∧ haltedState.fault ≠ 0 ∧
    (∃ r, State.reset.cfg.rsConfig (4 : BitVec 8).toNat = some r ∧ r.n ≤ 12) ∧
    exec (.symwr 254 1) State.reset = .next (after (.symwr 254 1) State.reset) ∧
    exec (.idxwr 31 1) State.reset = .next (after (.idxwr 31 1) State.reset) :=
  ⟨by decide +kernel, rfl, rfl, by decide +kernel, rfl, by decide +kernel, ⟨_, rfl, by decide⟩, rfl, rfl⟩

/-- A configuration that is not the reference one, for a second reset. -/
theorem witness_InvariantAtReset :
    { Config.reference with bufLen := 196, golayPoly := 0xC75 }.wf = true ∧
    { Config.reference with bufLen := 65536, invalidSymbols := .ignore }.wf = true := by decide +kernel

theorem witness_InvariantKept :
    (State.reset.issue 0x1100000700000000).invariant ∧
    step (State.reset.issue 0x1100000700000000) = .next (after (.bset 7) State.reset) := by
  refine ⟨?_, rfl⟩
  unfold State.invariant State.memoriesWf State.codesLegal State.outcomeConsistent
  decide +kernel

/-- BWRITE 0, 8, 0xA5; BREAD 0, 8; BGET 8; BGET 256: BUF[8] is read unwritten and not named, and the last command faults. The draws
differ in BUF[0]. Named, BUF[8] would break the premise; for a run that does not read it, every cell may be named. -/
theorem witness_DrawIndependence :
    Config.reference.wf = true ∧
    (∀ x, x ∉ (List.range 8).map Cell.buf →
      sameCell (runStart Config.reference { Draws.zero with buf := [true] } drawWords)
        (runStart Config.reference Draws.zero drawWords) x) ∧
    written ((List.range 8).map .buf) 4 [] (runStart Config.reference { Draws.zero with buf := [true] } drawWords) = true ∧
    written ((List.range 9).map .buf) 4 [] (runStart Config.reference { Draws.zero with buf := [true] } drawWords) = false ∧
    written (allCells Config.reference) 2 [] (runStart Config.reference { Draws.zero with buf := [true] } drawWords) = true := by
  refine ⟨by decide +kernel, ?_, by decide +kernel, by decide +kernel, by decide +kernel⟩
  intro x hx
  cases x with
  | buf i =>
    have hi : i ≠ 0 := by rintro rfl; exact hx (by decide)
    simp [sameCell, runStart, State.resetWith, Draws.zero, Config.reference, Mem.ofCells, Mem.read, unlistedCell, hi]
  | sym j => rfl
  | idx j => rfl

theorem witness_InterleavingsAgree : (0 : Nat) ≠ 1 ∧ [0, 1].Perm [1, 0] := ⟨by decide, List.Perm.swap 1 0 []⟩

theorem witness_UndefinedSelectorFaults :
    State.reset.fault = 0 ∧ Instr.wf State.reset.cfg (.gfexp 2 0) = false ∧ Instr.wf State.reset.cfg (.rsdec 5) = false ∧
    Instr.wf State.reset.cfg (.hamdec 5 0) = false ∧ Instr.wf State.reset.cfg (.crcchk 4 0 0) = false := by decide +kernel

/-- Bad counts and good ones, at the ends of their ranges; the first bit beyond BUF as a bit read, a bit written and the last bit of
a window, and where BNEXT may not start; a BUF_RANGE that is raised. -/
theorem witness_BeyondBufferFaults :
    State.reset.fault = 0 ∧ State.reset.cfg.wf = true ∧ State.reset.cfg.bufLen = 256 ∧
    Instr.wf State.reset.cfg (.hamdec 2 242) = true ∧ Instr.wf State.reset.cfg (.crcchk 1 226 0) = true ∧
    badCount (.bread 0 0) ∧ ¬ badCount (.bread 0 1) ∧ ¬ badCount (.bwrite 225 32 0) ∧ badCount (.bwrite 224 33 0) ∧
    badCount (.brotl 1 0) ∧ ¬ badCount (.brotl 1 1) ∧ badCount (.crc16 0 0) ∧ ¬ badCount (.crc16 240 1) ∧
    reachesBeyond State.reset (.bget 256) ∧ reachesBeyond State.reset (.bset 256) ∧
    reachesBeyond State.reset (.bwrite 225 32 0) ∧ reachesBeyond State.reset (.hamdec 2 242) ∧
    reachesBeyond State.reset (.crcchk 1 226 0) ∧ reachesBeyond State.reset (.crc16 240 1) ∧
    reachesBeyond State.reset (.bnext 257) ∧ raises (.bget 256) State.reset .bufRange := by
  unfold badCount reachesBeyond raises
  refine ⟨rfl, by decide +kernel, by decide +kernel, by decide +kernel, by decide +kernel, by decide, by decide, by decide,
    by decide, by decide, by decide, by decide, by decide, .inl ⟨256, ?_⟩, .inl ⟨256, ?_⟩, .inl ⟨256, ?_⟩, .inl ⟨256, ?_⟩,
    .inl ⟨256, ?_⟩, .inl ⟨256, ?_⟩, .inr ⟨257, rfl, by decide +kernel⟩, rfl⟩ <;> decide +kernel

/-! Witnesses of the bit-buffer statements. BUF_LEN is 256. -/

theorem witness_BgetReadsBit :
    State.reset.fault = 0 ∧ State.reset.cfg.bufLen ≤ (256 : BitVec 16).toNat ∧ (255 : BitVec 16).toNat < State.reset.cfg.bufLen := by
  decide +kernel

theorem witness_SetClearFlipBit :
    State.reset.fault = 0 ∧ State.reset.cfg.bufLen ≤ (256 : BitVec 16).toNat ∧ (255 : BitVec 16).toNat < State.reset.cfg.bufLen := by
  decide +kernel

/-- Counts 0, 33, 1 and 32; a run that ends at BUF_LEN and one that ends one bit later. -/
theorem witness_BreadSum :
    State.reset.fault = 0 ∧ (0 : BitVec 8).toNat = 0 ∧ 32 < (33 : BitVec 8).toNat ∧ 1 ≤ (1 : BitVec 8).toNat ∧ (32 : BitVec 8).toNat ≤ 32 ∧
    (224 : BitVec 16).toNat + (32 : BitVec 8).toNat ≤ State.reset.cfg.bufLen ∧
    State.reset.cfg.bufLen < (225 : BitVec 16).toNat + (32 : BitVec 8).toNat := by decide +kernel

/-- The same bounds, and a value of n bits and one of n + 1. -/
theorem witness_BwriteStores :
    State.reset.fault = 0 ∧ 32 < (33 : BitVec 8).toNat ∧ (32 : BitVec 8).toNat ≤ 32 ∧
    (224 : BitVec 16).toNat + (32 : BitVec 8).toNat ≤ State.reset.cfg.bufLen ∧
    State.reset.cfg.bufLen < (225 : BitVec 16).toNat + (32 : BitVec 8).toNat ∧
    2 ^ (4 : BitVec 8).toNat ≤ (0x10 : BitVec 32).toNat ∧ (0xF : BitVec 32).toNat < 2 ^ (4 : BitVec 8).toNat ∧
    (0xFFFFFFFF : BitVec 32).toNat < 2 ^ (32 : BitVec 8).toNat := by decide +kernel

theorem witness_BxorStores :
    State.reset.fault = 0 ∧ 32 < (33 : BitVec 8).toNat ∧ (32 : BitVec 8).toNat ≤ 32 ∧
    (224 : BitVec 16).toNat + (32 : BitVec 8).toNat ≤ State.reset.cfg.bufLen ∧
    State.reset.cfg.bufLen < (225 : BitVec 16).toNat + (32 : BitVec 8).toNat ∧
    2 ^ (4 : BitVec 8).toNat ≤ (0x10 : BitVec 32).toNat ∧ (0xF : BitVec 32).toNat < 2 ^ (4 : BitVec 8).toNat := by decide +kernel

/-- start > end by one, end at BUF_LEN, the one-bit range at the top of BUF, the whole of BUF. -/
theorem witness_RotateByOne :
    State.reset.fault = 0 ∧ (7 : BitVec 32).toNat < (8 : BitVec 16).toNat ∧
    ((0 : BitVec 16).toNat ≤ (256 : BitVec 32).toNat ∧ State.reset.cfg.bufLen ≤ (256 : BitVec 32).toNat) ∧
    ((255 : BitVec 16).toNat ≤ (255 : BitVec 32).toNat ∧ (255 : BitVec 32).toNat < State.reset.cfg.bufLen) ∧
    (0 : BitVec 16).toNat ≤ (255 : BitVec 32).toNat := by decide +kernel

theorem witness_BufferRoundTrips :
    State.reset.fault = 0 ∧ ((255 : BitVec 16).toNat ≤ (255 : BitVec 32).toNat ∧ (255 : BitVec 32).toNat < State.reset.cfg.bufLen) ∧
    (255 : BitVec 16).toNat < State.reset.cfg.bufLen ∧ State.reset.buf.read 255 = false ∧
    (1 ≤ (32 : BitVec 8).toNat ∧ (32 : BitVec 8).toNat ≤ 32 ∧ (224 : BitVec 16).toNat + (32 : BitVec 8).toNat ≤ State.reset.cfg.bufLen ∧
      (0xFFFFFFFF : BitVec 32).toNat < 2 ^ (32 : BitVec 8).toNat ∧ 31 < (32 : BitVec 8).toNat ∧
      (255 : BitVec 16).toNat = (224 : BitVec 16).toNat + 31) := by decide +kernel

theorem witness_BpopcCounts : State.reset.fault = 0 := rfl

/-- `from` one beyond BUF_LEN; a set bit with no other before it; `from` = BUF_LEN with nothing after it. -/
theorem witness_BnextFindsFirst :
    State.reset.fault = 0 ∧ State.reset.cfg.bufLen < (257 : BitVec 16).toNat ∧
    ((withBuf (bitsOf 16 0x0123)).fault = 0 ∧ (8 : BitVec 16).toNat ≤ 10 ∧ 10 < (withBuf (bitsOf 16 0x0123)).cfg.bufLen ∧
      (withBuf (bitsOf 16 0x0123)).buf.read 10 = true ∧ ∀ k < 10, 8 ≤ k → (withBuf (bitsOf 16 0x0123)).buf.read k = false) ∧
    ((256 : BitVec 16).toNat ≤ State.reset.cfg.bufLen ∧ ∀ k < State.reset.cfg.bufLen, 256 ≤ k → State.reset.buf.read k = false) := by
  decide +kernel

theorem witness_SymbolMemory : State.reset.fault = 0 ∧ 255 ≤ (255 : BitVec 16).toNat ∧ (254 : BitVec 16).toNat < 255 := by decide +kernel

theorem witness_IndexMemory : State.reset.fault = 0 ∧ 32 ≤ (32 : BitVec 16).toNat ∧ (31 : BitVec 16).toNat < 32 := by decide +kernel

/-- With three positions reported, index 2 and index 3. -/
theorem witness_EposrdReads :
    (State.reset.outcome .corrected [10, 15, 32]).fault = 0 ∧
    (State.reset.outcome .corrected [10, 15, 32]).ecnt.toNat ≤ (3 : BitVec 16).toNat ∧
    (2 : BitVec 16).toNat < (State.reset.outcome .corrected [10, 15, 32]).ecnt.toNat := by decide +kernel

/-! Witnesses of the field statements, at slot 0: m = 6. -/

/-- The premises the field statements share. -/
theorem witness_fieldSlot :
    State.reset.cfg.wf = true ∧ State.reset.fault = 0 ∧ State.reset.cfg.gfSlot (0 : BitVec 8).toNat = some { m := 6, poly := 0x43 } := by
  decide +kernel

theorem witness_GfexpTable :
    2 ^ 6 ≤ (64 : BitVec 16).toNat ∧ (63 : BitVec 16).toNat = 2 ^ 6 - 1 ∧ (62 : BitVec 16).toNat < 2 ^ 6 - 1 := by decide

theorem witness_GflogInverts :
    2 ^ 6 ≤ (64 : BitVec 16).toNat ∧ (0 : BitVec 16).toNat = 0 ∧ 0 < (63 : BitVec 16).toNat ∧ (63 : BitVec 16).toNat < 2 ^ 6 := by decide

/-- An operand out of the field, a zero factor, and the factors α^6 = 3 and α^63 = 1. -/
theorem witness_GfmulAddsLogs :
    2 ^ 6 ≤ (64 : BitVec 16).toNat ∧ (63 : BitVec 16).toNat < 2 ^ 6 ∧ (0 : BitVec 16).toNat = 0 ∧
    ({ m := 6, poly := 0x43 } : GfSlot).alphaPower 6 = (3 : BitVec 16).toNat ∧
    ({ m := 6, poly := 0x43 } : GfSlot).alphaPower 63 = (1 : BitVec 16).toNat := by decide +kernel

theorem witness_GfinvInverts :
    2 ^ 6 ≤ (64 : BitVec 16).toNat ∧ (0 : BitVec 16).toNat = 0 ∧ (1 : BitVec 16).toNat = 1 ∧
    2 ≤ (2 : BitVec 16).toNat ∧ (63 : BitVec 16).toNat < 2 ^ 6 := by decide

theorem witness_GfaddXors :
    State.reset.fault = 0 ∧ State.reset.cfg.gfSlot (0 : BitVec 8).toNat = some { m := 6, poly := 0x43 } ∧
    2 ^ 6 ≤ (64 : BitVec 16).toNat ∧ (63 : BitVec 16).toNat < 2 ^ 6 := by decide +kernel

theorem witness_FieldLaws :
    ({ m := 6, poly := 0x43 } : GfSlot).wf = true ∧ ({ m := 8, poly := 0x11D } : GfSlot).wf = true ∧
    63 < ({ m := 6, poly := 0x43 } : GfSlot).size ∧ (63 : Nat) ≠ 0 := by decide +kernel

/-! Witnesses of the Reed-Solomon statements, at configuration 4: RS(12,9) over GF(2^8). -/

/-- GF(2^8) (R170). -/
def gf8 : GfSlot := { m := 8, poly := 0x11D }

/-- RS(12,9) (R211). -/
def rs12 : RsConfig := { slot := 1, n := 12, k := 9, nsyn := 3, binary := false }

theorem witness_RsdecCompletes :
    State.reset.cfg.wf = true ∧ State.reset.fault = 0 ∧ State.reset.cfg.rsCode (4 : BitVec 8).toNat = some (gf8, rs12) := by
  decide +kernel

/-- The zero word is a codeword of valid symbols. -/
theorem zero_word : State.reset.allValid gf8 rs12 ∧ State.reset.isCodeword gf8 rs12 := by
  unfold State.allValid State.isCodeword
  refine ⟨by decide +kernel, ?_⟩
  intro i h₁ h₂
  have h₃ : i ≤ 3 := h₂
  interval_cases i <;> decide +kernel

/-- A word with the symbol 256 under REJECT, and the zero word. -/
theorem witness_RsdecValidity :
    (withSym [256]).fault = 0 ∧ (withSym [256]).cfg.rsCode (4 : BitVec 8).toNat = some (gf8, rs12) ∧
    (withSym [256]).cfg.invalidSymbols = .reject ∧ ¬ (withSym [256]).allValid gf8 rs12 ∧
    State.reset.allValid gf8 rs12 ∧ State.reset.isCodeword gf8 rs12 := by
  refine ⟨rfl, by decide +kernel, rfl, ?_, zero_word.1, zero_word.2⟩
  unfold State.allValid
  decide +kernel

/-- The last position, with the smallest and the largest error. -/
theorem witness_RsSingleErrorRestored :
    State.reset.cfg.wf = true ∧ State.reset.fault = 0 ∧ State.reset.cfg.rsCode (4 : BitVec 8).toNat = some (gf8, rs12) ∧
    2 ≤ rs12.nsyn ∧ State.reset.allValid gf8 rs12 ∧ State.reset.isCodeword gf8 rs12 ∧ 11 < rs12.n ∧ 0 < 1 ∧
    255 < gf8.size ∧ (rs12.binary = true → 1 = 1) :=
  ⟨by decide +kernel, rfl, by decide +kernel, by decide, zero_word.1, zero_word.2, by decide, by decide, by decide, fun _ => rfl⟩

theorem witness_ShortCodeTwoErrorsDetected :
    State.reset.cfg.wf = true ∧ State.reset.fault = 0 ∧ State.reset.cfg.rsCode 4 = some (gf8, rs12) ∧
    State.reset.allValid gf8 rs12 ∧ State.reset.isCodeword gf8 rs12 ∧ 0 < 12 ∧ 11 < 12 ∧ (0 : Nat) ≠ 11 ∧ 0 < 1 ∧ 255 < 256 :=
  ⟨by decide +kernel, rfl, by decide +kernel, zero_word.1, zero_word.2, by decide, by decide, by decide, by decide, by decide⟩

/-- The single error 5 at position 3. -/
def oneError (j : Nat) : Nat := if j = 3 then 5 else 0

/-- RS(3,1) with one syndrome, so t = 0. -/
def rs3 : RsConfig := { slot := 1, n := 3, k := 1, nsyn := 1, binary := false }

/-- RS(3,1) as configuration 5, the word with SYM[0] = 1. -/
def detectOnly : State :=
  State.resetWith { Config.reference with rsExtra := [(5, rs3)] } { Draws.zero with sym := [1] }

/-- The three clauses: a codeword; a word one error away from one; a word no error word explains. -/
theorem witness_RsBoundedDistance :
    (State.reset.cfg.wf = true ∧ State.reset.fault = 0 ∧ State.reset.cfg.rsCode (4 : BitVec 8).toNat = some (gf8, rs12) ∧
      State.reset.allValid gf8 rs12 ∧ State.reset.isCodeword gf8 rs12) ∧
    ((withSym [0, 0, 0, 5]).allValid gf8 rs12 ∧ ¬ (withSym [0, 0, 0, 5]).isCodeword gf8 rs12 ∧
      errorWord gf8 rs12 ((withSym [0, 0, 0, 5]).received gf8 rs12) oneError ∧ ∀ j, rs12.n ≤ j → oneError j = 0) ∧
    (detectOnly.cfg.wf = true ∧ detectOnly.fault = 0 ∧ detectOnly.cfg.rsCode (5 : BitVec 8).toNat = some (gf8, rs3) ∧
      detectOnly.allValid gf8 rs3 ∧ ¬ detectOnly.isCodeword gf8 rs3 ∧
      ∀ e, errorWord gf8 rs3 (detectOnly.received gf8 rs3) e → ∃ j, rs3.n ≤ j ∧ e j ≠ 0) := by
  have hcode : ¬ detectOnly.isCodeword gf8 rs3 := by
    intro h
    exact absurd (h 1 (by decide) (by decide)) (by decide +kernel)
  refine ⟨⟨by decide +kernel, rfl, by decide +kernel, zero_word.1, zero_word.2⟩, ⟨?_, ?_, ⟨?_, ?_, ?_, ?_, ?_⟩, ?_⟩,
    by decide +kernel, rfl, by decide +kernel, ?_, hcode, ?_⟩
  · unfold State.allValid; decide +kernel
  · intro h
    exact absurd (h 1 (by decide) (by decide)) (by decide +kernel)
  · intro j; unfold oneError; split <;> decide
  · intro j hj
    have h255 : 255 ≤ j := hj
    exact if_neg (by omega)
  · intro h; cases h
  · decide +kernel
  · intro i h₁ h₂
    have h₃ : i ≤ 3 := h₂
    interval_cases i <;> decide +kernel
  · intro j hj
    have h12 : 12 ≤ j := hj
    exact if_neg (by omega)
  · unfold State.allValid; decide +kernel
  · rintro e ⟨-, hhigh, -, hweight, hsyn⟩
    exfalso
    have hzero : ∀ j, e j = 0 := by
      intro j
      by_cases hj : gf8.order ≤ j
      · exact hhigh j hj
      · have hnil : (List.range gf8.order).filter (fun j => e j ≠ 0) = [] :=
          List.eq_nil_of_length_eq_zero (Nat.le_zero.1 hweight)
        simpa using List.filter_eq_nil_iff.1 hnil j (List.mem_range.2 (by omega))
    have he : e = fun _ => 0 := funext hzero
    apply hcode
    intro i h₁ h₂
    rw [← hsyn i h₁ h₂, he]
    have h₃ : i ≤ 1 := h₂
    interval_cases i
    decide +kernel

/-! Witnesses of the bit decoders' statements. The all-zero window is a codeword of each code with fill 0. -/

/-- Each decoder with its window at the top of BUF. -/
theorem witness_BitDecodersComplete :
    State.reset.cfg.wf = true ∧ State.reset.fault = 0 ∧
    ∀ i ∈ [Instr.hamdec 2 241, .gol23 233, .gol24 232, .gol18 238, .bptc 60, .crcchk 0 192 0, .crc16 239 1],
      isBitDecoder i = true ∧ i.wf State.reset.cfg = true ∧ (∀ p ∈ bufWindow State.reset i, p < State.reset.cfg.bufLen) ∧
      (bufWindow State.reset i).Nodup := by decide +kernel

/-- The indices 0 .. 12 in IDX. -/
def indexed : State :=
  State.resetWith Config.reference { Draws.zero with idx := (List.range 13).map fun j => BitVec.ofNat 16 j }

theorem witness_BitDecodersComplete_scattered :
    indexed.fault = 0 ∧ isBitDecoder (.hamdecx 1) = true ∧ Instr.wf indexed.cfg (.hamdecx 1) = true ∧
    (∀ p ∈ bufWindow indexed (.hamdecx 1), p < indexed.cfg.bufLen) ∧ (bufWindow indexed (.hamdecx 1)).Nodup := by decide +kernel

/-- The Hamming(15,11) codeword of R259's example, its first and its last bit wrong. -/
theorem witness_HammingSingleError :
    (withBuf (bitsOf 15 0b101100101110100)).cfg.wf = true ∧ (withBuf (bitsOf 15 0b101100101110100)).fault = 0 ∧
    (withBuf (bitsOf 15 0b101100101110100)).cfg.hamCode (2 : BitVec 8).toNat = some ham15 ∧
    (0 : BitVec 16).toNat + ham15.n ≤ (withBuf (bitsOf 15 0b101100101110100)).cfg.bufLen ∧ (bitsOf 11 0b10110010111).length = ham15.k ∧
    (withBuf (bitsOf 15 0b101100101110100)).window (0 : BitVec 16).toNat ham15.n = ham15.encode (bitsOf 11 0b10110010111) ∧
    0 < ham15.n ∧ 14 < ham15.n := by decide +kernel

/-- Indices in range and distinct with a codeword behind them, equal indices, and an index beyond BUF. -/
theorem witness_HamdecxScattered :
    (indexed.cfg.wf = true ∧ indexed.fault = 0 ∧ indexed.cfg.hamCode (1 : BitVec 8).toNat = some ham13 ∧
      (∀ i ∈ indexed.scattered 13, i < indexed.cfg.bufLen) ∧ (indexed.scattered 13).Nodup ∧
      (List.replicate 9 false).length = ham13.k ∧
      (indexed.scattered 13).map (fun i => indexed.buf.read i) = ham13.encode (List.replicate 9 false) ∧
      12 ∈ indexed.scattered 13 ∧ indexed.scattered 13 = List.range' (0 : BitVec 16).toNat ham13.n) ∧
    ((∀ i ∈ State.reset.scattered 13, i < State.reset.cfg.bufLen) ∧ ¬ (State.reset.scattered 13).Nodup) ∧
    ∃ i ∈ (after (.idxwr 12 256) indexed).scattered 13, (after (.idxwr 12 256) indexed).cfg.bufLen ≤ i := by decide +kernel

/-- The zero codewords at the top of BUF, with the last two bits wrong. -/
theorem witness_HammingDoubleErrors :
    State.reset.fault = 0 ∧ (240 : BitVec 16).toNat + 16 ≤ State.reset.cfg.bufLen ∧ (List.replicate 11 false).length = 11 ∧
    State.reset.window (240 : BitVec 16).toNat 16 = ham16.encode (List.replicate 11 false) ∧ 14 < 15 ∧ 15 < 16 ∧
    (241 : BitVec 16).toNat + 15 ≤ State.reset.cfg.bufLen ∧
    State.reset.window (241 : BitVec 16).toNat 15 = ham15.encode (List.replicate 11 false) ∧ 13 < 14 ∧
    (243 : BitVec 16).toNat + 13 ≤ State.reset.cfg.bufLen := by decide +kernel

theorem witness_Gol23Nearest :
    State.reset.cfg.wf = true ∧ State.reset.fault = 0 ∧ (233 : BitVec 16).toNat + 23 ≤ State.reset.cfg.bufLen := by decide +kernel

/-- A Golay(24) codeword with three and with four wrong bits. -/
theorem witness_Gol24Corrects :
    (withBuf (golay24Encode 0xAE3 0x123)).cfg.wf = true ∧ (withBuf (golay24Encode 0xAE3 0x123)).fault = 0 ∧
    (0 : BitVec 16).toNat + 24 ≤ (withBuf (golay24Encode 0xAE3 0x123)).cfg.bufLen ∧ 0x123 < 2 ^ 12 ∧
    (withBuf (golay24Encode 0xAE3 0x123)).window (0 : BitVec 16).toNat 24 =
      golay24Encode (withBuf (golay24Encode 0xAE3 0x123)).cfg.golayPoly 0x123 ∧
    [0, 11, 23].Pairwise (· < ·) ∧ (∀ q ∈ [0, 11, 23], q < 24) ∧ [0, 11, 23].length ≤ 3 ∧
    [0, 1, 2, 23].Pairwise (· < ·) ∧ [0, 1, 2, 23].length = 4 := by decide +kernel

/-- The Golay(18) codeword of data 0 at the top of BUF, with three and with four wrong bits. -/
theorem witness_Gol18Corrects :
    State.reset.cfg.wf = true ∧ State.reset.fault = 0 ∧ (238 : BitVec 16).toNat + 18 ≤ State.reset.cfg.bufLen ∧ 0 < 2 ^ 12 ∧
    List.replicate 6 false ++ State.reset.window (238 : BitVec 16).toNat 18 = golay24Encode State.reset.cfg.golayPoly 0 ∧
    [0, 5, 17].Pairwise (· < ·) ∧ (∀ q ∈ [0, 5, 17], q < 18) ∧ [0, 5, 17].length ≤ 3 ∧
    [0, 1, 5, 17].Pairwise (· < ·) ∧ [0, 1, 5, 17].length = 4 := by decide +kernel

/-- The vector of R339, and both ends of the range of offsets. -/
theorem witness_BptcSingleError :
    (withBuf bptcVector).fault = 0 ∧ (0 : BitVec 16).toNat + 196 ≤ (withBuf bptcVector).cfg.bufLen ∧
    bptcValid ((withBuf bptcVector).window (0 : BitVec 16).toNat 196) ∧ 1 ≤ 1 ∧ 195 < 196 := by
  unfold bptcValid bptcColumnOf bptcRowOf
  decide +kernel

theorem witness_CrcTableEntries :
    (crc16Code 1).wf = true ∧ ({ msgLen := 1, crcLen := 1, poly := 1, fill := 1 } : CrcCode).wf = true ∧
    (crc16Code 1).msgLen ≤ (List.replicate 17 true).length ∧ 0 < (crc16Code 1).msgLen + (crc16Code 1).crcLen := by decide +kernel

/-- The LTR slot, which accepts an inverted checksum, and the LJ slot, which does not; the zero frame at the top of BUF. -/
theorem witness_CrcGenericFrames :
    State.reset.cfg.wf = true ∧ State.reset.fault = 0 ∧
    (State.reset.cfg.crcSlot (1 : BitVec 8).toNat = some { mode := .generic, code := State.reset.cfg.ltr, acceptInverted := true } ∧
      (List.replicate 24 false).length = State.reset.cfg.ltr.msgLen ∧
      (225 : BitVec 16).toNat + (State.reset.cfg.ltr.msgLen + State.reset.cfg.ltr.crcLen) ≤ State.reset.cfg.bufLen ∧
      State.reset.window (225 : BitVec 16).toNat (State.reset.cfg.ltr.msgLen + State.reset.cfg.ltr.crcLen) =
        State.reset.cfg.ltr.encode (List.replicate 24 false) ∧ 30 < State.reset.cfg.ltr.msgLen + State.reset.cfg.ltr.crcLen) ∧
    State.reset.cfg.crcSlot (3 : BitVec 8).toNat = some { mode := .generic, code := State.reset.cfg.lj, acceptInverted := false } := by
  decide +kernel

/-- The syndromes that GENERIC mode tells apart, in the same place: 0; all ones, which is no entry; that of the first message bit;
and 3, which is no entry. -/
theorem witness_CrcGenericFrames_syndromes :
    State.reset.cfg.ltr.syndrome (State.reset.window 225 31) = 0 ∧
    State.reset.cfg.ltr.syndrome ((after (.bwrite 249 7 127) State.reset).window 225 31) = mask State.reset.cfg.ltr.crcLen ∧
    State.reset.cfg.ltr.syndrome ((after (.bset 225) State.reset).window 225 31) = State.reset.cfg.ltr.entry 0 ∧
    State.reset.cfg.ltr.entry 0 ≠ mask State.reset.cfg.ltr.crcLen ∧
    State.reset.cfg.ltr.syndrome ((after (.bwrite 254 2 3) State.reset).window 225 31) = 3 ∧
    ∀ i < 31, State.reset.cfg.ltr.entry i ≠ 3 := by decide +kernel

theorem witness_FleetsyncFrames :
    State.reset.cfg.wf = true ∧ State.reset.fault = 0 ∧
    State.reset.cfg.crcSlot 0 = some { mode := .fleetsync, code := fleetsyncCode 0x1ABD, acceptInverted := false } ∧
    (List.replicate 48 false).length = 48 ∧ (192 : BitVec 16).toNat + 64 ≤ State.reset.cfg.bufLen ∧
    State.reset.window (192 : BitVec 16).toNat 64 =
      ({ mode := .fleetsync, code := fleetsyncCode 0x1ABD, acceptInverted := false } : CrcSlot).encode (List.replicate 48 false) ∧
    62 < 63 ∧ 0 < 63 ∧ 63 < 64 := by decide +kernel

/-- The frame of R371's example, a message of no bits, and a frame one bit too long; test_crc16_fail runs a syndrome without an
entry. -/
theorem witness_Crc16SingleError :
    (withBuf (bitsOf 80 0x0123456789ABCDEF56AA)).fault = 0 ∧ (64 : BitVec 16) ≠ 0 ∧
    (0 : BitVec 16).toNat + (64 : BitVec 16).toNat + 16 ≤ (withBuf (bitsOf 80 0x0123456789ABCDEF56AA)).cfg.bufLen ∧
    (bitsOf 64 0x0123456789ABCDEF).length = (64 : BitVec 16).toNat ∧
    (withBuf (bitsOf 80 0x0123456789ABCDEF56AA)).window (0 : BitVec 16).toNat ((64 : BitVec 16).toNat + 16) =
      (crc16Code (64 : BitVec 16).toNat).encode (bitsOf 64 0x0123456789ABCDEF) ∧
    (64 : BitVec 16).toNat ≤ 32751 ∧ 79 < (64 : BitVec 16).toNat + 16 ∧
    (withBuf []).cfg.bufLen < (240 : BitVec 16).toNat + (1 : BitVec 16).toNat + 16 := by decide +kernel

/-- The reference configuration's Passport slot: syndromes 0, 1, 3 and 2 at the last two bits of the frame. -/
theorem witness_ResidualMapMode :
    State.reset.fault = 0 ∧
    State.reset.cfg.crcSlot (2 : BitVec 8).toNat =
      some { mode := .residualMap [(1, [31]), (3, [30, 31])], code := State.reset.cfg.passport, acceptInverted := false } ∧
    (224 : BitVec 16).toNat + State.reset.cfg.passport.msgLen + State.reset.cfg.passport.crcLen ≤ State.reset.cfg.bufLen ∧
    State.reset.cfg.passport.syndrome (State.reset.window 224 32) = 0 ∧
    State.reset.cfg.passport.syndrome ((after (.bset 255) State.reset).window 224 32) = 1 ∧
    [(1, [31]), (3, [30, 31])] = [] ++ (1, [31]) :: [(3, [30, 31])] ∧
    State.reset.cfg.passport.syndrome ((after (.bset 254) State.reset).window 224 32) = 2 ∧
    ∀ e ∈ [(1, [31]), (3, [30, 31])], e.1 ≠ 2 := by decide +kernel

theorem witness_RedecodeGivesNoError :
    (withBuf (bitsOf 15 0b101110101110100)).cfg.wf = true ∧ (withBuf (bitsOf 15 0b101110101110100)).fault = 0 ∧
    redecodes (withBuf (bitsOf 15 0b101110101110100)) (.hamdec 2 0) ∧
    exec (.hamdec 2 0) (withBuf (bitsOf 15 0b101110101110100)) =
      .next (after (.hamdec 2 0) (withBuf (bitsOf 15 0b101110101110100))) ∧
    (after (.hamdec 2 0) (withBuf (bitsOf 15 0b101110101110100))).fault = 0 ∧
    (after (.hamdec 2 0) (withBuf (bitsOf 15 0b101110101110100))).status = DecodeStatus.code .corrected :=
  ⟨by decide +kernel, rfl, trivial, rfl, by decide +kernel, by decide +kernel⟩

/-- The example of R212: the zero word with SYM[3] = 5. -/
theorem witness_RsdecRedecodes :
    (withSym [0, 0, 0, 5]).cfg.wf = true ∧ (withSym [0, 0, 0, 5]).fault = 0 ∧
    (withSym [0, 0, 0, 5]).cfg.rsCode (4 : BitVec 8).toNat = some (gf8, rs12) ∧
    exec (.rsdec 4) (withSym [0, 0, 0, 5]) = .next (after (.rsdec 4) (withSym [0, 0, 0, 5])) ∧
    (after (.rsdec 4) (withSym [0, 0, 0, 5])).status = DecodeStatus.code .corrected :=
  ⟨by decide +kernel, rfl, by decide +kernel, rfl, by decide +kernel⟩

end Sys2Proof.Tests
end

section
/-! The build's check of a configuration (R6, R431) and what every bit decoder does with a window inside BUF (R34, R44, R71). -/

namespace Sys2Proof

/-! Well-formed configurations (R6). -/

/-- A well-formed configuration passes each check of R6. -/
theorem Config.check_of_wf {c : Config} (h : c.wf = true) {e : Bool × ConfigProblem} (he : e ∈ c.checks) : e.1 = true :=
  List.all_eq_true.1 h e he

theorem Config.problems_eq_nil_iff (c : Config) : c.problems = [] ↔ c.wf = true := by
  simp [Config.problems, Config.wf, List.filter_eq_nil_iff]

theorem mem_of_lookupExtra {α : Type} {entries : List (Nat × α)} {x : Nat} {v : α}
    (h : lookupExtra entries x = some v) : ∃ e ∈ entries, e.2 = v := by
  obtain ⟨e, he, hv⟩ := Option.map_eq_some_iff.1 h
  exact ⟨e, List.mem_of_find?_eq_some he, hv⟩

/-- Both Golay polynomials of R292 have degree 11. -/
theorem Config.golayPoly_lt {c : Config} (h : c.wf = true) : c.golayPoly < 2 ^ 12 := by
  have hp : c.golayPolyOk = true := Config.check_of_wf h (e := (c.golayPolyOk, .golayPoly)) (by simp [Config.checks])
  simp only [Config.golayPolyOk, Bool.or_eq_true, beq_iff_eq] at hp
  rcases hp with hp | hp <;> rw [hp] <;> decide

/-- Every slot a selector names in a well-formed configuration is well formed: the four of R361 and the extra ones. -/
theorem Config.crcSlot_wf {c : Config} (h : c.wf = true) {x : Nat} {slot : CrcSlot} (hx : c.crcSlot x = some slot) :
    slot.wf = true := by
  unfold Config.crcSlot at hx
  split at hx
  case h_1 =>
    cases hx
    have hok : c.fsPolyOk = true := Config.check_of_wf h (e := (c.fsPolyOk, .fsPoly)) (by simp [Config.checks])
    simp only [Config.fsPolyOk, Bool.and_eq_true] at hok
    simp [CrcSlot.wf, hok.1]
  case h_2 =>
    cases hx
    have hok : c.ltr.wf = true := Config.check_of_wf h (e := (c.ltr.wf, .ltr)) (by simp [Config.checks])
    simp [CrcSlot.wf, hok]
  case h_3 =>
    cases hx
    exact Config.check_of_wf h (e := (c.passportOk, .passport)) (by simp [Config.checks])
  case h_4 =>
    cases hx
    have hok : c.lj.wf = true := Config.check_of_wf h (e := (c.lj.wf, .lj)) (by simp [Config.checks])
    simp [CrcSlot.wf, hok]
  case h_5 =>
    obtain ⟨e, he, rfl⟩ := mem_of_lookupExtra hx
    have hok : c.crcExtraOk = true := Config.check_of_wf h (e := (c.crcExtraOk, .crcExtra)) (by simp [Config.checks])
    simp only [Config.crcExtraOk, Bool.and_eq_true, List.all_eq_true] at hok
    exact hok.2 e he

/-- Every Hamming code of R251 has data bits in front of a nonempty codeword's parity bits. -/
theorem Config.hamCode_sizes {c : Config} {x : Nat} {code : HamCode} (hx : c.hamCode x = some code) :
    code.k ≤ code.n ∧ 0 < code.n := by
  unfold Config.hamCode at hx
  split at hx <;> cases hx <;> simp [ham13, ham15, ham16]

/-! The answers of the decoders (R34, R44). -/

/-- What R34 and R44 ask of a decoder's answer on a window of n bits: positions of the window, at most `bound` of them, at least
one under CORRECTED and none under any other status. Where `midway` holds, UNCORRECTABLE may report the flips made before it:
that is BPTC (R335). -/
structure Repair.Conforms (midway : Prop) (n bound : Nat) (r : Repair) : Prop where
  inWindow : ∀ q ∈ r.positions, q < n
  atMost : r.positions.length ≤ bound
  correctedReports : r.status = .corrected → r.positions ≠ []
  othersSilent : r.status ≠ .corrected → r.positions = [] ∨ (midway ∧ r.status = .uncorrectable)

variable {midway : Prop} {n bound : Nat}

theorem Repair.conforms_silent {st : DecodeStatus} (h : st ≠ .corrected) :
    Repair.Conforms midway n bound { status := st, positions := [] } :=
  ⟨by simp, by simp, fun hc => absurd hc h, fun _ => .inl rfl⟩

theorem Repair.conforms_corrected {ps : List Nat} (hlt : ∀ q ∈ ps, q < n) (hlen : ps.length ≤ bound) (hne : ps ≠ []) :
    Repair.Conforms midway n bound { status := .corrected, positions := ps } :=
  ⟨hlt, hlen, fun _ => hne, fun hc => absurd rfl hc⟩

theorem hamCore_conforms {c : HamCode} (hk : c.k ≤ c.n) (w : List Bool) : (hamCore c w).Conforms midway c.n 1 := by
  rcases hamCore_cases c w with ⟨-, h⟩ | ⟨j, hj, h⟩ | h <;> rw [h]
  · exact Repair.conforms_silent (by decide)
  · exact Repair.conforms_corrected (by simpa using HamCode.errorIndex_lt hk hj) le_rfl (by simp)
  · exact Repair.conforms_silent (by decide)

theorem bptcDecode_conforms (hm : midway) (w : List Bool) : (bptcDecode w).Conforms midway 196 24 := by
  rcases bptcDecode_cases w with ⟨-, h⟩ | ⟨-, h⟩ | ⟨hne, h⟩ <;> rw [h]
  · exact ⟨bptcPasses_flips_lt w, bptcPasses_length_le w, fun hc => by simp at hc, fun _ => .inr ⟨hm, rfl⟩⟩
  · exact Repair.conforms_silent (by decide)
  · exact Repair.conforms_corrected (bptcPasses_flips_lt w) (bptcPasses_length_le w) hne

/-! CRC (R366 to R369). -/

theorem CrcCode.scanRepair_conforms (c : CrcCode) (syn : Nat) (hn : c.msgLen + c.crcLen ≤ n) (hb : 1 ≤ bound) :
    (c.scanRepair syn).Conforms midway n bound := by
  rcases c.scanRepair_cases syn with ⟨i, hi, h⟩ | ⟨-, h⟩ <;> rw [h]
  · exact Repair.conforms_corrected (by simpa using (CrcCode.scan_lt hi).trans_le hn) hb (by simp)
  · exact Repair.conforms_silent (by decide)

theorem crcGeneric_conforms (c : CrcCode) (acceptInverted inbound : Bool) (w : List Bool) :
    (crcGeneric c acceptInverted inbound w).Conforms midway (c.msgLen + c.crcLen) 3 := by
  rcases crcGeneric_cases c acceptInverted inbound w with ⟨-, h⟩ | ⟨-, -, -, -, h⟩ | ⟨-, -, h⟩ <;> rw [h]
  · exact Repair.conforms_silent (by decide)
  · exact Repair.conforms_silent (by decide)
  · exact c.scanRepair_conforms _ le_rfl (by decide)

theorem crcFleetsync_conforms (c : CrcCode) (w : List Bool) :
    (crcFleetsync c w).Conforms midway (c.msgLen + c.crcLen + 1) 3 := by
  rcases crcFleetsync_cases c w with ⟨-, -, h⟩ | ⟨-, -, h⟩ | ⟨-, -, h⟩ | ⟨-, -, h⟩ <;> rw [h]
  · exact Repair.conforms_silent (by decide)
  · exact Repair.conforms_silent (by decide)
  · exact Repair.conforms_silent (by decide)
  · exact c.scanRepair_conforms _ (by omega) (by decide)

/-- An entry of a well-formed residual list has 1 to 3 positions, all of the window (R368). -/
theorem residualsWf_entry {c : CrcCode} {residuals : List (Nat × List Nat)} (h : residualsWf c residuals = true)
    {e : Nat × List Nat} (he : e ∈ residuals) :
    1 ≤ e.2.length ∧ e.2.length ≤ 3 ∧ ∀ q ∈ e.2, q < c.msgLen + c.crcLen := by
  have h := List.all_eq_true.1 h e he
  simp only [Bool.and_eq_true, decide_eq_true_eq, List.all_eq_true] at h
  obtain ⟨⟨⟨⟨-, hmin⟩, hmax⟩, -⟩, hlt⟩ := h
  exact ⟨hmin, hmax, hlt⟩

theorem crcResidualMap_conforms {c : CrcCode} {residuals : List (Nat × List Nat)} (hwf : residualsWf c residuals = true)
    (w : List Bool) : (crcResidualMap c residuals w).Conforms midway (c.msgLen + c.crcLen) 3 := by
  rcases crcResidualMap_cases c residuals w with ⟨-, h⟩ | ⟨e, he, -, -, h⟩ | ⟨-, -, h⟩ <;> rw [h]
  · exact Repair.conforms_silent (by decide)
  · obtain ⟨hmin, hmax, hlt⟩ := residualsWf_entry hwf he
    exact Repair.conforms_corrected hlt hmax (List.ne_nil_of_length_pos hmin)
  · exact Repair.conforms_silent (by decide)

theorem CrcSlot.conforms_run {slot : CrcSlot} (hwf : slot.wf = true) (inbound : Bool) (w : List Bool) :
    (slot.run inbound w).Conforms midway slot.frameLen 3 := by
  obtain ⟨mode, code, acceptInverted⟩ := slot
  cases mode with
  | generic => exact crcGeneric_conforms code acceptInverted inbound w
  | residualMap residuals =>
    simp only [CrcSlot.wf, Bool.and_eq_true] at hwf
    exact crcResidualMap_conforms hwf.2 w
  | fleetsync => exact crcFleetsync_conforms code w

/-- A frame has at least one bit: M >= 1 (R360). -/
theorem CrcSlot.frameLen_pos {slot : CrcSlot} (hwf : slot.wf = true) : 0 < slot.frameLen := by
  simp only [CrcSlot.wf, CrcCode.wf, Bool.and_eq_true, decide_eq_true_eq] at hwf
  unfold CrcSlot.frameLen
  omega

/-! Weights. -/

theorem countP_xor_le {α : Type} (p q : α → Bool) (l : List α) :
    l.countP (fun a => p a ^^ q a) ≤ l.countP p + l.countP q := by
  induction l with
  | nil => simp
  | cons a l ih =>
    simp only [List.countP_cons]
    cases p a <;> cases q a <;> simp <;> omega

theorem popcount_xor_le (width u v : Nat) : popcount width (u ^^^ v) ≤ popcount width u + popcount width v := by
  simp only [popcount, Nat.testBit_xor]
  exact countP_xor_le _ _ _

theorem popcount_two_pow_le (width t : Nat) : popcount width (2 ^ t) ≤ 1 := by
  have hcount : popcount width (2 ^ t) = (List.range width).count t := by
    simp only [popcount, List.count, Nat.testBit_two_pow]
    exact List.countP_congr fun j _ => by rw [decide_eq_true_iff, beq_iff_eq, eq_comm]
  rw [hcount]
  exact List.nodup_iff_count_le_one.1 List.nodup_range t

@[simp] theorem popcount_zero (width : Nat) : popcount width 0 = 0 := by simp [popcount]

/-- The positions listed are as many as the bits in which the integers differ. -/
theorem length_golayDifference (u v : Nat) : (golayDifference u v).length = popcount 23 (u ^^^ v) := by
  have hrev : (List.range 23).reverse = (List.range 23).map (22 - ·) := by decide
  rw [popcount, ← List.countP_reverse, hrev, List.countP_map, golayDifference, ← List.countP_eq_length_filter]
  rfl

/-! Rotations (R291). -/

theorem testBit_rotr23 {u i k : Nat} (hu : u < 2 ^ 23) (hi : i ≤ 23) (hk : k < 23) :
    (rotr23 u i).testBit k = u.testBit ((k + i) % 23) := by
  have hhigh : ∀ j, 23 ≤ j → u.testBit j = false := fun j hj =>
    Nat.testBit_lt_two_pow (hu.trans_le (Nat.pow_le_pow_right (by decide) hj))
  simp only [rotr23, mask, Nat.testBit_and, Nat.testBit_or, Nat.testBit_shiftRight, Nat.testBit_shiftLeft,
    Nat.testBit_two_pow_sub_one, hk, decide_true, Bool.and_true]
  by_cases h : k + i < 23
  · rw [Nat.mod_eq_of_lt h, decide_eq_false (by omega), Bool.false_and, Bool.or_false, Nat.add_comm]
  · rw [hhigh (i + k) (by omega), decide_eq_true (by omega), Bool.false_or, Bool.true_and]
    congr 1
    omega

theorem testBit_rotl23_one {u k : Nat} (hu : u < 2 ^ 23) (hk : k < 23) :
    (rotl23 u 1).testBit k = u.testBit ((k + 22) % 23) := by
  have hhigh : ∀ j, 23 ≤ j → u.testBit j = false := fun j hj =>
    Nat.testBit_lt_two_pow (hu.trans_le (Nat.pow_le_pow_right (by decide) hj))
  simp only [rotl23, mask, Nat.testBit_and, Nat.testBit_or, Nat.testBit_shiftRight, Nat.testBit_shiftLeft,
    Nat.testBit_two_pow_sub_one, hk, decide_true, Bool.and_true]
  by_cases h : 1 ≤ k
  · rw [hhigh (23 - 1 + k) (by omega), decide_eq_true h, Bool.or_false, Bool.true_and]
    congr 1
    omega
  · rw [decide_eq_false h, Bool.false_and, Bool.false_or]
    congr 1
    omega

theorem rotl23_lt (u i : Nat) : rotl23 u i < 2 ^ 23 := Nat.and_lt_two_pow _ (by decide)

/-- Integers of 23 bits with the same bits 0 .. 22 are equal. -/
theorem eq_of_testBit_lt_23 {u v : Nat} (hu : u < 2 ^ 23) (hv : v < 2 ^ 23)
    (h : ∀ k < 23, u.testBit k = v.testBit k) : u = v := by
  apply Nat.eq_of_testBit_eq
  intro k
  by_cases hk : k < 23
  · exact h k hk
  · have hle : 2 ^ 23 ≤ 2 ^ k := Nat.pow_le_pow_right (by decide) (by omega)
    rw [Nat.testBit_lt_two_pow (hu.trans_le hle), Nat.testBit_lt_two_pow (hv.trans_le hle)]

theorem rotr23_zero {u : Nat} (hu : u < 2 ^ 23) : rotr23 u 0 = u :=
  eq_of_testBit_lt_23 (rotr23_lt u 0) hu fun k hk => by
    rw [testBit_rotr23 hu (by decide) hk, Nat.add_zero, Nat.mod_eq_of_lt hk]

theorem rotr23_rotl23_one {u i : Nat} (hu : u < 2 ^ 23) (hi : i < 23) : rotr23 (rotl23 u 1) (i + 1) = rotr23 u i :=
  eq_of_testBit_lt_23 (rotr23_lt _ _) (rotr23_lt _ _) fun k hk => by
    rw [testBit_rotr23 (rotl23_lt u 1) hi hk, testBit_rotl23_one hu (Nat.mod_lt _ (by decide)),
      testBit_rotr23 hu hi.le hk]
    congr 1
    omega

theorem rotr23_xor {u v i : Nat} (hu : u < 2 ^ 23) (hv : v < 2 ^ 23) (hi : i ≤ 23) :
    rotr23 (u ^^^ v) i = rotr23 u i ^^^ rotr23 v i :=
  eq_of_testBit_lt_23 (rotr23_lt _ _) (Nat.xor_lt_two_pow (rotr23_lt _ _) (rotr23_lt _ _)) fun k hk => by
    rw [testBit_rotr23 (Nat.xor_lt_two_pow hu hv) hi hk, Nat.testBit_xor, Nat.testBit_xor, testBit_rotr23 hu hi hk,
      testBit_rotr23 hv hi hk]

/-- A rotation permutes the bits, so it keeps the weight. -/
theorem popcount_rotr23 {u i : Nat} (hu : u < 2 ^ 23) (hi : i ≤ 23) : popcount 23 (rotr23 u i) = popcount 23 u := by
  have hrot : (List.range 23).rotate i = (List.range 23).map fun k => (k + i) % 23 :=
    List.ext_getElem (by simp) (by simp [List.getElem_rotate])
  calc popcount 23 (rotr23 u i)
      = (List.range 23).countP fun k => u.testBit ((k + i) % 23) :=
        List.countP_congr fun k hk => by rw [testBit_rotr23 hu hi (List.mem_range.1 hk)]
    _ = ((List.range 23).rotate i).countP fun j => u.testBit j := by rw [hrot, List.countP_map]; rfl
    _ = popcount 23 u := (List.rotate_perm _ i).countP_eq _

/-! The Golay search stays within distance 3 of the word (R293). -/

/-- The division leaves an 11-bit remainder. -/
theorem golayDivide_lt {poly : Nat} (hp : poly < 2 ^ 12) (count : Nat) {q : Nat} (hq : q < 2 ^ (11 + count)) :
    golayDivide poly count q < 2 ^ 11 := by
  induction count generalizing q with
  | zero => exact hq
  | succ count ih =>
    refine ih ?_
    have hp' : poly < 2 ^ (11 + (count + 1)) := hp.trans_le (Nat.pow_le_pow_right (by decide) (by omega))
    have hfold : (if q % 2 = 1 then q ^^^ poly else q) < 2 ^ (11 + (count + 1)) := by
      split
      · exact Nat.xor_lt_two_pow hq hp'
      · exact hq
    rw [Nat.shiftRight_one, Nat.div_lt_iff_lt_mul (by decide), ← pow_succ]
    exact hfold

theorem golaySyndrome_lt {poly u : Nat} (hp : poly < 2 ^ 12) (hu : u < 2 ^ 23) : golaySyndrome poly u < 2 ^ 23 := by
  have h := golayDivide_lt hp 12 hu
  rw [golaySyndrome, Nat.shiftLeft_eq]
  omega

/-- What the rotations find differs from the trial word, that is from `u` turned back, in at most `threshold` bits: they change it
by a syndrome of that weight, turned back. -/
theorem golayRotations_distance {poly threshold count i u r : Nat} (hp : poly < 2 ^ 12) (hu : u < 2 ^ 23)
    (hi : i + count ≤ 23) (h : golayRotations poly threshold count i u = some r) :
    popcount 23 (r ^^^ rotr23 u i) ≤ threshold := by
  induction count generalizing i u with
  | zero => cases h
  | succ count ih =>
    simp only [golayRotations] at h
    split at h
    · rename_i hweight
      cases h
      have hs := golaySyndrome_lt hp hu
      rw [rotr23_xor hu hs (by omega), Nat.xor_comm, ← Nat.xor_assoc, Nat.xor_self, Nat.zero_xor,
        popcount_rotr23 hs (by omega)]
      exact hweight
    · rw [← rotr23_rotl23_one hu (by omega)]
      exact ih (rotl23_lt u 1) (by omega) h

theorem golayTrial_distance {poly threshold u r : Nat} (hp : poly < 2 ^ 12) (hu : u < 2 ^ 23)
    (h : golayTrial poly threshold u = some r) : popcount 23 (r ^^^ u) ≤ threshold := by
  unfold golayTrial at h
  split at h
  · cases h
    simp
  · have hd := golayRotations_distance hp hu (by decide) h
    rwa [rotr23_zero hu] at hd

theorem golay23Correct_distance {poly v u : Nat} (hp : poly < 2 ^ 12) (hv : v < 2 ^ 23)
    (h : golay23Correct poly v = some u) : popcount 23 (u ^^^ v) ≤ 3 := by
  unfold golay23Correct at h
  split at h
  · rename_i htrial
    cases h
    exact golayTrial_distance hp hv htrial
  · obtain ⟨t, ht, hr⟩ := List.exists_of_findSome?_eq_some h
    have hflip : v ^^^ 2 ^ t < 2 ^ 23 :=
      Nat.xor_lt_two_pow hv (Nat.pow_lt_pow_right (by decide) (List.mem_range.1 ht))
    calc popcount 23 (u ^^^ v)
        = popcount 23 ((u ^^^ (v ^^^ 2 ^ t)) ^^^ 2 ^ t) := by
          rw [Nat.xor_assoc, Nat.xor_assoc, Nat.xor_self, Nat.xor_zero]
      _ ≤ popcount 23 (u ^^^ (v ^^^ 2 ^ t)) + popcount 23 (2 ^ t) := popcount_xor_le _ _ _
      _ ≤ 2 + 1 := Nat.add_le_add (golayTrial_distance hp hflip hr) (popcount_two_pow_le _ _)

/-! Golay (R294 to R298). -/

/-- Everything GOL23 can answer (R294, R295). -/
theorem golay23Decode_cases (poly : Nat) (w : List Bool) :
    golay23Decode poly w = { status := .uncorrectable, positions := [] } ∨
    golay23Decode poly w = { status := .noError, positions := [] } ∨
    ∃ u, golay23Correct poly (bitsToNat w) = some u ∧ u ≠ bitsToNat w ∧
      golay23Decode poly w = { status := .corrected, positions := golayDifference u (bitsToNat w) } := by
  unfold golay23Decode
  simp only
  split
  · exact .inl rfl
  · split_ifs with huv
    · exact .inr (.inl rfl)
    · exact .inr (.inr ⟨_, ‹_›, huv, rfl⟩)

theorem golay23Decode_conforms {poly : Nat} (hp : poly < 2 ^ 12) {w : List Bool} (hw : w.length = 23) :
    (golay23Decode poly w).Conforms midway 23 3 := by
  have hv : bitsToNat w < 2 ^ 23 := hw ▸ bitsToNat_lt w
  rcases golay23Decode_cases poly w with h | h | ⟨u, hu, huv, h⟩ <;> rw [h]
  · exact Repair.conforms_silent (by decide)
  · exact Repair.conforms_silent (by decide)
  · exact Repair.conforms_corrected (fun _ => golayDifference_lt)
      ((length_golayDifference u _).trans_le (golay23Correct_distance hp hv hu))
      (golayDifference_ne_nil (golay23Correct_lt hv hu) hv huv)

/-- Everything golay24_core can answer: nothing flipped, the parity bit alone, the 23-bit repair, or a 23-bit repair of at most two
bits with the parity bit (R296). -/
theorem golay24Decode_cases (poly : Nat) (w : List Bool) :
    (∃ st, st ≠ .corrected ∧ golay24Decode poly w = { status := st, positions := [] }) ∨
    golay24Decode poly w = { status := .corrected, positions := [23] } ∨
    ∃ u, golay23Correct poly (bitsToNat (w.take 23)) = some u ∧ golayDifference u (bitsToNat (w.take 23)) ≠ [] ∧
      (golay24Decode poly w = { status := .corrected, positions := golayDifference u (bitsToNat (w.take 23)) } ∨
        ((golayDifference u (bitsToNat (w.take 23))).length ≤ 2 ∧
          golay24Decode poly w =
            { status := .corrected, positions := golayDifference u (bitsToNat (w.take 23)) ++ [23] })) := by
  unfold golay24Decode
  simp only
  split
  · exact .inl ⟨_, by decide, rfl⟩
  · rename_i u hu
    split_ifs with hsame hodd hodd htwo
    · exact .inl ⟨_, by decide, rfl⟩
    · exact .inr (.inl rfl)
    · exact .inr (.inr ⟨u, hu, hsame, .inl rfl⟩)
    · exact .inr (.inr ⟨u, hu, hsame, .inr ⟨htwo, rfl⟩⟩)
    · exact .inl ⟨_, by decide, rfl⟩

theorem golay24Decode_conforms {poly : Nat} (hp : poly < 2 ^ 12) {w : List Bool} (hw : w.length = 24) :
    (golay24Decode poly w).Conforms midway 24 3 := by
  have hv : bitsToNat (w.take 23) < 2 ^ 23 := by simpa [hw] using bitsToNat_lt (w.take 23)
  have hlt := golay24_positions_lt poly w
  rcases golay24Decode_cases poly w with ⟨st, hst, h⟩ | h | ⟨u, hu, hne, h | ⟨htwo, h⟩⟩ <;> rw [h] at hlt ⊢
  · exact Repair.conforms_silent hst
  · exact Repair.conforms_corrected hlt (by decide) (by decide)
  · exact Repair.conforms_corrected hlt ((length_golayDifference u _).trans_le (golay23Correct_distance hp hv hu)) hne
  · exact Repair.conforms_corrected hlt (by rw [List.length_append]; exact Nat.succ_le_succ htwo) (by simp)

/-- golay18_core refuses, or reports what golay24_core does on the padded window, without the padding (R298). -/
theorem golay18Decode_cases (poly : Nat) (w : List Bool) :
    golay18Decode poly w = { status := .uncorrectable, positions := [] } ∨
    golay18Decode poly w =
      { status := (golay24Decode poly (List.replicate 6 false ++ w)).status
        positions := (golay24Decode poly (List.replicate 6 false ++ w)).positions.map (· - 6) } := by
  unfold golay18Decode
  simp only
  split_ifs
  · exact .inl rfl
  · exact .inr rfl

theorem golay18Decode_conforms {poly : Nat} (hp : poly < 2 ^ 12) {w : List Bool} (hw : w.length = 18) :
    (golay18Decode poly w).Conforms midway 18 3 := by
  have hlt := golay18_positions_lt poly w
  rcases golay18Decode_cases poly w with h | h <;> rw [h] at hlt ⊢
  · exact Repair.conforms_silent (by decide)
  · obtain ⟨-, hatMost, hreports, hsilent⟩ :=
      golay24Decode_conforms (midway := midway) hp (w := List.replicate 6 false ++ w) (by simp [hw])
    exact ⟨hlt, by simpa using hatMost, by simpa using hreports, by simpa using hsilent⟩

end Sys2Proof

namespace Sys2Proof.Machine

/-! The end of a bit decoder (R34, R71). -/

/-- A repair taken is the end it names: the outcome written, the BUF bits flipped, nothing else changed. -/
theorem State.repairs_applyRepair (s : State) (place : Nat → Nat) (r : Repair) :
    s.repairs (s.applyRepair place r) r.status (r.positions.map place) :=
  ⟨⟨rfl, rfl, rfl, State.read_outcome_epos _ _ _, rfl, rfl, rfl, rfl, rfl, rfl⟩, rfl, read_flipBits _ _⟩

/-- How a bit decoder ends by R34, R44 and R335. -/
def State.decoderEnds (s : State) (i : Instr) : Prop :=
  ∃ t st ps, exec i s = .next t ∧ s.repairs t st ps ∧ (∀ p ∈ ps, p ∈ bufWindow s i) ∧
    ps.length ≤ positionBound i ∧ (st = .corrected → ps ≠ []) ∧
    (st ≠ .corrected → ps = [] ∨ ∃ a, i = .bptc a ∧ st = .uncorrectable)

variable {s : State} {i : Instr} {n : Nat}

/-- A command that takes a conforming repair, with each window position placed in its window, ends as a bit decoder does. -/
theorem State.decoderEnds_of_applyRepair {place : Nat → Nat} {r : Repair}
    (hexec : exec i s = .next (s.applyRepair place r)) (hplace : ∀ q < n, place q ∈ bufWindow s i)
    (hr : r.Conforms (∃ a, i = .bptc a) n (positionBound i)) : s.decoderEnds i := by
  obtain ⟨hwindow, hatMost, hreports, hsilent⟩ := hr
  refine ⟨_, r.status, r.positions.map place, hexec, s.repairs_applyRepair place r, ?_, by simpa using hatMost,
    by simpa using hreports, by simpa using hsilent⟩
  intro p hp
  obtain ⟨q, hq, rfl⟩ := List.mem_map.1 hp
  exact hplace q (hwindow q hq)

/-- A decoder of a nonempty contiguous window that lies in BUF. -/
theorem State.decoderEnds_of_windowDecode {a : Nat} {decoder : List Bool → Repair} (hs : s.fault = 0)
    (hexec : exec i s = runCommand i s (windowDecode s a n decoder)) (hwindow : bufWindow s i = List.range' a n)
    (hn : 0 < n) (hin : ∀ p ∈ bufWindow s i, p < s.cfg.bufLen)
    (hdecoder : (decoder (s.window a n)).Conforms (∃ b, i = .bptc b) n (positionBound i)) : s.decoderEnds i := by
  have hlast : a + (n - 1) < s.cfg.bufLen := hin _ (by rw [hwindow, List.mem_range'_1]; omega)
  rw [windowDecode_eq, if_pos (by omega), runCommand_ok hs] at hexec
  refine State.decoderEnds_of_applyRepair hexec (fun q hq => ?_) hdecoder
  rw [hwindow, List.mem_range'_1]
  omega

theorem scatteredDecode_ok {l : List Nat} (decoder : List Bool → Repair) (hin : ∀ p ∈ l, p < s.cfg.bufLen)
    (hl : l.Nodup) :
    scatteredDecode s l decoder =
      .ok (s.applyRepair (fun j => l.getD j 0) (decoder (l.map fun p => s.buf.read p))) := by
  have hany : l.any (fun p => decide (s.cfg.bufLen ≤ p)) = false := by simpa using hin
  simp [scatteredDecode, hany, hl]

@[simp] theorem State.length_scattered (s : State) (n : Nat) : (s.scattered n).length = n := by simp [State.scattered]

theorem execHamdecx_ends {h : BitVec 8} {code : HamCode} (hs : s.fault = 0) (hcode : s.cfg.hamCode h.toNat = some code)
    (hin : ∀ p ∈ bufWindow s (.hamdecx h), p < s.cfg.bufLen) (hnodup : (bufWindow s (.hamdecx h)).Nodup) :
    s.decoderEnds (.hamdecx h) := by
  have hwindow : bufWindow s (.hamdecx h) = s.scattered code.n := by simp [bufWindow, hcode]
  rw [hwindow] at hin hnodup
  have hexec : exec (.hamdecx h) s = .next (s.applyRepair (fun j => (s.scattered code.n).getD j 0)
      (hamCore code ((s.scattered code.n).map fun p => s.buf.read p))) := by
    simp only [exec, execHamdecx, withHamCode, hcode]
    rw [scatteredDecode_ok _ hin hnodup, runCommand_ok hs]
  refine State.decoderEnds_of_applyRepair hexec (fun q hq => ?_) (hamCore_conforms (Config.hamCode_sizes hcode).1 _)
  rw [hwindow, List.getD_eq_getElem _ _ (by simpa using hq)]
  exact List.getElem_mem _

theorem execHamdec_ends {h : BitVec 8} {a : BitVec 16} {code : HamCode} (hs : s.fault = 0)
    (hcode : s.cfg.hamCode h.toNat = some code) (hin : ∀ p ∈ bufWindow s (.hamdec h a), p < s.cfg.bufLen) :
    s.decoderEnds (.hamdec h a) := by
  have hexec : exec (.hamdec h a) s = runCommand (.hamdec h a) s (windowDecode s a.toNat code.n (hamCore code)) := by
    simp [exec, execHamdec, withHamCode, hcode]
  obtain ⟨hk, hn⟩ := Config.hamCode_sizes hcode
  exact State.decoderEnds_of_windowDecode hs hexec (by simp [bufWindow, hcode]) hn hin (hamCore_conforms hk _)

theorem execCrcchk_ends {c : BitVec 8} {a : BitVec 16} {inbound : BitVec 1} {slot : CrcSlot} (hcfg : s.cfg.wf = true)
    (hs : s.fault = 0) (hslot : s.cfg.crcSlot c.toNat = some slot)
    (hin : ∀ p ∈ bufWindow s (.crcchk c a inbound), p < s.cfg.bufLen) : s.decoderEnds (.crcchk c a inbound) := by
  have hexec : exec (.crcchk c a inbound) s =
      runCommand (.crcchk c a inbound) s (windowDecode s a.toNat slot.frameLen (slot.run (inbound == 1))) := by
    simp [exec, execCrcchk, hslot]
  have hwf := Config.crcSlot_wf hcfg hslot
  exact State.decoderEnds_of_windowDecode hs hexec (by simp [bufWindow, hslot]) (CrcSlot.frameLen_pos hwf) hin
    (CrcSlot.conforms_run hwf _ _)

theorem execCrc16_ends {a m : BitVec 16} (hs : s.fault = 0) (hm : m ≠ 0)
    (hin : ∀ p ∈ bufWindow s (.crc16 a m), p < s.cfg.bufLen) : s.decoderEnds (.crc16 a m) := by
  have hexec : exec (.crc16 a m) s =
      runCommand (.crc16 a m) s (windowDecode s a.toNat (m.toNat + 16) (crcGeneric (crc16Code m.toNat) false false)) := by
    simp only [exec, execCrc16, if_neg hm]
  exact State.decoderEnds_of_windowDecode hs hexec rfl (by omega) hin (crcGeneric_conforms (crc16Code m.toNat) _ _ _)

/-- Settles O46, decoder by decoder: each answer conforms to R34 and R44 on its window, and the window lies in BUF. -/
theorem bitDecodersComplete : Obligations.BitDecodersComplete := by
  intro s i hcfg hs hdec hsel hin hnodup hcrc
  have hp := Config.golayPoly_lt hcfg
  change s.decoderEnds i
  cases i with
  | hamdec h a =>
    obtain ⟨code, hcode⟩ := Option.isSome_iff_exists.1 hsel
    exact execHamdec_ends hs hcode hin
  | hamdecx h =>
    obtain ⟨code, hcode⟩ := Option.isSome_iff_exists.1 hsel
    exact execHamdecx_ends hs hcode hin hnodup
  | gol23 a =>
    exact State.decoderEnds_of_windowDecode hs rfl rfl (by decide) hin (golay23Decode_conforms hp (by simp))
  | gol24 a =>
    exact State.decoderEnds_of_windowDecode hs rfl rfl (by decide) hin (golay24Decode_conforms hp (by simp))
  | gol18 a =>
    exact State.decoderEnds_of_windowDecode hs rfl rfl (by decide) hin (golay18Decode_conforms hp (by simp))
  | bptc a =>
    exact State.decoderEnds_of_windowDecode hs rfl rfl (by decide) hin (bptcDecode_conforms ⟨a, rfl⟩ _)
  | crcchk c a inbound =>
    obtain ⟨slot, hslot⟩ := Option.isSome_iff_exists.1 hsel
    exact execCrcchk_ends hcfg hs hslot hin
  | crc16 a m => exact execCrc16_ends hs (fun hm => hcrc a (by rw [hm])) hin
  | _ => cases hdec

/-! The build (R6, R431). -/

/-- A well-formed configuration gives the reset state at once. -/
theorem build_of_wf {c : Config} (h : c.wf = true) (d : Draws) : build c d = .next (State.resetWith c d) := by
  rw [build, (Config.problems_eq_nil_iff c).2 h]

/-- A refusal names the first problem. -/
theorem build_of_problems {c : Config} {p : ConfigProblem} {ps : List ConfigProblem} (h : c.problems = p :: ps)
    (d : Draws) : build c d = .refused (.configRefused p) := by
  rw [build, h]

/-- Settles O12: a configuration is well formed exactly where it has no problem. -/
theorem buildAdmitsWellFormed : Obligations.BuildAdmitsWellFormed := by
  intro c d
  refine ⟨fun h => build_of_wf h d, fun h => ?_⟩
  cases hps : c.problems with
  | nil => simp [(Config.problems_eq_nil_iff c).1 hps] at h
  | cons p ps => exact ⟨p, List.mem_cons_self, build_of_problems hps d⟩

end Sys2Proof.Machine
end

section
/-! The block's state (10_state.md): what a command that completes may write (R39), the invariant that every step keeps (R33, R34,
R44, R70, R420), the reset and the register port (R38, R43). Every statement about all commands goes through `Completion`, which
says once what each of them can do. -/

namespace Sys2Proof

/-! Field slots and RS configurations of a well-formed configuration (R170, R210). -/

/-- Every field slot a selector names in a well-formed configuration is well formed: the two of R170 and the extra ones. -/
theorem Config.gfSlot_wf {c : Config} (h : c.wf = true) {x : Nat} {g : GfSlot} (hx : c.gfSlot x = some g) : g.wf = true := by
  unfold Config.gfSlot at hx
  split at hx
  case h_1 => cases hx; decide +kernel
  case h_2 => cases hx; decide +kernel
  case h_3 =>
    obtain ⟨e, he, rfl⟩ := mem_of_lookupExtra hx
    have hok : c.gfExtraOk = true := Config.check_of_wf h (e := (c.gfExtraOk, .gfExtra)) (by simp [Config.checks])
    simp only [Config.gfExtraOk, Bool.and_eq_true, List.all_eq_true] at hok
    exact hok.2 e he

/-- An RS code is a configuration of R211 or an extra one, with the field slot it names. -/
theorem Config.rsCode_eq_some_iff {c : Config} {x : Nat} {g : GfSlot} {r : RsConfig} :
    c.rsCode x = some (g, r) ↔ c.rsConfig x = some r ∧ c.gfSlot r.slot = some g := by
  unfold Config.rsCode
  cases c.rsConfig x with
  | none => simp
  | some r' =>
    simp only [Option.map_eq_some_iff, Prod.mk.injEq, Option.some.injEq]
    constructor
    · rintro ⟨g', hg, rfl, rfl⟩
      exact ⟨rfl, hg⟩
    · rintro ⟨rfl, hg⟩
      exact ⟨g, hg, rfl, rfl⟩

/-- Every RS code a selector names in a well-formed configuration is well formed over its field. -/
theorem Config.rsCode_wf {c : Config} (h : c.wf = true) {x : Nat} {g : GfSlot} {r : RsConfig}
    (hx : c.rsCode x = some (g, r)) : r.wf g = true := by
  obtain ⟨hr, hg⟩ := Config.rsCode_eq_some_iff.1 hx
  unfold Config.rsConfig at hr
  split at hr
  case h_6 =>
    obtain ⟨e, he, rfl⟩ := mem_of_lookupExtra hr
    have hok : c.rsExtraOk = true := Config.check_of_wf h (e := (c.rsExtraOk, .rsExtra)) (by simp [Config.checks])
    simp only [Config.rsExtraOk, Bool.and_eq_true, List.all_eq_true] at hok
    simpa [hg] using hok.2 e he
  all_goals
    cases hr
    cases hg
    decide

/-- Over a field of at most 256 elements a code has at most 255 symbols and corrects at most 127 of them (R44, R210). -/
theorem RsConfig.bounds_of_wf {g : GfSlot} {r : RsConfig} (hg : g.wf = true) (hr : r.wf g = true) :
    r.n ≤ 255 ∧ r.t ≤ 127 := by
  obtain ⟨-, hm, -⟩ := GfSlot.wf_iff.1 hg
  have horder : g.order ≤ 2 ^ 8 - 1 := Nat.sub_le_sub_right (Nat.pow_le_pow_right (by decide) hm) 1
  simp only [RsConfig.wf, Bool.and_eq_true, decide_eq_true_eq] at hr
  simp only [RsConfig.t]
  omega

/-- The reference configuration passes the checks of R6 (log entry 1). -/
theorem Config.reference_wf : Config.reference.wf = true := by decide +kernel

/-! RSDEC reports a position under CORRECTED (R33). -/

/-- Where the register length is 0, the discrepancy of step r is the syndrome S[r + 1] itself (R216). -/
theorem GfSlot.discrepancy_of_len_eq_zero (g : GfSlot) (synd : List Nat) (r : Nat) {b : BmState} (h : b.len = 0) :
    g.discrepancy synd r b = synd.getD r 0 := by
  simp [GfSlot.discrepancy, h]

/-- A step that leaves the register length at 0 started from 0 and met a zero syndrome (R216). -/
theorem GfSlot.bmStep_len_eq_zero {g : GfSlot} {synd : List Nat} {b : BmState} {r : Nat} (h : (g.bmStep synd b r).len = 0) :
    b.len = 0 ∧ synd.getD r 0 = 0 := by
  have hb : b.len = 0 := Nat.le_zero.1 (h ▸ g.bmStep_len_le synd b r)
  refine ⟨hb, ?_⟩
  by_contra hne
  have hgrows : (g.bmStep synd b r).len = r + 1 := by
    simp only [GfSlot.bmStep, g.discrepancy_of_len_eq_zero synd r hb, if_neg hne, hb]
    rfl
  omega

theorem GfSlot.bmFold_len_eq_zero {g : GfSlot} {synd : List Nat} (steps : List Nat) {b : BmState}
    (h : (steps.foldl (g.bmStep synd) b).len = 0) : b.len = 0 ∧ ∀ r ∈ steps, synd.getD r 0 = 0 := by
  induction steps generalizing b with
  | nil => exact ⟨h, by simp⟩
  | cons r steps ih =>
    obtain ⟨hstep, hrest⟩ := ih h
    obtain ⟨hb, hr⟩ := GfSlot.bmStep_len_eq_zero hstep
    exact ⟨hb, List.forall_mem_cons.2 ⟨hr, hrest⟩⟩

/-- The recursion finds a locator of degree 0 for zero syndromes only (R216). -/
theorem GfSlot.syndromes_zero_of_len_eq_zero {g : GfSlot} {synd : List Nat} (h : (g.berlekampMassey synd).len = 0) :
    ∀ v ∈ synd, v = 0 := by
  obtain ⟨-, hzero⟩ := GfSlot.bmFold_len_eq_zero _ h
  intro v hv
  obtain ⟨r, hr, rfl⟩ := List.getElem_of_mem hv
  simpa [hr] using hzero r (List.mem_range.2 hr)

/-- The positions RSDEC reports, as a decoder's answer (R221). -/
def RsResult.report (r : RsResult) : Repair := { status := r.status, positions := r.errors.map Prod.fst }

variable {midway : Prop}

theorem rsSolve_conforms (g : GfSlot) (c : RsConfig) (r : List Nat) : (rsSolve g c r).report.Conforms midway c.n c.t := by
  rcases rsSolve_cases g c r with ⟨-, h⟩ | ⟨⟨v, hv, hne⟩, ⟨errors, hloc, h⟩ | ⟨-, h⟩⟩ <;> rw [h]
  · exact Repair.conforms_silent (by decide)
  · obtain ⟨hlen, hle, -, hlt, -⟩ := locateErrors_spec hloc
    refine Repair.conforms_corrected (by simpa using hlt) (by simpa using hle) fun hnil => hne ?_
    refine GfSlot.syndromes_zero_of_len_eq_zero (g := g) ?_ v hv
    rw [← hlen]
    exact List.length_eq_zero_iff.2 (List.map_eq_nil_iff.1 hnil)
  · exact Repair.conforms_silent (by decide)

theorem rsDecode_conforms (policy : InvalidSymbolPolicy) (g : GfSlot) (c : RsConfig) (r : List Nat) :
    (rsDecode policy g c r).report.Conforms midway c.n c.t := by
  rcases rsDecode_cases policy g c r with ⟨-, -, h⟩ | ⟨-, h⟩ <;> rw [h]
  · exact Repair.conforms_silent (by decide)
  · exact rsSolve_conforms g c _

theorem DecodeStatus.code_le (st : DecodeStatus) : st.code.toNat ≤ 5 := by cases st <;> decide

theorem DecodeStatus.code_injective {st st' : DecodeStatus} (h : st.code = st'.code) : st = st' := by
  cases st <;> cases st' <;> first | rfl | exact absurd h (by decide)

theorem DecodeStatus.code_ne_statusNone (st : DecodeStatus) : st.code ≠ statusNone := by cases st <;> decide

end Sys2Proof

namespace Sys2Proof.Machine

/-! The memories: what a draw puts into a space, and what the corrections of RSDEC do to SYM. -/

/-- A space takes the draw's cells as far as the space reaches (R463). -/
theorem Mem.read_ofCells_take {α : Type} [Inhabited α] [DecidableEq α] (draw : List α) {size a : Nat} (ha : a < size) :
    (Mem.ofCells 0 (draw.take size)).read a = draw.getD a default := by
  rw [Mem.read_ofCells]
  by_cases hlen : a < draw.length
  · simp [ha, hlen]
  · simp [hlen, unlistedCell]

theorem read_correctSymbols_of_notMem (r : List Nat) {errors : List (Nat × Nat)} (m : Mem (BitVec 32)) {j : Nat}
    (h : j ∉ errors.map Prod.fst) : (correctSymbols m r errors).read j = m.read j := by
  induction errors generalizing m with
  | nil => rfl
  | cons e errors ih =>
    rw [List.map_cons, List.mem_cons, not_or] at h
    obtain ⟨hne, hrest⟩ := h
    calc (correctSymbols m r (e :: errors)).read j
        = (m.write e.1 (BitVec.ofNat 32 (r.getD e.1 0 ^^^ e.2))).read j := ih _ hrest
      _ = m.read j := by rw [Mem.read_write, if_neg hne]

theorem wf_correctSymbols {size : Nat} (r : List Nat) {errors : List (Nat × Nat)} {m : Mem (BitVec 32)}
    (h : ∀ q ∈ errors.map Prod.fst, q < size) (hm : m.wf size = true) : (correctSymbols m r errors).wf size = true := by
  induction errors generalizing m with
  | nil => exact hm
  | cons e errors ih =>
    obtain ⟨he, hrest⟩ := List.forall_mem_cons.1 h
    exact ih hrest (Mem.wf_write _ he hm)

/-! What a command that completes can do (R39). -/

theorem positionBound_le (i : Instr) : positionBound i ≤ 24 := by
  cases i <;> simp [positionBound]

/-- The end of a command that completes in the state s: one of the shared updates, with what its checks have made sure of. -/
inductive Completion (s : State) : Instr → State → Prop
  /-- NOP. -/
  | idle : Completion s .nop s
  /-- A command that answers in RES. -/
  | result {i : Instr} (parts : mayWrite i = [.res]) (v : BitVec 32) : Completion s i (s.setRes v)
  /-- A command that writes a run of BUF bits: its window. -/
  | bits {i : Instr} {a : Nat} {vs : List Bool} (parts : mayWrite i = [.buf]) (window : bufWindow s i = List.range' a vs.length)
      (inside : a + vs.length ≤ s.cfg.bufLen) : Completion s i (s.writeBits a vs)
  /-- SYMWR. -/
  | symbol {j : BitVec 16} {v : BitVec 32} (inside : j.toNat < symSize) :
      Completion s (.symwr j v) { s with sym := s.sym.write j.toNat v }
  /-- IDXWR. -/
  | index {j v : BitVec 16} (inside : j.toNat < idxSize) :
      Completion s (.idxwr j v) { s with idx := s.idx.write j.toNat v }
  /-- A bit decoder: a conforming repair of its window. -/
  | repair {i : Instr} {n : Nat} {place : Nat → Nat} {r : Repair} (parts : mayWrite i = [.buf, .outcome])
      (window : ∀ q < n, place q ∈ bufWindow s i) (inside : ∀ q < n, place q < s.cfg.bufLen)
      (conforms : r.Conforms True n (positionBound i)) : Completion s i (s.applyRepair place r)
  /-- RSDEC. -/
  | symbols {c : BitVec 8} {g : GfSlot} {code : RsConfig} {r : RsResult} (code_eq : s.cfg.rsCode c.toNat = some (g, code))
      (conforms : r.report.Conforms True code.n code.t) : Completion s (.rsdec c) (s.applyRs g code r)

section Effects

variable {s t u : State} {i : Instr}

/-- A check that was passed, and the effect behind it. -/
theorem check_ok {p : Prop} [Decidable p] {c : FaultCause} {e : Effect} (h : (if p then .error c else e) = .ok u) :
    ¬ p ∧ e = .ok u := by
  split at h
  · cases h
  · exact ⟨‹_›, h⟩

theorem Completion.of_result {v : BitVec 32} (h : (.ok (s.setRes v) : Effect) = .ok u) (parts : mayWrite i = [.res]) :
    Completion s i u := by
  cases h
  exact .result parts v

/-- A Galois-field command completes as it does on the slot its selector names. -/
theorem Completion.of_slot {f : BitVec 8} {e : GfSlot → Effect} (h : withSlot s f e = .ok u)
    (he : ∀ g, e g = .ok u → Completion s i u) : Completion s i u := by
  obtain ⟨g, -, hg⟩ := withSlot_cases h
  exact he g hg

theorem Completion.of_bits {a n : Nat} {vs : List Bool} (h : (.ok (s.writeBits a vs) : Effect) = .ok u)
    (parts : mayWrite i = [.buf]) (hlen : vs.length = n) (window : bufWindow s i = List.range' a n)
    (inside : a + n ≤ s.cfg.bufLen) : Completion s i u := by
  cases h
  subst hlen
  exact .bits parts window inside

/-- BSET, BCLR and BFLIP write the run of their one bit. -/
theorem Completion.of_bit {a : BitVec 16} {v : Bool}
    (h : (if s.cfg.bufLen ≤ a.toNat then .error .bufRange else .ok (s.writeBit a.toNat v) : Effect) = .ok u)
    (parts : mayWrite i = [.buf]) (window : bufWindow s i = [a.toNat]) : Completion s i u := by
  obtain ⟨hin, hu⟩ := check_ok h
  exact .of_bits (vs := [v]) (n := 1) hu parts rfl window (by omega)

/-- BROTL and BROTR write a turned copy of their range. -/
theorem Completion.of_rotation {a : BitVec 16} {e : BitVec 32} {turn : List Bool → List Bool}
    (h : checkedRange s a.toNat e.toNat (.ok (s.writeBits a.toNat (turn (s.window a.toNat (e.toNat - a.toNat + 1))))) = .ok u)
    (hturn : ∀ vs, (turn vs).length = vs.length) (parts : mayWrite i = [.buf])
    (window : bufWindow s i = List.range' a.toNat (e.toNat - a.toNat + 1)) : Completion s i u := by
  obtain ⟨hle, hlt, hu⟩ := checkedRange_cases h
  exact .of_bits hu parts (by rw [hturn, State.length_window]) window (by omega)

theorem Completion.of_windowDecode {a n : Nat} {dec : List Bool → Repair} (h : windowDecode s a n dec = .ok u)
    (parts : mayWrite i = [.buf, .outcome]) (window : bufWindow s i = List.range' a n)
    (conforms : (dec (s.window a n)).Conforms True n (positionBound i)) : Completion s i u := by
  obtain ⟨hfit, rfl⟩ := windowDecode_cases h
  refine .repair parts (fun q hq => ?_) (fun q hq => by omega) conforms
  rw [window, List.mem_range'_1]
  omega

theorem Completion.of_scatteredDecode {l : List Nat} {dec : List Bool → Repair} (h : scatteredDecode s l dec = .ok u)
    (parts : mayWrite i = [.buf, .outcome]) (window : bufWindow s i = l)
    (conforms : (dec (l.map fun p => s.buf.read p)).Conforms True l.length (positionBound i)) : Completion s i u := by
  obtain ⟨hin, -, rfl⟩ := scatteredDecode_cases h
  have hplace : ∀ q < l.length, l.getD q 0 ∈ l := fun q hq => by
    rw [List.getD_eq_getElem _ _ hq]
    exact List.getElem_mem hq
  exact .repair parts (fun q hq => window ▸ hplace q hq) (fun q hq => hin _ (hplace q hq)) conforms

@[simp] theorem length_rotatedLeft (vs : List Bool) : (rotatedLeft vs).length = vs.length := by simp [rotatedLeft]

@[simp] theorem length_rotatedRight (vs : List Bool) : (rotatedRight vs).length = vs.length := by simp [rotatedRight]

/-- Running a command in a running block completes it, or enters a fault (R423). -/
theorem Completion.of_runCommand {e : Effect} (hs : s.fault = 0) (h : runCommand i s e = .next t)
    (he : ∀ u, e = .ok u → Completion s i u) : Completion s i t ∨ ∃ c, t = s.enterFault c (encode i) := by
  rcases runCommand_cases h with ⟨hf, -⟩ | ⟨-, hok⟩ | ⟨c, -, -, ht⟩
  · exact absurd hs hf
  · exact .inl (he t hok)
  · exact .inr ⟨c, ht⟩

/-- What a command does in a running block of a well-formed configuration: one of the ends of `Completion`, or the entry of a
fault (R39, R423). -/
theorem exec_completion (hcfg : s.cfg.wf = true) (hs : s.fault = 0) (h : exec i s = .next t) :
    Completion s i t ∨ ∃ c, t = s.enterFault c (encode i) := by
  have hpoly := Config.golayPoly_lt hcfg
  cases i with
  | nop => exact Completion.of_runCommand (e := .ok s) hs h fun u hu => by cases hu; exact .idle
  | bget a => exact Completion.of_runCommand hs h fun u hu => .of_result (check_ok hu).2 rfl
  | bset a => exact Completion.of_runCommand hs h fun u hu => .of_bit hu rfl rfl
  | bclr a => exact Completion.of_runCommand hs h fun u hu => .of_bit hu rfl rfl
  | bflip a => exact Completion.of_runCommand hs h fun u hu => .of_bit hu rfl rfl
  | bread a n =>
    exact Completion.of_runCommand hs h fun u hu => by
      obtain ⟨-, -, -, hu⟩ := checkedRun_cases hu
      exact .of_result hu rfl
  | bwrite a n v =>
    exact Completion.of_runCommand hs h fun u hu => by
      obtain ⟨-, -, hfit, hu⟩ := checkedRun_cases hu
      exact .of_bits (checkedValue_cases hu).2 rfl (length_natToBits _ _) rfl hfit
  | bxor a n v =>
    exact Completion.of_runCommand hs h fun u hu => by
      obtain ⟨-, -, hfit, hu⟩ := checkedRun_cases hu
      exact .of_bits (checkedValue_cases hu).2 rfl (by simp) rfl hfit
  | brotl a e => exact Completion.of_runCommand hs h fun u hu => .of_rotation hu length_rotatedLeft rfl rfl
  | brotr a e => exact Completion.of_runCommand hs h fun u hu => .of_rotation hu length_rotatedRight rfl rfl
  | bpopc =>
    rw [exec, execBpopc] at h
    exact Completion.of_runCommand hs h fun u hu => .of_result hu rfl
  | bnext a =>
    exact Completion.of_runCommand hs h fun u hu => by
      obtain ⟨-, hu⟩ := check_ok hu
      split at hu <;> exact .of_result hu rfl
  | symwr j v =>
    exact Completion.of_runCommand hs h fun u hu => by
      obtain ⟨hin, hu⟩ := check_ok hu
      cases hu
      exact .symbol (Nat.lt_of_not_le hin)
  | symrd j => exact Completion.of_runCommand hs h fun u hu => .of_result (check_ok hu).2 rfl
  | idxwr j v =>
    exact Completion.of_runCommand hs h fun u hu => by
      obtain ⟨hin, hu⟩ := check_ok hu
      cases hu
      exact .index (Nat.lt_of_not_le hin)
  | idxrd j => exact Completion.of_runCommand hs h fun u hu => .of_result (check_ok hu).2 rfl
  | eposrd j => exact Completion.of_runCommand hs h fun u hu => .of_result (check_ok hu).2 rfl
  | gfexp f n =>
    exact Completion.of_runCommand hs h fun u hu => .of_slot hu fun g hu => .of_result (checkedElement_cases hu).2 rfl
  | gflog f v =>
    exact Completion.of_runCommand hs h fun u hu => .of_slot hu fun g hu => .of_result (checkedElement_cases hu).2 rfl
  | gfmul f x y =>
    exact Completion.of_runCommand hs h fun u hu => .of_slot hu fun g hu =>
      .of_result (checkedElement_cases (checkedElement_cases hu).2).2 rfl
  | gfinv f x =>
    exact Completion.of_runCommand hs h fun u hu => .of_slot hu fun g hu => .of_result (check_ok (checkedElement_cases hu).2).2 rfl
  | gfadd f x y =>
    exact Completion.of_runCommand hs h fun u hu => .of_slot hu fun g hu =>
      .of_result (checkedElement_cases (checkedElement_cases hu).2).2 rfl
  | rsdec c =>
    exact Completion.of_runCommand hs h fun u hu => by
      split at hu
      · cases hu
      · rename_i g code hcode
        cases hu
        exact .symbols hcode (rsDecode_conforms _ g code _)
  | hamdec x a =>
    exact Completion.of_runCommand hs h fun u hu => by
      obtain ⟨code, hcode, hu⟩ := withHamCode_cases hu
      exact .of_windowDecode hu rfl (by simp [bufWindow, hcode]) (hamCore_conforms (Config.hamCode_sizes hcode).1 _)
  | hamdecx x =>
    exact Completion.of_runCommand hs h fun u hu => by
      obtain ⟨code, hcode, hu⟩ := withHamCode_cases hu
      refine .of_scatteredDecode hu rfl (by simp [bufWindow, hcode]) ?_
      rw [State.length_scattered]
      exact hamCore_conforms (Config.hamCode_sizes hcode).1 _
  | gol23 a => exact Completion.of_runCommand hs h fun u hu => .of_windowDecode hu rfl rfl (golay23Decode_conforms hpoly (by simp))
  | gol24 a => exact Completion.of_runCommand hs h fun u hu => .of_windowDecode hu rfl rfl (golay24Decode_conforms hpoly (by simp))
  | gol18 a => exact Completion.of_runCommand hs h fun u hu => .of_windowDecode hu rfl rfl (golay18Decode_conforms hpoly (by simp))
  | bptc a => exact Completion.of_runCommand hs h fun u hu => .of_windowDecode hu rfl rfl (bptcDecode_conforms trivial _)
  | crcchk c a inbound =>
    exact Completion.of_runCommand hs h fun u hu => by
      split at hu
      · cases hu
      · rename_i slot hslot
        exact .of_windowDecode hu rfl (by simp [bufWindow, hslot]) (CrcSlot.conforms_run (Config.crcSlot_wf hcfg hslot) _ _)
  | crc16 a m =>
    exact Completion.of_runCommand hs h fun u hu =>
      .of_windowDecode (check_ok hu).2 rfl rfl (crcGeneric_conforms (crc16Code m.toNat) _ _ _)

end Effects

/-! The writers table (R39): which parts each shared update leaves alone. -/

section Frame

variable {s t : State} {i : Instr} {p : Part}

theorem samePart_setRes {v : BitVec 32} (hp : p ≠ .res) : samePart s (s.setRes v) p := by
  cases p <;> simp_all [samePart]

theorem samePart_writeBits {a : Nat} {vs : List Bool} (hp : p ≠ .buf) : samePart s (s.writeBits a vs) p := by
  cases p <;> simp_all [samePart]

theorem samePart_withSym {m : Mem (BitVec 32)} (hp : p ≠ .sym) : samePart s { s with sym := m } p := by
  cases p <;> simp_all [samePart]

theorem samePart_withIdx {m : Mem (BitVec 16)} (hp : p ≠ .idx) : samePart s { s with idx := m } p := by
  cases p <;> simp_all [samePart]

theorem samePart_applyRepair {place : Nat → Nat} {r : Repair} (hb : p ≠ .buf) (ho : p ≠ .outcome) :
    samePart s (s.applyRepair place r) p := by
  cases p <;> simp_all [samePart]

theorem samePart_applyRs {g : GfSlot} {c : RsConfig} {r : RsResult} (hsym : p ≠ .sym) (ho : p ≠ .outcome) :
    samePart s (s.applyRs g c r) p := by
  cases p <;> simp_all [samePart]

theorem samePart_enterFault (s : State) (c : FaultCause) (w : CmdWord) (p : Part) : samePart s (s.enterFault c w) p := by
  cases p <;> simp [samePart]

/-- A command that completes writes only the parts its row lists. -/
theorem Completion.keeps_part (h : Completion s i t) (hp : p ∉ mayWrite i) : samePart s t p := by
  cases h with
  | idle => cases p <;> simp [samePart]
  | result parts => exact samePart_setRes (by simpa [parts] using hp)
  | bits parts => exact samePart_writeBits (by simpa [parts] using hp)
  | symbol => exact samePart_withSym (by simpa [mayWrite] using hp)
  | index => exact samePart_withIdx (by simpa [mayWrite] using hp)
  | repair parts =>
    rw [parts, List.mem_pair, not_or] at hp
    exact samePart_applyRepair hp.1 hp.2
  | symbols =>
    rw [mayWrite, List.mem_pair, not_or] at hp
    exact samePart_applyRs hp.1 hp.2

/-- No command writes the configuration, the host's moves, FAULT or FCMD, other than by a fault. -/
theorem Completion.unwritten (h : Completion s i t) :
    t.cfg = s.cfg ∧ t.port = s.port ∧ t.fault = s.fault ∧ t.fcmd = s.fcmd := by
  cases h <;> exact ⟨rfl, rfl, rfl, rfl⟩

/-- Every BUF bit a command flips or writes lies in its window. -/
theorem Completion.read_buf (h : Completion s i t) {a : Nat} (ha : a ∉ bufWindow s i) : t.buf.read a = s.buf.read a := by
  cases h with
  | bits parts window =>
    rw [window, List.mem_range'_1] at ha
    rw [State.read_writeBits, if_neg ha]
  | repair parts window inside conforms =>
    rw [State.applyRepair_buf, read_flipBits_of_notMem]
    intro hmem
    obtain ⟨q, hq, rfl⟩ := List.mem_map.1 hmem
    exact ha (window q (conforms.inWindow q hq))
  | _ => rfl

/-- RSDEC corrects symbols of the received word only. -/
theorem Completion.read_sym_rsdec {c : BitVec 8} {r : RsConfig} (h : Completion s (.rsdec c) t)
    (hr : s.cfg.rsConfig c.toNat = some r) {j : Nat} (hj : r.n ≤ j) : t.sym.read j = s.sym.read j := by
  cases h with
  | symbols hcode conforms =>
    obtain ⟨hcode, -⟩ := Config.rsCode_eq_some_iff.1 hcode
    cases hcode.symm.trans hr
    exact read_correctSymbols_of_notMem _ _ fun hmem => absurd (conforms.inWindow j hmem) (by omega)
  | result parts | bits parts | repair parts => simp [mayWrite] at parts

theorem Completion.read_sym_symwr {j : BitVec 16} {v : BitVec 32} (h : Completion s (.symwr j v) t) {k : Nat}
    (hk : k ≠ j.toNat) : t.sym.read k = s.sym.read k := by
  cases h with
  | symbol => rw [Mem.read_write, if_neg hk]
  | result parts | bits parts | repair parts => simp [mayWrite] at parts

theorem Completion.read_idx_idxwr {j v : BitVec 16} (h : Completion s (.idxwr j v) t) {k : Nat} (hk : k ≠ j.toNat) :
    t.idx.read k = s.idx.read k := by
  cases h with
  | index => rw [Mem.read_write, if_neg hk]
  | result parts | bits parts | repair parts => simp [mayWrite] at parts

/-- Settles O15: a command that completes ends as its `Completion` says, and one that faults has written FAULT and FCMD alone. -/
theorem writersTable : Obligations.WritersTable := by
  intro i s t hcfg hs h
  rcases exec_completion hcfg hs h with hc | ⟨c, rfl⟩
  · obtain ⟨hcfg', hport, hfault, hfcmd⟩ := hc.unwritten
    refine ⟨hcfg', hport, fun _ => hc.keeps_part, fun _ => hc.read_buf, ?_, ?_, ?_, fun _ => hfcmd, fun hne => ?_⟩
    · rintro c rfl r hr j hj
      exact hc.read_sym_rsdec hr hj
    · rintro j v rfl k hk
      exact hc.read_sym_symwr hk
    · rintro j v rfl k hk
      exact hc.read_idx_idxwr hk
    · exact absurd (hfault.trans hs) hne
  · exact ⟨rfl, rfl, fun p _ => samePart_enterFault s c _ p, fun _ _ => rfl, fun _ _ _ _ _ _ => rfl, fun _ _ _ _ _ => rfl,
      fun _ _ _ _ _ => rfl, fun h0 => absurd h0 (FaultCause.code_ne_zero c), fun _ p => samePart_enterFault s c _ p⟩

end Frame

/-! The invariant (R33, R34, R44, R70, R420). -/

section Invariant

variable {s t : State} {i : Instr}

/-- The host's moves are no part of the invariant. -/
theorem State.invariant_withPort (s : State) (port : List HostAction) :
    ({ s with port := port } : State).invariant ↔ s.invariant := Iff.rfl

theorem State.invariant_setRes (s : State) (v : BitVec 32) : (s.setRes v).invariant ↔ s.invariant := Iff.rfl

theorem State.invariant_withBuf (hs : s.invariant) {m : Mem Bool} (hm : m.wf s.cfg.bufLen = true) :
    ({ s with buf := m } : State).invariant := by
  obtain ⟨hcfg, ⟨-, hsym, hidx, hepos⟩, hcodes, hout⟩ := hs
  exact ⟨hcfg, ⟨hm, hsym, hidx, hepos⟩, hcodes, hout⟩

theorem State.invariant_withSym (hs : s.invariant) {m : Mem (BitVec 32)} (hm : m.wf symSize = true) :
    ({ s with sym := m } : State).invariant := by
  obtain ⟨hcfg, ⟨hbuf, -, hidx, hepos⟩, hcodes, hout⟩ := hs
  exact ⟨hcfg, ⟨hbuf, hm, hidx, hepos⟩, hcodes, hout⟩

theorem State.invariant_withIdx (hs : s.invariant) {m : Mem (BitVec 16)} (hm : m.wf idxSize = true) :
    ({ s with idx := m } : State).invariant := by
  obtain ⟨hcfg, ⟨hbuf, hsym, -, hepos⟩, hcodes, hout⟩ := hs
  exact ⟨hcfg, ⟨hbuf, hsym, hm, hepos⟩, hcodes, hout⟩

/-- A fault entry writes a legal cause (R420). -/
theorem State.invariant_enterFault (hs : s.invariant) (c : FaultCause) (w : CmdWord) : (s.enterFault c w).invariant := by
  obtain ⟨hcfg, hmem, ⟨hstatus, -, -⟩, hout⟩ := hs
  exact ⟨hcfg, hmem, ⟨hstatus, FaultCause.code_le c, fun h => absurd h (FaultCause.code_ne_zero c)⟩, hout⟩

/-- The outcome registers agree after the outcome of a conforming answer of at most 127 positions (R33, R34). -/
theorem State.outcomeConsistent_outcome (s : State) {r : Repair} {midway : Prop} {n bound : Nat} {ps : List Nat}
    (hr : r.Conforms midway n bound) (hbound : bound ≤ 127) (hps : ps.length = r.positions.length) :
    (s.outcome r.status ps).outcomeConsistent := by
  obtain ⟨-, hatMost, hreports, hsilent⟩ := hr
  have hle : ps.length ≤ 127 := by omega
  have hecnt : (BitVec.ofNat 8 ps.length).toNat = ps.length := by
    rw [BitVec.toNat_ofNat, Nat.mod_eq_of_lt (by omega)]
  have hncorr : (BitVec.ofNat 32 ps.length).toNat = ps.length := by
    rw [BitVec.toNat_ofNat, Nat.mod_eq_of_lt (by omega)]
  refine ⟨hncorr.trans hecnt.symm, hecnt.trans_le hle, fun hcode hzero => ?_, fun hcode => ?_⟩
  · refine hreports (DecodeStatus.code_injective hcode) (List.eq_nil_of_length_eq_zero ?_)
    rw [← hps, ← hecnt]
    exact congrArg BitVec.toNat hzero
  · have hst : r.status = .noError ∨ r.status = .passInverted := by
      rcases hcode with h | h | h
      · exact .inl (DecodeStatus.code_injective h)
      · exact .inr (DecodeStatus.code_injective h)
      · exact absurd h r.status.code_ne_statusNone
    have hnil : r.positions = [] := by
      rcases hsilent (by rcases hst with h | h <;> simp [h]) with h | ⟨-, h⟩
      · exact h
      · rcases hst with h' | h' <;> simp [h] at h'
    rw [State.outcome_ecnt, hps, hnil, List.length_nil]
    rfl

/-- outcome(status, list) of a conforming answer keeps the invariant (R9, R34). -/
theorem State.invariant_outcome (hs : s.invariant) {r : Repair} {midway : Prop} {n bound : Nat} {ps : List Nat}
    (hr : r.Conforms midway n bound) (hbound : bound ≤ 127) (hps : ps.length = r.positions.length) :
    (s.outcome r.status ps).invariant := by
  obtain ⟨hcfg, ⟨hbuf, hsym, hidx, hepos⟩, ⟨-, hfault, hfcmd⟩, -⟩ := hs
  have hle : ps.length ≤ eposSize := hps.trans_le (hr.atMost.trans (hbound.trans (by decide)))
  exact ⟨hcfg, ⟨hbuf, hsym, hidx, Mem.wf_writeRun _ (by simpa using hle) hepos⟩, ⟨.inl r.status.code_le, hfault, hfcmd⟩,
    s.outcomeConsistent_outcome hr hbound hps⟩

/-- Every command that completes keeps the invariant. -/
theorem Completion.invariant (h : Completion s i t) (hs : s.invariant) : t.invariant := by
  obtain ⟨hcfg, ⟨hbuf, hsym, hidx, -⟩, -, -⟩ := id hs
  cases h with
  | idle => exact hs
  | result parts v => exact (s.invariant_setRes v).2 hs
  | bits parts window inside => exact State.invariant_withBuf hs (Mem.wf_writeRun _ inside hbuf)
  | symbol inside => exact State.invariant_withSym hs (Mem.wf_write _ inside hsym)
  | index inside => exact State.invariant_withIdx hs (Mem.wf_write _ inside hidx)
  | @repair _ n place r parts window inside conforms =>
    have hflips : (flipBits s.buf (r.positions.map place)).wf s.cfg.bufLen = true :=
      wf_flipBits _ (List.forall_mem_map.2 fun q hq => inside q (conforms.inWindow q hq)) hbuf
    exact State.invariant_outcome (State.invariant_withBuf hs hflips) conforms ((positionBound_le i).trans (by decide))
      (List.length_map _)
  | @symbols c g code r hcode conforms =>
    obtain ⟨-, hslot⟩ := Config.rsCode_eq_some_iff.1 hcode
    obtain ⟨hn, ht⟩ := RsConfig.bounds_of_wf (Config.gfSlot_wf hcfg hslot) (Config.rsCode_wf hcfg hcode)
    have hcorrected := wf_correctSymbols (workingCopy g code (s.symbols code.n))
      (fun q hq => (conforms.inWindow q hq).trans_le hn) hsym
    exact State.invariant_outcome (State.invariant_withSym hs hcorrected) conforms ht rfl

theorem exec_invariant (hs : s.invariant) (h : exec i s = .next t) : t.invariant := by
  by_cases hf : s.fault = 0
  · obtain ⟨hcfg, -⟩ := id hs
    rcases exec_completion hcfg hf h with hc | ⟨c, rfl⟩
    · exact hc.invariant hs
    · exact State.invariant_enterFault hs c _
  · cases (exec_halted hf i).symm.trans h
    exact hs

theorem rejectWord_invariant (hs : s.invariant) {c : FaultCause} {w : CmdWord} (h : rejectWord c w s = .next t) :
    t.invariant := by
  rw [rejectWord_eq] at h
  cases h
  split
  · exact State.invariant_enterFault hs c w
  · exact hs

/-- A drawn space is in canonical form, the draw cut to the space's size (R463). -/
theorem Mem.wf_ofCells_take {α : Type} [Inhabited α] [DecidableEq α] (size : Nat) (draw : List α) :
    (Mem.ofCells 0 (draw.take size)).wf size = true :=
  Mem.wf_ofCells _ (List.length_take_le size draw)

/-- A reset of a well-formed configuration meets the invariant, whatever the draw: no position is reported, and NONE is no code of a
decode command. -/
theorem State.invariant_resetWith {c : Config} (h : c.wf = true) (d : Draws) : (State.resetWith c d).invariant := by
  have hmem : (State.resetWith c d).memoriesWf :=
    ⟨Mem.wf_ofCells_take _ _, Mem.wf_ofCells_take _ _, Mem.wf_ofCells_take _ _, Mem.wf_ofCells_take _ _⟩
  have hcodes : (State.resetWith c d).codesLegal := ⟨.inr rfl, Nat.zero_le _, fun _ => rfl⟩
  have hout : (State.resetWith c d).outcomeConsistent :=
    ⟨rfl, Nat.zero_le _, fun hst => absurd hst.symm (DecodeStatus.code_ne_statusNone .corrected), fun _ => rfl⟩
  exact ⟨h, hmem, hcodes, hout⟩

/-- Settles O17, by the host's next move: none, a reset, a word that decodes, a word that does not. -/
theorem invariantKept : Obligations.InvariantKept := by
  intro s t hs h
  cases hport : s.port with
  | nil =>
    cases (step_idle hport).symm.trans h
    exact hs
  | cons action rest =>
    have hrest := (s.invariant_withPort rest).2 hs
    cases action with
    | reset d =>
      cases (step_reset hport).symm.trans h
      exact State.invariant_resetWith hs.1 d
    | command w =>
      cases hdecode : decode w with
      | ok i => exact exec_invariant hrest ((step_command hport hdecode).symm.trans h)
      | error c => exact rejectWord_invariant hrest ((step_reject hport hdecode).symm.trans h)

/-- Settles O16: `State.reset` is the reset of a well-formed configuration too. -/
theorem invariantAtReset : Obligations.InvariantAtReset :=
  ⟨State.invariant_resetWith Config.reference_wf Draws.zero, fun _ d h => State.invariant_resetWith h d⟩

end Invariant

/-! Reset and the register port (R37, R38, R43). -/

/-- Settles O9: FAULT plays no part in the step that takes a reset. -/
theorem resetTaken : Obligations.ResetTaken := by
  intro s d rest hport
  exact ⟨_, step_reset hport, rfl, rfl, rfl, rfl, rfl, rfl, rfl, rfl, fun _ => Mem.read_ofCells_take d.buf,
    fun _ => Mem.read_ofCells_take d.sym, fun _ => Mem.read_ofCells_take d.idx, fun _ => Mem.read_ofCells_take d.epos⟩

/-- Settles O10: each register is a field of the reset state, and ID is a constant of the port. -/
theorem resetStateRegisters : Obligations.ResetStateRegisters := ⟨rfl, rfl, rfl, rfl, rfl, rfl, rfl⟩

/-- FCMD is its two register reads, the high half first (R38). -/
theorem State.fcmd_eq_append (s : State) : s.fcmd = s.readRegister 5 ++ s.readRegister 6 := by
  apply BitVec.eq_of_getLsbD_eq
  intro k hk
  simp only [State.readRegister, BitVec.getLsbD_append, BitVec.getLsbD_extractLsb']
  split_ifs with hlow
  · simp [hlow]
  · rw [decide_eq_true (by omega), Bool.true_and]
    congr 1
    omega

/-- An 8-bit register reads as its own value (R38). -/
theorem toNat_zeroExtend_register (v : BitVec 8) : (v.zeroExtend 32).toNat = v.toNat :=
  BitVec.toNat_setWidth_of_le (by decide)

theorem State.readRegister_of_ge (s : State) {n : Nat} (h : 8 ≤ n) : s.readRegister n = 0 := by
  obtain ⟨k, rfl⟩ := Nat.exists_eq_add_of_le' h
  rfl

/-- Settles O11, register by register. -/
theorem registerPortValues : Obligations.RegisterPortValues := fun s =>
  ⟨rfl, toNat_zeroExtend_register _, rfl, toNat_zeroExtend_register _, toNat_zeroExtend_register _, s.fcmd_eq_append, rfl,
    fun _ => s.readRegister_of_ge⟩

end Sys2Proof.Machine
end

section
/-! Decoding twice (R80): after CORRECTED, each bit decoder that R80 lists leaves a codeword, which the same command answers with
NO_ERROR. For the table codes (Hamming, CRC in GENERIC mode) the flip of a position adds the position's table column to the
syndrome; for the Golay codes the search answers with words of syndrome 0 only. -/

namespace Sys2Proof

/-! Windows with bits flipped. -/

@[simp] theorem length_flipWindow (w : List Bool) (ps : List Nat) : (flipWindow w ps).length = w.length := by
  simp [flipWindow]

theorem getD_flipWindow {w : List Bool} {q : Nat} (ps : List Nat) (hq : q < w.length) :
    (flipWindow w ps).getD q false = (w.getD q false ^^ decide (ps.count q % 2 = 1)) := by
  simp [flipWindow, hq]

theorem getD_flipWindow_of_nodup {w : List Bool} {ps : List Nat} {q : Nat} (hps : ps.Nodup) (hq : q < w.length) :
    (flipWindow w ps).getD q false = (w.getD q false ^^ decide (q ∈ ps)) := by
  rw [getD_flipWindow ps hq]
  by_cases hmem : q ∈ ps
  · simp [List.count_eq_one_of_mem hps hmem, hmem]
  · simp [List.count_eq_zero_of_not_mem hmem, hmem]

theorem getD_take_of_lt {w : List Bool} {n q : Nat} (hq : q < n) : (w.take n).getD q false = w.getD q false := by
  simp [List.getD_eq_getElem?_getD, List.getElem?_take_of_lt hq]

/-- Flipping the bits in which a window's first bits differ from an integer writes the integer there (R294). -/
theorem bitsToNat_take_flipWindow {w : List Bool} {ps : List Nat} {n u : Nat} (hps : ps.Nodup) (hn : n ≤ w.length)
    (hu : u < 2 ^ n)
    (hdiff : ∀ q < n, q ∈ ps ↔ (u ^^^ bitsToNat (w.take n)).testBit (n - 1 - q) = true) :
    bitsToNat ((flipWindow w ps).take n) = u := by
  have hlen : ((flipWindow w ps).take n).length = n := by simp [hn]
  apply Nat.eq_of_testBit_eq
  intro k
  by_cases hk : k < n
  · have hbit : (bitsToNat (w.take n)).testBit k = w.getD (n - 1 - k) false := by
      have hlen' : (w.take n).length = n := List.length_take_of_le hn
      rw [testBit_bitsToNat _ _ (by omega), hlen', getD_take_of_lt (by omega)]
    have hmem := hdiff (n - 1 - k) (by omega)
    rw [show n - 1 - (n - 1 - k) = k by omega, Nat.testBit_xor, hbit] at hmem
    rw [testBit_bitsToNat _ _ (by omega), hlen, getD_take_of_lt (by omega), getD_flipWindow_of_nodup hps (by omega)]
    simp only [hmem]
    cases w.getD (n - 1 - k) false <;> cases u.testBit k <;> rfl
  · rw [testBit_bitsToNat_of_le _ _ (by omega),
      Nat.testBit_lt_two_pow (hu.trans_le (Nat.pow_le_pow_right (by decide) (by omega)))]

/-- The answer of a decoder that finds no error (R33). -/
def Repair.clean : Repair := { status := .noError, positions := [] }

/-- A decoder of n-bit windows that finds no error in a window it has corrected (R80). -/
def SettlesWindows (n : Nat) (dec : List Bool → Repair) : Prop :=
  ∀ w, w.length = n → (dec w).status = .corrected → dec (flipWindow w (dec w).positions) = Repair.clean

/-! Table codes (R256, R257, R363 to R365). -/

/-- The sum of the table entries of the set data bits and the trailing parity bits: the syndrome of a table code. -/
def tableSyndrome (k p : Nat) (T : Nat → Nat) (w : List Bool) : Nat :=
  xorAll ((List.range k).map fun i => if w.getD i false then T i else 0) ^^^
    bitsToNat ((List.range p).map fun j => w.getD (k + j) false)

/-- What the window bit q adds to the syndrome of a table code. -/
def tableColumn (k p : Nat) (T : Nat → Nat) (q : Nat) : Nat := if q < k then T q else 2 ^ (p - 1 - (q - k))

theorem xorAll_map_ite_eq (T : Nat → Nat) (k q : Nat) :
    xorAll ((List.range k).map fun i => if i = q then T i else 0) = if q < k then T q else 0 := by
  induction k with
  | zero => simp
  | succ k ih =>
    rw [List.range_succ, List.map_append, xorAll_append, ih]
    rcases lt_trichotomy q k with h | rfl | h
    · simp [h, h.ne', h.trans (Nat.lt_succ_self k)]
    · simp
    · simp [h.ne, h.not_gt, show ¬ q < k + 1 by omega]

theorem ite_xor_eq (a b : Bool) (v : Nat) :
    (if (a ^^ b) = true then v else 0) = (if a = true then v else 0) ^^^ (if b = true then v else 0) := by
  cases a <;> cases b <;> simp

theorem bitsToNat_map_xor (a b : Nat → Bool) (p : Nat) :
    bitsToNat ((List.range p).map fun j => a j ^^ b j) =
      bitsToNat ((List.range p).map a) ^^^ bitsToNat ((List.range p).map b) := by
  apply Nat.eq_of_testBit_eq
  intro k
  rw [Nat.testBit_xor]
  by_cases hk : k < p
  · rw [testBit_bitsToNat _ _ (by simpa), testBit_bitsToNat _ _ (by simpa), testBit_bitsToNat _ _ (by simpa)]
    simp [show p - 1 - k < p by omega]
  · rw [testBit_bitsToNat_of_le _ _ (by simpa using hk), testBit_bitsToNat_of_le _ _ (by simpa using hk),
      testBit_bitsToNat_of_le _ _ (by simpa using hk)]
    rfl

theorem bitsToNat_lone {p q : Nat} (hq : q < p) :
    bitsToNat ((List.range p).map fun j => decide (j = q)) = 2 ^ (p - 1 - q) := by
  apply Nat.eq_of_testBit_eq
  intro k
  rw [Nat.testBit_two_pow]
  by_cases hk : k < p
  · rw [testBit_bitsToNat _ _ (by simpa)]
    simp only [List.length_map, List.length_range]
    rw [List.getD_eq_getElem _ _ (by simp; omega)]
    simp only [List.getElem_map, List.getElem_range]
    exact decide_eq_decide.2 (by omega)
  · rw [testBit_bitsToNat_of_le _ _ (by simpa using hk), decide_eq_false (by omega)]

theorem bitsToNat_all_false {p : Nat} {f : Nat → Bool} (h : ∀ j < p, f j = false) :
    bitsToNat ((List.range p).map f) = 0 := by
  apply Nat.eq_of_testBit_eq
  intro k
  rw [Nat.zero_testBit]
  by_cases hk : k < p
  · rw [testBit_bitsToNat _ _ (by simpa)]
    simp [show p - 1 - k < p by omega, h (p - 1 - k) (by omega)]
  · exact testBit_bitsToNat_of_le _ _ (by simpa using hk)

/-- The flip of one window bit adds its column to the syndrome. -/
theorem tableSyndrome_flip {k p q : Nat} (T : Nat → Nat) {w : List Bool} (hw : w.length = k + p) (hq : q < k + p) :
    tableSyndrome k p T (flipWindow w [q]) = tableSyndrome k p T w ^^^ tableColumn k p T q := by
  have hbit : ∀ r < k + p, (flipWindow w [q]).getD r false = (w.getD r false ^^ decide (r = q)) := fun r hr => by
    rw [getD_flipWindow_of_nodup (List.nodup_singleton q) (by omega)]
    simp
  have hdata : (List.range k).map (fun i => if (flipWindow w [q]).getD i false then T i else 0) =
      (List.range k).map fun i => (if w.getD i false then T i else 0) ^^^ (if i = q then T i else 0) := by
    refine List.map_congr_left fun i hi => ?_
    rw [hbit i (by rw [List.mem_range] at hi; omega), ite_xor_eq]
    simp
  have hparity : (List.range p).map (fun j => (flipWindow w [q]).getD (k + j) false) =
      (List.range p).map fun j => w.getD (k + j) false ^^ decide (k + j = q) :=
    List.map_congr_left fun j hj => hbit _ (by rw [List.mem_range] at hj; omega)
  have hlone : bitsToNat ((List.range p).map fun j => decide (k + j = q)) =
      if q < k then 0 else 2 ^ (p - 1 - (q - k)) := by
    split_ifs with hk
    · exact bitsToNat_all_false fun j _ => decide_eq_false (by omega)
    · rw [← bitsToNat_lone (p := p) (q := q - k) (by omega)]
      simp only [show ∀ j, (k + j = q) = (j = q - k) from fun j => propext (by omega)]
  rw [tableSyndrome, hdata, hparity, xorAll_map_xor, bitsToNat_map_xor, xorAll_map_ite_eq, hlone, tableSyndrome, tableColumn]
  split_ifs
  · rw [Nat.xor_zero, Nat.xor_right_comm]
  · rw [Nat.xor_zero, Nat.xor_assoc]

/-! Hamming (R258). -/

theorem HamCode.syndrome_eq_tableSyndrome (c : HamCode) (w : List Bool) :
    c.syndrome w = tableSyndrome c.k c.p (fun i => c.table.getD i 0) w := rfl

/-- The position the search names is one whose column is the syndrome (R258). -/
theorem HamCode.tableColumn_of_errorIndex {c : HamCode} {syn j : Nat} (h : c.errorIndex syn = some j) :
    tableColumn c.k c.p (fun i => c.table.getD i 0) j = syn := by
  unfold HamCode.errorIndex at h
  split at h
  · rename_i i hi
    cases h
    rw [tableColumn, if_pos (List.mem_range.1 (List.mem_of_find?_eq_some hi))]
    simpa using List.find?_some hi
  · obtain ⟨i, hi, rfl⟩ := Option.map_eq_some_iff.1 h
    rw [tableColumn, if_neg (by omega), Nat.add_sub_cancel_left]
    simpa using List.find?_some hi

theorem hamCore_of_syndrome_eq_zero {c : HamCode} {w : List Bool} (h : c.syndrome w = 0) : hamCore c w = Repair.clean := by
  simp [hamCore, h, Repair.clean]

theorem hamCore_settles {c : HamCode} (hk : c.k ≤ c.n) : SettlesWindows c.n (hamCore c) := by
  intro w hw hst
  rcases hamCore_cases c w with ⟨-, h⟩ | ⟨j, hj, h⟩ | h
  · simp [h] at hst
  · have hjn : j < c.n := HamCode.errorIndex_lt hk hj
    have hnp : c.k + c.p = c.n := by rw [HamCode.p]; omega
    rw [h]
    refine hamCore_of_syndrome_eq_zero ?_
    rw [HamCode.syndrome_eq_tableSyndrome, tableSyndrome_flip _ (by omega) (by omega), HamCode.tableColumn_of_errorIndex hj,
      ← HamCode.syndrome_eq_tableSyndrome, Nat.xor_self]
  · simp [h] at hst

/-! CRC in GENERIC mode (R366, R367). -/

theorem CrcCode.syndrome_eq_tableSyndrome (c : CrcCode) (w : List Bool) :
    c.syndrome w = c.fill ^^^ tableSyndrome c.msgLen c.crcLen c.entry w := by
  rw [CrcCode.syndrome, CrcCode.accumulate, Nat.xor_assoc]
  rfl

theorem CrcCode.tableColumn_eq_entry (c : CrcCode) (i : Nat) : tableColumn c.msgLen c.crcLen c.entry i = c.entry i := by
  unfold tableColumn CrcCode.entry
  split_ifs <;> rfl

/-- The flip of one frame bit adds its table entry to the syndrome (R365). -/
theorem CrcCode.syndrome_flip {c : CrcCode} {w : List Bool} {i : Nat} (hw : w.length = c.msgLen + c.crcLen)
    (hi : i < c.msgLen + c.crcLen) : c.syndrome (flipWindow w [i]) = c.syndrome w ^^^ c.entry i := by
  rw [CrcCode.syndrome_eq_tableSyndrome, CrcCode.syndrome_eq_tableSyndrome, tableSyndrome_flip _ hw hi,
    CrcCode.tableColumn_eq_entry, Nat.xor_assoc]

theorem CrcCode.entry_of_scan {c : CrcCode} {syn i : Nat} (h : c.scan syn = some i) : c.entry i = syn := by
  simpa using List.find?_some h

theorem crcGeneric_of_syndrome_eq_zero {c : CrcCode} {acceptInverted inbound : Bool} {w : List Bool}
    (h : c.syndrome w = 0) : crcGeneric c acceptInverted inbound w = Repair.clean := by
  simp [crcGeneric, h, Repair.clean]

theorem crcGeneric_settles (c : CrcCode) (acceptInverted inbound : Bool) :
    SettlesWindows (c.msgLen + c.crcLen) (crcGeneric c acceptInverted inbound) := by
  intro w hw hst
  rcases crcGeneric_cases c acceptInverted inbound w with ⟨-, h⟩ | ⟨-, -, -, -, h⟩ | ⟨-, -, h⟩
  · simp [h] at hst
  · simp [h] at hst
  · rcases c.scanRepair_cases (c.syndrome w) with ⟨i, hi, hscan⟩ | ⟨-, hscan⟩
    · rw [h, hscan]
      refine crcGeneric_of_syndrome_eq_zero ?_
      rw [CrcCode.syndrome_flip hw (CrcCode.scan_lt hi), CrcCode.entry_of_scan hi, Nat.xor_self]
    · simp [h, hscan] at hst

/-! Golay words (R291 to R293). -/

/-- One turn of the division loop (R292). -/
def golayShift (poly q : Nat) : Nat := (if q % 2 = 1 then q ^^^ poly else q) >>> 1

theorem golayDivide_eq_iterate (poly count q : Nat) : golayDivide poly count q = (golayShift poly)^[count] q := by
  induction count generalizing q with
  | zero => rfl
  | succ count ih => exact ih (golayShift poly q)

theorem golayShift_zero (poly : Nat) : golayShift poly 0 = 0 := by simp [golayShift]

theorem golayShift_xor (poly a b : Nat) : golayShift poly (a ^^^ b) = golayShift poly a ^^^ golayShift poly b := by
  have hodd : (a ^^^ b) % 2 = (a + b) % 2 := Nat.xor_mod_two_eq
  have hxor : ∀ x y : Nat, x ^^^ poly ^^^ (y ^^^ poly) = x ^^^ y := fun x y => by
    rw [Nat.xor_right_comm, ← Nat.xor_assoc, Nat.xor_assoc, Nat.xor_self, Nat.xor_zero]
  unfold golayShift
  rw [← Nat.shiftRight_xor_distrib]
  congr 1
  rcases Nat.mod_two_eq_zero_or_one a with ha | ha <;> rcases Nat.mod_two_eq_zero_or_one b with hb | hb <;>
    rw [hodd, Nat.add_mod, ha, hb]
  · rfl
  · exact Nat.xor_assoc a b poly
  · exact Nat.xor_right_comm a b poly
  · exact (hxor a b).symm

theorem golayDivide_xor (poly count a b : Nat) :
    golayDivide poly count (a ^^^ b) = golayDivide poly count a ^^^ golayDivide poly count b := by
  induction count generalizing a b with
  | zero => rfl
  | succ count ih =>
    change golayDivide poly count (golayShift poly (a ^^^ b)) = _
    rw [golayShift_xor, ih]
    rfl

/-- The division turns a multiple of x^count back. -/
theorem golayDivide_shiftLeft (poly count v : Nat) : golayDivide poly count (v <<< count) = v := by
  induction count with
  | zero => rfl
  | succ count ih =>
    have hturn : golayShift poly (v <<< (count + 1)) = v <<< count := by
      have htwice : v <<< (count + 1) = 2 * (v <<< count) := by rw [Nat.shiftLeft_eq, Nat.shiftLeft_eq, pow_succ]; ring
      rw [golayShift, htwice, if_neg (by omega), Nat.shiftRight_one]
      omega
    change golayDivide poly count (golayShift poly (v <<< (count + 1))) = v
    rw [hturn, ih]

theorem golaySyndrome_eq_zero_iff (poly u : Nat) : golaySyndrome poly u = 0 ↔ golayDivide poly 12 u = 0 := by
  rw [golaySyndrome, Nat.shiftLeft_eq]
  omega

/-- A word less its syndrome is a codeword (R292). -/
theorem golaySyndrome_xor_self (poly u : Nat) : golaySyndrome poly (u ^^^ golaySyndrome poly u) = 0 := by
  rw [golaySyndrome_eq_zero_iff, golayDivide_xor]
  conv_lhs => rw [golaySyndrome, golayDivide_shiftLeft, Nat.xor_self]

/-- The polynomials of R292: both divide x^23 + 1, so their codes are cyclic. -/
def golayCyclic (poly : Nat) : Prop := golayDivide poly 12 (2 ^ 22 ^^^ (poly >>> 1)) = 0

theorem Config.golayCyclic_of_wf {c : Config} (h : c.wf = true) : golayCyclic c.golayPoly := by
  have hp : c.golayPolyOk = true := Config.check_of_wf h (e := (c.golayPolyOk, .golayPoly)) (by simp [Config.checks])
  simp only [Config.golayPolyOk, Bool.or_eq_true, beq_iff_eq] at hp
  unfold golayCyclic
  rcases hp with hp | hp <;> rw [hp] <;> decide

/-- A turn by one: the division's shift, with the difference that a bit wraps round instead of folding the polynomial in. -/
theorem rotr23_one {poly u : Nat} (hu : u < 2 ^ 23) :
    rotr23 u 1 = golayShift poly u ^^^ (if u % 2 = 1 then 2 ^ 22 ^^^ (poly >>> 1) else 0) := by
  have hwrap : golayShift poly u ^^^ (if u % 2 = 1 then 2 ^ 22 ^^^ (poly >>> 1) else 0) =
      (u >>> 1) ^^^ (if u % 2 = 1 then 2 ^ 22 else 0) := by
    unfold golayShift
    split_ifs
    · rw [Nat.shiftRight_xor_distrib, Nat.xor_assoc, Nat.xor_comm (2 ^ 22), ← Nat.xor_assoc (poly >>> 1), Nat.xor_self,
        Nat.zero_xor]
    · rfl
  rw [hwrap]
  have hhalf : u >>> 1 < 2 ^ 23 := by rw [Nat.shiftRight_one]; omega
  refine eq_of_testBit_lt_23 (rotr23_lt u 1) (Nat.xor_lt_two_pow hhalf (by split_ifs <;> decide)) fun k hk => ?_
  rw [testBit_rotr23 hu (by decide) hk, Nat.testBit_xor, Nat.testBit_shiftRight]
  have htop : u.testBit 23 = false := Nat.testBit_lt_two_pow hu
  by_cases h22 : k = 22
  · subst h22
    rw [show 1 + 22 = 23 from rfl, htop]
    rcases Nat.mod_two_eq_zero_or_one u with h | h
    · simp [h]
    · rw [if_pos h, Nat.testBit_two_pow_self]
      simp [h]
  · rw [Nat.mod_eq_of_lt (by omega), Nat.add_comm 1 k]
    split_ifs
    · rw [Nat.testBit_two_pow, decide_eq_false (Ne.symm h22), Bool.xor_false]
    · rw [Nat.zero_testBit, Bool.xor_false]

theorem rotr23_succ {u i : Nat} (hu : u < 2 ^ 23) (hi : i < 23) : rotr23 u (i + 1) = rotr23 (rotr23 u 1) i :=
  eq_of_testBit_lt_23 (rotr23_lt _ _) (rotr23_lt _ _) fun k hk => by
    rw [testBit_rotr23 hu hi hk, testBit_rotr23 (rotr23_lt u 1) hi.le hk,
      testBit_rotr23 hu (by decide) (Nat.mod_lt _ (by decide))]
    congr 1
    omega

/-- A turned codeword is a codeword (R291). -/
theorem golaySyndrome_rotr23 {poly u i : Nat} (hpoly : golayCyclic poly) (hu : u < 2 ^ 23) (hi : i ≤ 23)
    (h : golaySyndrome poly u = 0) : golaySyndrome poly (rotr23 u i) = 0 := by
  induction i generalizing u with
  | zero => rwa [rotr23_zero hu]
  | succ i ih =>
    rw [rotr23_succ hu hi]
    refine ih (rotr23_lt u 1) (by omega) ?_
    rw [golaySyndrome_eq_zero_iff] at h ⊢
    have hshift : golayDivide poly 12 (golayShift poly u) = 0 := by
      rw [golayDivide_eq_iterate, ← Function.iterate_succ_apply, Function.iterate_succ_apply', ← golayDivide_eq_iterate, h]
      exact golayShift_zero poly
    have hwrap : golayDivide poly 12 (if u % 2 = 1 then 2 ^ 22 ^^^ (poly >>> 1) else 0) = 0 := by
      split_ifs
      · exact hpoly
      · exact golayDivide_shiftLeft poly 12 0
    rw [rotr23_one (poly := poly) hu, golayDivide_xor, hshift, hwrap, Nat.xor_self]

theorem golayRotations_codeword {poly threshold count i u r : Nat} (hcyc : golayCyclic poly) (hp : poly < 2 ^ 12)
    (hu : u < 2 ^ 23) (hi : i + count ≤ 23) (h : golayRotations poly threshold count i u = some r) :
    golaySyndrome poly r = 0 := by
  induction count generalizing i u with
  | zero => cases h
  | succ count ih =>
    simp only [golayRotations] at h
    split at h
    · cases h
      exact golaySyndrome_rotr23 hcyc (Nat.xor_lt_two_pow hu (golaySyndrome_lt hp hu)) (by omega)
        (golaySyndrome_xor_self poly u)
    · exact ih (rotl23_lt u 1) (by omega) h

theorem golayTrial_codeword {poly threshold u r : Nat} (hcyc : golayCyclic poly) (hp : poly < 2 ^ 12) (hu : u < 2 ^ 23)
    (h : golayTrial poly threshold u = some r) : golaySyndrome poly r = 0 := by
  unfold golayTrial at h
  split at h
  · cases h
    assumption
  · exact golayRotations_codeword hcyc hp hu (by decide) h

/-- The search answers with a codeword (R293). -/
theorem golay23Correct_codeword {poly v u : Nat} (hcyc : golayCyclic poly) (hp : poly < 2 ^ 12) (hv : v < 2 ^ 23)
    (h : golay23Correct poly v = some u) : golaySyndrome poly u = 0 := by
  unfold golay23Correct at h
  split at h
  · cases h
    exact golayTrial_codeword hcyc hp hv ‹_›
  · obtain ⟨t, ht, hr⟩ := List.exists_of_findSome?_eq_some h
    exact golayTrial_codeword hcyc hp
      (Nat.xor_lt_two_pow hv (Nat.pow_lt_pow_right (by decide) (List.mem_range.1 ht))) hr

/-- A codeword is its own correction (R293). -/
theorem golay23Correct_of_codeword {poly u : Nat} (h : golaySyndrome poly u = 0) : golay23Correct poly u = some u := by
  simp [golay23Correct, golayTrial, h]

/-- A word that the search has answered with is its own correction. -/
theorem golay23Correct_idem {poly v u : Nat} (hcyc : golayCyclic poly) (hp : poly < 2 ^ 12) (hv : v < 2 ^ 23)
    (h : golay23Correct poly v = some u) : golay23Correct poly u = some u :=
  golay23Correct_of_codeword (golay23Correct_codeword hcyc hp hv h)

/-! Golay decoders (R294 to R298). -/

theorem mem_golayDifference {u v q : Nat} (hq : q < 23) :
    q ∈ golayDifference u v ↔ (u ^^^ v).testBit (23 - 1 - q) = true := by
  simp [golayDifference, hq]

theorem golayDifference_nodup (u v : Nat) : (golayDifference u v).Nodup := List.nodup_range.filter _

theorem golayDifference_self (u : Nat) : golayDifference u u = [] := by simp [golayDifference]

theorem golay23Decode_settles {poly : Nat} (hcyc : golayCyclic poly) (hp : poly < 2 ^ 12) :
    SettlesWindows 23 (golay23Decode poly) := by
  intro w hw hst
  have hv : bitsToNat w < 2 ^ 23 := hw ▸ bitsToNat_lt w
  rcases golay23Decode_cases poly w with h | h | ⟨u, hu, -, h⟩
  · simp [h] at hst
  · simp [h] at hst
  · have hwrite : bitsToNat (flipWindow w (golayDifference u (bitsToNat w))) = u := by
      have htake := bitsToNat_take_flipWindow (golayDifference_nodup u (bitsToNat w)) hw.ge (golay23Correct_lt hv hu)
        fun q hq => by rw [List.take_of_length_le hw.le]; exact mem_golayDifference hq
      rwa [List.take_of_length_le (by simp [hw])] at htake
    rw [h, golay23Decode, hwrite, golay23Correct_idem hcyc hp hv hu]
    simp [Repair.clean]

/-- golay24_core on a codeword with even parity (R296). -/
theorem golay24Decode_of_codeword {poly u : Nat} {w : List Bool} (hw : bitsToNat (w.take 23) = u)
    (hu : golay23Correct poly u = some u) (heven : (popcount 23 u + (w.getD 23 false).toNat) % 2 = 0) :
    golay24Decode poly w = Repair.clean := by
  unfold golay24Decode
  simp only [hw, hu, golayDifference_self, heven, if_true, Repair.clean]

/-- Under CORRECTED golay24_core flips the bits in which the found codeword differs, and the parity bit where the parity asks for
it (R296). -/
theorem golay24Decode_corrected {poly : Nat} {w : List Bool} (h : (golay24Decode poly w).status = .corrected) :
    ∃ u tail, golay23Correct poly (bitsToNat (w.take 23)) = some u ∧
      (golay24Decode poly w).positions = golayDifference u (bitsToNat (w.take 23)) ++ tail ∧
      (((popcount 23 u + (w.getD 23 false).toNat) % 2 = 0 ∧ tail = []) ∨
        ((popcount 23 u + (w.getD 23 false).toNat) % 2 = 1 ∧ tail = [23])) := by
  unfold golay24Decode at h ⊢
  simp only at h ⊢
  split at h
  · cases h
  · rename_i u hu
    have hodd := Nat.mod_two_eq_zero_or_one (popcount 23 u + (w.getD 23 false).toNat)
    rw [hu]
    split_ifs at h ⊢ with hsame hzero hzero htwo
    · exact ⟨u, [23], rfl, by simp [hsame], .inr ⟨by omega, rfl⟩⟩
    · exact ⟨u, [], rfl, by simp, .inl ⟨hzero, rfl⟩⟩
    · exact ⟨u, [23], rfl, rfl, .inr ⟨by omega, rfl⟩⟩

theorem golay24Decode_settles {poly : Nat} (hcyc : golayCyclic poly) (hp : poly < 2 ^ 12) :
    SettlesWindows 24 (golay24Decode poly) := by
  intro w hw hst
  have hv : bitsToNat (w.take 23) < 2 ^ 23 := by simpa [hw] using bitsToNat_lt (w.take 23)
  obtain ⟨u, tail, hu, hpos, htail⟩ := golay24Decode_corrected hst
  have hlow : ∀ q < 23, q ∉ tail := fun q hq => by
    rcases htail with ⟨-, rfl⟩ | ⟨-, rfl⟩ <;> simp; omega
  have h23 : 23 ∉ golayDifference u (bitsToNat (w.take 23)) := fun hmem => absurd (golayDifference_lt hmem) (by decide)
  have hnodup : (golayDifference u (bitsToNat (w.take 23)) ++ tail).Nodup := by
    refine List.Nodup.append (golayDifference_nodup _ _) (by rcases htail with ⟨-, rfl⟩ | ⟨-, rfl⟩ <;> simp) ?_
    exact fun q hq => hlow q (golayDifference_lt hq)
  rw [hpos]
  refine golay24Decode_of_codeword (u := u) ?_ (golay23Correct_idem hcyc hp hv hu) ?_
  · refine bitsToNat_take_flipWindow hnodup (by omega) (golay23Correct_lt hv hu) fun q hq => ?_
    rw [List.mem_append, or_iff_left (hlow q hq)]
    exact mem_golayDifference hq
  · rw [getD_flipWindow_of_nodup hnodup (by omega)]
    simp only [List.mem_append, h23, false_or]
    rcases htail with ⟨heven, rfl⟩ | ⟨hodd, rfl⟩
    · simpa using heven
    · generalize w.getD 23 false = bit at hodd ⊢
      cases bit <;> simp at hodd ⊢ <;> omega

/-- Behind padding, the flips of a window stand shifted by the padding's length (R298). -/
theorem flipWindow_append {pad w : List Bool} {ps : List Nat} (hps : ∀ q ∈ ps, pad.length ≤ q) :
    flipWindow (pad ++ w) ps = pad ++ flipWindow w (ps.map (· - pad.length)) := by
  have hpad : ∀ q < pad.length, ps.count q = 0 := fun q hq =>
    List.count_eq_zero_of_not_mem fun hmem => absurd (hps q hmem) (by omega)
  have hshift : ∀ q, (ps.map (· - pad.length)).count q = ps.count (pad.length + q) := fun q => by
    rw [List.count, List.countP_map, List.count]
    refine List.countP_congr fun p hp => ?_
    have := hps p hp
    simp only [Function.comp_apply, beq_iff_eq]
    omega
  refine List.ext_getElem (by simp) fun q h₁ h₂ => ?_
  by_cases hq : q < pad.length
  · simp [flipWindow, List.getElem_append_left hq, hpad q hq]
  · simp [flipWindow, List.getElem_append_right (Nat.le_of_not_lt hq), hshift, show pad.length + (q - pad.length) = q by omega]

theorem golay18Decode_settles {poly : Nat} (hcyc : golayCyclic poly) (hp : poly < 2 ^ 12) :
    SettlesWindows 18 (golay18Decode poly) := by
  intro w hw hst
  unfold golay18Decode at hst ⊢
  simp only at hst ⊢
  split at hst
  · cases hst
  · rename_i hpad
    rw [if_neg hpad]
    have hge : ∀ q ∈ (golay24Decode poly (List.replicate 6 false ++ w)).positions, 6 ≤ q := fun q hq => by
      by_contra hlt
      exact hpad (List.any_eq_true.2 ⟨q, hq, by simpa using hlt⟩)
    have hclean := golay24Decode_settles hcyc hp (List.replicate 6 false ++ w) (by simp [hw]) hst
    rw [flipWindow_append (pad := List.replicate 6 false) hge, List.length_replicate] at hclean
    rw [hclean]
    rfl

end Sys2Proof

namespace Sys2Proof.Machine

variable {s t : State} {i : Instr}

/-! The window of a command after its repair. -/

theorem count_map_of_inj {place : Nat → Nat} {ps : List Nat} {q : Nat} (h : ∀ p ∈ ps, place p = place q → p = q) :
    (ps.map place).count (place q) = ps.count q := by
  rw [List.count, List.countP_map, List.count]
  refine List.countP_congr fun p hp => ?_
  simp only [Function.comp_apply, beq_iff_eq]
  exact ⟨h p hp, congrArg place⟩

/-- A repair flips the window bits at its positions, wherever the window's bits lie. -/
theorem State.map_read_applyRepair (s : State) {place : Nat → Nat} {r : Repair} {n : Nat} (hr : ∀ p ∈ r.positions, p < n)
    (hplace : ∀ p < n, ∀ q < n, place p = place q → p = q) :
    ((List.range n).map fun q => (s.applyRepair place r).buf.read (place q)) =
      flipWindow ((List.range n).map fun q => s.buf.read (place q)) r.positions := by
  refine List.ext_getElem (by simp) fun q h₁ _ => ?_
  have hq : q < n := by simpa using h₁
  simp [flipWindow, read_flipBits, count_map_of_inj fun p hp => hplace p (hr p hp) q hq]

theorem State.window_applyRepair (s : State) {a n : Nat} {r : Repair} (hr : ∀ p ∈ r.positions, p < n) :
    (s.applyRepair (a + ·) r).window a n = flipWindow (s.window a n) r.positions :=
  s.map_read_applyRepair hr fun _ _ _ _ h => Nat.add_left_cancel h

theorem map_read_eq_map_range (m : Mem Bool) (l : List Nat) :
    (l.map fun i => m.read i) = (List.range l.length).map fun q => m.read (l.getD q 0) :=
  List.ext_getElem (by simp) fun q h _ => by simp at h; simp [h]

theorem State.scattered_applyRepair (s : State) {l : List Nat} {r : Repair} (hl : l.Nodup)
    (hr : ∀ p ∈ r.positions, p < l.length) :
    (l.map fun i => (s.applyRepair (fun j => l.getD j 0) r).buf.read i) =
      flipWindow (l.map fun i => s.buf.read i) r.positions := by
  rw [map_read_eq_map_range, map_read_eq_map_range]
  refine s.map_read_applyRepair hr fun p hp q hq h => ?_
  rw [List.getD_eq_getElem _ _ hp, List.getD_eq_getElem _ _ hq] at h
  exact (List.Nodup.getElem_inj_iff hl).1 h

/-! The same command again. -/

/-- The end R80 asks for: the command finds no error in the state. -/
def State.findsNoError (s : State) (i : Instr) : Prop := ∃ u, exec i s = .next u ∧ s.repairs u .noError []

theorem State.findsNoError_of_clean {place : Nat → Nat} (h : exec i s = .next (s.applyRepair place Repair.clean)) :
    s.findsNoError i := ⟨_, h, s.repairs_applyRepair place Repair.clean⟩

/-- A running command that has not faulted has taken its effect. -/
theorem runCommand_effect {e : Effect} (hs : s.fault = 0) (h : runCommand i s e = .next t) (ht : t.fault = 0) :
    e = .ok t := by
  rcases runCommand_cases h with ⟨hf, -⟩ | ⟨-, hok⟩ | ⟨c, -, -, rfl⟩
  · exact absurd hs hf
  · exact hok
  · exact absurd ht (FaultCause.code_ne_zero c)

/-- A decoder of a contiguous window, run again. -/
theorem findsNoError_of_windowDecode {a n : Nat} {dec : List Bool → Repair}
    (hexec : ∀ u : State, u.cfg = s.cfg → exec i u = runCommand i u (windowDecode u a n dec)) (hs : s.fault = 0)
    (hlt : ∀ w, w.length = n → ∀ p ∈ (dec w).positions, p < n) (hdec : SettlesWindows n dec)
    (h : exec i s = .next t) (ht : t.fault = 0) (hst : t.status = DecodeStatus.code .corrected) : t.findsNoError i := by
  obtain ⟨hfit, rfl⟩ := windowDecode_cases (runCommand_effect hs ((hexec s rfl).symm.trans h) ht)
  have hw := s.length_window a n
  have hclean := hdec _ hw (DecodeStatus.code_injective hst)
  refine State.findsNoError_of_clean (place := (a + ·)) ?_
  rw [hexec (s.applyRepair _ _) rfl, windowDecode_eq, State.applyRepair_cfg, if_pos hfit, runCommand_ok ht,
    s.window_applyRepair (hlt _ hw), hclean]

/-- A decoder of a scattered window, run again. -/
theorem findsNoError_of_scatteredDecode {l : List Nat} {dec : List Bool → Repair}
    (hexec : ∀ u : State, u.cfg = s.cfg → u.idx = s.idx → exec i u = runCommand i u (scatteredDecode u l dec))
    (hs : s.fault = 0) (hlt : ∀ w, w.length = l.length → ∀ p ∈ (dec w).positions, p < l.length)
    (hdec : SettlesWindows l.length dec) (h : exec i s = .next t) (ht : t.fault = 0)
    (hst : t.status = DecodeStatus.code .corrected) : t.findsNoError i := by
  obtain ⟨hin, hl, rfl⟩ := scatteredDecode_cases (runCommand_effect hs ((hexec s rfl rfl).symm.trans h) ht)
  have hw : (l.map fun p => s.buf.read p).length = l.length := by simp
  have hclean := hdec _ hw (DecodeStatus.code_injective hst)
  refine State.findsNoError_of_clean (place := fun j => l.getD j 0) ?_
  rw [hexec (s.applyRepair _ _) rfl rfl, scatteredDecode_ok (s := s.applyRepair _ _) _ hin hl, runCommand_ok ht,
    s.scattered_applyRepair hl (hlt _ hw), hclean]

/-- Settles O59, decoder by decoder: each one finds no error in a window it has corrected. -/
theorem redecodeGivesNoError : Obligations.RedecodeGivesNoError := by
  intro s t i hcfg hs hdec h ht hst
  change t.findsNoError i
  have hcyc := Config.golayCyclic_of_wf hcfg
  have hpoly := Config.golayPoly_lt hcfg
  cases i with
  | hamdec x a =>
    obtain ⟨code, hcode, -⟩ := withHamCode_cases (runCommand_effect hs h ht)
    obtain ⟨hk, -⟩ := Config.hamCode_sizes hcode
    exact findsNoError_of_windowDecode (a := a.toNat) (n := code.n) (dec := hamCore code)
      (fun u hu => by simp [exec, execHamdec, withHamCode, hu, hcode]) hs (fun w _ => hamCore_positions_lt hk w)
      (hamCore_settles hk) h ht hst
  | hamdecx x =>
    obtain ⟨code, hcode, -⟩ := withHamCode_cases (runCommand_effect hs h ht)
    obtain ⟨hk, -⟩ := Config.hamCode_sizes hcode
    have hn := s.length_scattered code.n
    refine findsNoError_of_scatteredDecode (l := s.scattered code.n) (dec := hamCore code)
      (fun u hu hidx => by simp [exec, execHamdecx, withHamCode, hu, hcode, State.scattered, hidx]) hs ?_ ?_ h ht hst
    · rw [hn]
      exact fun w _ => hamCore_positions_lt hk w
    · rw [hn]
      exact hamCore_settles hk
  | gol23 a =>
    exact findsNoError_of_windowDecode (fun u hu => by rw [← hu]; rfl) hs (fun w _ => golay23_positions_lt _ w)
      (golay23Decode_settles hcyc hpoly) h ht hst
  | gol24 a =>
    exact findsNoError_of_windowDecode (fun u hu => by rw [← hu]; rfl) hs (fun w _ => golay24_positions_lt _ w)
      (golay24Decode_settles hcyc hpoly) h ht hst
  | gol18 a =>
    exact findsNoError_of_windowDecode (fun u hu => by rw [← hu]; rfl) hs (fun w _ => golay18_positions_lt _ w)
      (golay18Decode_settles hcyc hpoly) h ht hst
  | crcchk c a inbound =>
    obtain ⟨⟨mode, code, acceptInverted⟩, hslot, rfl⟩ := hdec
    exact findsNoError_of_windowDecode (a := a.toNat) (n := code.msgLen + code.crcLen)
      (dec := crcGeneric code acceptInverted (inbound == 1))
      (fun u hu => by simp only [exec, execCrcchk, hu, hslot]; rfl) hs
      (fun w _ => (crcGeneric_conforms (midway := False) code _ _ w).inWindow) (crcGeneric_settles code _ _) h ht hst
  | crc16 a m =>
    obtain ⟨hm, -⟩ := check_ok (runCommand_effect hs h ht)
    exact findsNoError_of_windowDecode (a := a.toNat) (n := m.toNat + 16)
      (dec := crcGeneric (crc16Code m.toNat) false false) (fun u hu => by simp only [exec, execCrc16, if_neg hm]) hs
      (fun w _ => (crcGeneric_conforms (midway := False) (crc16Code m.toNat) _ _ w).inWindow)
      (crcGeneric_settles (crc16Code m.toNat) _ _) h ht hst
  | _ => cases hdec

end Sys2Proof.Machine
end

section
/-! The field behind a slot (R170 to R182): the integers below 2^m with the exclusive OR and the table product are a field, and
`GfSlot.Model` says what a map into a field has to keep for the solver's polynomials to be polynomials over it. -/

namespace Sys2Proof

namespace GfSlot

variable {g : GfSlot}

/-! The table operations in terms of powers of α. -/

theorem alphaPower_lt_size (h : g.wf = true) (i : Nat) : g.alphaPower i < g.size := by
  obtain ⟨hm, -, hb, hp, -, -⟩ := wf_iff.1 h
  exact alphaPower_lt (by omega) hb hp i

theorem order_pos (h : g.wf = true) : 0 < g.order := by
  obtain ⟨hm, -⟩ := wf_iff.1 h
  have := m_le_order (g := g)
  omega

theorem alphaPower_ne_zero (h : g.wf = true) (i : Nat) : g.alphaPower i ≠ 0 := by
  obtain ⟨hm, -, hb, hp, -, hz⟩ := wf_iff.1 h
  have hi : i % g.order < g.powers.length := by
    rw [length_powers (by omega)]
    exact Nat.mod_lt _ (order_pos h)
  rw [← alphaPower_mod h, ← getElem_powers (by omega) hb hp _ hi]
  exact fun hzero => hz (hzero ▸ List.getElem_mem hi)

theorem log_alphaPower_mod (h : g.wf = true) (i : Nat) : g.log (g.alphaPower i) = i % g.order := by
  rw [← alphaPower_mod h, log_alphaPower h (Nat.mod_lt _ (order_pos h))]

/-- Every nonzero element is a power of α (R172). -/
theorem exists_alphaPower (h : g.wf = true) {v : Nat} (h₀ : v ≠ 0) (hv : v < g.size) : ∃ i, v = g.alphaPower i :=
  ⟨g.log v, (alphaPower_log h h₀ hv).symm⟩

theorem alphaPower_injOn (h : g.wf = true) {i j : Nat} (hi : i < g.order) (hj : j < g.order)
    (hij : g.alphaPower i = g.alphaPower j) : i = j := by
  rw [← log_alphaPower h hi, hij, log_alphaPower h hj]

@[simp] protected theorem zero_mul (g : GfSlot) (y : Nat) : g.mul 0 y = 0 := by simp [mul]

@[simp] protected theorem mul_zero (g : GfSlot) (x : Nat) : g.mul x 0 = 0 := by simp [mul]

protected theorem mul_comm (g : GfSlot) (x y : Nat) : g.mul x y = g.mul y x := by
  simp only [mul, or_comm (a := x = 0), add_comm (g.log x)]

/-- The product of powers of α adds the exponents (R178). -/
theorem mul_alphaPower (h : g.wf = true) (i j : Nat) : g.mul (g.alphaPower i) (g.alphaPower j) = g.alphaPower (i + j) := by
  rw [mul, if_neg (by simp [alphaPower_ne_zero h]), alpha_eq h, log_alphaPower_mod h, log_alphaPower_mod h,
    ← alphaPower_mod h (_ + _), ← Nat.add_mod, alphaPower_mod h]

theorem mul_lt_size (h : g.wf = true) (x y : Nat) : g.mul x y < g.size := by
  unfold mul
  split_ifs
  · exact Nat.two_pow_pos g.m
  · rw [alpha_eq h]
    exact alphaPower_lt_size h _

/-- A sum of products is an element. -/
theorem xorAll_mul_lt_size {α : Type} (h : g.wf = true) (l : List α) (x y : α → Nat) :
    xorAll (l.map fun a => g.mul (x a) (y a)) < g.size :=
  xorAll_lt _ g.m fun v hv => by
    obtain ⟨a, -, rfl⟩ := List.mem_map.1 hv
    exact mul_lt_size h _ _

protected theorem one_mul (h : g.wf = true) {y : Nat} (hy : y < g.size) : g.mul 1 y = y := by
  by_cases h₀ : y = 0
  · simp [h₀]
  · obtain ⟨j, rfl⟩ := exists_alphaPower h h₀ hy
    exact (mul_alphaPower h 0 j).trans (by rw [Nat.zero_add])

protected theorem mul_assoc (h : g.wf = true) {x y z : Nat} (hx : x < g.size) (hy : y < g.size) (hz : z < g.size) :
    g.mul (g.mul x y) z = g.mul x (g.mul y z) := by
  by_cases hx₀ : x = 0
  · simp [hx₀]
  by_cases hy₀ : y = 0
  · simp [hy₀]
  by_cases hz₀ : z = 0
  · simp [hz₀]
  obtain ⟨i, rfl⟩ := exists_alphaPower h hx₀ hx
  obtain ⟨j, rfl⟩ := exists_alphaPower h hy₀ hy
  obtain ⟨k, rfl⟩ := exists_alphaPower h hz₀ hz
  simp only [mul_alphaPower h, Nat.add_assoc]

theorem double_iterate_zero (g : GfSlot) (i : Nat) : g.double^[i] 0 = 0 :=
  Function.iterate_fixed (by simp [double]) i

/-- The product by a power of α is a repeated doubling (R171, R178). -/
theorem alphaPower_mul (h : g.wf = true) (i : Nat) {y : Nat} (hy : y < g.size) :
    g.mul (g.alphaPower i) y = g.double^[i] y := by
  by_cases h₀ : y = 0
  · rw [h₀, GfSlot.mul_zero, double_iterate_zero]
  · obtain ⟨j, rfl⟩ := exists_alphaPower h h₀ hy
    rw [mul_alphaPower h, Nat.add_comm, alphaPower_add]

theorem double_lt_size (h : g.wf = true) {v : Nat} (hv : v < g.size) : g.double v < g.size := by
  obtain ⟨-, -, hb, hp, -, -⟩ := wf_iff.1 h
  exact double_lt hb hp hv

theorem double_iterate_xor (h : g.wf = true) (i : Nat) {v w : Nat} (hv : v < g.size) (hw : w < g.size) :
    g.double^[i] (v ^^^ w) = g.double^[i] v ^^^ g.double^[i] w := by
  induction i generalizing v w with
  | zero => rfl
  | succ i ih =>
    simp only [Function.iterate_succ_apply, double_xor hv hw]
    exact ih (double_lt_size h hv) (double_lt_size h hw)

theorem xor_lt_size {v w : Nat} (hv : v < g.size) (hw : w < g.size) : v ^^^ w < g.size := Nat.xor_lt_two_pow hv hw

theorem mul_xor (h : g.wf = true) {x y z : Nat} (hx : x < g.size) (hy : y < g.size) (hz : z < g.size) :
    g.mul x (y ^^^ z) = g.mul x y ^^^ g.mul x z := by
  by_cases hx₀ : x = 0
  · simp [hx₀]
  · obtain ⟨i, rfl⟩ := exists_alphaPower h hx₀ hx
    rw [alphaPower_mul h i (xor_lt_size hy hz), alphaPower_mul h i hy, alphaPower_mul h i hz, double_iterate_xor h i hy hz]

theorem inv_lt_size (h : g.wf = true) (x : Nat) : g.inv x < g.size := by
  rw [inv, alpha_eq h]
  exact alphaPower_lt_size h _

/-- The solver's inverse is one (R218). -/
protected theorem mul_inv_self (h : g.wf = true) {x : Nat} (h₀ : x ≠ 0) (hx : x < g.size) : g.mul x (g.inv x) = 1 := by
  have hlog := log_lt h h₀ hx
  calc g.mul x (g.inv x)
      = g.mul (g.alphaPower (g.log x)) (g.alphaPower (g.order - g.log x)) := by rw [alphaPower_log h h₀ hx, inv, alpha_eq h]
    _ = g.alphaPower g.order := by rw [mul_alphaPower h, Nat.add_sub_cancel' hlog.le]
    _ = 1 := alphaPower_order h

theorem one_lt_size (h : g.wf = true) : 1 < g.size := by
  obtain ⟨hm, -⟩ := wf_iff.1 h
  exact Nat.one_lt_two_pow (by omega)

/-! The field. -/

/-- An element of the field: an integer below 2^m (R170). -/
@[ext] structure Elem (g : GfSlot) where
  val : Nat
  lt : val < g.size

/-- The element an integer stands for. -/
def elem (g : GfSlot) (v : Nat) : g.Elem := if hv : v < g.size then ⟨v, hv⟩ else ⟨0, Nat.two_pow_pos g.m⟩

theorem elem_of_lt {v : Nat} (hv : v < g.size) : g.elem v = ⟨v, hv⟩ := dif_pos hv

/-- The sum of R180. -/
def Elem.add (x y : g.Elem) : g.Elem := ⟨x.val ^^^ y.val, xor_lt_size x.lt y.lt⟩

/-- The product of R178. -/
def Elem.mul (h : g.wf = true) (x y : g.Elem) : g.Elem := ⟨g.mul x.val y.val, mul_lt_size h _ _⟩

/-- The inverse of R218, and 0 for 0. -/
def Elem.inv (h : g.wf = true) (x : g.Elem) : g.Elem :=
  if x.val = 0 then ⟨0, Nat.two_pow_pos g.m⟩ else ⟨g.inv x.val, inv_lt_size h _⟩

/-- The elements of a well-formed slot are a field. -/
@[reducible] noncomputable def field (h : g.wf = true) : Field g.Elem :=
  @Field.ofMinimalAxioms g.Elem ⟨Elem.add⟩ ⟨Elem.mul h⟩ ⟨id⟩ ⟨Elem.inv h⟩ ⟨⟨0, Nat.two_pow_pos g.m⟩⟩ ⟨⟨1, one_lt_size h⟩⟩
    (fun _ _ _ => Elem.ext (Nat.xor_assoc _ _ _))
    (fun _ => Elem.ext (Nat.zero_xor _))
    (fun _ => Elem.ext (Nat.xor_self _))
    (fun x y z => Elem.ext (GfSlot.mul_assoc h x.lt y.lt z.lt))
    (fun _ _ => Elem.ext (GfSlot.mul_comm g _ _))
    (fun x => Elem.ext (GfSlot.one_mul h x.lt))
    (fun x hx => by
      have h₀ : x.val ≠ 0 := fun hval => hx (Elem.ext hval)
      refine Elem.ext ?_
      change g.mul x.val (Elem.inv h x).val = 1
      rw [Elem.inv, if_neg h₀]
      exact GfSlot.mul_inv_self h h₀ x.lt)
    (show Elem.inv h ⟨0, Nat.two_pow_pos g.m⟩ = ⟨0, Nat.two_pow_pos g.m⟩ from if_pos rfl)
    (fun x y z => Elem.ext (mul_xor h x.lt y.lt z.lt))
    ⟨⟨0, Nat.two_pow_pos g.m⟩, ⟨1, one_lt_size h⟩, fun he => absurd (congrArg Elem.val he) Nat.zero_ne_one⟩

/-- `φ` reads the integers below 2^m as elements of the field K: sums, products and the difference from 0 are kept. -/
structure Model (g : GfSlot) (K : Type) [Field K] (φ : Nat → K) : Prop where
  zero : φ 0 = 0
  ne_zero : ∀ v, v ≠ 0 → v < g.size → φ v ≠ 0
  xor : ∀ v w, v < g.size → w < g.size → φ (v ^^^ w) = φ v + φ w
  mul : ∀ v w, v < g.size → w < g.size → φ (g.mul v w) = φ v * φ w

theorem model_elem (h : g.wf = true) : @Model g g.Elem (g.field h) g.elem := by
  refine @Model.mk g g.Elem (g.field h) g.elem (elem_of_lt (Nat.two_pow_pos g.m)) ?_ ?_ ?_
  · intro v h₀ hv hzero
    rw [elem_of_lt hv] at hzero
    exact h₀ (congrArg Elem.val hzero)
  · intro v w hv hw
    rw [elem_of_lt hv, elem_of_lt hw, elem_of_lt (xor_lt_size hv hw)]
    rfl
  · intro v w hv hw
    rw [elem_of_lt hv, elem_of_lt hw, elem_of_lt (mul_lt_size h v w)]
    rfl

/-- Every well-formed slot has its field. -/
theorem exists_model (h : g.wf = true) : ∃ (K : Type) (_ : Field K) (φ : Nat → K), g.Model K φ :=
  ⟨g.Elem, g.field h, g.elem, model_elem h⟩

namespace Model

variable {K : Type} [Field K] {φ : Nat → K}

protected theorem one (hφ : g.Model K φ) (h : g.wf = true) : φ 1 = 1 := by
  have hsq := hφ.mul 1 1 (one_lt_size h) (one_lt_size h)
  rw [GfSlot.one_mul h (one_lt_size h)] at hsq
  exact (mul_eq_left₀ (hφ.ne_zero 1 (by decide) (one_lt_size h))).1 hsq.symm

/-- The field has characteristic 2. -/
protected theorem add_self (hφ : g.Model K φ) (h : g.wf = true) (x : K) : x + x = 0 := by
  have hone := hφ.xor 1 1 (one_lt_size h) (one_lt_size h)
  rw [Nat.xor_self, hφ.zero, hφ.one h] at hone
  rw [← two_mul, ← one_add_one_eq_two, ← hone, zero_mul]

theorem eq_zero (hφ : g.Model K φ) {v : Nat} (hv : v < g.size) (hzero : φ v = 0) : v = 0 := by
  by_contra h₀
  exact hφ.ne_zero v h₀ hv hzero

protected theorem alphaPower (hφ : g.Model K φ) (h : g.wf = true) (i : Nat) : φ (g.alphaPower i) = φ (g.alphaPower 1) ^ i := by
  induction i with
  | zero => exact (hφ.one h).trans (pow_zero _).symm
  | succ i ih =>
    rw [← mul_alphaPower h, hφ.mul _ _ (alphaPower_lt_size h _) (alphaPower_lt_size h _), ih, pow_succ]

protected theorem alpha (hφ : g.Model K φ) (h : g.wf = true) (i : Nat) : φ (g.alpha i) = φ (g.alphaPower 1) ^ i := by
  rw [alpha_eq h, hφ.alphaPower h]

protected theorem inv (hφ : g.Model K φ) (h : g.wf = true) {x : Nat} (h₀ : x ≠ 0) (hx : x < g.size) : φ (g.inv x) = (φ x)⁻¹ := by
  refine eq_inv_of_mul_eq_one_right ?_
  rw [← hφ.mul _ _ hx (inv_lt_size h x), GfSlot.mul_inv_self h h₀ hx, hφ.one h]

/-- The power of R181. -/
protected theorem pow (hφ : g.Model K φ) (h : g.wf = true) {x : Nat} (hx : x < g.size) (k : Nat) : φ (g.pow x k) = φ x ^ k := by
  unfold GfSlot.pow
  split_ifs with h₀ hk
  · rw [hk, pow_zero, hφ.one h]
  · rw [h₀, hφ.zero, zero_pow hk]
  · conv_rhs => rw [← alphaPower_log h h₀ hx]
    rw [hφ.alpha h, hφ.alphaPower h (g.log x), ← pow_mul, Nat.mul_comm]

protected theorem xorAll (hφ : g.Model K φ) {n : Nat} {f : Nat → Nat} (hf : ∀ i < n, f i < g.size) :
    φ (Sys2Proof.xorAll ((List.range n).map f)) = ∑ i ∈ Finset.range n, φ (f i) := by
  induction n with
  | zero => exact hφ.zero
  | succ n ih =>
    have hn : ∀ i < n, f i < g.size := fun i hi => hf i (by omega)
    have hsum : Sys2Proof.xorAll ((List.range n).map f) < g.size := xorAll_lt _ g.m (by simpa [size] using hn)
    rw [List.range_succ, List.map_append, xorAll_append, Finset.sum_range_succ, ← ih hn, List.map_singleton, xorAll_cons,
      xorAll_nil, Nat.xor_zero]
    exact hφ.xor _ _ hsum (hf n (by omega))

end Model

end GfSlot

end Sys2Proof
end

section
/-! The Berlekamp-Massey recursion and Forney's formula over any field (R216 to R218): what the recursion keeps, and why the error
values of a locator with as many roots as its length account for every syndrome. -/

namespace Sys2Proof

open Polynomial

variable {K : Type} [Field K]

/-! The recursion. -/

/-- What the recursion keeps after r syndromes. T is 1 + x · S(x), Λ the locator, P the prior locator shifted to where the next
correction adds it, L the register length, σ the discrepancy the prior locator left. Λ generates the syndromes from L on; P would,
but for σ in the next one. -/
structure LfsrInvariant (T : K[X]) (r : Nat) (Λ P : K[X]) (L : Nat) (σ : K) : Prop where
  len_le : L ≤ r
  scale_ne : σ ≠ 0
  const_one : Λ.coeff 0 = 1
  prior_const : P.coeff 0 = 0
  high : ∀ k, L < k → Λ.coeff k = 0
  relation : ∀ k, L < k → k ≤ r → (Λ * T).coeff k = 0
  prior_high : ∀ k, r + 1 < k + L → P.coeff k = 0
  prior_relation : ∀ k, r + 1 < k + L → k ≤ r → (P * T).coeff k = 0
  prior_scale : (P * T).coeff (r + 1) = σ

namespace LfsrInvariant

variable {T Λ P : K[X]} {r L : Nat} {σ c : K}

theorem start (hT : T.coeff 0 = 1) : LfsrInvariant T 0 1 X 0 1 where
  len_le := le_rfl
  scale_ne := one_ne_zero
  const_one := coeff_one_zero
  prior_const := coeff_X_zero
  high k hk := by rw [coeff_one, if_neg (by omega)]
  relation k hk hk' := by omega
  prior_high k hk := by rw [coeff_X, if_neg (by omega)]
  prior_relation k hk hk' := by omega
  prior_scale := by rw [coeff_X_mul, hT]

/-- The prior locator, shifted on by one, keeps its part. -/
theorem prior_shift (h : LfsrInvariant T r Λ P L σ) :
    (X * P).coeff 0 = 0 ∧ (∀ k, r + 1 + 1 < k + L → (X * P).coeff k = 0) ∧
      (∀ k, r + 1 + 1 < k + L → k ≤ r + 1 → (X * P * T).coeff k = 0) ∧ (X * P * T).coeff (r + 1 + 1) = σ := by
  have hlen := h.len_le
  refine ⟨coeff_X_mul_zero P, fun k hk => ?_, fun k hk hk' => ?_, ?_⟩
  · obtain ⟨j, rfl⟩ : ∃ j, k = j + 1 := ⟨k - 1, by omega⟩
    rw [coeff_X_mul]
    exact h.prior_high j (by omega)
  · obtain ⟨j, rfl⟩ : ∃ j, k = j + 1 := ⟨k - 1, by omega⟩
    rw [mul_assoc, coeff_X_mul]
    exact h.prior_relation j (by omega) (by omega)
  · rw [mul_assoc, coeff_X_mul]
    exact h.prior_scale

/-- A step without a discrepancy. -/
theorem skip (h : LfsrInvariant T r Λ P L σ) (hd : (Λ * T).coeff (r + 1) = 0) : LfsrInvariant T (r + 1) Λ (X * P) L σ := by
  obtain ⟨hconst, hhigh, hrel, hscale⟩ := h.prior_shift
  have hlen := h.len_le
  refine ⟨by omega, h.scale_ne, h.const_one, hconst, h.high, fun k hk hk' => ?_, hhigh, hrel, hscale⟩
  rcases Nat.lt_or_eq_of_le hk' with hlt | rfl
  · exact h.relation k hk (by omega)
  · exact hd

/-- The corrected locator generates one syndrome more, from any length on that covers both locators. -/
theorem corrected (h : LfsrInvariant T r Λ P L σ) (hc : (Λ * T).coeff (r + 1) + c * σ = 0) {M : Nat} (hM : L ≤ M)
    (hPM : r + 1 ≤ M + L) :
    (Λ + C c * P).coeff 0 = 1 ∧ (∀ k, M < k → (Λ + C c * P).coeff k = 0) ∧
      ∀ k, M < k → k ≤ r + 1 → ((Λ + C c * P) * T).coeff k = 0 := by
  refine ⟨by simp [h.const_one, h.prior_const], fun k hk => ?_, fun k hk hk' => ?_⟩
  · rw [coeff_add, coeff_C_mul, h.high k (by omega), h.prior_high k (by omega), mul_zero, add_zero]
  · rw [add_mul, mul_assoc, coeff_add, coeff_C_mul]
    rcases Nat.lt_or_eq_of_le hk' with hlt | rfl
    · rw [h.relation k (by omega) (by omega), h.prior_relation k (by omega) (by omega), mul_zero, add_zero]
    · rw [h.prior_scale, hc]

/-- A correction that keeps the register length. -/
theorem keep (h : LfsrInvariant T r Λ P L σ) (hc : (Λ * T).coeff (r + 1) + c * σ = 0) (hL : r < 2 * L) :
    LfsrInvariant T (r + 1) (Λ + C c * P) (X * P) L σ := by
  obtain ⟨hconst, hhigh, hrel, hscale⟩ := h.prior_shift
  obtain ⟨hone, hdeg, hgen⟩ := h.corrected hc le_rfl (by omega)
  have hlen := h.len_le
  exact ⟨by omega, h.scale_ne, hone, hconst, hdeg, hgen, hhigh, hrel, hscale⟩

/-- A correction that lengthens the register: the old locator becomes the prior one. -/
theorem grow (h : LfsrInvariant T r Λ P L σ) (hc : (Λ * T).coeff (r + 1) + c * σ = 0) (hd : (Λ * T).coeff (r + 1) ≠ 0)
    (hL : 2 * L ≤ r) :
    LfsrInvariant T (r + 1) (Λ + C c * P) (X * Λ) (r + 1 - L) ((Λ * T).coeff (r + 1)) := by
  obtain ⟨hone, hdeg, hgen⟩ := h.corrected hc (M := r + 1 - L) (by omega) (by omega)
  refine ⟨by omega, hd, hone, coeff_X_mul_zero Λ, hdeg, hgen, fun k hk => ?_, fun k hk hk' => ?_, ?_⟩
  · obtain ⟨j, rfl⟩ : ∃ j, k = j + 1 := ⟨k - 1, by omega⟩
    rw [coeff_X_mul]
    exact h.high j (by omega)
  · obtain ⟨j, rfl⟩ : ∃ j, k = j + 1 := ⟨k - 1, by omega⟩
    rw [mul_assoc, coeff_X_mul]
    exact h.relation j (by omega) (by omega)
  · rw [mul_assoc, coeff_X_mul]

/-- The discrepancy is what the register predicts wrongly: the coefficient of the product (R216). -/
theorem discrepancy (h : LfsrInvariant T r Λ P L σ) {S : K[X]} (hT : T = 1 + X * S) :
    (Λ * T).coeff (r + 1) = (Λ * S).coeff r := by
  have hlen := h.len_le
  rw [hT, mul_add, mul_one, coeff_add, h.high (r + 1) (by omega), zero_add, mul_left_comm, coeff_X_mul]

/-- Λ generates the syndromes from L on (R216). -/
theorem generates (h : LfsrInvariant T r Λ P L σ) {S : K[X]} (hT : T = 1 + X * S) {j : Nat} (hL : L ≤ j) (hj : j < r) :
    (Λ * S).coeff j = 0 := by
  have hrel := h.relation (j + 1) (by omega) (by omega)
  rwa [hT, mul_add, mul_one, coeff_add, h.high (j + 1) (by omega), zero_add, mul_left_comm, coeff_X_mul] at hrel

end LfsrInvariant

/-! Forney's formula. -/

section Forney

variable {Λ S Ω : K[X]} {n L : Nat}

/-- 1 / (x - a) as a power series, cut off at x^n and with its sign changed: the syndromes of one error at the root a. -/
noncomputable def geometric (a : K) (n : Nat) : K[X] := ∑ j ∈ Finset.range n, monomial j (a⁻¹ ^ (j + 1))

theorem coeff_geometric (a : K) {n j : Nat} (hj : j < n) : (geometric a n).coeff j = a⁻¹ ^ (j + 1) := by
  simp [geometric, coeff_monomial, hj]

theorem X_sub_C_mul_geometric {a : K} (ha : a ≠ 0) (n : Nat) : (X - C a) * geometric a n = C (a⁻¹ ^ n) * X ^ n - 1 := by
  induction n with
  | zero => simp [geometric]
  | succ n ih =>
    have hstep : geometric a (n + 1) = geometric a n + C (a⁻¹ ^ (n + 1)) * X ^ n := by
      rw [geometric, Finset.sum_range_succ, C_mul_X_pow_eq_monomial, geometric]
    have hinv : C a * C (a⁻¹ ^ (n + 1)) = C (a⁻¹ ^ n) := by
      rw [← C_mul, pow_succ', mul_inv_cancel_left₀ ha]
    rw [hstep, mul_add, ih, sub_mul, ← mul_assoc (C a), hinv]
    ring

/-- The quotient by a root, at another root and at the root itself. -/
theorem eval_divByMonic_root {a b : K} (hb : Λ.eval b = 0) (hab : b ≠ a) (ha : Λ.eval a = 0) :
    (Λ /ₘ (X - C a)).eval b = 0 := by
  have hprod := congrArg (eval b) (mul_divByMonic_eq_iff_isRoot.2 ha)
  rw [eval_mul, hb, eval_sub, eval_X, eval_C] at hprod
  exact (mul_eq_zero.1 hprod).resolve_left (sub_ne_zero.2 hab)

theorem eval_divByMonic_self (Λ : K[X]) (a : K) : (Λ /ₘ (X - C a)).eval a = (derivative Λ).eval a := by
  simpa using congrArg (eval a) (divByMonic_add_X_sub_C_mul_derivative_divByMonic_eq_derivative Λ a)

variable {roots : Finset Nat} {a y : Nat → K}

/-- The evaluator is the sum of the quotients by the roots, each with its error value: both have degree below L and agree at L
points (R218). -/
theorem evaluator_eq_sum (hconst : Λ.coeff 0 = 1) (hdeg : ∀ k, L < k → Λ.coeff k = 0) (hcard : roots.card = L)
    (hinj : Set.InjOn a roots) (hroot : ∀ p ∈ roots, Λ.eval (a p) = 0) (hΩ : ∀ j, L ≤ j → Ω.coeff j = 0)
    (hy : ∀ p ∈ roots, y p * (derivative Λ).eval (a p) = Ω.eval (a p)) :
    Ω = ∑ p ∈ roots, C (y p) * (Λ /ₘ (X - C (a p))) := by
  classical
  have hne : Λ ≠ 0 := fun hzero => one_ne_zero (α := K) (by rw [← hconst, hzero, coeff_zero])
  have hΛ : Λ.degree ≤ L := (degree_le_iff_coeff_zero _ _).2 fun k hk => hdeg k (by exact_mod_cast hk)
  refine eq_of_degrees_lt_of_eval_finset_eq (roots.image a) ?_ ?_ fun b hb => ?_
  · rw [Finset.card_image_of_injOn hinj, hcard]
    exact (degree_lt_iff_coeff_zero _ _).2 hΩ
  · rw [Finset.card_image_of_injOn hinj, hcard]
    refine (degree_sum_le _ _).trans_lt ((Finset.sup_lt_iff (WithBot.bot_lt_coe L)).2 fun p hp => ?_)
    calc (C (y p) * (Λ /ₘ (X - C (a p)))).degree
        ≤ (Λ /ₘ (X - C (a p))).degree := by rw [← smul_eq_C_mul]; exact degree_smul_le _ _
      _ < Λ.degree := degree_divByMonic_lt Λ _ hne (by rw [degree_X_sub_C]; exact zero_lt_one)
      _ ≤ L := hΛ
  · obtain ⟨q, hq, rfl⟩ := Finset.mem_image.1 hb
    rw [eval_finsetSum, Finset.sum_eq_single_of_mem q hq fun p hp hpq => ?_, eval_mul, eval_C,
      eval_divByMonic_self, hy q hq]
    rw [eval_mul, eval_divByMonic_root (hroot q hq) (fun hqp => hpq (hinj hp hq hqp.symm)) (hroot p hp), mul_zero]

/-- Forney: a locator with constant term 1 that generates the syndromes and has as many roots as its length accounts for every
syndrome by the error values of its roots (R216 to R218). -/
theorem forney_syndromes (hconst : Λ.coeff 0 = 1) (hdeg : ∀ k, L < k → Λ.coeff k = 0) (hcard : roots.card = L)
    (hinj : Set.InjOn a roots) (hroot : ∀ p ∈ roots, Λ.eval (a p) = 0) (hΩ : ∀ j < n, Ω.coeff j = (Λ * S).coeff j)
    (hΩhigh : ∀ j, L ≤ j → Ω.coeff j = 0) (hy : ∀ p ∈ roots, y p * (derivative Λ).eval (a p) = Ω.eval (a p)) {j : Nat}
    (hj : j < n) : S.coeff j + ∑ p ∈ roots, y p * (a p)⁻¹ ^ (j + 1) = 0 := by
  have hne : ∀ p ∈ roots, a p ≠ 0 := fun p hp hzero => by
    have := hroot p hp
    rw [hzero, ← coeff_zero_eq_eval_zero, hconst] at this
    exact one_ne_zero this
  have hcoprime : IsCoprime (X ^ n) Λ := by
    refine IsCoprime.pow_left ((irreducible_X.coprime_iff_not_dvd).2 fun hdvd => ?_)
    rw [X_dvd_iff.1 hdvd] at hconst
    exact zero_ne_one hconst
  have hquot : ∀ p ∈ roots, X ^ n ∣ Λ /ₘ (X - C (a p)) + Λ * geometric (a p) n := fun p hp => by
    have hΛ := mul_divByMonic_eq_iff_isRoot.2 (hroot p hp)
    have hgeo := X_sub_C_mul_geometric (hne p hp) n
    refine ⟨C ((a p)⁻¹ ^ n) * (Λ /ₘ (X - C (a p))), ?_⟩
    linear_combination (-geometric (a p) n) * hΛ + (Λ /ₘ (X - C (a p))) * hgeo
  have hsum : X ^ n ∣ Λ * (S + ∑ p ∈ roots, C (y p) * geometric (a p) n) := by
    have hS : X ^ n ∣ Λ * S - Ω := X_pow_dvd_iff.2 fun d hd => by rw [coeff_sub, hΩ d hd, sub_self]
    have hroots : X ^ n ∣ ∑ p ∈ roots, C (y p) * (Λ /ₘ (X - C (a p)) + Λ * geometric (a p) n) :=
      Finset.dvd_sum fun p hp => (hquot p hp).mul_left _
    have hΩeq := evaluator_eq_sum hconst hdeg hcard hinj hroot hΩhigh hy
    convert hS.add hroots using 1
    simp only [mul_add, Finset.mul_sum, Finset.sum_add_distrib, ← hΩeq, mul_left_comm Λ]
    ring
  have hzero := X_pow_dvd_iff.1 (hcoprime.dvd_of_dvd_mul_left hsum) j hj
  rw [coeff_add, finsetSum_coeff] at hzero
  rw [← hzero]
  congr 1
  exact Finset.sum_congr rfl fun p _ => by rw [coeff_C_mul, coeff_geometric _ hj]

end Forney

end Sys2Proof
end

section
/-! RSDEC decodes to a codeword (R225). The solver's coefficient lists are read as polynomials over the slot's field; there the
recursion of R216 keeps `LfsrInvariant`, and R217 and R218 give the locator's roots and error values, so that
`forney_syndromes` says that the corrections clear every syndrome. -/

namespace Sys2Proof

open Polynomial

variable {g : GfSlot} {K : Type} [Field K] {φ : Nat → K}

/-! Coefficient lists as polynomials (R182). -/

/-- The polynomial over K of a coefficient list. -/
noncomputable def listPoly (φ : Nat → K) (p : List Nat) : K[X] :=
  ∑ j ∈ Finset.range p.length, monomial j (φ (p.getD j 0))

/-- Every coefficient is an element of the field. -/
def GfSlot.elements (g : GfSlot) (p : List Nat) : Prop := ∀ k, p.getD k 0 < g.size

theorem coeff_listPoly (hφ : g.Model K φ) (p : List Nat) (k : Nat) : (listPoly φ p).coeff k = φ (p.getD k 0) := by
  simp only [listPoly, finsetSum_coeff, coeff_monomial, Finset.sum_ite_eq', Finset.mem_range]
  split_ifs with hk
  · rfl
  · rw [List.getD_eq_default _ _ (by omega), hφ.zero]

theorem getD_polyAdd (p q : List Nat) (k : Nat) : (polyAdd p q).getD k 0 = p.getD k 0 ^^^ q.getD k 0 := by
  induction p generalizing q k with
  | nil => simp [polyAdd]
  | cons a p ih =>
    cases q with
    | nil => simp [polyAdd]
    | cons b q =>
      cases k with
      | zero => simp [polyAdd]
      | succ k => simpa [polyAdd] using ih q k

theorem GfSlot.getD_polyScaleShift (g : GfSlot) (c shift : Nat) (p : List Nat) (k : Nat) :
    (g.polyScaleShift c shift p).getD k 0 = if k < shift then 0 else g.mul c (p.getD (k - shift) 0) := by
  simp only [polyScaleShift, List.getD_eq_getElem?_getD, List.getElem?_append, List.length_replicate, List.getElem?_replicate,
    List.getElem?_map]
  split_ifs
  · rfl
  · cases p[k - shift]? <;> simp

theorem GfSlot.elements_polyAdd {p q : List Nat} (hp : g.elements p) (hq : g.elements q) : g.elements (polyAdd p q) :=
  fun k => by
    rw [getD_polyAdd]
    exact xor_lt_size (hp k) (hq k)

theorem GfSlot.elements_polyScaleShift (h : g.wf = true) (c shift : Nat) (p : List Nat) :
    g.elements (g.polyScaleShift c shift p) := fun k => by
  rw [getD_polyScaleShift]
  split_ifs
  · exact Nat.two_pow_pos g.m
  · exact mul_lt_size h _ _

theorem listPoly_polyAdd (hφ : g.Model K φ) {p q : List Nat} (hp : g.elements p) (hq : g.elements q) :
    listPoly φ (polyAdd p q) = listPoly φ p + listPoly φ q := by
  ext k
  rw [coeff_add, coeff_listPoly hφ, coeff_listPoly hφ, coeff_listPoly hφ, getD_polyAdd, hφ.xor _ _ (hp k) (hq k)]

theorem listPoly_polyScaleShift (hφ : g.Model K φ) {c : Nat} (hc : c < g.size) (shift : Nat) {p : List Nat}
    (hp : g.elements p) : listPoly φ (g.polyScaleShift c shift p) = C (φ c) * (X ^ shift * listPoly φ p) := by
  ext k
  rw [coeff_C_mul, coeff_listPoly hφ, GfSlot.getD_polyScaleShift, mul_comm (X ^ shift), coeff_mul_X_pow']
  by_cases hk : k < shift
  · rw [if_pos hk, if_neg (by omega), hφ.zero, mul_zero]
  · rw [if_neg hk, if_pos (by omega), coeff_listPoly hφ, hφ.mul _ _ hc (hp _)]

theorem mapIdx_eq_map_range (p : List Nat) (f : Nat → Nat → Nat) :
    p.mapIdx f = (List.range p.length).map fun j => f j (p.getD j 0) :=
  List.ext_getElem (by simp) fun j h₁ h₂ => by simp at h₁; simp [h₁]

theorem GfSlot.pow_lt_size (h : g.wf = true) (x k : Nat) : g.pow x k < g.size := by
  unfold GfSlot.pow
  split_ifs
  · exact one_lt_size h
  · exact Nat.two_pow_pos g.m
  · rw [alpha_eq h]
    exact alphaPower_lt_size h _

theorem eval_listPoly (hφ : g.Model K φ) (h : g.wf = true) {p : List Nat} (hp : g.elements p) {y : Nat} (hy : y < g.size) :
    (listPoly φ p).eval (φ y) = φ (g.polyEval p y) := by
  rw [GfSlot.polyEval, mapIdx_eq_map_range, hφ.xorAll fun _ _ => GfSlot.mul_lt_size h _ _, listPoly, eval_finsetSum]
  refine Finset.sum_congr rfl fun j _ => ?_
  rw [eval_monomial, hφ.mul _ _ (hp j) (GfSlot.pow_lt_size h y j), hφ.pow h hy]

theorem GfSlot.polyEval_lt_size (h : g.wf = true) (p : List Nat) (y : Nat) : g.polyEval p y < g.size := by
  rw [polyEval, mapIdx_eq_map_range]
  exact xorAll_mul_lt_size h _ _ _

/-- The convolution sum is the coefficient of the product. -/
theorem coeff_listPoly_mul (hφ : g.Model K φ) {p q : List Nat} (hp : g.elements p) (hq : g.elements q) (k : Nat) :
    (listPoly φ p * listPoly φ q).coeff k =
      ∑ i ∈ Finset.range (k + 1), φ (g.mul (p.getD i 0) (q.getD (k - i) 0)) := by
  rw [coeff_mul, Finset.Nat.sum_antidiagonal_eq_sum_range_succ_mk]
  refine Finset.sum_congr rfl fun i _ => ?_
  rw [coeff_listPoly hφ, coeff_listPoly hφ, hφ.mul _ _ (hp i) (hq (k - i))]

/-! The recursion of R216 on lists. -/

/-- What the recursion keeps after r syndromes, read in the field K. -/
structure BmInvariant (g : GfSlot) (φ : Nat → K) (synd : List Nat) (r : Nat) (b : BmState) : Prop where
  locator : g.elements b.locator
  prior : g.elements b.prior
  scale : b.scale < g.size
  lfsr : LfsrInvariant (1 + X * listPoly φ synd) r (listPoly φ b.locator) (X ^ b.shift * listPoly φ b.prior) b.len (φ b.scale)

theorem GfSlot.discrepancy_lt_size (h : g.wf = true) {synd : List Nat} (hs : g.elements synd) (r : Nat) (b : BmState) :
    g.discrepancy synd r b < g.size :=
  xor_lt_size (hs r) (xorAll_mul_lt_size h _ _ _)

/-- The discrepancy is a coefficient of Λ · S (R216). -/
theorem BmInvariant.discrepancy (hφ : g.Model K φ) (h : g.wf = true) {synd : List Nat} (hs : g.elements synd) {r : Nat}
    {b : BmState} (hb : BmInvariant g φ synd r b) :
    (listPoly φ b.locator * (1 + X * listPoly φ synd)).coeff (r + 1) = φ (g.discrepancy synd r b) := by
  have hlen := hb.lfsr.len_le
  have hone : φ (b.locator.getD 0 0) = 1 := (coeff_listPoly hφ _ _).symm.trans hb.lfsr.const_one
  have hterm : ∀ i, φ (g.mul (b.locator.getD i 0) (synd.getD (r - i) 0)) =
      φ (b.locator.getD i 0) * φ (synd.getD (r - i) 0) := fun i => hφ.mul _ _ (hb.locator i) (hs _)
  have hcut : ∑ i ∈ Finset.range r, φ (g.mul (b.locator.getD (i + 1) 0) (synd.getD (r - (i + 1)) 0)) =
      ∑ i ∈ Finset.range b.len, φ (g.mul (b.locator.getD (i + 1) 0) (synd.getD (r - (i + 1)) 0)) := by
    refine (Finset.sum_subset (Finset.range_mono hlen) fun i _ hi => ?_).symm
    rw [Finset.mem_range] at hi
    rw [hterm, ← coeff_listPoly hφ, hb.lfsr.high _ (by omega), zero_mul]
  rw [hb.lfsr.discrepancy rfl, coeff_listPoly_mul hφ hb.locator hs, Finset.sum_range_succ', hcut, hterm, hone, one_mul,
    Nat.sub_zero, GfSlot.discrepancy, hφ.xor _ _ (hs r) (GfSlot.xorAll_mul_lt_size h _ _ _),
    hφ.xorAll fun _ _ => GfSlot.mul_lt_size h _ _, add_comm]

theorem BmInvariant.init (hφ : g.Model K φ) (h : g.wf = true) (synd : List Nat) : BmInvariant g φ synd 0 BmState.init := by
  have hunit : listPoly φ [1] = 1 := by simp [listPoly, hφ.one h]
  have helem : g.elements [1] := fun k => by
    rcases k with - | k
    · exact GfSlot.one_lt_size h
    · exact Nat.two_pow_pos g.m
  refine ⟨helem, helem, GfSlot.one_lt_size h, ?_⟩
  change LfsrInvariant _ 0 (listPoly φ [1]) (X ^ 1 * listPoly φ [1]) 0 (φ 1)
  rw [hunit, hφ.one h, pow_one, mul_one]
  exact LfsrInvariant.start (by simp)

theorem BmInvariant.step (hφ : g.Model K φ) (h : g.wf = true) {synd : List Nat} (hs : g.elements synd) {r : Nat}
    {b : BmState} (hb : BmInvariant g φ synd r b) : BmInvariant g φ synd (r + 1) (g.bmStep synd b r) := by
  have hd := hb.discrepancy hφ h hs
  have hdlt := GfSlot.discrepancy_lt_size h hs r b
  have hshift : X ^ (b.shift + 1) * listPoly φ b.prior = X * (X ^ b.shift * listPoly φ b.prior) := by
    rw [pow_succ', mul_assoc]
  unfold GfSlot.bmStep
  simp only
  split_ifs with hzero hlen
  · refine ⟨hb.locator, hb.prior, hb.scale, ?_⟩
    rw [hshift]
    exact hb.lfsr.skip (by rw [hd, hzero, hφ.zero])
  all_goals
    have hscale : b.scale ≠ 0 := fun h₀ => hb.lfsr.scale_ne (by rw [h₀, hφ.zero])
    have hclt := GfSlot.mul_lt_size h (g.discrepancy synd r b) (g.inv b.scale)
    have hshifted := GfSlot.elements_polyScaleShift h (g.mul (g.discrepancy synd r b) (g.inv b.scale)) b.shift b.prior
    have hclear : φ (g.discrepancy synd r b) + φ (g.mul (g.discrepancy synd r b) (g.inv b.scale)) * φ b.scale = 0 := by
      rw [hφ.mul _ _ hdlt (GfSlot.inv_lt_size h _), hφ.inv h hscale hb.scale, inv_mul_cancel_right₀ hb.lfsr.scale_ne,
        hφ.add_self h]
    have hpoly := listPoly_polyAdd hφ hb.locator hshifted
    rw [listPoly_polyScaleShift hφ hclt _ hb.prior] at hpoly
  · refine ⟨GfSlot.elements_polyAdd hb.locator hshifted, hb.locator, hdlt, ?_⟩
    rw [hpoly, pow_one, ← hd]
    exact hb.lfsr.grow (by rw [hd, hclear]) (by rw [hd]; exact hφ.ne_zero _ hzero hdlt) hlen
  · refine ⟨GfSlot.elements_polyAdd hb.locator hshifted, hb.prior, hb.scale, ?_⟩
    rw [hpoly, hshift]
    exact hb.lfsr.keep (by rw [hd, hclear]) (by omega)

theorem berlekampMassey_invariant (hφ : g.Model K φ) (h : g.wf = true) {synd : List Nat} (hs : g.elements synd) :
    BmInvariant g φ synd synd.length (g.berlekampMassey synd) := by
  have hfold : ∀ n, BmInvariant g φ synd n ((List.range n).foldl (g.bmStep synd) BmState.init) := fun n => by
    induction n with
    | zero => exact .init hφ h synd
    | succ n ih =>
      rw [List.range_succ, List.foldl_append]
      exact ih.step hφ h hs
  exact hfold synd.length

/-! The roots and the error values (R217, R218). -/

/-- The Chien search lists positions below N whose inverse locator is a root (R217). -/
theorem GfSlot.chien_root (g : GfSlot) {locator : List Nat} {p : Nat} (hp : p ∈ g.chien locator) :
    p < g.order ∧ g.polyEval locator (g.alpha ((g.order - p) % g.order)) = 0 := by
  obtain ⟨k, hk, hroot⟩ := List.mem_filterMap.1 hp
  rw [List.mem_range] at hk
  split_ifs at hroot with hzero
  cases hroot
  have hmod : (g.order - (k + 1)) % g.order = g.order - (k + 1) := Nat.mod_eq_of_lt (by omega)
  refine ⟨Nat.mod_lt _ (by omega), ?_⟩
  rw [hmod, show g.order - (g.order - (k + 1)) = k + 1 by omega]
  have hperiod : g.alpha ((k + 1) % g.order) = g.alpha (k + 1) := by rw [GfSlot.alpha, Nat.mod_mod, ← GfSlot.alpha]
  rw [hperiod, hzero]

theorem GfSlot.chien_nodup (g : GfSlot) (locator : List Nat) : (g.chien locator).Nodup :=
  (g.chien_pairwise locator).imp fun hgt => Nat.ne_of_gt hgt

/-- Distinct elements are read as distinct elements of the field. -/
theorem GfSlot.Model.injective (hφ : g.Model K φ) (h : g.wf = true) {v w : Nat} (hv : v < g.size) (hw : w < g.size)
    (hvw : φ v = φ w) : v = w := by
  have hxor := hφ.xor v w hv hw
  rw [hvw, hφ.add_self h] at hxor
  exact Nat.xor_eq_zero_iff.1 (hφ.eq_zero (GfSlot.xor_lt_size hv hw) hxor)

/-- α^((N - p) mod N) is the inverse of α^p (R217). -/
theorem GfSlot.Model.alpha_inverse (hφ : g.Model K φ) (h : g.wf = true) {p : Nat} (hp : p < g.order) :
    (φ (g.alpha ((g.order - p) % g.order)))⁻¹ = φ (g.alphaPower 1) ^ p := by
  refine inv_eq_of_mul_eq_one_right ?_
  have hperiod : φ (g.alphaPower 1) ^ g.order = 1 := by rw [← hφ.alphaPower h, GfSlot.alphaPower_order h, hφ.one h]
  rw [hφ.alpha h, ← pow_add]
  rcases Nat.eq_zero_or_pos p with rfl | hpos
  · simp
  · rw [Nat.mod_eq_of_lt (by omega), Nat.sub_add_cancel hp.le, hperiod]

theorem GfSlot.Model.alpha_injOn (hφ : g.Model K φ) (h : g.wf = true) {p q : Nat} (hp : p < g.order) (hq : q < g.order)
    (hpq : φ (g.alphaPower 1) ^ p = φ (g.alphaPower 1) ^ q) : p = q := by
  rw [← hφ.alphaPower h, ← hφ.alphaPower h] at hpq
  exact GfSlot.alphaPower_injOn h hp hq (hφ.injective h (GfSlot.alphaPower_lt_size h p) (GfSlot.alphaPower_lt_size h q) hpq)

theorem GfSlot.getD_polyMulMod (g : GfSlot) (p q : List Nat) (len k : Nat) :
    (g.polyMulMod p q len).getD k 0 =
      if k < len then xorAll ((List.range (k + 1)).map fun i => g.mul (p.getD i 0) (q.getD (k - i) 0)) else 0 := by
  by_cases hk : k < len <;> simp [polyMulMod, hk]

theorem GfSlot.elements_polyMulMod (h : g.wf = true) (p q : List Nat) (len : Nat) : g.elements (g.polyMulMod p q len) :=
  fun k => by
    rw [getD_polyMulMod]
    split_ifs
    · exact xorAll_mul_lt_size h _ _ _
    · exact Nat.two_pow_pos g.m

/-- The evaluator is Λ · S cut off (R218). -/
theorem coeff_polyMulMod (hφ : g.Model K φ) (h : g.wf = true) {p q : List Nat} (hp : g.elements p) (hq : g.elements q)
    (len k : Nat) :
    (listPoly φ (g.polyMulMod p q len)).coeff k = if k < len then (listPoly φ p * listPoly φ q).coeff k else 0 := by
  rw [coeff_listPoly hφ, GfSlot.getD_polyMulMod]
  split_ifs
  · rw [hφ.xorAll fun _ _ => GfSlot.mul_lt_size h _ _, coeff_listPoly_mul hφ hp hq]
  · exact hφ.zero

theorem getD_formalDerivative (locator : List Nat) (len k : Nat) :
    (formalDerivative locator len).getD k 0 = if k < len ∧ k % 2 = 0 then locator.getD (k + 1) 0 else 0 := by
  by_cases hk : k < len <;> simp [formalDerivative, hk]

theorem GfSlot.elements_formalDerivative {locator : List Nat} (hl : g.elements locator) (len : Nat) :
    g.elements (formalDerivative locator len) := fun k => by
  rw [getD_formalDerivative]
  split_ifs
  · exact hl _
  · exact Nat.two_pow_pos g.m

/-- In characteristic 2 the formal derivative keeps the odd coefficients (R218). -/
theorem listPoly_formalDerivative (hφ : g.Model K φ) (h : g.wf = true) {locator : List Nat} {len : Nat}
    (hhigh : ∀ k, len < k → (listPoly φ locator).coeff k = 0) :
    listPoly φ (formalDerivative locator len) = derivative (listPoly φ locator) := by
  have htwo : (2 : K) = 0 := by rw [← one_add_one_eq_two, hφ.add_self h]
  ext k
  rw [coeff_derivative, coeff_listPoly hφ, getD_formalDerivative]
  by_cases hk : k < len
  · rcases Nat.even_or_odd' k with ⟨m, rfl | rfl⟩
    · rw [if_pos ⟨hk, by omega⟩, coeff_listPoly hφ, Nat.cast_mul, Nat.cast_ofNat, htwo, zero_mul, zero_add, mul_one]
    · rw [if_neg (by omega), hφ.zero, Nat.cast_add, Nat.cast_mul, Nat.cast_ofNat, htwo, zero_mul, zero_add, Nat.cast_one,
        one_add_one_eq_two, htwo, mul_zero]
  · rw [if_neg (by omega), hφ.zero, hhigh _ (by omega), zero_mul]

theorem GfSlot.alpha_lt_size (h : g.wf = true) (k : Nat) : g.alpha k < g.size := by
  rw [alpha_eq h]
  exact alphaPower_lt_size h k

/-- An error value times the derivative is the evaluator, at the inverse locator (R218). -/
theorem errorValue_mul_derivative (hφ : g.Model K φ) (h : g.wf = true) {ev dv : List Nat} (hev : g.elements ev)
    (hdv : g.elements dv) {p y : Nat} (hy : g.errorValue ev dv p = some y) :
    y < g.size ∧
      φ y * (listPoly φ dv).eval (φ (g.alpha ((g.order - p) % g.order))) =
        (listPoly φ ev).eval (φ (g.alpha ((g.order - p) % g.order))) := by
  have ha := GfSlot.alpha_lt_size h ((g.order - p) % g.order)
  unfold GfSlot.errorValue at hy
  simp only at hy
  split_ifs at hy with hguard
  cases hy
  rw [not_or] at hguard
  obtain ⟨hden, -⟩ := hguard
  have hden_lt := GfSlot.polyEval_lt_size h dv (g.alpha ((g.order - p) % g.order))
  refine ⟨GfSlot.mul_lt_size h _ _, ?_⟩
  rw [eval_listPoly hφ h hdv ha, eval_listPoly hφ h hev ha,
    hφ.mul _ _ (GfSlot.polyEval_lt_size h _ _) (GfSlot.inv_lt_size h _), hφ.inv h hden hden_lt,
    inv_mul_cancel_right₀ (hφ.ne_zero _ hden hden_lt)]

/-! The located errors (R216 to R220). -/

theorem mapM_pair_eq_some {f : Nat → Option Nat} {l : List Nat} {es : List (Nat × Nat)}
    (h : (l.mapM fun p => (f p).map fun y => (p, y)) = some es) :
    (∀ p ∈ l, f p = some ((f p).getD 0)) ∧ es = l.map fun p => (p, (f p).getD 0) := by
  induction l generalizing es with
  | nil => simp at h; simp [h]
  | cons p l ih =>
    simp only [List.mapM_cons, Option.bind_eq_bind, Option.bind_eq_some_iff, Option.map_eq_some_iff, Option.pure_def,
      Option.some.injEq] at h
    obtain ⟨e, ⟨y, hy, rfl⟩, es, hes, rfl⟩ := h
    obtain ⟨hsome, rfl⟩ := ih hes
    simpa [hy] using hsome

/-- What R218 asks of the corrections at the positions `ps` with the values `y`: they are in the code, their values are in the
field (1 in a binary code), and they account for every syndrome. -/
structure ClearsSyndromes (g : GfSlot) (φ : Nat → K) (c : RsConfig) (synd ps : List Nat) (y : Nat → Nat) : Prop where
  nodup : ps.Nodup
  inCode : ∀ p ∈ ps, p < c.n
  value_lt : ∀ p ∈ ps, y p < g.size
  binary : c.binary = true → ∀ p ∈ ps, y p = 1
  clears : ∀ j < synd.length,
    φ (synd.getD j 0) + ∑ p ∈ ps.toFinset, φ (y p) * φ (g.alphaPower 1) ^ ((j + 1) * p) = 0

theorem locateErrors_clears (hφ : g.Model K φ) (h : g.wf = true) {c : RsConfig} {synd : List Nat} (hs : g.elements synd)
    {errors : List (Nat × Nat)} (herr : locateErrors g c synd = some errors) :
    ∃ ps y, errors = ps.map (fun p => (p, y p)) ∧ ClearsSyndromes g φ c synd ps y := by
  have hbm := berlekampMassey_invariant hφ h hs
  obtain ⟨-, -, -, hinCode, hbinary⟩ := locateErrors_spec herr
  unfold locateErrors at herr
  simp only at herr
  split_ifs at herr with hdegree hcount
  split at herr
  · cases herr
  · rename_i found hforney
    split_ifs at herr with hrange hbin
    cases herr
    set locator := (g.berlekampMassey synd).locator
    set len := (g.berlekampMassey synd).len
    obtain ⟨hvalue, rfl⟩ := mapM_pair_eq_some hforney
    set ev := g.polyMulMod locator synd synd.length
    set dv := formalDerivative locator len
    set y := fun p => (g.errorValue ev dv p).getD 0
    have hev : g.elements ev := GfSlot.elements_polyMulMod h _ _ _
    have hdv : g.elements dv := GfSlot.elements_formalDerivative hbm.locator _
    have hvals := fun p hp => errorValue_mul_derivative hφ h hev hdv (hvalue p hp)
    have hroots : ∀ p ∈ (g.chien locator).toFinset, p < g.order ∧ g.polyEval locator (g.alpha ((g.order - p) % g.order)) = 0 :=
      fun p hp => g.chien_root (List.mem_toFinset.1 hp)
    have hfound : ∀ p ∈ (g.chien locator).reverse, (p, y p) ∈ ((g.chien locator).map fun p => (p, y p)).reverse :=
      fun p hp => List.mem_reverse.2 (List.mem_map_of_mem (List.mem_reverse.1 hp))
    refine ⟨(g.chien locator).reverse, y, List.map_reverse.symm, ?_⟩
    refine ⟨List.nodup_reverse.2 (g.chien_nodup locator), ?_, fun p hp => (hvals p (List.mem_reverse.1 hp)).1, ?_, ?_⟩
    · exact fun p hp => hinCode (p, y p) (hfound p hp)
    · exact fun hb p hp => hbinary hb (p, y p) (hfound p hp)
    · intro j hj
      have hcoeff := fun k => coeff_polyMulMod hφ h hbm.locator hs synd.length k
      rw [List.toFinset_reverse]
      have hsum := forney_syndromes (Λ := listPoly φ locator) (S := listPoly φ synd) (Ω := listPoly φ ev) (L := len)
        (n := synd.length) (roots := (g.chien locator).toFinset) (a := fun p => φ (g.alpha ((g.order - p) % g.order)))
        (y := fun p => φ (y p)) hbm.lfsr.const_one hbm.lfsr.high ?_ ?_ ?_ ?_ ?_ ?_ hj
      · rw [← hsum, coeff_listPoly hφ]
        congr 1
        refine Finset.sum_congr rfl fun p hp => ?_
        rw [hφ.alpha_inverse h (hroots p hp).1, ← pow_mul, mul_comm p]
      · rw [List.toFinset_card_of_nodup (g.chien_nodup locator)]
        simpa using hcount
      · intro p hp q hq hpq
        have hinv := congrArg (·⁻¹) hpq
        simp only [hφ.alpha_inverse h (hroots p hp).1, hφ.alpha_inverse h (hroots q hq).1] at hinv
        exact hφ.alpha_injOn h (hroots p hp).1 (hroots q hq).1 hinv
      · intro p hp
        rw [eval_listPoly hφ h hbm.locator (GfSlot.alpha_lt_size h _), (hroots p hp).2, hφ.zero]
      · intro k hk
        rw [hcoeff, if_pos hk]
      · intro k hk
        rw [hcoeff]
        split_ifs with hlt
        · exact hbm.lfsr.generates rfl hk hlt
        · rfl
      · intro p hp
        rw [← listPoly_formalDerivative hφ h hbm.lfsr.high]
        exact (hvals p (List.mem_toFinset.1 hp)).2

/-! Received words (R213, R215). -/

theorem GfSlot.syndrome_map_range (g : GfSlot) (r : Nat → Nat) (n i : Nat) :
    g.syndrome ((List.range n).map r) i = g.valueAt r n i := by
  rw [syndrome, mapIdx_eq_map_range, valueAt, List.length_map, List.length_range]
  refine congrArg xorAll (List.map_congr_left fun j hj => ?_)
  rw [List.mem_range] at hj
  simp [hj]

theorem GfSlot.valueAt_lt_size (h : g.wf = true) (r : Nat → Nat) (n i : Nat) : g.valueAt r n i < g.size :=
  xorAll_mul_lt_size h _ _ _

theorem GfSlot.Model.valueAt (hφ : g.Model K φ) (h : g.wf = true) {r : Nat → Nat} {n : Nat} (hr : ∀ j < n, r j < g.size)
    (i : Nat) : φ (g.valueAt r n i) = ∑ j ∈ Finset.range n, φ (r j) * φ (g.alphaPower 1) ^ (i * j) := by
  rw [GfSlot.valueAt, hφ.xorAll fun _ _ => GfSlot.mul_lt_size h _ _]
  refine Finset.sum_congr rfl fun j hj => ?_
  rw [hφ.mul _ _ (hr j (Finset.mem_range.1 hj)) (GfSlot.alpha_lt_size h _), hφ.alpha h]

/-- The correction at position j. -/
def correctionAt (ps : List Nat) (y : Nat → Nat) (j : Nat) : Nat := if j ∈ ps then y j else 0

/-- A received word with its corrections added is a codeword (R225). -/
theorem ClearsSyndromes.valueAt_corrected (hφ : g.Model K φ) (h : g.wf = true) {c : RsConfig} {r y : Nat → Nat}
    {ps : List Nat} (hr : ∀ j < c.n, r j < g.size)
    (hps : ClearsSyndromes g φ c (g.syndromes c.nsyn ((List.range c.n).map r)) ps y) {i : Nat} (hi : 1 ≤ i)
    (hin : i ≤ c.nsyn) : g.valueAt (fun j => r j ^^^ correctionAt ps y j) c.n i = 0 := by
  have hy : ∀ j, correctionAt ps y j < g.size := fun j => by
    unfold correctionAt
    split_ifs with hj
    · exact hps.value_lt j hj
    · exact Nat.two_pow_pos g.m
  have hsynd : (g.syndromes c.nsyn ((List.range c.n).map r)).getD (i - 1) 0 = g.valueAt r c.n i := by
    simp [GfSlot.syndromes, GfSlot.syndrome_map_range, show i - 1 < c.nsyn by omega, Nat.sub_add_cancel hi]
  have hclears := hps.clears (i - 1) (by simp [GfSlot.syndromes]; omega)
  rw [hsynd, Nat.sub_add_cancel hi, hφ.valueAt h hr] at hclears
  have hcorrection : ∑ p ∈ ps.toFinset, φ (y p) * φ (g.alphaPower 1) ^ (i * p) =
      ∑ j ∈ Finset.range c.n, φ (correctionAt ps y j) * φ (g.alphaPower 1) ^ (i * j) := by
    refine Finset.sum_subset_zero_on_sdiff ?_ ?_ ?_
    · exact fun p hp => Finset.mem_range.2 (hps.inCode p (List.mem_toFinset.1 hp))
    · intro j hj
      rw [correctionAt, if_neg (by simpa using (Finset.mem_sdiff.1 hj).2), hφ.zero, zero_mul]
    · intro p hp
      rw [correctionAt, if_pos (List.mem_toFinset.1 hp)]
  refine hφ.eq_zero (GfSlot.valueAt_lt_size h _ _ _) ?_
  rw [hφ.valueAt h fun j hj => GfSlot.xor_lt_size (hr j hj) (hy j), ← hclears, hcorrection, ← Finset.sum_add_distrib]
  refine Finset.sum_congr rfl fun j hj => ?_
  rw [hφ.xor _ _ (hr j (Finset.mem_range.1 hj)) (hy j), add_mul]

end Sys2Proof

namespace Sys2Proof.Machine

variable {s t : State} {g : GfSlot} {c : RsConfig}

theorem symbolValid_iff {v : Nat} : symbolValid g c v = true ↔ v < g.size ∧ (c.binary = true → v < 2) := by
  cases hb : c.binary <;> simp [symbolValid, hb]

theorem symbolValid_received (s : State) (g : GfSlot) (c : RsConfig) (j : Nat) :
    symbolValid g c (s.received g c j) = true := by
  unfold State.received
  split_ifs with hv
  · exact hv
  · exact symbolValid_iff.2 ⟨Nat.two_pow_pos g.m, fun _ => by decide⟩

theorem workingCopy_symbols (s : State) (g : GfSlot) (c : RsConfig) (n : Nat) :
    workingCopy g c (s.symbols n) = (List.range n).map (s.received g c) := by
  simp [workingCopy, State.symbols, State.received]

/-- A corrected symbol is the working copy's with its value added, every other symbol is as before (R221). -/
theorem read_correctSymbols (m : Mem (BitVec 32)) (r : List Nat) {ps : List Nat} (y : Nat → Nat) (hps : ps.Nodup) (j : Nat) :
    (correctSymbols m r (ps.map fun p => (p, y p))).read j =
      if j ∈ ps then BitVec.ofNat 32 (r.getD j 0 ^^^ y j) else m.read j := by
  induction ps generalizing m with
  | nil => rfl
  | cons p ps ih =>
    obtain ⟨hp, hps⟩ := List.nodup_cons.1 hps
    change (correctSymbols (m.write p (BitVec.ofNat 32 (r.getD p 0 ^^^ y p))) r (ps.map fun p => (p, y p))).read j = _
    rw [ih _ hps, Mem.read_write]
    by_cases hj : j = p
    · subst hj
      simp [hp]
    · simp [hj]

/-- A corrected symbol is valid, and read back as the sum (R213, R221). -/
theorem corrected_symbol (hg : g.wf = true) {v e : Nat} (hv : symbolValid g c v = true) (he : e < g.size)
    (hbin : c.binary = true → e = 1) :
    symbolValid g c (BitVec.ofNat 32 (v ^^^ e)).toNat = true ∧ (BitVec.ofNat 32 (v ^^^ e)).toNat = v ^^^ e := by
  obtain ⟨hlt, htwo⟩ := symbolValid_iff.1 hv
  obtain ⟨-, hm, -⟩ := GfSlot.wf_iff.1 hg
  have hsum : v ^^^ e < g.size := GfSlot.xor_lt_size hlt he
  have hsize : g.size ≤ 2 ^ 8 := Nat.pow_le_pow_right (by decide) hm
  have hread : (BitVec.ofNat 32 (v ^^^ e)).toNat = v ^^^ e := by
    rw [BitVec.toNat_ofNat, Nat.mod_eq_of_lt (by omega)]
  rw [hread]
  refine ⟨symbolValid_iff.2 ⟨hsum, fun hb => ?_⟩, rfl⟩
  rw [hbin hb]
  exact Nat.xor_lt_two_pow (n := 1) (htwo hb) (by decide)

/-- RSDEC in a running block (R212). -/
theorem exec_rsdec {x : BitVec 8} (hs : s.fault = 0) (hcode : s.cfg.rsCode x.toNat = some (g, c)) :
    exec (.rsdec x) s = .next (s.applyRs g c (rsDecode s.cfg.invalidSymbols g c (s.symbols c.n))) := by
  simp only [exec, execRsdec, hcode]
  exact runCommand_ok hs _ _

/-- RSDEC ends with NO_ERROR on a codeword, under either policy (R213, R215). -/
theorem rsDecode_of_isCodeword (h : s.isCodeword g c) (hvalid : s.cfg.invalidSymbols = .ignore ∨ s.allValid g c) :
    rsDecode s.cfg.invalidSymbols g c (s.symbols c.n) = { status := .noError, errors := [] } := by
  have hzero : ∀ v ∈ g.syndromes c.nsyn (workingCopy g c (s.symbols c.n)), v = 0 := fun v hv => by
    rw [workingCopy_symbols] at hv
    obtain ⟨i, hi, rfl⟩ := List.mem_map.1 hv
    rw [GfSlot.syndrome_map_range]
    exact h (i + 1) (by omega) (by rw [List.mem_range] at hi; omega)
  rcases rsDecode_cases s.cfg.invalidSymbols g c (s.symbols c.n) with ⟨hpolicy, ⟨v, hv, hinvalid⟩, -⟩ | ⟨-, hsolve⟩
  · obtain ⟨j, hj, rfl⟩ := List.mem_map.1 hv
    have hall := hvalid.resolve_left (by rw [hpolicy]; decide) j (List.mem_range.1 hj)
    rw [hinvalid] at hall
    cases hall
  · rw [hsolve]
    rcases rsSolve_cases g c (workingCopy g c (s.symbols c.n)) with ⟨-, hr⟩ | ⟨⟨v, hv, hne⟩, -⟩
    · exact hr
    · exact absurd (hzero v hv) hne

/-- The state RSDEC leaves after CORRECTED: what each symbol is there, and that its working copy is the old one corrected. -/
theorem received_applyRs (hg : g.wf = true) (s : State) {ps : List Nat} {y : Nat → Nat} {st : DecodeStatus} (hps : ps.Nodup)
    (hin : ∀ p ∈ ps, p < c.n) (hy : ∀ p ∈ ps, y p < g.size) (hbin : c.binary = true → ∀ p ∈ ps, y p = 1) (j : Nat) :
    (s.applyRs g c ⟨st, ps.map fun p => (p, y p)⟩).received g c j = s.received g c j ^^^ correctionAt ps y j ∧
      (symbolValid g c (s.sym.read j).toNat = true →
        symbolValid g c ((s.applyRs g c ⟨st, ps.map fun p => (p, y p)⟩).sym.read j).toNat = true) := by
  have hread := read_correctSymbols s.sym (workingCopy g c (s.symbols c.n)) y hps j
  simp only [State.received, State.applyRs_sym, hread, correctionAt]
  by_cases hj : j ∈ ps
  · have hcopy : (workingCopy g c (s.symbols c.n)).getD j 0 = s.received g c j := by
      rw [workingCopy_symbols]
      simp [hin j hj]
    obtain ⟨hvalid, hsum⟩ := corrected_symbol hg (symbolValid_received s g c j) (hy j hj) fun hb => hbin hb j hj
    rw [if_pos hj, if_pos hj, hcopy, if_pos hvalid, hsum]
    exact ⟨rfl, fun _ => hsum ▸ hvalid⟩
  · rw [if_neg hj, if_neg hj, Nat.xor_zero]
    exact ⟨rfl, id⟩

/-- RSDEC answers CORRECTED only with corrections that clear every syndrome of the working copy (R213 to R220). -/
theorem rsDecode_corrected
    (h : (rsDecode s.cfg.invalidSymbols g c (s.symbols c.n)).status = .corrected) :
    (s.cfg.invalidSymbols = .ignore ∨ s.allValid g c) ∧
      ∃ errors, locateErrors g c (g.syndromes c.nsyn ((List.range c.n).map (s.received g c))) = some errors ∧
        rsDecode s.cfg.invalidSymbols g c (s.symbols c.n) = { status := .corrected, errors := errors } := by
  rcases rsDecode_cases s.cfg.invalidSymbols g c (s.symbols c.n) with ⟨-, -, hr⟩ | ⟨hpolicy, hsolve⟩
  · simp [hr] at h
  · refine ⟨hpolicy.imp_right fun hall j hj => hall _ (List.mem_map.2 ⟨j, List.mem_range.2 hj, rfl⟩), ?_⟩
    rw [hsolve] at h ⊢
    rw [← workingCopy_symbols]
    rcases rsSolve_cases g c (workingCopy g c (s.symbols c.n)) with ⟨-, hr⟩ | ⟨-, ⟨errors, hloc, hr⟩ | ⟨-, hr⟩⟩
    · simp [hr] at h
    · exact ⟨errors, hloc, hr⟩
    · simp [hr] at h

/-- After CORRECTED, SYM holds a codeword, of valid symbols where the policy asks for them (R225). -/
theorem isCodeword_of_corrected (hg : g.wf = true)
    (h : (rsDecode s.cfg.invalidSymbols g c (s.symbols c.n)).status = .corrected)
    (ht : t = s.applyRs g c (rsDecode s.cfg.invalidSymbols g c (s.symbols c.n))) :
    t.isCodeword g c ∧ (t.cfg.invalidSymbols = .ignore ∨ t.allValid g c) := by
  obtain ⟨K, _, φ, hφ⟩ := GfSlot.exists_model hg
  obtain ⟨hpolicy, errors, hloc, hdecode⟩ := rsDecode_corrected h
  have helem : g.elements (g.syndromes c.nsyn ((List.range c.n).map (s.received g c))) := fun k => by
    by_cases hk : k < c.nsyn
    · simp [GfSlot.syndromes, GfSlot.syndrome_map_range, hk, GfSlot.valueAt_lt_size hg]
    · simp [GfSlot.syndromes, hk, GfSlot.size]
  obtain ⟨ps, y, rfl, hps⟩ := locateErrors_clears hφ hg helem hloc
  rw [hdecode] at ht
  have hsym := received_applyRs hg s (st := .corrected) hps.nodup hps.inCode hps.value_lt hps.binary
  rw [← ht] at hsym
  refine ⟨fun i hi hin => ?_, ?_⟩
  · rw [show t.received g c = fun j => s.received g c j ^^^ correctionAt ps y j from funext fun j => (hsym j).1]
    exact hps.valueAt_corrected hφ hg (fun j _ => (symbolValid_iff.1 (symbolValid_received s g c j)).1) hi hin
  · have hcfg : t.cfg = s.cfg := by rw [ht, State.applyRs_cfg]
    rw [hcfg]
    exact hpolicy.imp_right fun hall j hj => (hsym j).2 (hall j hj)

/-- Settles O60: the corrections clear the syndromes, so the second RSDEC finds none. -/
theorem rsdecRedecodes : Obligations.RsdecRedecodes := by
  intro s t x g c hcfg hs hcode h hst
  have hg : g.wf = true := Config.gfSlot_wf hcfg (Config.rsCode_eq_some_iff.1 hcode).2
  cases (exec_rsdec hs hcode).symm.trans h
  obtain ⟨hword, hvalid⟩ := isCodeword_of_corrected hg (DecodeStatus.code_injective hst) rfl
  refine ⟨hword, _, exec_rsdec hs hcode, ?_⟩
  rw [rsDecode_of_isCodeword hword hvalid]
  exact ⟨⟨rfl, rfl, rfl, State.read_outcome_epos _ _ [], rfl, rfl, rfl, rfl, rfl, rfl⟩, rfl, rfl⟩

end Sys2Proof.Machine
end

section
/-! Several blocks (R86, R430): a step of the system moves one block by its own step, so steps of different blocks, and hence all
interleavings, agree. -/

namespace Sys2Proof.Machine

/-- The state a block of the system moves to; without a next state it stays. -/
def State.advance (s : State) : State :=
  match step s with
  | .next t => t
  | .fault _ => s
  | .refused _ => s

theorem System.instances_stepAt (sys : System) (k : Nat) :
    (sys.stepAt k).instances = sys.instances.modify k State.advance := by
  rw [List.modify_eq_set_getElem?]
  unfold System.stepAt
  cases hk : sys.instances[k]? with
  | none => rfl
  | some s =>
    have hstay : sys.instances = sys.instances.set k s := by
      obtain ⟨hlt, rfl⟩ := List.getElem?_eq_some_iff.1 hk
      exact (List.set_getElem_self hlt).symm
    simp only [Option.map_eq_map, Option.map_some, Option.getD_some, State.advance]
    cases step s with
    | next t => rfl
    | fault r => exact hstay
    | refused r => exact hstay

/-- Block k moves by its own step, and no other block moves (R430). -/
theorem System.getElem?_stepAt (sys : System) (j k : Nat) :
    (sys.stepAt k).instances[j]? = if k = j then sys.instances[j]?.map State.advance else sys.instances[j]? := by
  rw [sys.instances_stepAt, List.getElem?_modify]
  split_ifs <;> simp

/-- Two steps give the same system in either order. -/
theorem System.stepAt_comm (sys : System) (j k : Nat) : (sys.stepAt j).stepAt k = (sys.stepAt k).stepAt j := by
  have hinstances : ((sys.stepAt j).stepAt k).instances = ((sys.stepAt k).stepAt j).instances :=
    List.ext_getElem? fun i => by
      simp only [System.getElem?_stepAt]
      split_ifs <;> rfl
  exact congrArg System.mk hinstances

/-- Settles O19: a schedule is a fold of steps that commute. -/
theorem interleavingsAgree : Obligations.InterleavingsAgree := by
  refine ⟨fun sys j k hjk => ?_, fun sys a b hab => ?_⟩
  · rw [System.getElem?_stepAt, if_neg hjk.symm]
  · have hcomm : RightCommutative System.stepAt := ⟨System.stepAt_comm⟩
    exact hab.foldl_eq sys

end Sys2Proof.Machine
end

section
/-! Where a command raises BAD_COUNT and BUF_RANGE (R71, R420, R422). Every command is one sequence of checks: its count, the
BUF bits it would reach, and then the rest, which raises neither cause. `RangeChecks` says so, and the statement follows from it. -/

namespace Sys2Proof.Machine

variable {s : State} {i : Instr}

/-! The checks behind the count and the range. -/

/-- An effect that raises neither BAD_COUNT nor BUF_RANGE, and enters no fault where it completes. -/
structure RaisesOther (s : State) (e : Effect) : Prop where
  completes : ∀ t, e = .ok t → t.fault = s.fault
  notCount : e ≠ .error .badCount
  notRange : e ≠ .error .bufRange

theorem RaisesOther.ok {t : State} (h : t.fault = s.fault) : RaisesOther s (.ok t) :=
  ⟨fun u hu => by cases hu; exact h, by simp, by simp⟩

theorem RaisesOther.error {c : FaultCause} (hcount : c ≠ .badCount) (hrange : c ≠ .bufRange) : RaisesOther s (.error c) :=
  ⟨by simp, by simpa using hcount, by simpa using hrange⟩

theorem RaisesOther.ite {p : Prop} [Decidable p] {e e' : Effect} (h : RaisesOther s e) (h' : RaisesOther s e') :
    RaisesOther s (if p then e else e') := by
  split
  · exact h
  · exact h'

theorem RaisesOther.checkedElement {g : GfSlot} {v : BitVec 16} {e : Effect} (h : RaisesOther s e) :
    RaisesOther s (checkedElement g v e) :=
  .ite (.error (by decide) (by decide)) h

theorem RaisesOther.checkedValue {n v : Nat} {e : Effect} (h : RaisesOther s e) : RaisesOther s (checkedValue n v e) :=
  .ite (.error (by decide) (by decide)) h

theorem RaisesOther.withSlot {f : BitVec 8} {e : GfSlot → Effect} (h : ∀ g, RaisesOther s (e g)) :
    RaisesOther s (withSlot s f e) := by
  unfold Machine.withSlot
  split
  · exact .error (by decide) (by decide)
  · exact h _

/-! The sequence of checks. -/

/-- The command checks its count, then the BUF bits it reaches, then the rest. -/
def RangeChecks (s : State) (i : Instr) : Prop :=
  ∃ (bad beyond : Bool) (rest : Effect), RaisesOther s rest ∧
    exec i s = runCommand i s (if bad then .error .badCount else if beyond then .error .bufRange else rest) ∧
    (bad = true ↔ badCount i) ∧ (¬ badCount i → reachesBeyond s i → beyond = true) ∧
    (s.cfg.wf = true → ¬ badCount i → beyond = true → reachesBeyond s i)

/-- The sequence of checks as the model writes it. -/
theorem RangeChecks.of_checks {bad beyond : Prop} [Decidable bad] [Decidable beyond] {rest : Effect}
    (runs : exec i s = runCommand i s (if bad then .error .badCount else if beyond then .error .bufRange else rest))
    (hrest : RaisesOther s rest) (hbad : bad ↔ badCount i) (hreach : ¬ badCount i → reachesBeyond s i → beyond)
    (honly : s.cfg.wf = true → ¬ badCount i → beyond → reachesBeyond s i) : RangeChecks s i :=
  ⟨decide bad, decide beyond, rest, hrest, by simpa using runs, by simpa using hbad, by simpa using hreach,
    by simpa using honly⟩

/-- A command that has no count. -/
theorem RangeChecks.of_range {beyond : Prop} [Decidable beyond] {rest : Effect}
    (runs : exec i s = runCommand i s (if beyond then .error .bufRange else rest)) (hrest : RaisesOther s rest)
    (hbad : ¬ badCount i) (hreach : reachesBeyond s i → beyond) (honly : s.cfg.wf = true → beyond → reachesBeyond s i) :
    RangeChecks s i :=
  .of_checks (bad := False) (by simpa using runs) hrest (iff_of_false id hbad) (fun _ => hreach) fun hcfg _ => honly hcfg

/-- A command that has no count and reaches no BUF bit that is not there. -/
theorem RangeChecks.of_rest {rest : Effect} (runs : exec i s = runCommand i s rest) (hrest : RaisesOther s rest)
    (hbad : ¬ badCount i) (hreach : ¬ reachesBeyond s i) : RangeChecks s i :=
  .of_range (beyond := False) (by simpa using runs) hrest hbad hreach fun _ => False.elim

/-- With no fault entered so far, the command raises exactly the cause of its effect. -/
theorem raises_iff {e : Effect} {c : FaultCause} (hs : s.fault = 0) (hexec : exec i s = runCommand i s e)
    (hok : ∀ t, e = .ok t → t.fault = s.fault) : raises i s c ↔ e = .error c := by
  unfold raises
  rw [hexec]
  cases e with
  | ok t =>
    rw [runCommand_ok hs]
    refine iff_of_false (fun h => ?_) (by simp)
    cases h
    exact FaultCause.code_ne_zero c ((hok _ rfl).trans hs)
  | error d =>
    rw [runCommand_error hs]
    constructor
    · intro h
      have hfault := congrArg State.fault (Host.Outcome.next.inj h)
      rw [FaultCause.code_injective hfault]
    · intro h
      cases h
      rfl

/-- Where a command raises the two causes. -/
theorem RangeChecks.raises (h : RangeChecks s i) (hs : s.fault = 0) :
    (raises i s .badCount ↔ badCount i) ∧ (¬ badCount i → reachesBeyond s i → raises i s .bufRange) ∧
      (s.cfg.wf = true → raises i s .bufRange → ¬ badCount i ∧ reachesBeyond s i) := by
  obtain ⟨bad, beyond, rest, hrest, hexec, hbad, hreach, honly⟩ := h
  have hok : ∀ t, (if bad then .error .badCount else if beyond then .error .bufRange else rest : Effect) = .ok t →
      t.fault = s.fault := fun t ht => by
    split_ifs at ht
    exact hrest.completes t ht
  rw [raises_iff hs hexec hok, raises_iff hs hexec hok]
  cases bad with
  | true =>
    have hcount := hbad.1 rfl
    simp [hcount]
  | false =>
    have hcount : ¬ badCount i := fun hc => by cases hbad.2 hc
    cases beyond with
    | true => simpa [hcount] using fun hcfg => honly hcfg hcount rfl
    | false =>
      have hnone : ¬ reachesBeyond s i := fun hr => by cases hreach hcount hr
      simp [hcount, hnone, hrest.notCount, hrest.notRange]

/-! Commands whose BUF bits are a run. -/

/-- A command other than BNEXT reaches beyond BUF where the last bit of its run does. -/
theorem reachesBeyond_iff_of_run {a n : Nat}
    (hrun : ∀ p, (.buf p ∈ cellsRead s i ∨ p ∈ bufWindow s i) ↔ a ≤ p ∧ p < a + n) (hi : ∀ f, i ≠ .bnext f) :
    reachesBeyond s i ↔ 0 < n ∧ s.cfg.bufLen < a + n := by
  unfold reachesBeyond
  simp only [hrun]
  constructor
  · rintro (⟨p, hp, hbeyond⟩ | ⟨f, hf, -⟩)
    · omega
    · exact absurd hf (hi f)
  · exact fun ⟨hn, hbeyond⟩ => .inl ⟨a + n - 1, by omega, by omega⟩

/-- BGET, BSET, BCLR and BFLIP (R140 to R143). -/
theorem RangeChecks.of_bit {a : BitVec 16} {rest : Effect}
    (runs : exec i s = runCommand i s (if s.cfg.bufLen ≤ a.toNat then .error .bufRange else rest))
    (hrest : RaisesOther s rest) (hbad : ¬ badCount i)
    (hrun : ∀ p, (.buf p ∈ cellsRead s i ∨ p ∈ bufWindow s i) ↔ p = a.toNat) (hi : ∀ f, i ≠ .bnext f) : RangeChecks s i := by
  have hreach := reachesBeyond_iff_of_run (a := a.toNat) (n := 1) (fun p => (hrun p).trans (by omega)) hi
  exact .of_range runs hrest hbad (fun h => by have := hreach.1 h; omega) fun _ h => hreach.2 ⟨Nat.one_pos, Nat.lt_succ_of_le h⟩

theorem checkedRun_eq (s : State) (a n : Nat) (e : Effect) :
    checkedRun s a n e =
      if n = 0 ∨ 32 < n then .error .badCount else if s.cfg.bufLen < a + n then .error .bufRange else e := by
  by_cases hfit : a + n ≤ s.cfg.bufLen
  · simp [checkedRun, State.fits, hfit, Nat.not_lt.2 hfit]
  · simp [checkedRun, State.fits, hfit, Nat.not_le.1 hfit]

/-- BREAD, BWRITE and BXOR (R144 to R146). -/
theorem RangeChecks.of_checkedRun {a : BitVec 16} {n : BitVec 8} {rest : Effect}
    (runs : exec i s = runCommand i s (checkedRun s a.toNat n.toNat rest)) (hrest : RaisesOther s rest)
    (hbad : badCount i ↔ n.toNat = 0 ∨ 32 < n.toNat)
    (hrun : ∀ p, (.buf p ∈ cellsRead s i ∨ p ∈ bufWindow s i) ↔ a.toNat ≤ p ∧ p < a.toNat + n.toNat)
    (hi : ∀ f, i ≠ .bnext f) : RangeChecks s i := by
  have hreach := reachesBeyond_iff_of_run hrun hi
  rw [checkedRun_eq] at runs
  refine .of_checks runs hrest hbad.symm (fun _ h => (hreach.1 h).2) fun _ hcount h => hreach.2 ⟨?_, h⟩
  rw [hbad] at hcount
  omega

/-- BROTL and BROTR (R147, R148). -/
theorem RangeChecks.of_checkedRange {a : BitVec 16} {e : BitVec 32} {rest : Effect}
    (runs : exec i s = runCommand i s (checkedRange s a.toNat e.toNat rest)) (hrest : RaisesOther s rest)
    (hbad : badCount i ↔ e.toNat < a.toNat)
    (hrun : ∀ p, (.buf p ∈ cellsRead s i ∨ p ∈ bufWindow s i) ↔ a.toNat ≤ p ∧ p < a.toNat + (e.toNat - a.toNat + 1))
    (hi : ∀ f, i ≠ .bnext f) : RangeChecks s i := by
  have hreach := reachesBeyond_iff_of_run hrun hi
  refine .of_checks runs hrest hbad.symm (fun hcount h => ?_) fun _ hcount h => hreach.2 ⟨Nat.succ_pos _, ?_⟩
  · have hlast := (hreach.1 h).2
    rw [hbad] at hcount
    omega
  · rw [hbad] at hcount
    omega

theorem raisesOther_applyRepair (s : State) (place : Nat → Nat) (r : Repair) :
    RaisesOther s (.ok (s.applyRepair place r)) := .ok rfl

/-- The decoders of a contiguous window, which has a bit wherever the configuration is well formed (R71). -/
theorem RangeChecks.of_windowDecode {a : BitVec 16} {n : Nat} {dec : List Bool → Repair}
    (runs : exec i s = runCommand i s (windowDecode s a.toNat n dec)) (hbad : ¬ badCount i) (hn : s.cfg.wf = true → 0 < n)
    (hrun : ∀ p, (.buf p ∈ cellsRead s i ∨ p ∈ bufWindow s i) ↔ a.toNat ≤ p ∧ p < a.toNat + n)
    (hi : ∀ f, i ≠ .bnext f) : RangeChecks s i := by
  have hreach := reachesBeyond_iff_of_run hrun hi
  rw [windowDecode_eq, ← ite_not] at runs
  exact .of_range runs (raisesOther_applyRepair s _ _) hbad (fun h => Nat.not_le.2 (hreach.1 h).2)
    fun hcfg h => hreach.2 ⟨hn hcfg, Nat.not_le.1 h⟩

/-- HAMDECX (R260): the range of its scattered window comes before the duplicates. -/
theorem rangeChecks_hamdecx {x : BitVec 8} {code : HamCode} (hcode : s.cfg.hamCode x.toNat = some code) :
    RangeChecks s (.hamdecx x) := by
  have hwindow : bufWindow s (.hamdecx x) = s.scattered code.n := by simp [bufWindow, hcode]
  have hreach : reachesBeyond s (.hamdecx x) ↔
      (s.scattered code.n).any (fun p => decide (s.cfg.bufLen ≤ p)) = true := by
    simp [reachesBeyond, cellsRead, hwindow]
  have hexec : exec (.hamdecx x) s =
      runCommand (.hamdecx x) s (scatteredDecode s (s.scattered code.n) (hamCore code)) := by
    simp only [exec, execHamdecx, withHamCode, hcode]
  exact .of_range hexec (.ite (.error (by decide) (by decide)) (raisesOther_applyRepair s _ _)) id hreach.1 fun _ => hreach.2

/-- BNEXT (R150) may start at BUF_LEN. -/
theorem rangeChecks_bnext (s : State) (f : BitVec 16) : RangeChecks s (.bnext f) := by
  have hreach : reachesBeyond s (.bnext f) ↔ s.cfg.bufLen < f.toNat := by
    simp only [reachesBeyond, cellsRead, bufWindow, List.mem_map, List.mem_range'_1, Cell.buf.injEq, List.not_mem_nil,
      or_false, Instr.bnext.injEq]
    constructor
    · rintro (⟨p, ⟨q, hq, rfl⟩, hp⟩ | ⟨f', rfl, h⟩)
      · omega
      · exact h
    · exact fun h => .inr ⟨f, rfl, h⟩
  refine .of_range rfl ?_ id hreach.1 fun _ => hreach.2
  split <;> exact .ok rfl

/-- Settles O21: each command is a sequence of checks with its count and its BUF bits in front. -/
theorem beyondBufferFaults : Obligations.BeyondBufferFaults := by
  intro s i hs hsel
  suffices RangeChecks s i from this.raises hs
  cases i with
  | nop => exact .of_rest rfl (.ok rfl) id (by simp [reachesBeyond, cellsRead, bufWindow])
  | bget a => exact .of_bit rfl (.ok rfl) id (by simp [cellsRead, bufWindow]) (by simp)
  | bset a => exact .of_bit rfl (.ok rfl) id (by simp [cellsRead, bufWindow]) (by simp)
  | bclr a => exact .of_bit rfl (.ok rfl) id (by simp [cellsRead, bufWindow]) (by simp)
  | bflip a => exact .of_bit rfl (.ok rfl) id (by simp [cellsRead, bufWindow]) (by simp)
  | bread a n => exact .of_checkedRun rfl (.ok rfl) Iff.rfl (by simp [cellsRead, bufWindow, List.mem_range'_1]) (by simp)
  | bwrite a n v =>
    exact .of_checkedRun rfl (.checkedValue (.ok rfl)) Iff.rfl (by simp [cellsRead, bufWindow, List.mem_range'_1]) (by simp)
  | bxor a n v =>
    exact .of_checkedRun rfl (.checkedValue (.ok rfl)) Iff.rfl (by simp [cellsRead, bufWindow, List.mem_range'_1]) (by simp)
  | brotl a e => exact .of_checkedRange rfl (.ok rfl) Iff.rfl (by simp [cellsRead, bufWindow, List.mem_range'_1]) (by simp)
  | brotr a e => exact .of_checkedRange rfl (.ok rfl) Iff.rfl (by simp [cellsRead, bufWindow, List.mem_range'_1]) (by simp)
  | bpopc =>
    have hexec := show exec .bpopc s = runCommand .bpopc s (.ok (s.setResNat _)) by rw [exec, execBpopc]
    exact .of_rest hexec (.ok rfl) id (by simp [reachesBeyond, cellsRead, bufWindow])
  | bnext f => exact rangeChecks_bnext s f
  | symwr j v =>
    exact .of_rest rfl (.ite (.error (by decide) (by decide)) (.ok rfl)) id (by simp [reachesBeyond, cellsRead, bufWindow])
  | symrd j =>
    exact .of_rest rfl (.ite (.error (by decide) (by decide)) (.ok rfl)) id (by simp [reachesBeyond, cellsRead, bufWindow])
  | idxwr j v =>
    exact .of_rest rfl (.ite (.error (by decide) (by decide)) (.ok rfl)) id (by simp [reachesBeyond, cellsRead, bufWindow])
  | idxrd j =>
    exact .of_rest rfl (.ite (.error (by decide) (by decide)) (.ok rfl)) id (by simp [reachesBeyond, cellsRead, bufWindow])
  | eposrd j =>
    exact .of_rest rfl (.ite (.error (by decide) (by decide)) (.ok rfl)) id (by simp [reachesBeyond, cellsRead, bufWindow])
  | gfexp f k =>
    exact .of_rest rfl (.withSlot fun g => .checkedElement (.ok rfl)) id (by simp [reachesBeyond, cellsRead, bufWindow])
  | gflog f v =>
    exact .of_rest rfl (.withSlot fun g => .checkedElement (.ok rfl)) id (by simp [reachesBeyond, cellsRead, bufWindow])
  | gfmul f x y =>
    exact .of_rest rfl (.withSlot fun g => .checkedElement (.checkedElement (.ok rfl))) id
      (by simp [reachesBeyond, cellsRead, bufWindow])
  | gfinv f x =>
    exact .of_rest rfl (.withSlot fun g => .checkedElement (.ite (.error (by decide) (by decide)) (.ok rfl))) id
      (by simp [reachesBeyond, cellsRead, bufWindow])
  | gfadd f x y =>
    exact .of_rest rfl (.withSlot fun g => .checkedElement (.checkedElement (.ok rfl))) id
      (by simp [reachesBeyond, cellsRead, bufWindow])
  | rsdec x =>
    obtain ⟨⟨g, code⟩, hcode⟩ := Option.isSome_iff_exists.1 hsel
    refine .of_rest (rest := .ok (s.applyRs g code (rsDecode s.cfg.invalidSymbols g code (s.symbols code.n)))) ?_ (.ok rfl) id
      (by simp [reachesBeyond, cellsRead, bufWindow])
    simp only [exec, execRsdec, hcode]
  | hamdec x a =>
    obtain ⟨code, hcode⟩ := Option.isSome_iff_exists.1 hsel
    exact .of_windowDecode (a := a) (dec := hamCore code) (by simp only [exec, execHamdec, withHamCode, hcode]) id
      (fun _ => (Config.hamCode_sizes hcode).2) (by simp [cellsRead, bufWindow, hcode, List.mem_range'_1]) (by simp)
  | hamdecx x =>
    obtain ⟨code, hcode⟩ := Option.isSome_iff_exists.1 hsel
    exact rangeChecks_hamdecx hcode
  | gol23 a =>
    exact .of_windowDecode rfl id (fun _ => by decide) (by simp [cellsRead, bufWindow, List.mem_range'_1]) (by simp)
  | gol24 a =>
    exact .of_windowDecode rfl id (fun _ => by decide) (by simp [cellsRead, bufWindow, List.mem_range'_1]) (by simp)
  | gol18 a =>
    exact .of_windowDecode rfl id (fun _ => by decide) (by simp [cellsRead, bufWindow, List.mem_range'_1]) (by simp)
  | bptc a =>
    exact .of_windowDecode rfl id (fun _ => by decide) (by simp [cellsRead, bufWindow, List.mem_range'_1]) (by simp)
  | crcchk x a inbound =>
    obtain ⟨slot, hslot⟩ := Option.isSome_iff_exists.1 hsel
    exact .of_windowDecode (a := a) (dec := slot.run (inbound == 1)) (by simp only [exec, execCrcchk, hslot]) id
      (fun hcfg => CrcSlot.frameLen_pos (Config.crcSlot_wf hcfg hslot))
      (by simp [cellsRead, bufWindow, hslot, List.mem_range'_1]) (by simp)
  | crc16 a m =>
    have hreach := reachesBeyond_iff_of_run (s := s) (i := .crc16 a m) (a := a.toNat) (n := m.toNat + 16)
      (by simp [cellsRead, bufWindow, List.mem_range'_1]) (by simp)
    have hexec : exec (.crc16 a m) s = runCommand (.crc16 a m) s (if m = 0 then .error .badCount
        else windowDecode s a.toNat (m.toNat + 16) (crcGeneric (crc16Code m.toNat) false false)) := rfl
    rw [windowDecode_eq, ← ite_not (a.toNat + _ ≤ _)] at hexec
    exact .of_checks hexec (raisesOther_applyRepair s _ _) (BitVec.toNat_eq (y := 0)) (fun _ h => Nat.not_le.2 (hreach.1 h).2)
      fun _ _ h => hreach.2 ⟨by omega, Nat.not_le.1 h⟩

end Sys2Proof.Machine
end

section
/-! The bit-buffer commands one after another (R77, R157). -/

namespace Sys2Proof.Machine

variable {s : State}

/-! What each command does where its checks pass. -/

theorem exec_bset_ok (hs : s.fault = 0) {i : BitVec 16} (hi : i.toNat < s.cfg.bufLen) :
    exec (.bset i) s = .next (s.writeBit i.toNat true) := by
  simp only [exec, execBset, if_neg (Nat.not_le.2 hi)]
  exact runCommand_ok hs _ _

theorem exec_bflip_ok (hs : s.fault = 0) {i : BitVec 16} (hi : i.toNat < s.cfg.bufLen) :
    exec (.bflip i) s = .next { s with buf := flipBit s.buf i.toNat } := by
  simp only [exec, execBflip, if_neg (Nat.not_le.2 hi)]
  exact runCommand_ok hs _ _

theorem exec_bget_ok (hs : s.fault = 0) {i : BitVec 16} (hi : i.toNat < s.cfg.bufLen) :
    exec (.bget i) s = .next (s.setResNat (s.buf.read i.toNat).toNat) := by
  simp only [exec, execBget, if_neg (Nat.not_le.2 hi)]
  exact runCommand_ok hs _ _

theorem exec_bpopc_ok (hs : s.fault = 0) :
    exec .bpopc s = .next (s.setResNat ((List.range s.cfg.bufLen).countP fun i => s.buf.read i)) := by
  simp only [exec, execBpopc]
  exact runCommand_ok hs _ _

theorem checkedRun_ok {a n : Nat} (h₁ : 1 ≤ n) (h₃₂ : n ≤ 32) (hin : a + n ≤ s.cfg.bufLen) (e : Effect) :
    checkedRun s a n e = e := by
  have hcount : ¬ (n = 0 ∨ 32 < n) := by omega
  rw [checkedRun, if_neg hcount, if_pos ((s.fits_iff a n).2 hin)]

theorem checkedRange_ok {a b : Nat} (hab : a ≤ b) (hin : b < s.cfg.bufLen) (e : Effect) : checkedRange s a b e = e := by
  rw [checkedRange, if_neg (Nat.not_lt.2 hab), if_neg (Nat.not_le.2 hin)]

section Run

variable {a : BitVec 16} {n : BitVec 8} {v : BitVec 32}

theorem exec_bread_ok (hs : s.fault = 0) (h₁ : 1 ≤ n.toNat) (h₃₂ : n.toNat ≤ 32) (hin : a.toNat + n.toNat ≤ s.cfg.bufLen) :
    exec (.bread a n) s = .next (s.setResNat (s.bufRead a.toNat n.toNat)) := by
  simp only [exec, execBread, checkedRun_ok h₁ h₃₂ hin]
  exact runCommand_ok hs _ _

theorem exec_bwrite_ok (hs : s.fault = 0) (h₁ : 1 ≤ n.toNat) (h₃₂ : n.toNat ≤ 32) (hin : a.toNat + n.toNat ≤ s.cfg.bufLen)
    (hv : v.toNat < 2 ^ n.toNat) : exec (.bwrite a n v) s = .next (s.bufWrite a.toNat n.toNat v.toNat) := by
  simp only [exec, execBwrite, checkedRun_ok h₁ h₃₂ hin, checkedValue, if_neg (Nat.not_le.2 hv)]
  exact runCommand_ok hs _ _

/-- The run XORed with a value, as BXOR writes it (R146). -/
def State.xorRun (s : State) (a n v : Nat) : State := s.writeBits a (List.zipWith xor (s.window a n) (natToBits n v))

theorem exec_bxor_ok (hs : s.fault = 0) (h₁ : 1 ≤ n.toNat) (h₃₂ : n.toNat ≤ 32) (hin : a.toNat + n.toNat ≤ s.cfg.bufLen)
    (hv : v.toNat < 2 ^ n.toNat) : exec (.bxor a n v) s = .next (s.xorRun a.toNat n.toNat v.toNat) := by
  simp only [exec, execBxor, checkedRun_ok h₁ h₃₂ hin, checkedValue, if_neg (Nat.not_le.2 hv)]
  exact runCommand_ok hs _ _

theorem State.read_xorRun (s : State) (a n v i : Nat) :
    (s.xorRun a n v).buf.read i =
      if a ≤ i ∧ i < a + n then s.buf.read i ^^ v.testBit (n - 1 - (i - a)) else s.buf.read i := by
  have hlen : (List.zipWith xor (s.window a n) (natToBits n v)).length = n := by simp
  rw [State.xorRun, State.read_writeBits, hlen]
  split_ifs with hi
  · have hcell : a + (i - a) = i := by omega
    rw [List.getD_eq_getElem _ _ (by omega), List.getElem_zipWith, State.getElem_window, getElem_natToBits, hcell]
  · rfl

/-- BXOR twice writes every bit back (R157). -/
theorem State.read_xorRun_xorRun (s : State) (a n v i : Nat) : ((s.xorRun a n v).xorRun a n v).buf.read i = s.buf.read i := by
  rw [State.read_xorRun, State.read_xorRun]
  split_ifs
  · rw [Bool.xor_assoc, Bool.xor_self, Bool.xor_false]
  · rfl

/-- BXOR of a one bit is the flip of it (R157). -/
theorem State.xorRun_one (s : State) (a : Nat) : s.xorRun a 1 1 = { s with buf := flipBit s.buf a } := by
  have hbits : List.zipWith xor (s.window a 1) (natToBits 1 1) = [!s.buf.read a] := by
    simp [State.window, natToBits]
  rw [State.xorRun, hbits]
  rfl

/-- BREAD of the run BWRITE wrote gives the value (R77). -/
theorem State.bufRead_bufWrite (s : State) (a n : Nat) {v : Nat} (hv : v < 2 ^ n) : (s.bufWrite a n v).bufRead a n = v := by
  have hwindow : (s.bufWrite a n v).window a n = natToBits n v := by
    refine List.ext_getElem (by simp) fun j h₁ _ => ?_
    have hj : j < n := by simpa using h₁
    rw [State.getElem_window, State.read_bufWrite, if_pos (by omega), getElem_natToBits, Nat.add_sub_cancel_left]
  rw [State.bufRead, hwindow, bitsToNat_natToBits, Nat.mod_eq_of_lt hv]

/-- BGET inside the run BWRITE wrote gives the value's bit (R77). -/
theorem State.read_bufWrite_run (s : State) (a v : Nat) {n j : Nat} (hj : j < n) :
    (s.bufWrite a n v).buf.read (a + j) = v.testBit (n - 1 - j) := by
  rw [State.read_bufWrite, if_pos (by omega), Nat.add_sub_cancel_left]

end Run

/-! Rotations. -/

section Rotation

variable {a : BitVec 16} {e : BitVec 32}

theorem exec_brotl_ok (hs : s.fault = 0) (hae : a.toNat ≤ e.toNat) (hin : e.toNat < s.cfg.bufLen) :
    exec (.brotl a e) s =
      .next (s.writeBits a.toNat (rotatedLeft (s.window a.toNat (e.toNat - a.toNat + 1)))) := by
  simp only [exec, execBrotl, checkedRange_ok hae hin]
  exact runCommand_ok hs _ _

theorem exec_brotr_ok (hs : s.fault = 0) (hae : a.toNat ≤ e.toNat) (hin : e.toNat < s.cfg.bufLen) :
    exec (.brotr a e) s =
      .next (s.writeBits a.toNat (rotatedRight (s.window a.toNat (e.toNat - a.toNat + 1)))) := by
  simp only [exec, execBrotr, checkedRange_ok hae hin]
  exact runCommand_ok hs _ _

/-- A turn to the right takes a turn to the left back (R147, R148). -/
theorem rotatedRight_rotatedLeft (vs : List Bool) : rotatedRight (rotatedLeft vs) = vs := by
  refine List.ext_getElem (by simp [rotatedRight, rotatedLeft]) fun j _ hj => ?_
  have hback : ((j + (vs.length - 1)) % vs.length + 1) % vs.length = j := by
    rw [Nat.mod_add_mod, show j + (vs.length - 1) + 1 = j + vs.length by omega, Nat.add_mod_right, Nat.mod_eq_of_lt hj]
  have hmod : (j + (vs.length - 1)) % vs.length < vs.length := Nat.mod_lt _ (by omega)
  simp [rotatedRight, rotatedLeft, hmod, hback, hj]

theorem State.window_writeBits (s : State) (a : Nat) (bits : List Bool) : (s.writeBits a bits).window a bits.length = bits := by
  refine List.ext_getElem (by simp) fun j _ hj => ?_
  rw [State.getElem_window, State.read_writeBits, if_pos (by omega), Nat.add_sub_cancel_left, List.getD_eq_getElem _ _ hj]

/-- A run written, and then its first contents again, leaves BUF as it was. -/
theorem State.read_writeBits_window (s : State) (a : Nat) {n : Nat} {bits : List Bool} (hbits : bits.length = n) (i : Nat) :
    ((s.writeBits a bits).writeBits a (s.window a n)).buf.read i = s.buf.read i := by
  rw [State.read_writeBits, State.read_writeBits, State.length_window, hbits]
  split_ifs with hi
  · rw [State.getD_window _ _ _ _ (by omega), Nat.add_sub_cancel' hi.1]
  · rfl

end Rotation

/-- One bit more is set: one more is counted. -/
theorem countP_range_set {f : Nat → Bool} {n a : Nat} (ha : a < n) (hf : f a = false) :
    (List.range n).countP (fun i => if i = a then true else f i) = (List.range n).countP f + 1 := by
  induction n with
  | zero => omega
  | succ n ih =>
    simp only [List.range_succ, List.countP_append, List.countP_singleton]
    rcases Nat.lt_or_eq_of_le (Nat.le_of_lt_succ ha) with hlt | rfl
    · rw [ih hlt, if_neg hlt.ne']
      omega
    · have hsame : (List.range a).countP (fun i => if i = a then true else f i) = (List.range a).countP f :=
        List.countP_congr fun i hi => by rw [if_neg (List.mem_range.1 hi).ne]
      rw [hsame]
      simp [hf]

theorem ofNat_toNat_bool (b : Bool) : BitVec.ofNat 32 b.toNat = if b then 1 else 0 := by cases b <;> rfl

/-- Settles O29, clause by clause. -/
theorem bufferRoundTrips : Obligations.BufferRoundTrips := by
  intro s a hs
  refine ⟨fun e hae hin => ?_, fun ha => ?_, fun n v h₁ h₃₂ hin hv => ⟨?_, ?_⟩, fun ha hclear => ?_⟩
  · have hlen : (rotatedLeft (s.window a.toNat (e.toNat - a.toNat + 1))).length = e.toNat - a.toNat + 1 := by
      simp [rotatedLeft]
    refine ⟨_, _, exec_brotl_ok hs hae hin, exec_brotr_ok hs hae hin, fun i => ?_⟩
    have hwindow := s.window_writeBits a.toNat (rotatedLeft (s.window a.toNat (e.toNat - a.toNat + 1)))
    rw [hlen] at hwindow
    rw [hwindow, rotatedRight_rotatedLeft, State.read_writeBits_window _ _ hlen]
  · refine ⟨_, ?_, exec_bflip_ok hs ha⟩
    rw [exec_bxor_ok (n := 1) (v := 1) hs (by decide) (by decide) ha (by decide)]
    exact congrArg _ (s.xorRun_one a.toNat)
  · exact ⟨_, _, exec_bxor_ok hs h₁ h₃₂ hin hv, exec_bxor_ok hs h₁ h₃₂ hin hv, s.read_xorRun_xorRun _ _ _⟩
  · refine ⟨_, exec_bwrite_ok hs h₁ h₃₂ hin hv, ?_, fun k j hj hk => ?_⟩
    · rw [exec_bread_ok (s := s.bufWrite _ _ _) hs h₁ h₃₂ hin, s.bufRead_bufWrite _ _ hv, State.setResNat,
        BitVec.ofNat_toNat, BitVec.setWidth_eq]
      rfl
    · rw [exec_bget_ok (s := s.bufWrite _ _ _) hs (Nat.lt_of_lt_of_le (by omega) hin), hk, s.read_bufWrite_run _ _ hj,
        State.setResNat, ofNat_toNat_bool]
      rfl
  · refine ⟨_, _, _, exec_bset_ok hs ha, exec_bpopc_ok hs, exec_bpopc_ok hs, ?_⟩
    have hcount := countP_range_set (f := s.buf.read) ha hclear
    simp only [State.setResNat_res, State.writeBit_cfg, State.writeBit_buf, Mem.read_write, hcount, BitVec.ofNat_add]
    rfl

end Sys2Proof.Machine
end

section
/-! The command encoding (R101 to R107, R111): an instruction's row of the opcode table decides what a word with its opcode decodes
to, and the statements about the decoder and the encoder follow from that. -/

namespace Sys2Proof

/-! The fields of a word. -/

@[simp] theorem decode_assembleWord (op x : BitVec 8) (a : BitVec 16) (b : BitVec 32) :
    decode (assembleWord op x a b) = decodeFields op x a b := by
  simp [decode]

/-- Two words are equal when their four fields are (R101). -/
theorem assembleWord_inj {op x op' x' : BitVec 8} {a a' : BitVec 16} {b b' : BitVec 32} :
    assembleWord op x a b = assembleWord op' x' a' b' ↔ op = op' ∧ x = x' ∧ a = a' ∧ b = b' := by
  constructor
  · intro h
    exact ⟨by simpa using congrArg opField h, by simpa using congrArg xField h, by simpa using congrArg aField h,
      by simpa using congrArg bField h⟩
  · rintro ⟨rfl, rfl, rfl, rfl⟩
    rfl

/-- Under a mask of the bits from `start` on, a value gives zero exactly when those bits are zero. -/
theorem and_mask_eq_zero_iff {b m : BitVec 32} {start len : Nat} (hm : ∀ i < 32, m.getLsbD i = decide (start ≤ i))
    (hlen : start + len = 32) : b &&& m = 0 ↔ b.extractLsb' start len = 0 := by
  constructor
  · intro h
    apply BitVec.eq_of_getLsbD_eq
    intro i hi
    have hbit := congrArg (fun v => v.getLsbD (start + i)) h
    simpa [BitVec.getLsbD_and, hm (start + i) (by omega), hi] using hbit
  · intro h
    apply BitVec.eq_of_getLsbD_eq
    intro i hi
    rw [BitVec.getLsbD_and, hm i hi]
    by_cases hs : start ≤ i
    · have hbit := congrArg (fun v => v.getLsbD (i - start)) h
      have hin : i - start < len := by omega
      have hclear : b.getLsbD i = false := by
        simpa [BitVec.getLsbD_extractLsb', hin, Nat.add_sub_cancel' hs] using hbit
      simp [hclear]
    · simp [hs]

/-- b[31:16] is the field of `b` that a 16-bit operand reserves (R104). -/
theorem and_highMask_eq_zero_iff (b : BitVec 32) : b &&& 0xFFFF0000#32 = 0#32 ↔ bHigh b = 0#16 :=
  and_mask_eq_zero_iff (by decide) rfl

/-- b[31:1] is the field of `b` that the inbound flag reserves (R104). -/
theorem and_flagMask_eq_zero_iff (b : BitVec 32) : b &&& 0xFFFFFFFE#32 = 0#32 ↔ b.extractLsb' 1 31 = 0#31 :=
  and_mask_eq_zero_iff (by decide) rfl

/-- The inbound flag stands alone in its `b` (R104). -/
theorem flagOperand_reads (v : BitVec 1) : (0#31 ++ v).extractLsb' 1 31 = 0#31 ∧ (0#31 ++ v).extractLsb' 0 1 = v := by
  revert v
  decide

/-- `b` with b[31:1] zero is the inbound flag in b[0]. -/
theorem flagOperand_extract {b : BitVec 32} (h : b.extractLsb' 1 31 = 0#31) : 0#31 ++ b.extractLsb' 0 1 = b := by
  rw [← h]
  apply BitVec.eq_of_getLsbD_eq
  intro i hi
  rw [BitVec.getLsbD_append]
  by_cases h0 : i < 1
  · simp [h0]
  · have hin : i - 1 < 31 := by omega
    simp [h0, hin, Nat.add_sub_cancel' (Nat.le_of_not_lt h0)]

end Sys2Proof

namespace Sys2Proof.Machine

/-! Decoding what the encoder writes. -/

/-- Settles O1: the reserved fields of an encoding are zero, and each operand is read back from the field it was put in. -/
theorem decodeInvertsEncode : Obligations.DecodeInvertsEncode := by
  intro i
  cases i with
  | idxwr _ _ | gfmul _ _ _ | gfadd _ _ _ | crc16 _ _ => simp [encode, decodeFields, ifReservedZero]
  | crcchk _ _ inbound => simp [encode, decodeFields, ifReservedZero, flagOperand_reads inbound]
  | _ => rw [encode, decode_assembleWord]; rfl

/-- Settles O5: the words are the encodings of the commands. -/
theorem specWordsDecode : Obligations.SpecWordsDecode :=
  ⟨decodeInvertsEncode (.bget 2), decodeInvertsEncode (.bwrite 0 8 0xA5), decodeInvertsEncode (.idxwr 0 100),
    decodeInvertsEncode (.gfmul 1 0x53 0xCA), decodeInvertsEncode (.rsdec 4), decodeInvertsEncode (.hamdec 2 0),
    decodeInvertsEncode (.hamdecx 1), decodeInvertsEncode (.gol23 10), decodeInvertsEncode (.bptc 0),
    decodeInvertsEncode (.crcchk 0 0 0), decodeInvertsEncode (.crc16 0 64)⟩

/-! Opcodes (R103, R105). -/

theorem decodeFields_of_illegalOpcode {op : BitVec 8} (h : illegalOpcode op.toNat) (x : BitVec 8) (a : BitVec 16)
    (b : BitVec 32) : decodeFields op x a b = .error .illegalOpcode := by
  unfold illegalOpcode at h
  unfold decodeFields
  split
  case h_32 => rfl
  all_goals omega

/-- Every opcode R105 does not list is the opcode of an instruction: the one its word with zeros elsewhere decodes to. -/
theorem exists_instr_of_legalOpcode {op : BitVec 8} (h : ¬ illegalOpcode op.toNat) : ∃ i, op = opField (encode i) := by
  suffices ∃ i, decodeFields op 0 0 0 = .ok i ∧ opField (encode i) = op from
    this.imp fun _ ⟨_, hop⟩ => hop.symm
  unfold illegalOpcode at h
  unfold decodeFields
  split
  case h_32 =>
    simp only [imp_false] at *
    omega
  all_goals exact ⟨_, rfl, BitVec.eq_of_toNat_eq (by rw [‹op.toNat = _›]; rfl)⟩

/-! Rows of the opcode table (R104, R106). -/

/-- What the row of `i` says of a word: with the reserved bits zero it is the encoding of what it decodes to, and otherwise it
raises RESERVED_FIELD. -/
structure RowDecides (i : Instr) (w : CmdWord) : Prop where
  fits : w &&& (tableRow i).2 = (tableRow i).1 → ∃ j, decode w = .ok j ∧ encode j = w
  reserved : w &&& (tableRow i).2 ≠ (tableRow i).1 → decode w = .error .reservedField

/-- A row given by the masks of the bits it reserves in the fields `x`, `a` and `b`. -/
theorem RowDecides.of_masks {i j : Instr} {op x x' : BitVec 8} {a a' : BitVec 16} {b b' : BitVec 32} {zero : Bool}
    (hop : opField (encode i) = op) (hrow : tableRow i = (assembleWord op 0 0 0, assembleWord 0xFF x' a' b'))
    (hdecode : decodeFields op x a b = ifReservedZero zero j)
    (hzero : zero = true ↔ x &&& x' = 0 ∧ a &&& a' = 0 ∧ b &&& b' = 0)
    (hencode : zero = true → encode j = assembleWord op x a b) :
    RowDecides i (assembleWord (opField (encode i)) x a b) := by
  rw [hop]
  have hmask : op &&& 0xFF = op := BitVec.and_allOnes
  have hfits : assembleWord op x a b &&& (tableRow i).2 = (tableRow i).1 ↔ zero = true := by
    simp only [hrow, assembleWord_and, assembleWord_inj, hmask, hzero, true_and]
  constructor
  · intro h
    have hz := hfits.1 h
    exact ⟨j, by simp [hdecode, ifReservedZero, hz], hencode hz⟩
  · intro h
    have hz : zero = false := Bool.eq_false_iff.2 fun hz => h (hfits.2 hz)
    simp [hdecode, ifReservedZero, hz]

/-- The rows of R104, by the operands they have. -/
theorem rowDecides (i : Instr) (x : BitVec 8) (a : BitVec 16) (b : BitVec 32) :
    RowDecides i (assembleWord (opField (encode i)) x a b) := by
  cases i with
  | nop | bpopc =>
    exact .of_masks (x' := .allOnes 8) (a' := .allOnes 16) (b' := .allOnes 32) (opField_assembleWord ..) rfl rfl
      (by simp [-BitVec.reduceAllOnes, and_assoc]) (by simp +contextual [encode])
  | bget _ | bset _ | bclr _ | bflip _ | bnext _ | symrd _ | idxrd _ | eposrd _ | gol23 _ | gol24 _ | gol18 _ | bptc _ =>
    exact .of_masks (x' := .allOnes 8) (a' := 0) (b' := .allOnes 32) (opField_assembleWord ..) rfl rfl
      (by simp [-BitVec.reduceAllOnes]) (by simp +contextual [encode])
  | bread _ _ | gfexp _ _ | gflog _ _ | gfinv _ _ | hamdec _ _ =>
    exact .of_masks (x' := 0) (a' := 0) (b' := .allOnes 32) (opField_assembleWord ..) rfl rfl
      (by simp [-BitVec.reduceAllOnes]) (by simp +contextual [encode])
  | bwrite _ _ _ | bxor _ _ _ =>
    exact .of_masks (zero := true) (x' := 0) (a' := 0) (b' := 0) (opField_assembleWord ..) rfl rfl (by simp) fun _ => rfl
  | brotl _ _ | brotr _ _ | symwr _ _ =>
    exact .of_masks (x' := .allOnes 8) (a' := 0) (b' := 0) (opField_assembleWord ..) rfl rfl
      (by simp [-BitVec.reduceAllOnes]) (by simp +contextual [encode])
  | idxwr _ _ | crc16 _ _ =>
    exact .of_masks (x' := .allOnes 8) (a' := 0) (b' := 0xFFFF0000) (opField_assembleWord ..) rfl rfl
      (by simp [-BitVec.reduceAllOnes, and_highMask_eq_zero_iff]) (by simp +contextual [encode, lowOperand_bLow])
  | gfmul _ _ _ | gfadd _ _ _ =>
    exact .of_masks (x' := 0) (a' := 0) (b' := 0xFFFF0000) (opField_assembleWord ..) rfl rfl
      (by simp [and_highMask_eq_zero_iff]) (by simp +contextual [encode, lowOperand_bLow])
  | rsdec _ | hamdecx _ =>
    exact .of_masks (x' := 0) (a' := .allOnes 16) (b' := .allOnes 32) (opField_assembleWord ..) rfl rfl
      (by simp [-BitVec.reduceAllOnes]) (by simp +contextual [encode])
  | crcchk _ _ _ =>
    exact .of_masks (x' := 0) (a' := 0) (b' := 0xFFFFFFFE) (opField_assembleWord ..) rfl rfl
      (by simp [and_flagMask_eq_zero_iff]) (by simp +contextual [encode, flagOperand_extract])

/-- The row of an instruction decides every word with its opcode. -/
theorem rowDecides_of_opField {i : Instr} {w : CmdWord} (h : opField w = opField (encode i)) : RowDecides i w := by
  have hw := rowDecides i (xField w) (aField w) (bField w)
  rwa [← h, assembleWord_fields] at hw

/-- Everything decoding a word can do (R105, R106): its opcode is illegal, it is the encoding of what it decodes to, or its row
finds a reserved bit that is not zero. -/
theorem decode_cases (w : CmdWord) :
    (illegalOpcode (opField w).toNat ∧ decode w = .error .illegalOpcode) ∨
      (∃ i, decode w = .ok i ∧ encode i = w) ∨
      ∃ i, opField w = opField (encode i) ∧ w &&& (tableRow i).2 ≠ (tableRow i).1 ∧ decode w = .error .reservedField := by
  by_cases hop : illegalOpcode (opField w).toNat
  · exact .inl ⟨hop, decodeFields_of_illegalOpcode hop _ _ _⟩
  · obtain ⟨i, hi⟩ := exists_instr_of_legalOpcode hop
    have hrow := rowDecides_of_opField hi
    by_cases hbits : w &&& (tableRow i).2 = (tableRow i).1
    · exact .inr (.inl (hrow.fits hbits))
    · exact .inr (.inr ⟨i, hi, hbits, hrow.reserved hbits⟩)

/-- Settles O2: the two other cases are faults. -/
theorem encodeInvertsDecode : Obligations.EncodeInvertsDecode := by
  intro w i hi
  rcases decode_cases w with ⟨-, hdecode⟩ | ⟨j, hdecode, hword⟩ | ⟨-, -, -, hdecode⟩ <;> rw [hdecode] at hi
  · cases hi
  · cases hi
    exact hword
  · cases hi

/-! Words that are no command (R105, R106, R423). -/

/-- A running block enters the fault of a word that is no command, and nothing else changes but the host's moves. -/
theorem step_enters_fault {s : State} {w : CmdWord} {rest : List HostAction} {c : FaultCause}
    (hport : s.port = .command w :: rest) (hs : s.fault = 0) (hdecode : decode w = .error c) :
    ∃ t, step s = .next t ∧ t = { s with port := t.port, fault := c.code, fcmd := w } := by
  have hreject : step s = .next ({ s with port := rest }.enterFault c w) := by
    rw [step_reject hport hdecode, rejectWord_eq, if_pos hs]
  exact ⟨_, hreject, rfl⟩

/-- Settles O3: a word whose opcode is legal has a row, which never answers ILLEGAL_OPCODE. -/
theorem illegalOpcodeFaults : Obligations.IllegalOpcodeFaults := by
  intro w
  have hillegal : illegalOpcode (opField w).toNat → decode w = .error .illegalOpcode := fun hop =>
    decodeFields_of_illegalOpcode hop _ _ _
  refine ⟨⟨fun h => ?_, hillegal⟩, fun hop s rest hport hs => step_enters_fault hport hs (hillegal hop)⟩
  rcases decode_cases w with ⟨hop, -⟩ | ⟨j, hdecode, -⟩ | ⟨-, -, -, hdecode⟩
  · exact hop
  · simp [hdecode] at h
  · simp [hdecode] at h

/-- Settles O4: every instruction with the word's opcode has the row that decides the word. -/
theorem reservedFieldFaults : Obligations.ReservedFieldFaults := by
  intro w
  have hreserved : ∀ i, opField w = opField (encode i) → w &&& (tableRow i).2 ≠ (tableRow i).1 →
      decode w = .error .reservedField := fun i hop => (rowDecides_of_opField hop).reserved
  refine ⟨⟨fun h => ?_, fun ⟨i, hop, hbits⟩ => hreserved i hop hbits⟩,
    fun i hop hbits s rest hport hs => step_enters_fault hport hs (hreserved i hop hbits)⟩
  rcases decode_cases w with ⟨-, hdecode⟩ | ⟨j, hdecode, -⟩ | ⟨i, hop, hbits, -⟩
  · simp [hdecode] at h
  · simp [hdecode] at h
  · exact ⟨i, hop, hbits⟩

/-- Settles O6: a decoded word reaches `exec` with its move taken off the port. -/
theorem stepRunsDecoded : Obligations.StepRunsDecoded := fun _ _ _ _ hport hdecode => step_command hport hdecode

/-! Selectors (R107). -/

theorem lookupExtra_isSome {α : Type} (entries : List (Nat × α)) (x : Nat) :
    (lookupExtra entries x).isSome = true ↔ x ∈ entries.map (·.1) := by
  simp [lookupExtra, List.find?_isSome]

theorem gfSlot_isSome (c : Config) : ∀ x, (c.gfSlot x).isSome = true ↔ x < 2 ∨ x ∈ c.gfExtra.map (·.1)
  | 0 | 1 => by simp [Config.gfSlot]
  | x + 2 => by simp [Config.gfSlot, lookupExtra_isSome]

theorem rsConfig_isSome (c : Config) : ∀ x, (c.rsConfig x).isSome = true ↔ x < 5 ∨ x ∈ c.rsExtra.map (·.1)
  | 0 | 1 | 2 | 3 | 4 => by simp [Config.rsConfig]
  | x + 5 => by simp [Config.rsConfig, lookupExtra_isSome]

theorem hamCode_isSome (c : Config) : ∀ x, (c.hamCode x).isSome = true ↔ x < 5
  | 0 | 1 | 2 | 3 | 4 => by simp [Config.hamCode]
  | x + 5 => by simp [Config.hamCode]

theorem crcSlot_isSome (c : Config) : ∀ x, (c.crcSlot x).isSome = true ↔ x < 4 ∨ x ∈ c.crcExtra.map (·.1)
  | 0 | 1 | 2 | 3 => by simp [Config.crcSlot]
  | x + 4 => by simp [Config.crcSlot, lookupExtra_isSome]

/-- A running block raises the cause of a command's effect. -/
theorem raises_of_runs {i : Instr} {s : State} {c : FaultCause} (hs : s.fault = 0)
    (hexec : exec i s = runCommand i s (.error c)) : raises i s c :=
  (raises_iff hs hexec (by simp)).2 rfl

/-- A selector that names no entry is the first thing the command looks at (R107, R111). -/
theorem exec_of_undefined_selector {i : Instr} {s : State} (h : i.wf s.cfg = false) :
    exec i s = runCommand i s (.error .badSelect) := by
  cases i with
  | gfexp f _ | gflog f _ | gfmul f _ _ | gfinv f _ | gfadd f _ _ =>
    have hslot : s.cfg.gfSlot f.toNat = none := by simpa [Instr.wf] using h
    simp only [exec, execGfexp, execGflog, execGfmul, execGfinv, execGfadd, withSlot, hslot]
  | rsdec c =>
    have hcode : s.cfg.rsCode c.toNat = none := by simpa [Instr.wf] using h
    simp only [exec, execRsdec, hcode]
  | hamdec x _ | hamdecx x =>
    have hcode : s.cfg.hamCode x.toNat = none := by simpa [Instr.wf] using h
    simp only [exec, execHamdec, execHamdecx, withHamCode, hcode]
  | crcchk c _ _ =>
    have hslot : s.cfg.crcSlot c.toNat = none := by simpa [Instr.wf] using h
    simp only [exec, execCrcchk, hslot]
  | _ => cases h

/-- Settles O20, namespace by namespace, and the fault from the one check every selector has. -/
theorem undefinedSelectorFaults : Obligations.UndefinedSelectorFaults :=
  ⟨fun c x => ⟨gfSlot_isSome c x, rsConfig_isSome c x, hamCode_isSome c x, crcSlot_isSome c x⟩,
    fun _ _ hs hsel => raises_of_runs hs (exec_of_undefined_selector hsel)⟩

end Sys2Proof.Machine
end

section
/-! The bit-buffer commands and the word-memory commands one by one (R140 to R156): their checks and the faults they raise, what
each one does to its run of BUF as cells and as an integer, and what it leaves unchanged. -/

namespace Sys2Proof

/-! Bit lists as integers (R7, R76). -/

/-- A run of bits as an integer is the sum of R76. -/
theorem bitsToNat_map_range (n : Nat) (f : Nat → Bool) : bitsToNat ((List.range n).map f) = Machine.bitSum n f := by
  induction n generalizing f with
  | zero => rfl
  | succ n ih =>
    rw [List.range_succ_eq_map, List.map_cons, List.map_map, bitsToNat_cons, ih, List.length_map, List.length_range,
      Machine.bitSum, Machine.bitSum, Finset.sum_range_succ', Nat.add_comm]
    simp only [Function.comp_apply, Nat.add_sub_cancel, Nat.sub_zero, Nat.sub_sub, Nat.add_comm 1]

theorem bitsToNat_concat (bs : List Bool) (b : Bool) : bitsToNat (bs ++ [b]) = 2 * bitsToNat bs + b.toNat := by
  simp [bitsToNat, List.foldl_append]

/-- The first bit of a list turned left becomes the last (R147). -/
theorem rotatedLeft_cons (b : Bool) (bs : List Bool) : Machine.rotatedLeft (b :: bs) = bs ++ [b] := by
  refine List.ext_getElem (by simp) fun j _ hj => ?_
  have hlen : j < bs.length + 1 := by simpa using hj
  rcases Nat.lt_or_eq_of_le (Nat.le_of_lt_succ hlen) with hlt | rfl
  · simp [Machine.rotatedLeft, Nat.mod_eq_of_lt (Nat.succ_lt_succ hlt), hlt]
  · simp [Machine.rotatedLeft]

/-- The last bit of a list turned right becomes the first (R148). -/
theorem rotatedRight_concat (bs : List Bool) (b : Bool) : Machine.rotatedRight (bs ++ [b]) = b :: bs := by
  rw [← rotatedLeft_cons, Machine.rotatedRight_rotatedLeft]

/-- R147 as an integer rule: with the first bit b and the rest B, b * 2^n + B becomes 2 * B + b. -/
theorem bitsToNat_rotatedLeft {bits : List Bool} (hne : bits ≠ []) :
    bitsToNat (Machine.rotatedLeft bits) =
      ((bitsToNat bits <<< 1) ||| (bitsToNat bits >>> (bits.length - 1))) &&& mask bits.length := by
  obtain ⟨b, bs, rfl⟩ := List.exists_cons_of_ne_nil hne
  have hrest := bitsToNat_lt bs
  have hhigh : (b.toNat * 2 ^ bs.length + bitsToNat bs) >>> bs.length = b.toNat := by
    rw [Nat.shiftRight_eq_div_pow, Nat.add_comm, Nat.add_mul_div_right _ _ (Nat.two_pow_pos _), Nat.div_eq_of_lt hrest,
      Nat.zero_add]
  have hsplit : (b.toNat * 2 ^ bs.length + bitsToNat bs) * 2 ^ 1 + b.toNat =
      2 * bitsToNat bs + b.toNat + b.toNat * 2 ^ (bs.length + 1) := by ring
  rw [rotatedLeft_cons, bitsToNat_concat, bitsToNat_cons, List.length_cons, Nat.add_sub_cancel, hhigh,
    ← Nat.shiftLeft_add_eq_or_of_lt b.toNat_lt, mask, Nat.and_two_pow_sub_one_eq_mod, Nat.shiftLeft_eq, hsplit,
    Nat.add_mul_mod_self_right, Nat.mod_eq_of_lt]
  have hlast := b.toNat_le
  omega

/-- R148 as an integer rule: with the last bit b and the rest B, 2 * B + b becomes b * 2^n + B. -/
theorem bitsToNat_rotatedRight {bits : List Bool} (hne : bits ≠ []) :
    bitsToNat (Machine.rotatedRight bits) =
      ((bitsToNat bits >>> 1) ||| (bitsToNat bits <<< (bits.length - 1))) &&& mask bits.length := by
  obtain ⟨bs, b, rfl⟩ := (List.eq_nil_or_concat' bits).resolve_left hne
  have hrest := bitsToNat_lt bs
  have hlast := b.toNat_le
  have hlow : (2 * bitsToNat bs + b.toNat) >>> 1 = bitsToNat bs := by
    rw [Nat.shiftRight_eq_div_pow]
    omega
  have hsplit : (2 * bitsToNat bs + b.toNat) * 2 ^ bs.length + bitsToNat bs =
      b.toNat * 2 ^ bs.length + bitsToNat bs + bitsToNat bs * 2 ^ (bs.length + 1) := by ring
  have hlt : b.toNat * 2 ^ bs.length + bitsToNat bs < 2 ^ (bs.length + 1) := by
    simpa [bitsToNat_cons] using bitsToNat_lt (b :: bs)
  rw [rotatedRight_concat, bitsToNat_concat, bitsToNat_cons, List.length_append, List.length_singleton, Nat.add_sub_cancel,
    hlow, Nat.lor_comm, ← Nat.shiftLeft_add_eq_or_of_lt hrest, mask, Nat.and_two_pow_sub_one_eq_mod, Nat.shiftLeft_eq, hsplit,
    Nat.add_mul_mod_self_right, Nat.mod_eq_of_lt hlt]

/-- The number of one bits is the sum of the bits (R149). -/
theorem countP_range_eq_sum (n : Nat) (f : Nat → Bool) :
    (List.range n).countP f = ∑ i ∈ Finset.range n, (f i).toNat := by
  induction n with
  | zero => rfl
  | succ n ih =>
    rw [List.range_succ, List.countP_append, ih, Finset.sum_range_succ, List.countP_singleton]
    cases f n <;> rfl

end Sys2Proof

namespace Sys2Proof.Machine

variable {s : State} {i : Instr}

/-! A check in front of an effect. -/

theorem raises_of_check {p : Prop} [Decidable p] {c : FaultCause} {e : Effect} (hs : s.fault = 0)
    (runs : exec i s = runCommand i s (if p then .error c else e)) (hp : p) : raises i s c :=
  raises_of_runs hs (by rw [runs, if_pos hp])

theorem exec_of_check {p : Prop} [Decidable p] {c : FaultCause} {t : State} (hs : s.fault = 0)
    (runs : exec i s = runCommand i s (if p then .error c else .ok t)) (hp : ¬ p) : exec i s = .next t := by
  rw [runs, if_neg hp]
  exact runCommand_ok hs i t

/-- BREAD, BWRITE and BXOR check the count first (R144 to R146). -/
theorem raises_badCount_of_checkedRun {a n : Nat} {e : Effect} (hs : s.fault = 0)
    (runs : exec i s = runCommand i s (checkedRun s a n e)) (hn : n = 0 ∨ 32 < n) : raises i s .badCount :=
  raises_of_check hs runs hn

theorem raises_bufRange_of_checkedRun {a n : Nat} {e : Effect} (hs : s.fault = 0)
    (runs : exec i s = runCommand i s (checkedRun s a n e)) (h₁ : 1 ≤ n) (h₃₂ : n ≤ 32) (hout : s.cfg.bufLen < a + n) :
    raises i s .bufRange := by
  have hcount : ¬ (n = 0 ∨ 32 < n) := by omega
  rw [checkedRun_eq, if_neg hcount] at runs
  exact raises_of_check hs runs hout

/-- BWRITE and BXOR check the value last (R145, R146). -/
theorem raises_badOperand_of_checkedRun {a n v : Nat} {e : Effect} (hs : s.fault = 0)
    (runs : exec i s = runCommand i s (checkedRun s a n (checkedValue n v e))) (h₁ : 1 ≤ n) (h₃₂ : n ≤ 32)
    (hin : a + n ≤ s.cfg.bufLen) (hv : 2 ^ n ≤ v) : raises i s .badOperand := by
  rw [checkedRun_ok h₁ h₃₂ hin] at runs
  exact raises_of_check hs runs hv

/-- BROTL and BROTR check the order of the ends of the range before the range (R147, R148). -/
theorem raises_bufRange_of_checkedRange {a b : Nat} {e : Effect} (hs : s.fault = 0)
    (runs : exec i s = runCommand i s (checkedRange s a b e)) (hab : a ≤ b) (hout : s.cfg.bufLen ≤ b) :
    raises i s .bufRange := by
  rw [checkedRange, if_neg (Nat.not_lt.2 hab)] at runs
  exact raises_of_check hs runs hout

/-! Bits and runs of BUF. -/

theorem State.read_writeBit (s : State) (k : Nat) (v : Bool) (j : Nat) :
    (s.writeBit k v).buf.read j = if j = k then v else s.buf.read j := by
  rw [State.writeBit_buf, Mem.read_write]

theorem State.bufRead_eq_bitSum (s : State) (a n : Nat) : s.bufRead a n = bitSum n fun j => s.buf.read (a + j) :=
  bitsToNat_map_range n _

theorem State.read_writeBits_run (s : State) (a : Nat) {bits : List Bool} {j : Nat} (hj : j < bits.length) :
    (s.writeBits a bits).buf.read (a + j) = bits.getD j false := by
  rw [State.read_writeBits, if_pos (by omega), Nat.add_sub_cancel_left]

theorem State.read_writeBits_outside (s : State) {a k : Nat} {bits : List Bool} (hk : k < a ∨ a + bits.length ≤ k) :
    (s.writeBits a bits).buf.read k = s.buf.read k := by
  rw [State.read_writeBits, if_neg (by omega)]

theorem State.bufRead_writeBits (s : State) (a : Nat) (bits : List Bool) :
    (s.writeBits a bits).bufRead a bits.length = bitsToNat bits := by
  rw [State.bufRead, State.window_writeBits]

theorem State.read_xorRun_run (s : State) (a v : Nat) {n j : Nat} (hj : j < n) :
    (s.xorRun a n v).buf.read (a + j) = (s.buf.read (a + j) ^^ v.testBit (n - 1 - j)) := by
  rw [State.read_xorRun, if_pos (by omega), Nat.add_sub_cancel_left]

/-- R146 as an integer rule. -/
theorem State.bufRead_xorRun (s : State) (a : Nat) {n v : Nat} (hv : v < 2 ^ n) :
    (s.xorRun a n v).bufRead a n = s.bufRead a n ^^^ v := by
  have hcells : (s.xorRun a n v).window a n = (List.range n).map fun j => s.buf.read (a + j) ^^ v.testBit (n - 1 - j) :=
    List.map_congr_left fun j hj => s.read_xorRun_run a v (List.mem_range.1 hj)
  calc (s.xorRun a n v).bufRead a n
      = bitsToNat (s.window a n) ^^^ bitsToNat (natToBits n v) := by rw [State.bufRead, hcells, bitsToNat_map_xor]; rfl
    _ = s.bufRead a n ^^^ v := by rw [bitsToNat_natToBits, Nat.mod_eq_of_lt hv]; rfl

/-! Rotations of a range of n bits. -/

section Rotation

variable {a n j : Nat}

theorem State.window_ne_nil (s : State) (a : Nat) (hn : 0 < n) : s.window a n ≠ [] :=
  List.ne_nil_of_length_pos (by rwa [State.length_window])

/-- BROTL moves each bit one place down (R147). -/
theorem State.read_rotatedLeft (s : State) (hj : j < n) :
    (s.writeBits a (rotatedLeft (s.window a n))).buf.read (a + j) = s.buf.read (a + (j + 1) % n) := by
  have hmod : (j + 1) % n < n := Nat.mod_lt _ (by omega)
  rw [State.read_writeBits_run _ _ (by simpa using hj), ← s.getD_window a n _ hmod]
  simp [rotatedLeft, hj]

/-- BROTR moves each bit one place up (R148). -/
theorem State.read_rotatedRight (s : State) (hj : j < n) :
    (s.writeBits a (rotatedRight (s.window a n))).buf.read (a + (j + 1) % n) = s.buf.read (a + j) := by
  have hmod : (j + 1) % n < n := Nat.mod_lt _ (by omega)
  have hback : ((j + 1) % n + (n - 1)) % n = j := by
    rw [Nat.mod_add_mod, show j + 1 + (n - 1) = j + n by omega, Nat.add_mod_right, Nat.mod_eq_of_lt hj]
  rw [State.read_writeBits_run _ _ (by simpa using hmod), ← s.getD_window a n _ hj]
  simp [rotatedRight, hmod, hback]

theorem State.bufRead_rotatedLeft (s : State) (hn : 0 < n) :
    (s.writeBits a (rotatedLeft (s.window a n))).bufRead a n =
      ((s.bufRead a n <<< 1) ||| (s.bufRead a n >>> (n - 1))) &&& mask n := by
  simpa [State.bufRead] using
    (s.bufRead_writeBits a (rotatedLeft (s.window a n))).trans (bitsToNat_rotatedLeft (s.window_ne_nil a hn))

theorem State.bufRead_rotatedRight (s : State) (hn : 0 < n) :
    (s.writeBits a (rotatedRight (s.window a n))).bufRead a n =
      ((s.bufRead a n >>> 1) ||| (s.bufRead a n <<< (n - 1))) &&& mask n := by
  simpa [State.bufRead] using
    (s.bufRead_writeBits a (rotatedRight (s.window a n))).trans (bitsToNat_rotatedRight (s.window_ne_nil a hn))

end Rotation

/-! The scan of BNEXT (R150). -/

theorem State.nextSetBit_eq_some {start k : Nat} (hle : start ≤ k) (hin : k < s.cfg.bufLen) (hset : s.buf.read k = true)
    (hclear : ∀ j, start ≤ j → j < k → s.buf.read j = false) : s.nextSetBit start = some k :=
  List.find?_range'_eq_some.2
    ⟨hset, List.mem_range'_1.2 ⟨hle, by omega⟩, fun j hj hlt => by rw [hclear j hj hlt]; rfl⟩

theorem State.nextSetBit_eq_none {start : Nat} (hclear : ∀ j, start ≤ j → j < s.cfg.bufLen → s.buf.read j = false) :
    s.nextSetBit start = none :=
  List.find?_range'_eq_none.2 fun j hj hlt => by rw [hclear j hj (by omega)]; rfl

/-- BNEXT answers what its scan finds (R150). -/
theorem exec_bnext_ok {f : BitVec 16} (hs : s.fault = 0) (hf : f.toNat ≤ s.cfg.bufLen) :
    exec (.bnext f) s = .next (s.setRes ((s.nextSetBit f.toNat).elim noSetBit (BitVec.ofNat 32))) := by
  simp only [exec, execBnext, if_neg (Nat.not_lt.2 hf)]
  cases s.nextSetBit f.toNat with
  | none => exact runCommand_ok hs _ _
  | some k => exact runCommand_ok hs _ _

/-! The bit-buffer commands. -/

/-- Settles O24: each of the three is one write at the bit's address. -/
theorem setClearFlipBit : Obligations.SetClearFlipBit := by
  intro s i hs
  refine ⟨fun hout => ⟨?_, ?_, ?_⟩, fun hin => ⟨?_, ?_, ?_⟩⟩
  · exact raises_of_check hs rfl hout
  · exact raises_of_check hs rfl hout
  · exact raises_of_check hs rfl hout
  · exact ⟨_, exec_bset_ok hs hin, rfl, s.read_writeBit _ _⟩
  · exact ⟨_, exec_of_check hs rfl (Nat.not_le.2 hin), rfl, s.read_writeBit _ _⟩
  · refine ⟨_, exec_bflip_ok hs hin, rfl, fun j => ?_⟩
    rw [read_flipBit]
    by_cases hj : j = i.toNat <;> simp [hj]

/-- Settles O25: BufRead is the sum of R76. -/
theorem breadSum : Obligations.BreadSum := by
  intro s a n hs
  refine ⟨raises_badCount_of_checkedRun hs rfl, fun h₁ h₃₂ => ⟨raises_bufRange_of_checkedRun hs rfl h₁ h₃₂, fun hin => ?_⟩⟩
  rw [exec_bread_ok hs h₁ h₃₂ hin, State.bufRead_eq_bitSum]
  rfl

/-- Settles O26, check by check, and the effect cell by cell. -/
theorem bwriteStores : Obligations.BwriteStores := by
  intro s a n v hs
  refine ⟨raises_badCount_of_checkedRun hs rfl, fun h₁ h₃₂ => ⟨raises_bufRange_of_checkedRun hs rfl h₁ h₃₂, fun hin =>
    ⟨raises_badOperand_of_checkedRun hs rfl h₁ h₃₂ hin, fun hv => ?_⟩⟩⟩
  refine ⟨_, exec_bwrite_ok hs h₁ h₃₂ hin hv, rfl, fun j hj => s.read_bufWrite_run _ _ hj, fun k hk => ?_⟩
  exact s.read_writeBits_outside (by rwa [length_natToBits])

/-- Settles O27, check by check, and the effect cell by cell and as an integer. -/
theorem bxorStores : Obligations.BxorStores := by
  intro s a n v hs
  refine ⟨raises_badCount_of_checkedRun hs rfl, fun h₁ h₃₂ => ⟨raises_bufRange_of_checkedRun hs rfl h₁ h₃₂, fun hin =>
    ⟨raises_badOperand_of_checkedRun hs rfl h₁ h₃₂ hin, fun hv => ?_⟩⟩⟩
  refine ⟨_, exec_bxor_ok hs h₁ h₃₂ hin hv, rfl, fun j hj => s.read_xorRun_run _ _ hj, fun k hk => ?_,
    s.bufRead_xorRun _ hv⟩
  rw [State.read_xorRun, if_neg (by omega)]

/-- Settles O28: both commands write the turned window back over the range. -/
theorem rotateByOne : Obligations.RotateByOne := by
  intro s a e hs
  refine ⟨fun hea => ⟨raises_of_check hs rfl hea, raises_of_check hs rfl hea⟩,
    fun hae hout => ⟨raises_bufRange_of_checkedRange hs rfl hae hout, raises_bufRange_of_checkedRange hs rfl hae hout⟩, ?_⟩
  rintro hae hin L v hL rfl
  have hpos : 0 < L := by omega
  have hleft := exec_brotl_ok hs hae hin
  have hright := exec_brotr_ok hs hae hin
  rw [← hL] at hleft hright
  refine ⟨⟨_, hleft, rfl, fun j hj => s.read_rotatedLeft hj, fun k hk => ?_, s.bufRead_rotatedLeft hpos⟩,
    ⟨_, hright, rfl, fun j hj => s.read_rotatedRight hj, fun k hk => ?_, s.bufRead_rotatedRight hpos⟩⟩
  · exact s.read_writeBits_outside (by rw [length_rotatedLeft, State.length_window]; omega)
  · exact s.read_writeBits_outside (by rw [length_rotatedRight, State.length_window]; omega)

/-- Settles O30: the count of the one bits is the sum of the bits. -/
theorem bpopcCounts : Obligations.BpopcCounts := by
  intro s hs
  rw [exec_bpopc_ok hs, countP_range_eq_sum]
  rfl

/-- Settles O31: the scan from `from` to the end of BUF finds the least set bit, or none. -/
theorem bnextFindsFirst : Obligations.BnextFindsFirst := by
  intro s f hs
  refine ⟨raises_of_check hs rfl, fun k hle hin hset hclear => ?_, fun hle hclear => ?_⟩
  · rw [exec_bnext_ok hs (by omega), State.nextSetBit_eq_some hle hin hset hclear]
    rfl
  · rw [exec_bnext_ok hs hle, State.nextSetBit_eq_none hclear]
    rfl

/-- Settles O22: the halted and the running block answer the same state. -/
theorem nopDoesNothing : Obligations.NopDoesNothing := by
  intro s
  by_cases hs : s.fault = 0
  · exact runCommand_ok hs .nop s
  · exact exec_halted hs .nop

/-- Settles O23: a bit as an integer is 0 or 1. -/
theorem bgetReadsBit : Obligations.BgetReadsBit := by
  intro s i hs
  refine ⟨raises_of_check hs rfl, fun hin => ?_⟩
  rw [exec_bget_ok hs hin, State.setResNat, ofNat_toNat_bool]
  rfl

/-! The word memories. -/

/-- Settles O32: the index is checked against N_SYM. -/
theorem symbolMemory : Obligations.SymbolMemory := by
  intro s j v hs
  refine ⟨fun hout => ⟨raises_of_check hs rfl hout, raises_of_check hs rfl hout⟩, fun hin => ⟨?_, ?_⟩⟩
  · exact ⟨_, exec_of_check hs rfl (Nat.not_le.2 hin), rfl, fun k => Mem.read_write _ _ _ _⟩
  · exact exec_of_check hs rfl (Nat.not_le.2 hin)

/-- Settles O33: the index is checked against N_IDX. -/
theorem indexMemory : Obligations.IndexMemory := by
  intro s j v hs
  refine ⟨fun hout => ⟨raises_of_check hs rfl hout, raises_of_check hs rfl hout⟩, fun hin => ⟨?_, ?_⟩⟩
  · exact ⟨_, exec_of_check hs rfl (Nat.not_le.2 hin), rfl, fun k => Mem.read_write _ _ _ _⟩
  · rw [BitVec.ofNat_toNat]
    exact exec_of_check hs rfl (Nat.not_le.2 hin)

/-- Settles O34: the index is checked against ECNT. -/
theorem eposrdReads : Obligations.EposrdReads := by
  intro s j hs
  exact ⟨raises_of_check hs rfl, fun hin => exec_of_check hs rfl (Nat.not_le.2 hin)⟩

end Sys2Proof.Machine
end

section
/-! The Galois-field commands (R170 to R182): the tables entry by entry, the powers of an element, what each command does behind its
selector and operand checks, and the laws of the field in the integers below 2^m. -/

namespace Sys2Proof

namespace GfSlot

variable {g : GfSlot} {i k v x : Nat}

/-! The tables (R171 to R173). -/

/-- An entry below N of the exponent table is the power of α with its index (R171). -/
theorem getD_expTable (h : g.wf = true) (hi : i < g.order) (top : Word) :
    (g.expTable top).getD i 0 = BitVec.ofNat 32 (g.alphaPower i) := by
  obtain ⟨hm, -, hb, hp, -, -⟩ := wf_iff.1 h
  have hlen : i < g.powers.length := (length_powers (g := g) (by omega)).symm ▸ hi
  rw [expTable, List.getD_append _ _ _ _ (by simpa using hlen), List.getD_eq_getElem _ _ (by simpa using hlen), List.getElem_map,
    getElem_powers (by omega) hb hp]

/-- The last entry of the exponent table is EXP_TOP (R173). -/
theorem getD_expTable_order (h : g.wf = true) (top : Word) : (g.expTable top).getD g.order 0 = top := by
  obtain ⟨hm, -⟩ := wf_iff.1 h
  have hlen : (g.powers.map (BitVec.ofNat 32)).length = g.order := by rw [List.length_map, length_powers (by omega)]
  rw [expTable, List.getD_append_right _ _ _ _ hlen.le, hlen, Nat.sub_self]
  rfl

theorem logEntry_of_ne_zero (h₀ : v ≠ 0) : g.logEntry v = BitVec.ofNat 32 (g.log v) := if_neg h₀

theorem log_one (h : g.wf = true) : g.log 1 = 0 := log_alphaPower h (i := 0) (order_pos h)

/-- Only 1 has the logarithm 0. -/
theorem log_pos (h : g.wf = true) (h₂ : 2 ≤ v) (hv : v < g.size) : 0 < g.log v := by
  by_contra hlog
  have hpow : g.alphaPower (g.log v) = v := alphaPower_log h (by omega) hv
  have hone : g.alphaPower 0 = 1 := rfl
  rw [Nat.eq_zero_of_not_pos hlog, hone] at hpow
  omega

/-! Products (R178, R181). -/

protected theorem mul_one (h : g.wf = true) (hx : x < g.size) : g.mul x 1 = x := by
  rw [GfSlot.mul_comm, GfSlot.one_mul h hx]

/-- The inverse of R218 as a power of α. -/
theorem inv_eq_alphaPower (h : g.wf = true) (x : Nat) : g.inv x = g.alphaPower (g.order - g.log x) := alpha_eq h _

/-- The powers of a power of α multiply the exponents (R181). -/
theorem iterate_mul_alphaPower (h : g.wf = true) (i k : Nat) : (g.mul (g.alphaPower i))^[k] 1 = g.alphaPower (k * i) := by
  induction k with
  | zero => rw [Nat.zero_mul]; rfl
  | succ k ih => rw [Function.iterate_succ_apply', ih, mul_alphaPower h, Nat.succ_mul, Nat.add_comm]

/-- The k-th power of an element is α to k times its logarithm (R181). -/
theorem iterate_mul_eq_alphaPower (h : g.wf = true) (h₀ : x ≠ 0) (hx : x < g.size) (k : Nat) :
    (g.mul x)^[k] 1 = g.alphaPower (k * g.log x % g.order) := by
  conv_lhs => rw [← alphaPower_log h h₀ hx]
  rw [iterate_mul_alphaPower h, alphaPower_mod h]

end GfSlot

end Sys2Proof

namespace Sys2Proof.Machine

variable {s : State} {i : Instr} {f : BitVec 8} {g : GfSlot} {x y : BitVec 16}

/-! The checks of the selector and of the operands (R107, R175). -/

/-- With a defined selector a command runs on the slot it names. -/
theorem runs_of_withSlot {e : GfSlot → Effect} (hslot : s.cfg.gfSlot f.toNat = some g)
    (runs : exec i s = runCommand i s (withSlot s f e)) : exec i s = runCommand i s (e g) := by
  rw [runs, withSlot, hslot]

theorem checkedElement_ok (hx : x.toNat < g.size) (e : Effect) : checkedElement g x e = e := if_neg (Nat.not_le.2 hx)

/-- GFMUL and GFADD check both operands (R178, R180). -/
theorem raises_badOperand_of_checkedElements {e : Effect} (hs : s.fault = 0)
    (runs : exec i s = runCommand i s (checkedElement g x (checkedElement g y e))) (hxy : g.size ≤ x.toNat ∨ g.size ≤ y.toNat) :
    raises i s .badOperand := by
  by_cases hx : g.size ≤ x.toNat
  · exact raises_of_check hs runs hx
  · rw [checkedElement_ok (Nat.not_le.1 hx)] at runs
    exact raises_of_check hs runs (hxy.resolve_left hx)

theorem exec_of_checkedElements {t : State} (hs : s.fault = 0)
    (runs : exec i s = runCommand i s (checkedElement g x (checkedElement g y (.ok t)))) (hx : x.toNat < g.size)
    (hy : y.toNat < g.size) : exec i s = .next t := by
  rw [runs, checkedElement_ok hx, checkedElement_ok hy, runCommand_ok hs]

/-! The laws of the field and the commands. -/

/-- Settles O40: every nonzero element is a power of α, products of powers add exponents, and the product by a power of α is a
repeated doubling, which is linear. -/
theorem fieldLaws : Obligations.FieldLaws := fun _ h x _ _ hx hy hz =>
  ⟨GfSlot.mul_lt_size h _ _, GfSlot.mul_comm _ _ _, GfSlot.mul_assoc h hx hy hz, GfSlot.mul_xor h hx hy hz, GfSlot.mul_one h hx,
    GfSlot.mul_zero _ _, Nat.xor_self x, Nat.xor_zero x, fun h₀ => GfSlot.mul_inv_self h h₀ hx,
    fun k h₀ => GfSlot.iterate_mul_eq_alphaPower h h₀ hx k⟩

/-- Settles O35: entry N of the table is EXP_TOP, and every entry before it is the power of α with its index. -/
theorem gfexpTable : Obligations.GfexpTable := by
  intro s f i g hcfg hs hslot
  have hg := Config.gfSlot_wf hcfg hslot
  have runs := runs_of_withSlot hslot (i := .gfexp f i) rfl
  have reads (hi : i.toNat ≤ g.order) := exec_of_check hs runs (Nat.not_le.2 (Nat.lt_of_le_pred (Nat.two_pow_pos g.m) hi))
  refine ⟨raises_of_check hs runs, fun htop => ?_, fun hlow => ?_⟩
  · have hi : i.toNat = g.order := htop
    rw [reads hi.le, hi, GfSlot.getD_expTable_order hg]
    rfl
  · rw [reads hlow.le, GfSlot.getD_expTable hg hlow]
    rfl

/-- Settles O36: the logarithm of a nonzero element is its exponent. -/
theorem gflogInverts : Obligations.GflogInverts := by
  intro s f v g hcfg hs hslot
  have hg := Config.gfSlot_wf hcfg hslot
  have runs := runs_of_withSlot hslot (i := .gflog f v) rfl
  have reads (hv : v.toNat < g.size) := exec_of_check hs runs (Nat.not_le.2 hv)
  refine ⟨raises_of_check hs runs, fun hzero => ?_, fun hpos hv => ?_⟩
  · rw [reads (hzero ▸ Nat.two_pow_pos g.m), hzero]
    rfl
  · refine ⟨g.log v.toNat, GfSlot.log_lt hg hpos.ne' hv, GfSlot.alphaPower_log hg hpos.ne' hv, ?_⟩
    rw [reads hv, GfSlot.logEntry_of_ne_zero hpos.ne']
    rfl

/-- Settles O37: RES is the table product, and products of powers of α add the exponents. -/
theorem gfmulAddsLogs : Obligations.GfmulAddsLogs := by
  intro s f x y g hcfg hs hslot
  have hg := Config.gfSlot_wf hcfg hslot
  have runs := runs_of_withSlot hslot (i := .gfmul f x y) rfl
  refine ⟨raises_badOperand_of_checkedElements hs runs, fun hx hy => ⟨exec_of_checkedElements hs runs hx hy, ?_, ?_⟩⟩
  · rintro (hzero | hzero) <;> simp [hzero]
  · intro i j hi hj
    rw [← hi, ← hj, GfSlot.mul_alphaPower hg]
    exact (GfSlot.alphaPower_mod hg _).symm

/-- Settles O38: the entry read is N - log A, which is EXP_TOP's exactly for the element 1. -/
theorem gfinvInverts : Obligations.GfinvInverts := by
  intro s f x g hcfg hs hslot
  have hg := Config.gfSlot_wf hcfg hslot
  have runs := runs_of_withSlot hslot (i := .gfinv f x) rfl
  have zero_iff : x = 0 ↔ x.toNat = 0 := BitVec.toNat_inj.symm
  have reads (hpos : x.toNat ≠ 0) (hx : x.toNat < g.size) :=
    exec_of_check hs (checkedElement_ok hx _ ▸ runs) (mt zero_iff.1 hpos)
  refine ⟨raises_of_check hs runs, fun hzero => ?_, fun hone => ?_, fun h₂ hx => ?_⟩
  · rw [checkedElement_ok (hzero ▸ Nat.two_pow_pos g.m)] at runs
    exact raises_of_check hs runs (zero_iff.2 hzero)
  · rw [reads (by omega) (hone ▸ GfSlot.one_lt_size hg), hone, GfSlot.log_one hg, Nat.sub_zero, GfSlot.getD_expTable_order hg]
    rfl
  · have h₀ : x.toNat ≠ 0 := by omega
    have hlog : g.log x.toNat < g.order := GfSlot.log_lt hg h₀ hx
    have hpos : 0 < g.log x.toNat := GfSlot.log_pos hg h₂ hx
    refine ⟨g.log x.toNat, hpos, hlog, GfSlot.alphaPower_log hg h₀ hx, ?_, ?_⟩
    · rw [reads h₀ hx, GfSlot.getD_expTable hg (by omega)]
      rfl
    · have hinv := GfSlot.mul_inv_self hg h₀ hx
      rwa [GfSlot.inv_eq_alphaPower hg] at hinv

/-- Settles O39: the XOR of the operands as integers is the one of the words. -/
theorem gfaddXors : Obligations.GfaddXors := by
  intro s f x y g hs hslot
  have runs := runs_of_withSlot hslot (i := .gfadd f x y) rfl
  refine ⟨raises_badOperand_of_checkedElements hs runs, fun hx hy => ?_⟩
  rw [exec_of_checkedElements hs runs hx hy, BitVec.toNat_xor]
  rfl

end Sys2Proof.Machine
end

section
/-! The Berlekamp-Massey recursion finds the error word (R216 to R218, R224), over any field: its register is the shortest that
generates the syndromes, so for syndromes that are power sums of at most half as many errors the locator's roots are exactly the
inverse locators of the errors, and Forney's formula gives their values. -/

namespace Sys2Proof

open Polynomial

variable {K : Type} [Field K]

/-! Power sums. -/

/-- The BCH bound (R224): values at distinct nonzero locators whose power sums vanish, as many in a row as there are locators, are
all zero. -/
theorem eq_zero_of_powerSums {D : Finset Nat} {b v : Nat → K} (hinj : Set.InjOn b D) (hb : ∀ p ∈ D, b p ≠ 0) (m : Nat)
    (hsum : ∀ i < D.card, ∑ p ∈ D, v p * b p ^ (m + i) = 0) : ∀ p ∈ D, v p = 0 := by
  have hvander : (fun i => v (D.equivFin.symm i) * b (D.equivFin.symm i) ^ m) = 0 := by
    refine Matrix.eq_zero_of_forall_pow_sum_mul_pow_eq_zero (f := fun i => b (D.equivFin.symm i)) (fun i j hij => ?_) fun i => ?_
    · exact D.equivFin.symm.injective (Subtype.ext (hinj (D.equivFin.symm i).2 (D.equivFin.symm j).2 hij))
    · rw [D.equivFin.symm.sum_comp fun p : D => v p * b p ^ m * b p ^ (i : Nat),
        Finset.sum_coe_sort D fun p => v p * b p ^ m * b p ^ (i : Nat), ← hsum i i.2]
      exact Finset.sum_congr rfl fun p _ => by rw [pow_add, mul_assoc]
  intro p hp
  have hzero := congrFun hvander (D.equivFin ⟨p, hp⟩)
  rw [Equiv.symm_apply_apply] at hzero
  exact (mul_eq_zero.1 hzero).resolve_right (pow_ne_zero m (hb p hp))

/-- The first n coefficients of S are the syndromes of the errors at D, with locators b and values v (R215). -/
structure PowerSums (S : K[X]) (n : Nat) (D : Finset Nat) (b v : Nat → K) : Prop where
  injOn : Set.InjOn b D
  locator_ne : ∀ p ∈ D, b p ≠ 0
  value_ne : ∀ p ∈ D, v p ≠ 0
  sums : ∀ j < n, S.coeff j = ∑ p ∈ D, v p * b p ^ (j + 1)

/-- The locator polynomial of the errors at D: its roots are the inverse locators. -/
noncomputable def trueLocator (D : Finset Nat) (b : Nat → K) : K[X] := ∏ p ∈ D, (1 - C (b p) * X)

section Locator

variable (D : Finset Nat) (b : Nat → K)

theorem coeff_zero_trueLocator : (trueLocator D b).coeff 0 = 1 := by
  simp [trueLocator, coeff_zero_eq_eval_zero, eval_prod]

theorem coeff_trueLocator_of_card_lt {k : Nat} (hk : D.card < k) : (trueLocator D b).coeff k = 0 := by
  refine coeff_eq_zero_of_natDegree_lt (lt_of_le_of_lt ?_ hk)
  calc (trueLocator D b).natDegree
      ≤ ∑ p ∈ D, (1 - C (b p) * X : K[X]).natDegree := natDegree_prod_le D _
    _ ≤ ∑ _p ∈ D, 1 := Finset.sum_le_sum fun p _ => by compute_degree
    _ = D.card := by simp

variable {D b}

theorem eval_trueLocator {p : Nat} (hp : p ∈ D) (hb : b p ≠ 0) : (trueLocator D b).eval (b p)⁻¹ = 0 := by
  rw [trueLocator, eval_prod]
  exact Finset.prod_eq_zero hp (by simp [hb])

end Locator

/-! The register is the shortest one. -/

/-- No locator that generates the syndromes is shorter than the recursion's register: its product with the prior locator's
product with T would have the discrepancy σ as its only part of degree r + 1 (R216). -/
theorem LfsrInvariant.len_le_of_generates {T Λ P Q : K[X]} {r L M : Nat} {σ : K} (h : LfsrInvariant T r Λ P L σ)
    (hconst : Q.coeff 0 = 1) (hhigh : ∀ k, M < k → Q.coeff k = 0) (hgen : ∀ k, M < k → k ≤ r → (Q * T).coeff k = 0) : L ≤ M := by
  by_contra hlt
  have hlen := h.len_le
  have hσ : (Q * (P * T)).coeff (r + 1) = σ := by
    rw [coeff_mul, Finset.Nat.sum_antidiagonal_eq_sum_range_succ_mk, Finset.sum_eq_single_of_mem 0 (by simp) fun i _ hi => ?_,
      hconst, one_mul, Nat.sub_zero, h.prior_scale]
    rcases Nat.lt_or_ge M i with hM | hM
    · rw [hhigh i hM, zero_mul]
    · rw [h.prior_relation _ (by omega) (by omega), mul_zero]
  refine h.scale_ne ?_
  rw [← hσ, mul_left_comm, coeff_mul, Finset.Nat.sum_antidiagonal_eq_sum_range_succ_mk]
  refine Finset.sum_eq_zero fun i _ => ?_
  rcases Nat.eq_zero_or_pos i with rfl | hi
  · rw [h.prior_const, zero_mul]
  · rcases Nat.lt_or_ge (r + 1) (i + L) with hL | hL
    · rw [h.prior_high i hL, zero_mul]
    · rw [hgen _ (by omega) (by omega), mul_zero]

theorem LfsrInvariant.locator_ne_zero {T Λ P : K[X]} {r L : Nat} {σ : K} (h : LfsrInvariant T r Λ P L σ) : Λ ≠ 0 := fun hzero =>
  one_ne_zero (α := K) (by rw [← h.const_one, hzero, coeff_zero])

namespace PowerSums

variable {S Λ P Ω : K[X]} {n L : Nat} {D : Finset Nat} {b v : Nat → K} {σ : K}

/-- A coefficient of Λ · S beyond Λ's degree, by the errors: each contributes Λ at its inverse locator. -/
theorem coeff_mul (hS : PowerSums S n D b v) (hdeg : ∀ k, L < k → Λ.coeff k = 0) {j : Nat} (hL : L ≤ j) (hj : j < n) :
    (Λ * S).coeff j = ∑ p ∈ D, v p * Λ.eval (b p)⁻¹ * b p ^ (j + 1) := by
  have heval : ∀ x, Λ.eval x = ∑ i ∈ Finset.range (j + 1), Λ.coeff i * x ^ i := fun x =>
    eval_eq_sum_range' (Nat.lt_succ_of_le ((natDegree_le_iff_coeff_eq_zero.2 hdeg).trans hL)) x
  calc (Λ * S).coeff j
      = ∑ i ∈ Finset.range (j + 1), ∑ p ∈ D, Λ.coeff i * (v p * b p ^ (j - i + 1)) := by
        rw [Polynomial.coeff_mul, Finset.Nat.sum_antidiagonal_eq_sum_range_succ_mk]
        exact Finset.sum_congr rfl fun i _ => by rw [hS.sums _ (by omega), Finset.mul_sum]
    _ = ∑ p ∈ D, ∑ i ∈ Finset.range (j + 1), Λ.coeff i * (v p * b p ^ (j - i + 1)) := Finset.sum_comm
    _ = ∑ p ∈ D, v p * Λ.eval (b p)⁻¹ * b p ^ (j + 1) := Finset.sum_congr rfl fun p hp => by
        rw [heval, Finset.mul_sum, Finset.sum_mul]
        refine Finset.sum_congr rfl fun i hi => ?_
        have hpow : b p ^ (j + 1) = b p ^ i * b p ^ (j - i + 1) := by
          rw [← pow_add]
          congr 1
          rw [Finset.mem_range] at hi
          omega
        have hinv : (b p)⁻¹ ^ i * b p ^ i = 1 := by rw [← mul_pow, inv_mul_cancel₀ (hS.locator_ne p hp), one_pow]
        rw [hpow]
        linear_combination (-(Λ.coeff i * v p * b p ^ (j - i + 1))) * hinv

/-- The errors' own locator polynomial generates the syndromes, so the register is no longer than they are many. -/
theorem len_le (hS : PowerSums S n D b v) (h : LfsrInvariant (1 + X * S) n Λ P L σ) : L ≤ D.card := by
  refine h.len_le_of_generates (coeff_zero_trueLocator D b) (fun k => coeff_trueLocator_of_card_lt D b) fun k hk hkn => ?_
  obtain ⟨j, rfl⟩ : ∃ j, k = j + 1 := ⟨k - 1, by omega⟩
  rw [mul_add, mul_one, coeff_add, coeff_trueLocator_of_card_lt D b hk, zero_add, mul_left_comm, coeff_X_mul,
    hS.coeff_mul (fun k => coeff_trueLocator_of_card_lt D b) (by omega) (by omega)]
  exact Finset.sum_eq_zero fun p hp => by rw [eval_trueLocator hp (hS.locator_ne p hp), mul_zero, zero_mul]

/-- With at most half as many errors as syndromes, every inverse locator is a root of Λ (R217): the equations of the register are
power sums of the values Λ takes there. -/
theorem eval_locator (hS : PowerSums S n D b v) (h : LfsrInvariant (1 + X * S) n Λ P L σ) (hn : 2 * D.card ≤ n) {p : Nat}
    (hp : p ∈ D) : Λ.eval (b p)⁻¹ = 0 := by
  have hlen := hS.len_le h
  have hzero := eq_zero_of_powerSums (v := fun p => v p * Λ.eval (b p)⁻¹) hS.injOn hS.locator_ne (L + 1) (fun i hi => ?_) p hp
  · exact (mul_eq_zero.1 hzero).resolve_left (hS.value_ne p hp)
  · rw [← h.generates rfl (Nat.le_add_right L i) (by omega), hS.coeff_mul h.high (Nat.le_add_right L i) (by omega)]
    exact Finset.sum_congr rfl fun q _ => by rw [Nat.add_right_comm]

theorem inverse_injOn (hS : PowerSums S n D b v) : Set.InjOn (fun p => (b p)⁻¹) D :=
  fun _ hp _ hq hpq => hS.injOn hp hq (inv_injective hpq)

/-- A polynomial of degree below the number of errors that vanishes at every inverse locator is zero. -/
theorem eq_zero_of_eval (hS : PowerSums S n D b v) {Q : K[X]} (hdeg : Q.degree < D.card) (hroot : ∀ p ∈ D, Q.eval (b p)⁻¹ = 0) :
    Q = 0 := by
  classical
  refine eq_zero_of_degree_lt_of_eval_finset_eq_zero (D.image fun p => (b p)⁻¹) ?_ fun x hx => ?_
  · rwa [Finset.card_image_of_injOn hS.inverse_injOn]
  · obtain ⟨p, hp, rfl⟩ := Finset.mem_image.1 hx
    exact hroot p hp

section Found

variable (hS : PowerSums S n D b v) (h : LfsrInvariant (1 + X * S) n Λ P L σ) (hn : 2 * D.card ≤ n)
include hS h hn

/-- The register is as long as there are errors (R216). -/
theorem len_eq : L = D.card := by
  refine (hS.len_le h).antisymm (not_lt.1 fun hlt => ?_)
  exact h.locator_ne_zero (hS.eq_zero_of_eval ((degree_lt_iff_coeff_zero _ _).2 fun k hk => h.high k (by omega)) fun p hp =>
    hS.eval_locator h hn hp)

theorem degree_locator_le : Λ.degree ≤ D.card :=
  (degree_le_iff_coeff_zero _ _).2 fun k hk => h.high k (by rw [hS.len_eq h hn]; exact_mod_cast hk)

/-- Λ has no root beside the inverse locators of the errors (R217). -/
theorem root_iff (x : K) : Λ.eval x = 0 ↔ ∃ p ∈ D, x = (b p)⁻¹ := by
  classical
  refine ⟨fun hx => ?_, fun ⟨p, hp, hx⟩ => hx ▸ hS.eval_locator h hn hp⟩
  by_contra hnot
  have hmem : x ∉ D.image fun p => (b p)⁻¹ := fun hmem => by
    obtain ⟨p, hp, hpx⟩ := Finset.mem_image.1 hmem
    exact hnot ⟨p, hp, hpx.symm⟩
  refine h.locator_ne_zero (eq_zero_of_degree_lt_of_eval_finset_eq_zero (insert x (D.image fun p => (b p)⁻¹)) ?_ ?_)
  · rw [Finset.card_insert_of_notMem hmem, Finset.card_image_of_injOn hS.inverse_injOn]
    exact (hS.degree_locator_le h hn).trans_lt (by exact_mod_cast Nat.lt_succ_self _)
  · refine Finset.forall_mem_insert _ _ _ |>.2 ⟨hx, fun y hy => ?_⟩
    obtain ⟨p, hp, rfl⟩ := Finset.mem_image.1 hy
    exact hS.eval_locator h hn hp

/-- The roots are simple, so the first guard of R218 does not fire. -/
theorem eval_derivative_ne_zero {p : Nat} (hp : p ∈ D) : (derivative Λ).eval (b p)⁻¹ ≠ 0 := by
  intro hzero
  have hΛ := h.locator_ne_zero
  have hquot : Λ /ₘ (X - C (b p)⁻¹) = 0 := by
    refine hS.eq_zero_of_eval ?_ fun q hq => ?_
    · exact (degree_divByMonic_lt Λ _ hΛ (by rw [degree_X_sub_C]; exact zero_lt_one)).trans_le (hS.degree_locator_le h hn)
    · by_cases hqp : q = p
      · rw [hqp, eval_divByMonic_self, hzero]
      · exact eval_divByMonic_root (hS.eval_locator h hn hq) (fun hinv => hqp (hS.inverse_injOn hq hp hinv))
          (hS.eval_locator h hn hp)
  refine hΛ ?_
  rw [← mul_divByMonic_eq_iff_isRoot.2 (hS.eval_locator h hn hp), hquot, mul_zero]

/-- Forney's formula gives the error values, up to the sign that characteristic 2 does not have (R218): what it gives accounts for
every syndrome, and so do they. -/
theorem eval_evaluator (hΩ : ∀ j < n, Ω.coeff j = (Λ * S).coeff j) (hΩhigh : ∀ j, L ≤ j → Ω.coeff j = 0) {p : Nat} (hp : p ∈ D) :
    Ω.eval (b p)⁻¹ = -v p * (derivative Λ).eval (b p)⁻¹ := by
  have hy : ∀ q ∈ D, Ω.eval (b q)⁻¹ / (derivative Λ).eval (b q)⁻¹ * (derivative Λ).eval (b q)⁻¹ = Ω.eval (b q)⁻¹ :=
    fun q hq => div_mul_cancel₀ _ (hS.eval_derivative_ne_zero h hn hq)
  have hsum := eq_zero_of_powerSums (v := fun q => v q + Ω.eval (b q)⁻¹ / (derivative Λ).eval (b q)⁻¹) hS.injOn hS.locator_ne 1
    (fun i hi => ?_) p hp
  · rw [← hy p hp, eq_neg_of_add_eq_zero_right hsum]
  · rw [← forney_syndromes (a := fun q => (b q)⁻¹) h.const_one h.high (hS.len_eq h hn).symm hS.inverse_injOn
      (fun q hq => hS.eval_locator h hn hq) hΩ hΩhigh hy (show i < n by omega), hS.sums i (by omega), ← Finset.sum_add_distrib]
    exact Finset.sum_congr rfl fun q _ => by rw [inv_inv, add_comm 1 i, add_mul]

end Found

end PowerSums

end Sys2Proof
end

section
/-! Error words (R224): words over positions 0 .. N - 1 with the same syndromes agree where they differ in at most nsyn places, and
the solver answers the error word of weight at most t wherever there is one inside the code. -/

namespace Sys2Proof

open Polynomial

variable {g : GfSlot} {c : RsConfig} {r w w' e : Nat → Nat} {n i : Nat}

/-! The value of a word at a power of α (R215). -/

theorem GfSlot.valueAt_congr (g : GfSlot) (hw : ∀ j < n, w j = w' j) (i : Nat) : g.valueAt w n i = g.valueAt w' n i :=
  congrArg Sys2Proof.xorAll (List.map_congr_left fun j hj => by rw [hw j (List.mem_range.1 hj)])

/-- The value is linear in the word. -/
theorem GfSlot.valueAt_xor (h : g.wf = true) (hw : ∀ j < n, w j < g.size) (hw' : ∀ j < n, w' j < g.size) (i : Nat) :
    g.valueAt (fun j => w j ^^^ w' j) n i = g.valueAt w n i ^^^ g.valueAt w' n i := by
  rw [valueAt, valueAt, valueAt, ← xorAll_map_xor]
  refine congrArg Sys2Proof.xorAll (List.map_congr_left fun j hj => ?_)
  rw [List.mem_range] at hj
  rw [GfSlot.mul_comm, mul_xor h (alpha_lt_size h _) (hw j hj) (hw' j hj), GfSlot.mul_comm, GfSlot.mul_comm g _ (w' j)]

theorem xorAll_eq_zero {l : List Nat} (hl : ∀ v ∈ l, v = 0) : xorAll l = 0 := by
  induction l with
  | nil => rfl
  | cons v l ih =>
    obtain ⟨hv, hl⟩ := List.forall_mem_cons.1 hl
    rw [xorAll_cons, hv, ih hl, Nat.xor_self]

/-- The omitted symbols of a shortened code count as 0 (R214). -/
theorem GfSlot.valueAt_extend (g : GfSlot) {N : Nat} (hn : n ≤ N) (hw : ∀ j, n ≤ j → w j = 0) (i : Nat) :
    g.valueAt w N i = g.valueAt w n i := by
  obtain ⟨d, rfl⟩ := Nat.exists_eq_add_of_le hn
  have htail : ∀ v ∈ ((List.range d).map (n + ·)).map fun j => g.mul (w j) (g.alpha (i * j)), v = 0 := fun v hv => by
    obtain ⟨j, hj, rfl⟩ := List.mem_map.1 hv
    obtain ⟨k, -, rfl⟩ := List.mem_map.1 hj
    rw [hw _ (Nat.le_add_right n k), GfSlot.zero_mul]
  rw [valueAt, List.range_add, List.map_append, xorAll_append, xorAll_eq_zero htail, Nat.xor_zero, valueAt]

/-- Words that differ inside a set of at most nsyn positions and have the same nsyn syndromes are equal (R224, the BCH bound). -/
theorem GfSlot.eq_of_valueAt_eq (h : g.wf = true) {D : Finset Nat} (hD : ∀ p ∈ D, p < g.order) (hw : ∀ j, w j < g.size)
    (hw' : ∀ j, w' j < g.size) (hout : ∀ j, j ∉ D → w j = w' j) {nsyn : Nat} (hcard : D.card ≤ nsyn)
    (hval : ∀ i, 1 ≤ i → i ≤ nsyn → g.valueAt w g.order i = g.valueAt w' g.order i) (j : Nat) : w j = w' j := by
  obtain ⟨K, _, φ, hφ⟩ := GfSlot.exists_model h
  by_cases hj : j ∈ D
  swap
  · exact hout j hj
  have ha : φ (g.alphaPower 1) ≠ 0 := hφ.ne_zero _ (alphaPower_ne_zero h 1) (alphaPower_lt_size h 1)
  have hzero := eq_zero_of_powerSums (v := fun p => φ (w p) - φ (w' p)) (b := fun p => φ (g.alphaPower 1) ^ p)
    (fun p hp q hq => hφ.alpha_injOn h (hD p hp) (hD q hq)) (fun p _ => pow_ne_zero p ha) 1 (fun i hi => ?_) j hj
  · exact hφ.injective h (hw j) (hw' j) (sub_eq_zero.1 hzero)
  · have hsum := congrArg φ (hval (1 + i) (by omega) (by omega))
    rw [hφ.valueAt h fun j _ => hw j, hφ.valueAt h fun j _ => hw' j, ← sub_eq_zero, ← Finset.sum_sub_distrib] at hsum
    rw [← hsum]
    refine (Finset.sum_congr rfl fun p _ => ?_).trans
      (Finset.sum_subset (fun p hp => Finset.mem_range.2 (hD p hp)) fun p _ hp => ?_)
    · rw [sub_mul, ← pow_mul, Nat.mul_comm]
    · rw [hout p hp, sub_self]

/-! Error words. -/

/-- The positions of a word's nonzero symbols (R224). -/
def GfSlot.support (g : GfSlot) (w : Nat → Nat) : Finset Nat := (Finset.range g.order).filter fun j => w j ≠ 0

theorem GfSlot.mem_support {p : Nat} : p ∈ g.support w ↔ p < g.order ∧ w p ≠ 0 := by simp [support]

theorem GfSlot.card_support (g : GfSlot) (w : Nat → Nat) :
    (g.support w).card = ((List.range g.order).filter fun j => w j ≠ 0).length := rfl

@[simp] theorem GfSlot.support_zero (g : GfSlot) : g.support (fun _ => 0) = ∅ := by simp [support]

theorem GfSlot.support_update {p v : Nat} (hp : p < g.order) (hv : v ≠ 0) (w : Nat → Nat) :
    g.support (Function.update w p v) = insert p (g.support w) := by
  ext j
  rw [Finset.mem_insert, mem_support, mem_support, Function.update_apply]
  by_cases hj : j = p
  · simp [hj, hp, hv]
  · simp [hj]

theorem GfSlot.eq_zero_of_notMem_support (hw : ∀ j, g.order ≤ j → w j = 0) {p : Nat} (hp : p ∉ g.support w) : w p = 0 := by
  by_contra hne
  exact hp (mem_support.2 ⟨not_le.1 fun hle => hne (hw p hle), hne⟩)

theorem errorWord.two_mul_card_le (he : errorWord g c r e) : 2 * (g.support e).card ≤ c.nsyn := by
  obtain ⟨-, -, -, hweight, -⟩ := he
  have ht : 2 * c.t ≤ c.nsyn := Nat.mul_div_le _ _
  rw [g.card_support]
  omega

/-- Words that have at most nsyn nonzero symbols together and the same nsyn syndromes are equal (R224). -/
theorem GfSlot.eq_of_card_support_le (h : g.wf = true) (hw : ∀ j, w j < g.size) (hw' : ∀ j, w' j < g.size)
    (hout : ∀ j, g.order ≤ j → w j = 0) (hout' : ∀ j, g.order ≤ j → w' j = 0) {nsyn : Nat}
    (hcard : (g.support w).card + (g.support w').card ≤ nsyn)
    (hval : ∀ i, 1 ≤ i → i ≤ nsyn → g.valueAt w g.order i = g.valueAt w' g.order i) : w = w' := by
  funext j
  refine eq_of_valueAt_eq h (D := g.support w ∪ g.support w') ?_ hw hw' ?_ ((Finset.card_union_le _ _).trans hcard) hval j
  · intro p hp
    rcases Finset.mem_union.1 hp with hp | hp <;> exact (mem_support.1 hp).1
  · intro p hp
    rw [Finset.mem_union, not_or] at hp
    rw [eq_zero_of_notMem_support hout hp.1, eq_zero_of_notMem_support hout' hp.2]

/-- The received word has at most one error word (R224). -/
theorem errorWord_unique (h : g.wf = true) {e' : Nat → Nat} (he : errorWord g c r e) (he' : errorWord g c r e') : e = e' := by
  have hcard := he.two_mul_card_le
  have hcard' := he'.two_mul_card_le
  obtain ⟨hlt, hout, -, -, hval⟩ := he
  obtain ⟨hlt', hout', -, -, hval'⟩ := he'
  exact GfSlot.eq_of_card_support_le h hlt hlt' hout hout' (nsyn := c.nsyn) (by omega) fun i hi hin =>
    (hval i hi hin).trans (hval' i hi hin).symm

/-! The solver on a word that has an error word (R216 to R220). -/

theorem mapM_pair_of_forall {f : Nat → Option Nat} {y : Nat → Nat} {l : List Nat} (h : ∀ p ∈ l, f p = some (y p)) :
    (l.mapM fun p => (f p).map fun v => (p, v)) = some (l.map fun p => (p, y p)) := by
  induction l with
  | nil => rfl
  | cons p l ih =>
    obtain ⟨hp, hl⟩ := List.forall_mem_cons.1 h
    simp [List.mapM_cons, hp, ih hl]

/-- The solver answers what Forney's formula gives, where none of the checks behind it fires (R216 to R220). -/
theorem locateErrors_eq_some {synd : List Nat} {bm : BmState} {y : Nat → Nat} (hbm : g.berlekampMassey synd = bm)
    (hdegree : bm.len ≤ c.t) (hcount : (g.chien bm.locator).length = bm.len)
    (hforney : g.forney bm.locator bm.len synd (g.chien bm.locator) = some ((g.chien bm.locator).map fun p => (p, y p)))
    (hrange : ∀ p ∈ g.chien bm.locator, p < c.n) (hbinary : c.binary = true → ∀ p ∈ g.chien bm.locator, y p = 1) :
    locateErrors g c synd = some ((g.chien bm.locator).map fun p => (p, y p)).reverse := by
  subst hbm
  simp only [locateErrors, if_neg (not_lt.2 hdegree), hcount, ne_eq, not_true_eq_false, if_false, hforney]
  rw [if_neg (by simpa using hrange), if_neg (by simpa using hbinary)]

/-- The Chien search lists exactly the positions below N whose inverse locator is a root (R217). -/
theorem GfSlot.mem_chien (g : GfSlot) {locator : List Nat} {p : Nat} :
    p ∈ g.chien locator ↔ p < g.order ∧ g.polyEval locator (g.alpha ((g.order - p) % g.order)) = 0 := by
  refine ⟨g.chien_root, fun ⟨hp, hroot⟩ => List.mem_filterMap.2 ⟨g.order - (p + 1), List.mem_range.2 (by omega), ?_⟩⟩
  have hperiod : g.alpha ((g.order - p) % g.order) = g.alpha (g.order - p) := by rw [alpha, Nat.mod_mod, ← alpha]
  rw [show g.order - (p + 1) + 1 = g.order - p by omega, ← hperiod, if_pos hroot, Nat.sub_sub_self hp.le, Nat.mod_eq_of_lt hp]

section Solver

variable {K : Type} [Field K] {φ : Nat → K}

/-- The syndromes of the received word r, whose symbols stand at positions 0 .. n - 1 (R214, R215). -/
def RsConfig.syndromes (c : RsConfig) (g : GfSlot) (r : Nat → Nat) : List Nat := g.syndromes c.nsyn ((List.range c.n).map r)

@[simp] theorem RsConfig.length_syndromes (c : RsConfig) (g : GfSlot) (r : Nat → Nat) : (c.syndromes g r).length = c.nsyn := by
  simp [syndromes, GfSlot.syndromes]

theorem RsConfig.getD_syndromes (c : RsConfig) (g : GfSlot) (r : Nat → Nat) {k : Nat} (hk : k < c.nsyn) :
    (c.syndromes g r).getD k 0 = g.valueAt r c.n (k + 1) := by
  simp [syndromes, GfSlot.syndromes, GfSlot.syndrome_map_range, hk]

theorem RsConfig.elements_syndromes (c : RsConfig) (h : g.wf = true) (r : Nat → Nat) : g.elements (c.syndromes g r) := fun k => by
  by_cases hk : k < c.nsyn
  · rw [c.getD_syndromes g r hk]
    exact GfSlot.valueAt_lt_size h _ _ _
  · rw [List.getD_eq_default _ _ (by simpa using hk)]
    exact Nat.two_pow_pos g.m

/-- The recursion's end on a received word (R216). -/
theorem RsConfig.bmInvariant (c : RsConfig) (hφ : g.Model K φ) (h : g.wf = true) (r : Nat → Nat) :
    BmInvariant g φ (c.syndromes g r) c.nsyn (g.berlekampMassey (c.syndromes g r)) := by
  simpa using berlekampMassey_invariant hφ h (c.elements_syndromes h r)

/-- α^((N - p) mod N) is read as the inverse of the locator of position p (R217). -/
theorem GfSlot.Model.alpha_neg (hφ : g.Model K φ) (h : g.wf = true) {p : Nat} (hp : p < g.order) :
    φ (g.alpha ((g.order - p) % g.order)) = (φ (g.alphaPower 1) ^ p)⁻¹ :=
  inv_eq_iff_eq_inv.1 (hφ.alpha_inverse h hp)

/-- A nonzero value that the derivative and the evaluator agree on is the error value: neither guard of R218 fires. -/
theorem errorValue_of_mul_derivative (hφ : g.Model K φ) (h : g.wf = true) {ev dv : List Nat} (hev : g.elements ev)
    (hdv : g.elements dv) {p y : Nat} (hne : y ≠ 0) (hlt : y < g.size)
    (hden : (listPoly φ dv).eval (φ (g.alpha ((g.order - p) % g.order))) ≠ 0)
    (hy : φ y * (listPoly φ dv).eval (φ (g.alpha ((g.order - p) % g.order))) =
      (listPoly φ ev).eval (φ (g.alpha ((g.order - p) % g.order)))) : g.errorValue ev dv p = some y := by
  have ha := GfSlot.alpha_lt_size h ((g.order - p) % g.order)
  have hdlt := GfSlot.polyEval_lt_size h dv (g.alpha ((g.order - p) % g.order))
  rw [eval_listPoly hφ h hdv ha] at hden hy
  rw [eval_listPoly hφ h hev ha] at hy
  have hd : g.polyEval dv (g.alpha ((g.order - p) % g.order)) ≠ 0 := fun hzero => hden (by rw [hzero, hφ.zero])
  have hvalue : g.mul (g.polyEval ev (g.alpha ((g.order - p) % g.order)))
      (g.inv (g.polyEval dv (g.alpha ((g.order - p) % g.order)))) = y := by
    refine hφ.injective h (GfSlot.mul_lt_size h _ _) hlt ?_
    rw [hφ.mul _ _ (GfSlot.polyEval_lt_size h _ _) (GfSlot.inv_lt_size h _), hφ.inv h hd hdlt, ← hy, mul_inv_cancel_right₀ hden]
  simp only [GfSlot.errorValue, hvalue]
  exact if_neg (not_or.2 ⟨hd, hne⟩)

variable (hφ : g.Model K φ) (h : g.wf = true) (he : errorWord g c r e)
include hφ h he

/-- The syndromes of the received word are those of its error word's symbols (R215, R224). -/
theorem errorWord.powerSums : PowerSums (listPoly φ (c.syndromes g r)) c.nsyn (g.support e)
    (fun p => φ (g.alphaPower 1) ^ p) (fun p => φ (e p)) := by
  obtain ⟨hlt, hout, -, -, hval⟩ := he
  refine ⟨fun p hp q hq => ?_, fun p _ => ?_, fun p hp => ?_, fun j hj => ?_⟩
  · exact hφ.alpha_injOn h (GfSlot.mem_support.1 hp).1 (GfSlot.mem_support.1 hq).1
  · exact pow_ne_zero p (hφ.ne_zero _ (GfSlot.alphaPower_ne_zero h 1) (GfSlot.alphaPower_lt_size h 1))
  · exact hφ.ne_zero _ (GfSlot.mem_support.1 hp).2 (hlt p)
  · rw [coeff_listPoly hφ, c.getD_syndromes g r hj, ← hval (j + 1) (by omega) (by omega), hφ.valueAt h fun j _ => hlt j]
    symm
    refine (Finset.sum_congr rfl fun p _ => ?_).trans (Finset.sum_subset (Finset.filter_subset _ _) fun p _ hp => ?_)
    · rw [← pow_mul, Nat.mul_comm]
    · rw [GfSlot.eq_zero_of_notMem_support hout hp, hφ.zero, zero_mul]

/-- The positions found are those of the error word (R217). -/
theorem errorWord.mem_chien {p : Nat} : p ∈ g.chien (g.berlekampMassey (c.syndromes g r)).locator ↔ p ∈ g.support e := by
  have hbm := c.bmInvariant hφ h r
  have hroot := (he.powerSums hφ h).root_iff hbm.lfsr he.two_mul_card_le
  have heval : ∀ q < g.order, g.polyEval (g.berlekampMassey (c.syndromes g r)).locator (g.alpha ((g.order - q) % g.order)) = 0 ↔
      ∃ p ∈ g.support e, (φ (g.alphaPower 1) ^ q)⁻¹ = (φ (g.alphaPower 1) ^ p)⁻¹ := fun q hq => by
    rw [← hroot, ← hφ.alpha_neg h hq, eval_listPoly hφ h hbm.locator (GfSlot.alpha_lt_size h _)]
    exact ⟨fun hzero => by rw [hzero, hφ.zero], hφ.eq_zero (GfSlot.polyEval_lt_size h _ _)⟩
  rw [g.mem_chien]
  constructor
  · rintro ⟨hp, hzero⟩
    obtain ⟨q, hq, hpq⟩ := (heval p hp).1 hzero
    rwa [hφ.alpha_injOn h hp (GfSlot.mem_support.1 hq).1 (inv_injective hpq)]
  · intro hp
    have hlt := (GfSlot.mem_support.1 hp).1
    exact ⟨hlt, (heval p hlt).2 ⟨p, hp, rfl⟩⟩

/-- The value found at a position is that of the error word, and neither guard fires (R218). -/
theorem errorWord.errorValue_eq {p : Nat} (hp : p ∈ g.support e) {bm : BmState} (hbmeq : bm = g.berlekampMassey (c.syndromes g r)) :
    g.errorValue (g.polyMulMod bm.locator (c.syndromes g r) (c.syndromes g r).length) (formalDerivative bm.locator bm.len) p =
      some (e p) := by
  have hbm := c.bmInvariant hφ h r
  have hS := he.powerSums hφ h
  rw [← hbmeq] at hbm
  obtain ⟨hlt, hne⟩ := GfSlot.mem_support.1 hp
  have hder := hS.eval_derivative_ne_zero hbm.lfsr he.two_mul_card_le hp
  have hforney := hS.eval_evaluator (Ω := listPoly φ (g.polyMulMod bm.locator (c.syndromes g r) (c.syndromes g r).length))
    hbm.lfsr he.two_mul_card_le (fun j hj => ?_) (fun j hj => ?_) hp
  · rw [← listPoly_formalDerivative hφ h hbm.lfsr.high, ← hφ.alpha_neg h hlt] at hder hforney
    rw [neg_eq_of_add_eq_zero_right (hφ.add_self h (φ (e p)))] at hforney
    exact errorValue_of_mul_derivative hφ h (GfSlot.elements_polyMulMod h _ _ _)
      (GfSlot.elements_formalDerivative hbm.locator bm.len) hne (he.1 p) hder hforney.symm
  · rw [coeff_polyMulMod hφ h hbm.locator (c.elements_syndromes h r), c.length_syndromes, if_pos hj]
  · rw [coeff_polyMulMod hφ h hbm.locator (c.elements_syndromes h r), c.length_syndromes]
    split_ifs with hlt
    · exact hbm.lfsr.generates rfl hj hlt
    · rfl

/-- A word with an error word inside the code: the solver answers it, positions rising (R224). -/
theorem errorWord.locateErrors_eq (hn : c.n ≤ g.order) (hin : ∀ j, c.n ≤ j → e j = 0) :
    locateErrors g c (c.syndromes g r) = some (((List.range c.n).filter fun j => e j ≠ 0).map fun p => (p, e p)) := by
  set bm := g.berlekampMassey (c.syndromes g r) with hbmeq
  have hlen : bm.len = (g.support e).card := (he.powerSums hφ h).len_eq (c.bmInvariant hφ h r).lfsr he.two_mul_card_le
  have hmem : ∀ p, p ∈ g.chien bm.locator ↔ p ∈ g.support e := fun p => he.mem_chien hφ h
  have hcount : (g.chien bm.locator).length = bm.len := by
    rw [hlen, ← List.toFinset_card_of_nodup (g.chien_nodup _)]
    exact congrArg Finset.card (Finset.ext fun p => by rw [List.mem_toFinset, hmem])
  have hrising : (g.chien bm.locator).reverse = (List.range c.n).filter fun j => e j ≠ 0 := by
    refine List.Pairwise.eq_of_mem_iff (r := (· < ·)) (List.pairwise_reverse.2 (g.chien_pairwise _))
      (List.pairwise_lt_range.filter _) fun p => ?_
    rw [List.mem_reverse, hmem, GfSlot.mem_support, List.mem_filter, List.mem_range, decide_eq_true_eq]
    exact ⟨fun ⟨_, hne⟩ => ⟨not_le.1 fun hle => hne (hin p hle), hne⟩, fun ⟨hp, hne⟩ => ⟨hp.trans_le hn, hne⟩⟩
  have hforney := mapM_pair_of_forall (l := g.chien bm.locator) fun p hp => he.errorValue_eq hφ h ((hmem p).1 hp) hbmeq
  obtain ⟨-, -, hbinary, hweight, -⟩ := he
  rw [← g.card_support, ← hlen] at hweight
  rw [← hrising, List.map_reverse]
  refine locateErrors_eq_some (bm := bm) rfl hweight hcount hforney (fun p hp => ?_) fun hb p hp => ?_
  · exact not_le.1 fun hle => (GfSlot.mem_support.1 ((hmem p).1 hp)).2 (hin p hle)
  · have hone := hbinary hb p
    have hne := (GfSlot.mem_support.1 ((hmem p).1 hp)).2
    omega

end Solver

end Sys2Proof
end

section
/-! RSDEC (R212 to R226): how it ends on every word, which words it corrects, and what follows for one and two wrong symbols. -/

namespace Sys2Proof

variable {g : GfSlot} {c : RsConfig} {r : Nat → Nat}

theorem RsConfig.n_le_order (hc : c.wf g = true) : c.n ≤ g.order := by
  simp only [RsConfig.wf, Bool.and_eq_true, decide_eq_true_eq] at hc
  omega

/-- RSDEC answers located errors under CORRECTED, and none under any other status (R212, R213). -/
theorem rsDecode_silent_or_corrected (policy : InvalidSymbolPolicy) (g : GfSlot) (c : RsConfig) (w : List Nat) :
    (∃ st, (st = .noError ∨ st = .uncorrectable ∨ st = .invalidInput) ∧ rsDecode policy g c w = { status := st, errors := [] }) ∨
      ∃ synd errors, locateErrors g c synd = some errors ∧ rsDecode policy g c w = { status := .corrected, errors := errors } := by
  rcases rsDecode_cases policy g c w with ⟨-, -, h⟩ | ⟨-, h⟩
  · exact .inl ⟨_, .inr (.inr rfl), h⟩
  · rw [h]
    rcases rsSolve_cases g c (workingCopy g c w) with ⟨-, hr⟩ | ⟨-, ⟨errors, hloc, hr⟩ | ⟨-, hr⟩⟩
    · exact .inl ⟨_, .inl rfl, hr⟩
    · exact .inr ⟨_, errors, hloc, hr⟩
    · exact .inl ⟨_, .inr (.inl rfl), hr⟩

/-- What the solver locates is an error word inside the code (R224). -/
theorem exists_errorWord_of_locateErrors (h : g.wf = true) (hn : c.n ≤ g.order) (hr : ∀ j < c.n, r j < g.size)
    {errors : List (Nat × Nat)} (hloc : locateErrors g c (c.syndromes g r) = some errors) :
    ∃ e, errorWord g c r e ∧ ∀ j, c.n ≤ j → e j = 0 := by
  obtain ⟨K, _, φ, hφ⟩ := GfSlot.exists_model h
  obtain ⟨-, hweight, -⟩ := locateErrors_spec hloc
  obtain ⟨ps, y, rfl, hps⟩ := locateErrors_clears hφ h (c.elements_syndromes h r) hloc
  have hzero : ∀ j, j ∉ ps → correctionAt ps y j = 0 := fun j hj => if_neg hj
  have hvalue : ∀ j, j ∈ ps → correctionAt ps y j = y j := fun j hj => if_pos hj
  have hout : ∀ j, c.n ≤ j → correctionAt ps y j = 0 := fun j hj => hzero j fun hmem => absurd (hps.inCode j hmem) (by omega)
  have hlt : ∀ j, correctionAt ps y j < g.size := fun j => by
    by_cases hj : j ∈ ps
    · rw [hvalue j hj]
      exact hps.value_lt j hj
    · rw [hzero j hj]
      exact Nat.two_pow_pos g.m
  refine ⟨correctionAt ps y, ⟨hlt, fun j hj => hout j (hn.trans hj), fun hb j => ?_, ?_, fun i hi hin => ?_⟩, hout⟩
  · by_cases hj : j ∈ ps
    · rw [hvalue j hj, hps.binary hb j hj]
    · rw [hzero j hj]
      exact Nat.zero_le 1
  · rw [← g.card_support]
    have hsub : g.support (correctionAt ps y) ⊆ ps.toFinset := fun p hp => by
      by_contra hmem
      exact (GfSlot.mem_support.1 hp).2 (hzero p (by simpa using hmem))
    calc (g.support (correctionAt ps y)).card
        ≤ ps.toFinset.card := Finset.card_le_card hsub
      _ ≤ ps.length := ps.toFinset_card_le
      _ ≤ c.t := by simpa using hweight
  · have hsum := hps.valueAt_corrected hφ h hr hi hin
    rw [GfSlot.valueAt_xor h hr fun j _ => hlt j, Nat.xor_eq_zero_iff] at hsum
    rw [g.valueAt_extend hn hout, hsum]

end Sys2Proof

namespace Sys2Proof.Machine

variable {s s' : State} {g : GfSlot} {c : RsConfig} {x : BitVec 8} {e : Nat → Nat}

theorem State.endsWith_applyRs (s : State) (g : GfSlot) (c : RsConfig) (r : RsResult) :
    s.endsWith (s.applyRs g c r) r.status (r.errors.map Prod.fst) :=
  ⟨rfl, rfl, rfl, State.read_outcome_epos _ _ _, rfl, rfl, rfl, rfl, rfl, rfl⟩

/-- A decode that locates nothing writes the outcome only (R212). -/
theorem exec_rsdec_silent (hs : s.fault = 0) (hcode : s.cfg.rsCode x.toNat = some (g, c)) {st : DecodeStatus}
    (hr : rsDecode s.cfg.invalidSymbols g c (s.symbols c.n) = { status := st, errors := [] }) :
    ∃ t, exec (.rsdec x) s = .next t ∧ s.endsWith t st [] ∧ t.buf = s.buf ∧ t.sym = s.sym := by
  refine ⟨_, exec_rsdec hs hcode, ?_, rfl, ?_⟩
  · rw [hr]
    exact s.endsWith_applyRs g c _
  · rw [hr]
    rfl

/-- Settles O41: the outcome is one of the solver's answers, whose positions the solver's checks bound. -/
theorem rsdecCompletes : Obligations.RsdecCompletes := by
  intro s x g c hcfg hs hcode
  have hg : g.wf = true := Config.gfSlot_wf hcfg (Config.rsCode_eq_some_iff.1 hcode).2
  have ht : c.t ≤ 127 := (RsConfig.bounds_of_wf hg (Config.rsCode_wf hcfg hcode)).2
  refine ⟨ht, _, _, _, exec_rsdec hs hcode, s.endsWith_applyRs g c _, rfl, ?_⟩
  have hconforms := rsDecode_conforms (midway := False) s.cfg.invalidSymbols g c (s.symbols c.n)
  have hother := fun j => read_correctSymbols_of_notMem (workingCopy g c (s.symbols c.n))
    (errors := (rsDecode s.cfg.invalidSymbols g c (s.symbols c.n)).errors) s.sym (j := j)
  rcases rsDecode_silent_or_corrected s.cfg.invalidSymbols g c (s.symbols c.n) with ⟨st, hst, hr⟩ | ⟨synd, errors, hloc, hr⟩
  · have hne : st ≠ .corrected := by rcases hst with rfl | rfl | rfl <;> decide
    rw [hr] at hother ⊢
    exact ⟨hst.imp_right .inr, fun hc => absurd hc hne, fun _ => ⟨rfl, rfl⟩, hother⟩
  · obtain ⟨-, hle, hrising, hlt, -⟩ := locateErrors_spec hloc
    rw [hr] at hconforms hother ⊢
    have hpos := List.length_pos_iff.2 (hconforms.correctedReports rfl)
    exact ⟨.inr (.inl rfl), fun _ => ⟨hpos, by simpa using hle, hrising, List.forall_mem_map.2 hlt⟩, fun hc => absurd rfl hc,
      hother⟩

/-- Settles O42: the policy decides about the invalid symbol, the zero syndromes about the rest. -/
theorem rsdecValidity : Obligations.RsdecValidity := by
  intro s x g c hs hcode
  refine ⟨fun hpolicy hinvalid => exec_rsdec_silent hs hcode ?_, fun hvalid hword =>
    exec_rsdec_silent hs hcode (rsDecode_of_isCodeword hword hvalid)⟩
  rcases rsDecode_cases s.cfg.invalidSymbols g c (s.symbols c.n) with ⟨-, -, hr⟩ | ⟨hignore | hall, -⟩
  · exact hr
  · rw [hpolicy] at hignore
    cases hignore
  · exact absurd (fun j hj => hall _ (List.mem_map.2 ⟨j, List.mem_range.2 hj, rfl⟩)) hinvalid

/-! Words that are no codeword. -/

/-- Where the policy admits the word, RSDEC solves its working copy (R213). -/
theorem rsDecode_of_valid (hvalid : s.cfg.invalidSymbols = .ignore ∨ s.allValid g c) :
    rsDecode s.cfg.invalidSymbols g c (s.symbols c.n) = rsSolve g c ((List.range c.n).map (s.received g c)) := by
  rw [← workingCopy_symbols]
  rcases rsDecode_cases s.cfg.invalidSymbols g c (s.symbols c.n) with ⟨hpolicy, ⟨v, hv, hinvalid⟩, -⟩ | ⟨-, hsolve⟩
  · obtain ⟨j, hj, rfl⟩ := List.mem_map.1 hv
    have hall := hvalid.resolve_left (by rw [hpolicy]; decide) j (List.mem_range.1 hj)
    rw [hinvalid] at hall
    cases hall
  · exact hsolve

/-- On a word that is no codeword, RSDEC ends as the location of its errors does (R212, R213). -/
theorem rsDecode_of_not_isCodeword (hvalid : s.cfg.invalidSymbols = .ignore ∨ s.allValid g c) (hnot : ¬ s.isCodeword g c) :
    rsDecode s.cfg.invalidSymbols g c (s.symbols c.n) =
      (locateErrors g c (c.syndromes g (s.received g c))).elim { status := .uncorrectable, errors := [] }
        fun errors => { status := .corrected, errors := errors } := by
  rw [rsDecode_of_valid hvalid, RsConfig.syndromes]
  rcases rsSolve_cases g c ((List.range c.n).map (s.received g c)) with ⟨hzero, -⟩ | ⟨-, ⟨errors, hloc, hr⟩ | ⟨hloc, hr⟩⟩
  · refine absurd (fun i hi hin => ?_) hnot
    have hmem := hzero _ (List.mem_map_of_mem (List.mem_range.2 (show i - 1 < c.nsyn by omega)))
    rwa [GfSlot.syndrome_map_range, Nat.sub_add_cancel hi] at hmem
  · rw [hr, hloc, Option.elim_some]
  · rw [hr, hloc, Option.elim_none]

theorem received_lt_size (s : State) (g : GfSlot) (c : RsConfig) (j : Nat) : s.received g c j < g.size :=
  (symbolValid_iff.1 (symbolValid_received s g c j)).1

section BoundedDistance

variable (hg : g.wf = true) (hn : c.n ≤ g.order) (hs : s.fault = 0) (hcode : s.cfg.rsCode x.toNat = some (g, c))
  (hvalid : s.cfg.invalidSymbols = .ignore ∨ s.allValid g c) (hnot : ¬ s.isCodeword g c)
include hg hn hs hcode hvalid hnot

/-- A word with an error word inside the code is corrected by it (R221, R224). -/
theorem exec_rsdec_corrected (he : errorWord g c (s.received g c) e) (hin : ∀ j, c.n ≤ j → e j = 0) :
    ∃ t, exec (.rsdec x) s = .next t ∧ s.endsWith t .corrected ((List.range c.n).filter fun j => e j ≠ 0) ∧ t.buf = s.buf ∧
      ∀ j, t.sym.read j = if e j = 0 then s.sym.read j else BitVec.ofNat 32 (s.received g c j ^^^ e j) := by
  obtain ⟨K, _, φ, hφ⟩ := GfSlot.exists_model hg
  have hr := rsDecode_of_not_isCodeword hvalid hnot
  rw [he.locateErrors_eq hφ hg hn hin, Option.elim_some] at hr
  refine ⟨_, exec_rsdec hs hcode, ?_, rfl, fun j => ?_⟩
  · have hends := s.endsWith_applyRs g c (rsDecode s.cfg.invalidSymbols g c (s.symbols c.n))
    rw [hr] at hends ⊢
    simpa [List.map_map, Function.comp_def] using hends
  · rw [State.applyRs_sym, hr, read_correctSymbols _ _ e (List.nodup_range.filter _)]
    by_cases hj : e j = 0
    · rw [if_neg (by simp [hj]), if_pos hj]
    · have hlt : j < c.n := not_le.1 fun hle => hj (hin j hle)
      rw [if_pos (by simp [hj, hlt]), if_neg hj, workingCopy_symbols]
      simp [hlt]

/-- A word without an error word inside the code is uncorrectable (R224). -/
theorem exec_rsdec_uncorrectable (hnone : ∀ e, errorWord g c (s.received g c) e → ∃ j, c.n ≤ j ∧ e j ≠ 0) :
    ∃ t, exec (.rsdec x) s = .next t ∧ s.endsWith t .uncorrectable [] ∧ t.buf = s.buf ∧ t.sym = s.sym := by
  refine exec_rsdec_silent hs hcode ?_
  have hr := rsDecode_of_not_isCodeword hvalid hnot
  cases hloc : locateErrors g c (c.syndromes g (s.received g c)) with
  | none => rwa [hloc, Option.elim_none] at hr
  | some errors =>
    obtain ⟨e, he, hin⟩ := exists_errorWord_of_locateErrors hg hn (fun j _ => received_lt_size s g c j) hloc
    obtain ⟨j, hj, hne⟩ := hnone e he
    exact absurd (hin j hj) hne

end BoundedDistance

/-- Settles O45: the error word is unique by the BCH bound; the recursion finds it, and what the solver finds is one. -/
theorem rsBoundedDistance : Obligations.RsBoundedDistance := by
  intro s x g c hcfg hs hcode hvalid
  have hg : g.wf = true := Config.gfSlot_wf hcfg (Config.rsCode_eq_some_iff.1 hcode).2
  have hn : c.n ≤ g.order := RsConfig.n_le_order (Config.rsCode_wf hcfg hcode)
  exact ⟨fun e e' he he' => congrFun (errorWord_unique hg he he'),
    fun hword => exec_rsdec_silent hs hcode (rsDecode_of_isCodeword hword hvalid),
    fun hnot e he hin => exec_rsdec_corrected hg hn hs hcode hvalid hnot he hin,
    fun hnot hnone => exec_rsdec_uncorrectable hg hn hs hcode hvalid hnot hnone⟩

end Sys2Proof.Machine
end

section
/-! Codewords with wrong symbols (R224, R226): the errors have the syndromes of the received word, so one wrong symbol is its error
word, and two wrong symbols of RS(12,9) leave no room for one. -/

namespace Sys2Proof.Machine

variable {s s' : State} {g : GfSlot} {c : RsConfig} {e : Nat → Nat}

/-- s' is the codeword of s with the errors e added: symbols of the code's alphabet, inside the code (R214, R226). -/
structure Corrupted (g : GfSlot) (c : RsConfig) (s s' : State) (e : Nat → Nat) : Prop where
  valid : s.allValid g c
  codeword : s.isCodeword g c
  read : ∀ j, s'.sym.read j = s.sym.read j ^^^ BitVec.ofNat 32 (e j)
  inCode : ∀ j, c.n ≤ j → e j = 0
  value_lt : ∀ j, e j < g.size
  binary : c.binary = true → ∀ j, e j ≤ 1

namespace Corrupted

variable (h : Corrupted g c s s' e) (hg : g.wf = true)
include h hg

/-- A wrong symbol is still one of the alphabet, the sum of the right one and its error. -/
theorem symbol {j : Nat} (hj : j < c.n) :
    symbolValid g c (s'.sym.read j).toNat = true ∧ (s'.sym.read j).toNat = (s.sym.read j).toNat ^^^ e j := by
  obtain ⟨hlt, htwo⟩ := symbolValid_iff.1 (h.valid j hj)
  obtain ⟨-, hm, -⟩ := GfSlot.wf_iff.1 hg
  have hsize : g.size ≤ 2 ^ 8 := Nat.pow_le_pow_right (by decide) hm
  have hread : (s'.sym.read j).toNat = (s.sym.read j).toNat ^^^ e j := by
    rw [h.read, BitVec.toNat_xor, BitVec.toNat_ofNat, Nat.mod_eq_of_lt (by have := h.value_lt j; omega)]
  rw [hread]
  refine ⟨symbolValid_iff.2 ⟨GfSlot.xor_lt_size hlt (h.value_lt j), fun hb => ?_⟩, rfl⟩
  exact Nat.xor_lt_two_pow (n := 1) (htwo hb) (Nat.lt_succ_of_le (h.binary hb j))

theorem allValid : s'.allValid g c := fun _ hj => (h.symbol hg hj).1

theorem received {j : Nat} (hj : j < c.n) : s'.received g c j = (s.sym.read j).toNat ^^^ e j := by
  obtain ⟨hvalid, hsum⟩ := h.symbol hg hj
  rw [State.received, if_pos hvalid, hsum]

variable (hn : c.n ≤ g.order)
include hn

/-- The received word has the syndromes of the errors (R215). -/
theorem valueAt_errors {i : Nat} (hi : 1 ≤ i) (hin : i ≤ c.nsyn) : g.valueAt e g.order i = g.valueAt (s'.received g c) c.n i := by
  have hsum : ∀ j < c.n, s'.received g c j = s.received g c j ^^^ e j := fun j hj => by
    rw [h.received hg hj, State.received, if_pos (h.valid j hj)]
  rw [g.valueAt_extend hn h.inCode, g.valueAt_congr hsum,
    GfSlot.valueAt_xor hg (fun j _ => received_lt_size s g c j) fun j _ => h.value_lt j, h.codeword i hi hin, Nat.zero_xor]

/-- Another word with the syndromes of the received word is the errors, where both together have at most nsyn symbols (R224). -/
theorem eq_errors {w : Nat → Nat} (hw : ∀ j, w j < g.size) (hout : ∀ j, g.order ≤ j → w j = 0)
    (hcard : (g.support w).card + (g.support e).card ≤ c.nsyn)
    (hval : ∀ i, 1 ≤ i → i ≤ c.nsyn → g.valueAt w g.order i = g.valueAt (s'.received g c) c.n i) : w = e :=
  GfSlot.eq_of_card_support_le hg hw h.value_lt hout (fun j hj => h.inCode j (hn.trans hj)) hcard fun i hi hin =>
    (hval i hi hin).trans (h.valueAt_errors hg hn hi hin).symm

/-- At most nsyn errors, and at least one, never make a codeword (R224). -/
theorem not_isCodeword (hcard : (g.support e).card ≤ c.nsyn) {p : Nat} (hp : e p ≠ 0) : ¬ s'.isCodeword g c := fun hword => by
  have hzero : ∀ i, g.valueAt (fun _ => 0) g.order i = 0 := g.valueAt_extend (Nat.zero_le _) fun _ _ => rfl
  have herr := h.eq_errors hg hn (w := fun _ => 0) (fun _ => Nat.two_pow_pos g.m) (fun _ _ => rfl) (by simpa using hcard)
    fun i hi hin => (hzero i).trans (hword i hi hin).symm
  exact hp (congrFun herr p).symm

/-- At most t errors are the error word of the received word (R224). -/
theorem isErrorWord (hcard : (g.support e).card ≤ c.t) : errorWord g c (s'.received g c) e :=
  ⟨h.value_lt, fun j hj => h.inCode j (hn.trans hj), h.binary, by rwa [← g.card_support], fun _ hi hin =>
    h.valueAt_errors hg hn hi hin⟩

end Corrupted

/-- A codeword is itself with no errors. -/
theorem Corrupted.refl (hvalid : s.allValid g c) (hword : s.isCodeword g c) : Corrupted g c s s fun _ => 0 :=
  ⟨hvalid, hword, fun j => by simp, fun _ _ => rfl, fun _ => Nat.two_pow_pos g.m, fun _ _ => Nat.zero_le 1⟩

/-- One wrong symbol more. -/
theorem Corrupted.write (h : Corrupted g c s s' e) {p v : Nat} (hp : p < c.n) (hv : v < g.size) (hbin : c.binary = true → v = 1) :
    Corrupted g c s { s' with sym := s'.sym.write p (s.sym.read p ^^^ BitVec.ofNat 32 v) } (Function.update e p v) := by
  refine ⟨h.valid, h.codeword, fun j => ?_, fun j hj => ?_, fun j => ?_, fun hb j => ?_⟩
  · rw [Mem.read_write, Function.update_apply]
    split_ifs with hj
    · rw [hj]
    · exact h.read j
  · rw [Function.update_apply, if_neg (by omega), h.inCode j hj]
  · rw [Function.update_apply]
    split_ifs
    · exact hv
    · exact h.value_lt j
  · rw [Function.update_apply]
    split_ifs
    · exact (hbin hb).le
    · exact h.binary hb j

/-- At most t errors are taken back, and their positions reported (R224). -/
theorem Corrupted.exec_rsdec_restores (h : Corrupted g c s s' e) (hg : g.wf = true) (hn : c.n ≤ g.order) {x : BitVec 8}
    (hs : s'.fault = 0) (hcode : s'.cfg.rsCode x.toNat = some (g, c)) (hcard : (g.support e).card ≤ c.t) {p : Nat} (hp : e p ≠ 0) :
    ∃ t, exec (.rsdec x) s' = .next t ∧ s'.endsWith t .corrected ((List.range c.n).filter fun j => e j ≠ 0) ∧ t.buf = s'.buf ∧
      ∀ j, t.sym.read j = s.sym.read j := by
  have ht : c.t ≤ c.nsyn := Nat.div_le_self _ _
  obtain ⟨t, hexec, hends, hbuf, hsym⟩ := exec_rsdec_corrected hg hn hs hcode (.inr (h.allValid hg))
    (h.not_isCodeword hg hn (hcard.trans ht) hp) (h.isErrorWord hg hn hcard) h.inCode
  refine ⟨t, hexec, hends, hbuf, fun j => ?_⟩
  rw [hsym]
  by_cases hj : e j = 0
  · rw [if_pos hj, h.read, hj, BitVec.xor_zero]
  · have hlt : j < c.n := not_le.1 fun hle => hj (h.inCode j hle)
    rw [if_neg hj, h.received hg hlt, Nat.xor_assoc, Nat.xor_self, Nat.xor_zero, BitVec.ofNat_toNat, BitVec.setWidth_eq]

/-- Settles O43: one error is at most t of them. -/
theorem rsSingleErrorRestored : Obligations.RsSingleErrorRestored := by
  intro s x g c p e hcfg hs hcode hnsyn hvalid hword hp hpos hlt hbin s' hs'
  have hg : g.wf = true := Config.gfSlot_wf hcfg (Config.rsCode_eq_some_iff.1 hcode).2
  have hn : c.n ≤ g.order := RsConfig.n_le_order (Config.rsCode_wf hcfg hcode)
  subst hs'
  have hcard : (g.support (Function.update (fun _ => 0) p e)).card ≤ c.t := by
    rw [GfSlot.support_update (by omega) hpos.ne', GfSlot.support_zero]
    exact (Nat.le_div_iff_mul_le (by decide)).2 hnsyn
  have hpositions : ((List.range c.n).filter fun j => Function.update (fun _ => 0) p e j ≠ 0) = [p] := by
    refine List.Pairwise.eq_of_mem_iff (r := (· < ·)) (List.pairwise_lt_range.filter _) (List.pairwise_singleton _ p) fun j => ?_
    by_cases hj : j = p
    · simp [hj, hp, hpos.ne']
    · simp [hj]
  rw [← hpositions]
  have hbad := (Corrupted.refl hvalid hword).write hp hlt hbin
  exact hbad.exec_rsdec_restores hg hn hs hcode hcard (p := p) (by simpa using hpos.ne')

/-- Settles O44: an error word of one symbol and the two errors would be two words of at most three symbols with the same three
syndromes. -/
theorem shortCodeTwoErrorsDetected : Obligations.ShortCodeTwoErrorsDetected := by
  intro s g c p q e f hcfg hs hcode hvalid hword hp hq hpq hepos helt hfpos hflt m s' hm hs'
  subst hm hs'
  obtain ⟨hconfig, hslot⟩ := Config.rsCode_eq_some_iff.1 hcode
  have hg : g.wf = true := Config.gfSlot_wf hcfg hslot
  have hn : c.n ≤ g.order := RsConfig.n_le_order (Config.rsCode_wf hcfg hcode)
  cases hconfig
  cases hslot
  have hbad := ((Corrupted.refl hvalid hword).write hp helt nofun).write hq hflt nofun
  set g : GfSlot := { m := 8, poly := 0x11D }
  have hcard : (g.support (Function.update (Function.update (fun _ => 0) p e) q f)).card = 2 := by
    rw [GfSlot.support_update (hq.trans_le hn) hfpos.ne', GfSlot.support_update (hp.trans_le hn) hepos.ne', GfSlot.support_zero]
    exact Finset.card_pair hpq.symm
  refine exec_rsdec_uncorrectable hg hn hs hcode (.inr (hbad.allValid hg))
    (hbad.not_isCodeword hg hn (by rw [hcard]; decide) (p := q) (by simpa using hfpos.ne')) fun w hw => ?_
  obtain ⟨hlt, hout, -, hweight, hval⟩ := hw
  rw [← GfSlot.card_support] at hweight
  have heq := hbad.eq_errors hg hn hlt hout (by rw [hcard]; exact Nat.add_le_add_right hweight 2) hval
  rw [heq, hcard] at hweight
  exact absurd hweight (by decide)

end Sys2Proof.Machine
end

section
/-! The Hamming codes by their columns (R250 to R261). A codeword has syndrome 0 and each wrong bit adds its column. The columns of
a well-formed code are distinct and not 0, so one wrong bit is found; what two wrong bits end in is what the sum of two columns
can be. -/

namespace Sys2Proof

/-! Bits flipped one after another, and the parity of a weight. -/

theorem flipWindow_flipWindow (w : List Bool) (ps qs : List Nat) :
    flipWindow (flipWindow w ps) qs = flipWindow w (ps ++ qs) := by
  refine List.ext_getElem (by simp) fun q h₁ h₂ => ?_
  simp only [flipWindow, List.getElem_mapIdx, List.count_append, Nat.add_mod (ps.count q), Bool.xor_assoc]
  rcases Nat.mod_two_eq_zero_or_one (ps.count q) with hp | hp <;>
    rcases Nat.mod_two_eq_zero_or_one (qs.count q) with hq | hq <;> simp [hp, hq]

theorem popcount_succ (width v : Nat) : popcount (width + 1) v = popcount width v + (v.testBit width).toNat := by
  rw [popcount, List.range_succ, List.countP_append, popcount]
  cases hbit : v.testBit width <;> simp [hbit]

theorem popcount_xor_mod_two (width u v : Nat) :
    popcount width (u ^^^ v) % 2 = (popcount width u + popcount width v) % 2 := by
  induction width with
  | zero => rfl
  | succ width ih =>
    rw [popcount_succ, popcount_succ, popcount_succ, Nat.testBit_xor]
    cases u.testBit width <;> cases v.testBit width <;> simp <;> omega

theorem xor_ne_left {a b : Nat} (hb : b ≠ 0) : a ^^^ b ≠ a := fun h =>
  hb (by rw [← Nat.zero_xor b, ← Nat.xor_self a, Nat.xor_assoc, h, Nat.xor_self])

/-! Columns. -/

namespace HamCode

/-- What bit q of a codeword adds to the syndrome: its table entry, or the power of two of its parity bit (R256, R257). -/
def column (c : HamCode) (q : Nat) : Nat := tableColumn c.k c.p (fun i => c.table.getD i 0) q

/-- The codes R251 asks for: a well-formed table, and with SECDED columns of odd weight only, as R254 has them. -/
structure Wf (c : HamCode) : Prop where
  data_le : c.k ≤ c.n
  table : hamTableWf c.k c.p c.table = true
  odd : c.secded = true → ∀ q < c.n, popcount c.p (c.column q) % 2 = 1

variable {c : HamCode} {w : List Bool} {i j q r syn : Nat}

theorem column_of_lt (hq : q < c.k) : c.column q = c.table.getD q 0 := if_pos hq

theorem column_of_le (hq : c.k ≤ q) : c.column q = 2 ^ (c.p - 1 - (q - c.k)) := if_neg (by omega)

theorem column_of_errorIndex (h : c.errorIndex syn = some j) : c.column j = syn := tableColumn_of_errorIndex h

/-- The search finds a position for the column of every position (R258). -/
theorem errorIndex_column_ne_none (hq : q < c.n) : c.errorIndex (c.column q) ≠ none := by
  unfold errorIndex
  split
  · exact Option.some_ne_none _
  · rename_i hdata
    rw [List.find?_eq_none] at hdata
    have hk : c.k ≤ q := by
      by_contra hlt
      exact hdata q (List.mem_range.2 (by omega)) (by simp [column_of_lt (Nat.lt_of_not_le hlt)])
    rw [ne_eq, Option.map_eq_none_iff, List.find?_eq_none]
    intro hparity
    refine hparity (q - c.k) (List.mem_range.2 ?_) (by simp [column_of_le hk])
    rw [p]
    omega

namespace Wf

variable (h : c.Wf)
include h

theorem data_add_parity : c.k + c.p = c.n := by
  have := h.data_le
  rw [p]
  omega

theorem length_table : c.table.length = c.k := by
  have ht := h.table
  simp only [hamTableWf, Bool.and_eq_true, beq_iff_eq] at ht
  exact ht.1.1

theorem table_nodup : c.table.Nodup := by
  have ht := h.table
  simp only [hamTableWf, Bool.and_eq_true, decide_eq_true_eq] at ht
  exact ht.1.2

/-- A data bit's column is a nonzero value of p bits that is no parity bit's column. -/
theorem column_data (hq : q < c.k) : c.column q < 2 ^ c.p ∧ c.column q ≠ 0 ∧ ∀ j < c.p, c.column q ≠ 2 ^ j := by
  have ht := h.table
  simp only [hamTableWf, Bool.and_eq_true, List.all_eq_true, decide_eq_true_eq, bne_iff_ne, List.mem_range] at ht
  obtain ⟨-, hentries⟩ := ht
  rw [column_of_lt hq, List.getD_eq_getElem _ _ (h.length_table ▸ hq)]
  obtain ⟨⟨hlt, hne⟩, hpow⟩ := hentries _ (List.getElem_mem _)
  exact ⟨hlt, hne, hpow⟩

theorem column_ne_zero (q : Nat) : c.column q ≠ 0 := by
  by_cases hk : q < c.k
  · exact (h.column_data hk).2.1
  · rw [column_of_le (Nat.le_of_not_lt hk)]
    positivity

theorem column_data_ne_parity (hq : q < c.k) (hk : c.k ≤ r) (hr : r < c.n) : c.column q ≠ c.column r := by
  have := h.data_add_parity
  rw [column_of_le hk]
  exact (h.column_data hq).2.2 _ (by omega)

theorem column_inj (hq : q < c.n) (hr : r < c.n) (heq : c.column q = c.column r) : q = r := by
  have := h.data_add_parity
  rcases Nat.lt_or_ge q c.k with hqk | hqk <;> rcases Nat.lt_or_ge r c.k with hrk | hrk
  · have hlen := h.length_table
    rw [column_of_lt hqk, column_of_lt hrk, List.getD_eq_getElem _ _ (by omega), List.getD_eq_getElem _ _ (by omega)] at heq
    exact h.table_nodup.getElem_inj_iff.1 heq
  · exact absurd heq (h.column_data_ne_parity hqk hrk hr)
  · exact absurd heq.symm (h.column_data_ne_parity hrk hqk hq)
  · rw [column_of_le hqk, column_of_le hrk] at heq
    have := Nat.pow_right_injective le_rfl heq
    omega

theorem xor_column_ne_zero (hq : q < c.n) (hr : r < c.n) (hne : q ≠ r) : c.column q ^^^ c.column r ≠ 0 := fun hzero =>
  hne (h.column_inj hq hr (Nat.xor_eq_zero_iff.1 hzero))

theorem errorIndex_column (hq : q < c.n) : c.errorIndex (c.column q) = some q := by
  obtain ⟨j, hj⟩ := Option.ne_none_iff_exists'.1 (errorIndex_column_ne_none hq)
  rw [hj, h.column_inj (errorIndex_lt h.data_le hj) hq (column_of_errorIndex hj)]

/-! Syndromes. -/

theorem calc_lt : c.calc w < 2 ^ c.p := by
  refine xorAll_lt _ _ fun v hv => ?_
  obtain ⟨i, hi, rfl⟩ := List.mem_map.1 hv
  split_ifs
  · have hk := List.mem_range.1 hi
    exact column_of_lt hk ▸ (h.column_data hk).1
  · positivity

theorem syndrome_lt : c.syndrome w < 2 ^ c.p := by
  refine Nat.xor_lt_two_pow h.calc_lt ?_
  have hlt := bitsToNat_lt ((List.range c.p).map fun j => w.getD (c.k + j) false)
  rwa [List.length_map, List.length_range] at hlt

theorem syndrome_flip (hw : w.length = c.n) (hq : q < c.n) : c.syndrome (flipWindow w [q]) = c.syndrome w ^^^ c.column q := by
  rw [← h.data_add_parity] at hw hq
  exact tableSyndrome_flip _ hw hq

theorem length_encode {data : List Bool} (hdata : data.length = c.k) : (c.encode data).length = c.n := by
  rw [encode, List.length_append, length_natToBits, hdata, h.data_add_parity]

/-- A codeword has syndrome 0: the checksum it carries is the one its data have (R262). -/
theorem syndrome_encode {data : List Bool} (hdata : data.length = c.k) : c.syndrome (c.encode data) = 0 := by
  have hcalc : c.calc (c.encode data) = c.calc data := by
    refine congrArg xorAll (List.map_congr_left fun i hi => ?_)
    rw [encode, List.getD_append _ _ _ _ (by rw [hdata]; exact List.mem_range.1 hi)]
  have hbits : (List.range c.p).map (fun j => (c.encode data).getD (c.k + j) false) = natToBits c.p (c.calc data) := by
    refine List.ext_getElem (by simp) fun j hj _ => ?_
    rw [List.getElem_map, List.getElem_range, encode, List.getD_append_right _ _ _ _ (by omega), hdata, Nat.add_sub_cancel_left,
      List.getD_eq_getElem]
  rw [syndrome, transmitted, hbits, bitsToNat_natToBits, Nat.mod_eq_of_lt h.calc_lt, hcalc, Nat.xor_self]

/-- One wrong bit: the syndrome is its column. -/
theorem syndrome_flip_encode {data : List Bool} (hdata : data.length = c.k) (hq : q < c.n) :
    c.syndrome (flipWindow (c.encode data) [q]) = c.column q := by
  rw [h.syndrome_flip (h.length_encode hdata) hq, h.syndrome_encode hdata, Nat.zero_xor]

/-- Two wrong bits: the syndrome is the sum of their columns. -/
theorem syndrome_flip_pair_encode {data : List Bool} (hdata : data.length = c.k) (hq : q < c.n) (hr : r < c.n) :
    c.syndrome (flipWindow (c.encode data) [q, r]) = c.column q ^^^ c.column r := by
  rw [show [q, r] = [q] ++ [r] from rfl, ← flipWindow_flipWindow,
    h.syndrome_flip (by rw [length_flipWindow, h.length_encode hdata]) hr, h.syndrome_flip_encode hdata hq]

/-! The answers of the core (R258). -/

/-- A syndrome that is a column is corrected at that column's place. -/
theorem hamCore_of_column (hq : q < c.n) (hsyn : c.syndrome w = c.column q) :
    hamCore c w = { status := .corrected, positions := [q] } := by
  have hodd : (c.secded && popcount c.p (c.column q) % 2 == 0) = false := by
    cases hsecded : c.secded with
    | false => rfl
    | true => simp [h.odd hsecded q hq]
  simp [hamCore, hsyn, h.column_ne_zero q, hodd, h.errorIndex_column hq]

theorem hamCore_encode {data : List Bool} (hdata : data.length = c.k) : hamCore c (c.encode data) = Repair.clean :=
  hamCore_of_syndrome_eq_zero (h.syndrome_encode hdata)

theorem hamCore_flip_encode {data : List Bool} (hdata : data.length = c.k) (hq : q < c.n) :
    hamCore c (flipWindow (c.encode data) [q]) = { status := .corrected, positions := [q] } :=
  h.hamCore_of_column hq (h.syndrome_flip_encode hdata hq)

/-- SECDED: the sum of two columns is not 0 and has even weight, so two wrong bits are refused (R258, R261). -/
theorem hamCore_flip_pair_of_secded (hsecded : c.secded = true) {data : List Bool} (hdata : data.length = c.k) (hq : q < c.n)
    (hr : r < c.n) (hne : q ≠ r) :
    hamCore c (flipWindow (c.encode data) [q, r]) = { status := .uncorrectable, positions := [] } := by
  have heven : popcount c.p (c.column q ^^^ c.column r) % 2 = 0 := by
    rw [popcount_xor_mod_two, Nat.add_mod, h.odd hsecded q hq, h.odd hsecded r hr]
  simp [hamCore, h.syndrome_flip_pair_encode hdata hq hr, h.xor_column_ne_zero hq hr hne, hsecded, heven]

/-- A code in which every nonzero syndrome is a column takes two wrong bits for one at a third place (R261). -/
theorem hamCore_flip_pair_of_perfect (hperfect : ∀ v < 2 ^ c.p, v ≠ 0 → ∃ i < c.n, c.column i = v) {data : List Bool}
    (hdata : data.length = c.k) (hq : q < c.n) (hr : r < c.n) (hne : q ≠ r) :
    ∃ i < c.n, i ≠ q ∧ i ≠ r ∧
      hamCore c (flipWindow (c.encode data) [q, r]) = { status := .corrected, positions := [i] } := by
  have hsum := h.syndrome_flip_pair_encode hdata hq hr
  obtain ⟨i, hi, hcol⟩ := hperfect _ (hsum ▸ h.syndrome_lt) (h.xor_column_ne_zero hq hr hne)
  refine ⟨i, hi, ?_, ?_, h.hamCore_of_column hi (hsum.trans hcol.symm)⟩
  · rintro rfl
    exact xor_ne_left (h.column_ne_zero r) hcol.symm
  · rintro rfl
    exact xor_ne_left (h.column_ne_zero q) (Nat.xor_comm _ _ ▸ hcol.symm)

end Wf

end HamCode

/-- A code without SECDED refuses exactly the nonzero syndromes that are no column (R258). -/
theorem hamCore_uncorrectable_iff {c : HamCode} (hsecded : c.secded = false) (w : List Bool) :
    (hamCore c w).status = .uncorrectable ↔ c.syndrome w ≠ 0 ∧ c.errorIndex (c.syndrome w) = none := by
  by_cases hzero : c.syndrome w = 0
  · simp [hamCore, hzero]
  · cases hindex : c.errorIndex (c.syndrome w) <;> simp [hamCore, hzero, hsecded, hindex]

/-! The five codes (R251 to R254). -/

theorem ham13_wf : ham13.Wf := ⟨by decide, by decide, by decide⟩

theorem ham15_wf : ham15.Wf := ⟨by decide, by decide, by decide⟩

theorem ham16_wf : ham16.Wf := ⟨by decide, by decide, by decide⟩

/-- Every Hamming code of a well-formed configuration is well formed: the fixed ones, and the two tables R6 checks. -/
theorem Config.hamCode_wf {c : Config} (h : c.wf = true) {x : Nat} {code : HamCode} (hx : c.hamCode x = some code) :
    code.Wf := by
  unfold Config.hamCode at hx
  split at hx <;> cases hx
  case h_1 =>
    exact ⟨Nat.le_of_ble_eq_true rfl, Config.check_of_wf h (e := (c.ham10Ok, .ham10)) (by simp [Config.checks]), nofun⟩
  case h_2 => exact ham13_wf
  case h_3 => exact ham15_wf
  case h_4 => exact ham16_wf
  case h_5 =>
    exact ⟨Nat.le_of_ble_eq_true rfl, Config.check_of_wf h (e := (c.ham17Ok, .ham17)) (by simp [Config.checks]), nofun⟩

/-- Hamming(15,11,3) is perfect: its 15 columns are all the nonzero syndromes. -/
theorem ham15_perfect : ∀ v < 2 ^ ham15.p, v ≠ 0 → ∃ i < ham15.n, ham15.column i = v := by decide

/-- The two syndromes that no column of Hamming(13,9,3) has (R252). -/
theorem ham13_unmapped : ∀ syn < 2 ^ ham13.p, (syn ≠ 0 ∧ ham13.errorIndex syn = none) ↔ syn = 0x9 ∨ syn = 0xD := by decide

theorem ham13_uncorrectable_iff (w : List Bool) :
    (hamCore ham13 w).status = .uncorrectable ↔ ham13.syndrome w = 0x9 ∨ ham13.syndrome w = 0xD :=
  (hamCore_uncorrectable_iff rfl w).trans (ham13_unmapped _ ham13_wf.syndrome_lt)

end Sys2Proof

namespace Sys2Proof.Machine

variable {s t : State} {i : Instr} {place : Nat → Nat} {n : Nat} {dec : List Bool → Repair}

/-! A decoder whose window bits lie anywhere in BUF. -/

/-- The window bits 0 .. n - 1, bit q of them at the BUF index `place q` (R259, R260). -/
def State.placed (s : State) (place : Nat → Nat) (n : Nat) : List Bool := (List.range n).map fun q => s.buf.read (place q)

/-- A window is the bits placed from its first index on. -/
theorem State.window_eq_placed (s : State) (a n : Nat) : s.window a n = s.placed (a + ·) n := rfl

theorem State.map_read_eq_placed (s : State) (l : List Nat) :
    (l.map fun p => s.buf.read p) = s.placed (fun j => l.getD j 0) l.length := map_read_eq_map_range s.buf l

/-- Wrong BUF bits are wrong window bits. -/
theorem State.placed_withErrors (s : State) {ps : List Nat} (hps : ∀ p ∈ ps, p < n)
    (hplace : ∀ p < n, ∀ q < n, place p = place q → p = q) :
    (s.withErrors (ps.map place)).placed place n = flipWindow (s.placed place n) ps :=
  s.map_read_applyRepair (r := { status := .corrected, positions := ps }) hps hplace

/-- The command decodes the n placed bits, in s and in every state that differs from s in what the command does not check. -/
def State.decodesPlaced (s : State) (i : Instr) (place : Nat → Nat) (n : Nat) (dec : List Bool → Repair) : Prop :=
  ∀ u : State, u.cfg = s.cfg → u.idx = s.idx → u.fault = s.fault →
    exec i u = .next (u.applyRepair place (dec (u.placed place n)))

/-- A placed decoder on the bits of s with errors added ends with the decoder's answer on the window with the same bits flipped. -/
theorem State.decodesPlaced.exec_withErrors (h : s.decodesPlaced i place n dec) {ps : List Nat} (hps : ∀ p ∈ ps, p < n)
    (hplace : ∀ p < n, ∀ q < n, place p = place q → p = q) {r : Repair} (hr : dec (flipWindow (s.placed place n) ps) = r) :
    ∃ t, exec i (s.withErrors (ps.map place)) = .next t ∧
      (s.withErrors (ps.map place)).repairs t r.status (r.positions.map place) := by
  have hexec := h (s.withErrors (ps.map place)) rfl rfl rfl
  rw [s.placed_withErrors hps hplace, hr] at hexec
  exact ⟨_, hexec, State.repairs_applyRepair _ _ _⟩

/-- A repair that flips exactly the wrong bits restores BUF. -/
theorem State.read_of_repairs_withErrors {ps : List Nat} {st : DecodeStatus} (h : (s.withErrors ps).repairs t st ps) (i : Nat) :
    t.buf.read i = s.buf.read i := by
  obtain ⟨-, -, hflip⟩ := h
  rw [hflip, State.withErrors, read_flipBits, Bool.xor_assoc, Bool.xor_self, Bool.xor_false]

/-- A codeword behind a placed Hamming decoder passes, and any one wrong bit of it is corrected (R261). -/
theorem State.decodesPlaced.hamming_single {code : HamCode} {data : List Bool}
    (h : s.decodesPlaced i place code.n (hamCore code)) (hcode : code.Wf) (hdata : data.length = code.k)
    (hplace : ∀ p < code.n, ∀ q < code.n, place p = place q → p = q) (hword : s.placed place code.n = code.encode data) :
    (∃ t, exec i s = .next t ∧ s.repairs t .noError []) ∧
      ∀ q < code.n, ∃ t, exec i (s.withErrors [place q]) = .next t ∧
        (s.withErrors [place q]).repairs t .corrected [place q] ∧ ∀ i, t.buf.read i = s.buf.read i := by
  constructor
  · have hexec := h s rfl rfl rfl
    rw [hword, hcode.hamCore_encode hdata] at hexec
    exact State.findsNoError_of_clean hexec
  · intro q hq
    obtain ⟨t, ht, hrepairs⟩ := h.exec_withErrors (ps := [q]) (by simpa using hq) hplace
      ((congrArg (fun w => hamCore code (flipWindow w [q])) hword).trans (hcode.hamCore_flip_encode hdata hq))
    exact ⟨t, ht, hrepairs, State.read_of_repairs_withErrors hrepairs⟩

/-! HAMDEC (R259). -/

variable {h : BitVec 8} {a : BitVec 16} {code : HamCode}

theorem exec_hamdec (hs : s.fault = 0) (hcode : s.cfg.hamCode h.toNat = some code) (hfit : a.toNat + code.n ≤ s.cfg.bufLen) :
    exec (.hamdec h a) s = .next (s.applyRepair (a.toNat + ·) (hamCore code (s.window a.toNat code.n))) := by
  simp only [exec, execHamdec, withHamCode, hcode]
  rw [windowDecode_eq, if_pos hfit, runCommand_ok hs]

theorem decodesPlaced_hamdec (hs : s.fault = 0) (hcode : s.cfg.hamCode h.toNat = some code)
    (hfit : a.toNat + code.n ≤ s.cfg.bufLen) : s.decodesPlaced (.hamdec h a) (a.toNat + ·) code.n (hamCore code) :=
  fun _ hcfg _ hfault => exec_hamdec (hfault.trans hs) (hcfg ▸ hcode) (hcfg ▸ hfit)

/-- Settles O47: a window is a placement, in which no two window bits share a place. -/
theorem hammingSingleError : Obligations.HammingSingleError := by
  intro s h a code data hcfg hs hcode hfit hdata hword
  obtain ⟨hclean, hsingle⟩ := (decodesPlaced_hamdec hs hcode hfit).hamming_single (Config.hamCode_wf hcfg hcode) hdata
    (fun _ _ _ _ => Nat.add_left_cancel) hword
  exact ⟨hclean, fun j hj s' hs' => hs' ▸ hsingle j hj⟩

/-! HAMDECX (R260). -/

theorem exec_hamdecx_runs (hcode : s.cfg.hamCode h.toNat = some code) :
    exec (.hamdecx h) s = runCommand (.hamdecx h) s (scatteredDecode s (s.scattered code.n) (hamCore code)) := by
  simp only [exec, execHamdecx, withHamCode, hcode]

theorem exec_hamdecx (hs : s.fault = 0) (hcode : s.cfg.hamCode h.toNat = some code)
    (hin : ∀ p ∈ s.scattered code.n, p < s.cfg.bufLen) (hdistinct : (s.scattered code.n).Nodup) :
    exec (.hamdecx h) s = .next (s.applyRepair (fun j => (s.scattered code.n).getD j 0)
      (hamCore code (s.placed (fun j => (s.scattered code.n).getD j 0) code.n))) := by
  rw [exec_hamdecx_runs hcode, scatteredDecode_ok _ hin hdistinct, runCommand_ok hs, s.map_read_eq_placed,
    State.length_scattered]

theorem decodesPlaced_hamdecx (hs : s.fault = 0) (hcode : s.cfg.hamCode h.toNat = some code)
    (hin : ∀ p ∈ s.scattered code.n, p < s.cfg.bufLen) (hdistinct : (s.scattered code.n).Nodup) :
    s.decodesPlaced (.hamdecx h) (fun j => (s.scattered code.n).getD j 0) code.n (hamCore code) := by
  intro u hcfg hidx hfault
  have hscattered : s.scattered code.n = u.scattered code.n := by rw [State.scattered, State.scattered, hidx]
  rw [← hcfg] at hcode hin
  rw [hscattered] at hin hdistinct ⊢
  exact exec_hamdecx (hfault.trans hs) hcode hin hdistinct

theorem raises_bufRange_hamdecx (hs : s.fault = 0) (hcode : s.cfg.hamCode h.toNat = some code)
    (hout : ∃ p ∈ s.scattered code.n, s.cfg.bufLen ≤ p) : raises (.hamdecx h) s .bufRange :=
  raises_of_check hs (exec_hamdecx_runs hcode) (by simpa using hout)

theorem raises_idxDup_hamdecx (hs : s.fault = 0) (hcode : s.cfg.hamCode h.toNat = some code)
    (hin : ∀ p ∈ s.scattered code.n, p < s.cfg.bufLen) (hdup : ¬ (s.scattered code.n).Nodup) :
    raises (.hamdecx h) s .idxDup := by
  have hany : (s.scattered code.n).any (fun p => decide (s.cfg.bufLen ≤ p)) = false := by simpa using hin
  have hexec := exec_hamdecx_runs hcode
  rw [scatteredDecode, hany] at hexec
  exact raises_of_check hs hexec hdup

theorem nodup_getD_inj {l : List Nat} (hl : l.Nodup) :
    ∀ p < l.length, ∀ q < l.length, l.getD p 0 = l.getD q 0 → p = q := by
  intro p hp q hq heq
  rw [List.getD_eq_getElem _ _ hp, List.getD_eq_getElem _ _ hq] at heq
  exact hl.getElem_inj_iff.1 heq

/-- A repair sees its places at the positions it flips only. -/
theorem State.applyRepair_congr (s : State) {place' : Nat → Nat} {r : Repair} (h : ∀ q ∈ r.positions, place q = place' q) :
    s.applyRepair place r = s.applyRepair place' r := by
  unfold State.applyRepair
  rw [List.map_congr_left h]

/-- HAMDECX through the indices a, a + 1, .. is HAMDEC at a. -/
theorem exec_hamdecx_eq_hamdec (hs : s.fault = 0) (hcode : s.cfg.hamCode h.toNat = some code)
    (hin : ∀ p ∈ s.scattered code.n, p < s.cfg.bufLen) (hrun : s.scattered code.n = List.range' a.toNat code.n) :
    exec (.hamdecx h) s = exec (.hamdec h a) s := by
  obtain ⟨hk, hn⟩ := Config.hamCode_sizes hcode
  have hlast : a.toNat + (code.n - 1) < s.cfg.bufLen := hin _ (by rw [hrun, List.mem_range'_1]; omega)
  have hplace : ∀ q < code.n, (s.scattered code.n).getD q 0 = a.toNat + q := fun q hq => by
    rw [hrun, List.getD_eq_getElem _ _ (by simpa using hq), List.getElem_range', Nat.one_mul]
  have hbits : s.placed (fun j => (s.scattered code.n).getD j 0) code.n = s.window a.toNat code.n :=
    List.map_congr_left fun q hq => congrArg s.buf.read (hplace q (List.mem_range.1 hq))
  rw [exec_hamdecx hs hcode hin (hrun ▸ List.nodup_range'), exec_hamdec hs hcode (by omega), hbits]
  exact congrArg _ (s.applyRepair_congr fun q hq => hplace q (hamCore_positions_lt hk _ q hq))

/-- Settles O48: the two checks in their order, and behind them a placement through distinct indices. -/
theorem hamdecxScattered : Obligations.HamdecxScattered := by
  intro s h code l hcfg hs hcode hl
  change l = s.scattered code.n at hl
  subst hl
  refine ⟨raises_bufRange_hamdecx hs hcode, fun hin =>
    ⟨raises_idxDup_hamdecx hs hcode hin, fun hdistinct data hdata hword => ?_, fun a => exec_hamdecx_eq_hamdec hs hcode hin⟩⟩
  have hinj := nodup_getD_inj hdistinct
  rw [s.map_read_eq_placed] at hword
  rw [State.length_scattered] at hinj hword
  obtain ⟨hclean, hsingle⟩ := (decodesPlaced_hamdecx hs hcode hin hdistinct).hamming_single (Config.hamCode_wf hcfg hcode) hdata
    hinj hword
  refine ⟨hclean, fun p hp s' hs' => ?_⟩
  obtain ⟨q, hq, rfl⟩ := List.getElem_of_mem hp
  rw [← List.getD_eq_getElem _ 0 hq] at hs' ⊢
  exact hs' ▸ hsingle q (by simpa using hq)

/-! Two wrong bits (R261). -/

/-- HAMDEC on a codeword with two wrong bits ends with the core's answer on the window with these bits flipped. -/
theorem exec_hamdec_pair {data : List Bool} {j k : Nat} {r : Repair} (hs : s.fault = 0)
    (hcode : s.cfg.hamCode h.toNat = some code) (hfit : a.toNat + code.n ≤ s.cfg.bufLen)
    (hword : s.window a.toNat code.n = code.encode data) (hj : j < code.n) (hk : k < code.n)
    (hr : hamCore code (flipWindow (code.encode data) [j, k]) = r) :
    ∃ t, exec (.hamdec h a) (s.withErrors [a.toNat + j, a.toNat + k]) = .next t ∧
      (s.withErrors [a.toNat + j, a.toNat + k]).repairs t r.status (r.positions.map (a.toNat + ·)) :=
  (decodesPlaced_hamdec hs hcode hfit).exec_withErrors (ps := [j, k]) (by simp [hj, hk]) (fun _ _ _ _ => Nat.add_left_cancel)
    (by rwa [← s.window_eq_placed, hword])

/-- Settles O49, code by code: SECDED refuses the sum of two columns, the perfect code takes it for a third, and the code with two
unmapped syndromes refuses exactly these. -/
theorem hammingDoubleErrors : Obligations.HammingDoubleErrors := by
  intro s a data j k hs hjk
  refine ⟨fun hfit hdata hword hk s' hs' => ?_, fun hfit hdata hword hk s' hs' => ?_, fun hfit => ?_⟩
  · subst hs'
    have hj : j < 16 := hjk.trans hk
    exact exec_hamdec_pair (h := 3) (code := ham16) hs rfl hfit hword hj hk
      (ham16_wf.hamCore_flip_pair_of_secded rfl hdata hj hk hjk.ne)
  · subst hs'
    have hj : j < 15 := hjk.trans hk
    obtain ⟨i, hi, hij, hik, hcore⟩ := ham15_wf.hamCore_flip_pair_of_perfect ham15_perfect hdata hj hk hjk.ne
    obtain ⟨t, ht, hrepairs⟩ := exec_hamdec_pair (h := 2) (code := ham15) hs rfl hfit hword hj hk hcore
    exact ⟨t, i, ht, hi, hij, hik, hrepairs⟩
  · refine ⟨_, exec_hamdec (h := 1) (code := ham13) hs rfl hfit, ?_⟩
    rw [← ham13_uncorrectable_iff]
    exact ⟨fun hst => DecodeStatus.code_injective hst, congrArg DecodeStatus.code⟩

end Sys2Proof.Machine
end

section
/-! The Golay code is perfect (R290 to R293). Two facts decide everything: some rotation of a word has few set bits among its
twelve data bits, since the rotations bring each bit there twelve times; and the words of weight 3 or less are exactly as many as
the syndromes. So two codewords differ in at least 7 bits, every word lies within distance 3 of one codeword, and the search
finds it. -/

namespace Sys2Proof

/-! Weights of words in two parts. -/

theorem popcount_add (low high v : Nat) : popcount (low + high) v = popcount low v + popcount high (v >>> low) := by
  simp only [popcount, List.range_add, List.countP_append, List.countP_map, Nat.testBit_shiftRight]
  rfl

theorem popcount_mod_two_pow (width v : Nat) : popcount width (v % 2 ^ width) = popcount width v :=
  List.countP_congr fun k hk => by simp [List.mem_range.1 hk]

theorem popcount_shiftLeft (low high v : Nat) : popcount (low + high) (v <<< low) = popcount high v := by
  have hlow : popcount low (v <<< low) = 0 :=
    List.countP_eq_zero.2 fun k hk => by simp [Nat.not_le.2 (List.mem_range.1 hk)]
  rw [popcount_add, hlow, Nat.shiftLeft_shiftRight, Nat.zero_add]

theorem eq_zero_of_popcount_eq_zero {width v : Nat} (hv : v < 2 ^ width) (h : popcount width v = 0) : v = 0 := by
  refine Nat.eq_of_testBit_eq fun k => ?_
  rw [Nat.zero_testBit]
  by_cases hk : k < width
  · simpa using List.countP_eq_zero.1 h k (List.mem_range.2 hk)
  · exact Nat.testBit_lt_two_pow (hv.trans_le (Nat.pow_le_pow_right (by decide) (Nat.le_of_not_lt hk)))

theorem popcount_succ_of_lt {width v : Nat} (hv : v < 2 ^ width) : popcount (width + 1) v = popcount width v := by
  rw [popcount_succ, Nat.testBit_lt_two_pow hv]
  rfl

theorem popcount_succ_two_pow_add {width v : Nat} (hv : v < 2 ^ width) :
    popcount (width + 1) (2 ^ width + v) = popcount width v + 1 := by
  have hrest : popcount width (2 ^ width + v) = popcount width v :=
    List.countP_congr fun k hk => by rw [Nat.testBit_two_pow_add_gt (List.mem_range.1 hk)]
  rw [popcount_succ, hrest, Nat.testBit_two_pow_add_eq, Nat.testBit_lt_two_pow hv]
  rfl

/-- A word less its low bits. -/
theorem xor_mod_two_pow (low v : Nat) : v ^^^ v % 2 ^ low = (v >>> low) <<< low := by
  refine Nat.eq_of_testBit_eq fun k => ?_
  rw [Nat.testBit_xor, Nat.testBit_mod_two_pow, Nat.testBit_shiftLeft, Nat.testBit_shiftRight]
  by_cases hk : k < low
  · simp [hk, Nat.not_le.2 hk]
  · simp [hk, Nat.le_of_not_lt hk]

theorem xor_xor_xor_cancel_right (u v c : Nat) : (u ^^^ v) ^^^ (c ^^^ v) = u ^^^ c := by
  rw [Nat.xor_comm c, Nat.xor_assoc, Nat.xor_xor_cancel_left]

/-! Words of small weight. -/

/-- The words of `width` bits of which at most `weight` are set. -/
def lightWords : Nat → Nat → List Nat
  | 0, _ => [0]
  | width + 1, 0 => lightWords width 0
  | width + 1, weight + 1 => lightWords width (weight + 1) ++ (lightWords width weight).map (2 ^ width + ·)

theorem mem_lightWords {width weight v : Nat} :
    v ∈ lightWords width weight ↔ v < 2 ^ width ∧ popcount width v ≤ weight := by
  induction width generalizing weight v with
  | zero => cases weight <;> simp +contextual [lightWords, popcount]
  | succ width ih =>
    have hpow : 2 ^ (width + 1) = 2 ^ width + 2 ^ width := by rw [pow_succ, Nat.mul_two]
    rcases Nat.lt_or_ge v (2 ^ width) with hv | hv
    · have hmap : ∀ m, v ∉ (lightWords width m).map (2 ^ width + ·) := fun m hmem => by
        obtain ⟨e, -, rfl⟩ := List.mem_map.1 hmem
        omega
      rw [popcount_succ_of_lt hv]
      cases weight with
      | zero => rw [lightWords, ih]; omega
      | succ weight => rw [lightWords, List.mem_append, or_iff_left (hmap _), ih]; omega
    · obtain ⟨e, rfl⟩ := Nat.exists_eq_add_of_le hv
      have hhigh : ∀ m, 2 ^ width + e ∉ lightWords width m := fun m hmem => absurd (ih.1 hmem).1 (by omega)
      have hweight : e < 2 ^ width → popcount (width + 1) (2 ^ width + e) = popcount width e + 1 := popcount_succ_two_pow_add
      cases weight with
      | zero => rw [lightWords, iff_false_left (hhigh 0)]; omega
      | succ weight =>
        rw [lightWords, List.mem_append, or_iff_right (hhigh _), List.mem_map_of_injective (add_right_injective _), ih]
        omega

theorem nodup_lightWords (width weight : Nat) : (lightWords width weight).Nodup := by
  induction width generalizing weight with
  | zero => cases weight <;> simp [lightWords]
  | succ width ih =>
    cases weight with
    | zero => exact ih 0
    | succ weight =>
      refine (ih _).append ((ih _).map (add_right_injective _)) fun v hv hmap => ?_
      obtain ⟨e, -, rfl⟩ := List.mem_map.1 hmap
      exact absurd (mem_lightWords.1 hv).1 (by omega)

theorem length_lightWords (width weight : Nat) :
    (lightWords width weight).length = ∑ j ∈ Finset.range (weight + 1), width.choose j := by
  induction width generalizing weight with
  | zero => cases weight <;> simp [lightWords, Finset.sum_range_succ']
  | succ width ih =>
    cases weight with
    | zero => simp [lightWords, ih]
    | succ weight =>
      rw [lightWords, List.length_append, List.length_map, ih, ih, Finset.sum_range_succ' (width + 1).choose,
        Finset.sum_range_succ' width.choose (weight + 1)]
      simp only [Nat.choose_succ_succ', Finset.sum_add_distrib, Nat.choose_zero_right]
      omega

/-! Rotations and weights (R291). -/

theorem popcount_eq_sum (width v : Nat) : popcount width v = ∑ k ∈ Finset.range width, (v.testBit k).toNat := by
  induction width with
  | zero => rfl
  | succ width ih => rw [popcount_succ, ih, Finset.sum_range_succ]

/-- The rotations carry each of the 23 bits to each of the low places once. -/
theorem sum_popcount_rotr23 {width u : Nat} (hu : u < 2 ^ 23) (hwidth : width ≤ 23) :
    ∑ i ∈ Finset.range 23, popcount width (rotr23 u i) = width * popcount 23 u := by
  have hbit : ∀ i < 23, ∀ k < 23, (rotr23 u i).testBit k = (rotr23 u k).testBit i := fun i hi k hk => by
    rw [testBit_rotr23 hu hi.le hk, testBit_rotr23 hu hk.le hi, Nat.add_comm]
  calc ∑ i ∈ Finset.range 23, popcount width (rotr23 u i)
      = ∑ i ∈ Finset.range 23, ∑ k ∈ Finset.range width, ((rotr23 u k).testBit i).toNat := by
        refine Finset.sum_congr rfl fun i hi => (popcount_eq_sum _ _).trans (Finset.sum_congr rfl fun k hk => ?_)
        rw [hbit i (Finset.mem_range.1 hi) k ((Finset.mem_range.1 hk).trans_le hwidth)]
    _ = ∑ k ∈ Finset.range width, popcount 23 (rotr23 u k) := by
        simp only [popcount_eq_sum]
        exact Finset.sum_comm
    _ = width * popcount 23 u := by
        rw [Finset.sum_congr rfl fun k hk => popcount_rotr23 hu ((Finset.mem_range.1 hk).le.trans hwidth), Finset.sum_const,
          Finset.card_range, smul_eq_mul]

/-- Some rotation has no more set data bits than the average of all. -/
theorem exists_rotr23_popcount_data_le {u : Nat} (hu : u < 2 ^ 23) :
    ∃ i < 23, 23 * popcount 12 (rotr23 u i) ≤ 12 * popcount 23 u := by
  obtain ⟨i, hi, hle⟩ := Finset.exists_le_of_sum_le (s := Finset.range 23) (f := fun i => 23 * popcount 12 (rotr23 u i))
    (g := fun _ => 12 * popcount 23 u) ⟨0, by simp⟩
    (by rw [← Finset.mul_sum, sum_popcount_rotr23 hu (by decide)]; simp)
  exact ⟨i, Finset.mem_range.1 hi, hle⟩

theorem rotr23_twentyThree {u : Nat} (hu : u < 2 ^ 23) : rotr23 u 23 = u :=
  eq_of_testBit_lt_23 (rotr23_lt _ _) hu fun k hk => by
    rw [testBit_rotr23 hu le_rfl hk, Nat.add_mod_right, Nat.mod_eq_of_lt hk]

/-- A turn to the left takes one turn to the right back. -/
theorem rotl23_rotr23_succ {u i : Nat} (hu : u < 2 ^ 23) (hi : i < 23) : rotl23 (rotr23 u (i + 1)) 1 = rotr23 u i :=
  eq_of_testBit_lt_23 (rotl23_lt _ _) (rotr23_lt _ _) fun k hk => by
    rw [testBit_rotl23_one (rotr23_lt _ _) hk, testBit_rotr23 hu hi (Nat.mod_lt _ (by decide)), testBit_rotr23 hu hi.le hk]
    congr 1
    omega

/-! Codewords (R290, R292). -/

theorem golaySyndrome_xor (poly a b : Nat) :
    golaySyndrome poly (a ^^^ b) = golaySyndrome poly a ^^^ golaySyndrome poly b := by
  rw [golaySyndrome, golayDivide_xor, Nat.shiftLeft_xor_distrib]
  rfl

/-- Wrong parity bits are their own syndrome. -/
theorem golaySyndrome_of_data_eq_zero (poly : Nat) {e : Nat} (he : e % 2 ^ 12 = 0) : golaySyndrome poly e = e := by
  have hshift := xor_mod_two_pow 12 e
  rw [he, Nat.xor_zero] at hshift
  rw [hshift, golaySyndrome, golayDivide_shiftLeft]

theorem golay23Encode_eq (poly : Nat) {d : Nat} (hd : d < 2 ^ 12) : golay23Encode poly d = d ^^^ golaySyndrome poly d := by
  refine Nat.eq_of_testBit_eq fun k => ?_
  rw [golay23Encode, golaySyndrome, Nat.testBit_or, Nat.testBit_xor, Nat.testBit_shiftLeft]
  by_cases hk : k < 12
  · simp [Nat.not_le.2 hk]
  · simp [Nat.testBit_lt_two_pow (hd.trans_le (Nat.pow_le_pow_right (by decide) (Nat.le_of_not_lt hk)))]

theorem golaySyndrome_golay23Encode (poly : Nat) {d : Nat} (hd : d < 2 ^ 12) : golaySyndrome poly (golay23Encode poly d) = 0 :=
  golay23Encode_eq poly hd ▸ golaySyndrome_xor_self poly d

theorem golay23Encode_zero (poly : Nat) : golay23Encode poly 0 = 0 := by
  rw [golay23Encode_eq poly (by decide), golaySyndrome_of_data_eq_zero poly rfl, Nat.xor_self]

theorem golay23Encode_lt {poly d : Nat} (hp : poly < 2 ^ 12) (hd : d < 2 ^ 12) : golay23Encode poly d < 2 ^ 23 := by
  have hd' : d < 2 ^ 23 := hd.trans (by decide)
  exact golay23Encode_eq poly hd ▸ Nat.xor_lt_two_pow hd' (golaySyndrome_lt hp hd')

/-- A codeword is the encoding of its data bits. -/
theorem golay23Encode_of_codeword {poly u : Nat} (h : golaySyndrome poly u = 0) : golay23Encode poly (u % 2 ^ 12) = u := by
  have hparity : golaySyndrome poly (u ^^^ u % 2 ^ 12) = u ^^^ u % 2 ^ 12 :=
    golaySyndrome_of_data_eq_zero poly (by rw [xor_mod_two_pow, Nat.shiftLeft_eq, Nat.mul_mod_left])
  rw [golaySyndrome_xor, h, Nat.zero_xor] at hparity
  rw [golay23Encode_eq poly (Nat.mod_lt _ (by decide)), hparity, Nat.xor_comm, Nat.xor_xor_cancel_right]

/-! The two polynomials of R292. -/

/-- What the correction rests on: the code is cyclic, and no codeword with one to three set data bits is lighter than 7. -/
structure GolayPerfect (poly : Nat) : Prop where
  lt : poly < 2 ^ 12
  cyclic : golayCyclic poly
  heavy : ∀ d ∈ lightWords 12 3, d ≠ 0 → 7 ≤ popcount 23 (golay23Encode poly d)

theorem Config.golayPerfect_of_wf {c : Config} (h : c.wf = true) : GolayPerfect c.golayPoly := by
  refine ⟨Config.golayPoly_lt h, Config.golayCyclic_of_wf h, ?_⟩
  have hp : c.golayPolyOk = true := Config.check_of_wf h (e := (c.golayPolyOk, .golayPoly)) (by simp [Config.checks])
  simp only [Config.golayPolyOk, Bool.or_eq_true, beq_iff_eq] at hp
  rcases hp with hp | hp <;> rw [hp] <;> decide +kernel

namespace GolayPerfect

variable {poly u v : Nat} (h : GolayPerfect poly)
include h

/-- The least weight is 7: a codeword of weight 6 or less has a rotation with at most three set data bits. -/
theorem seven_le_popcount (hu : u < 2 ^ 23) (hcode : golaySyndrome poly u = 0) (hne : u ≠ 0) : 7 ≤ popcount 23 u := by
  by_contra hlight
  obtain ⟨i, hi, haverage⟩ := exists_rotr23_popcount_data_le hu
  have hencode := golay23Encode_of_codeword (golaySyndrome_rotr23 h.cyclic hu hi.le hcode)
  have hweight := popcount_rotr23 hu hi.le
  have hdata : rotr23 u i % 2 ^ 12 ∈ lightWords 12 3 :=
    mem_lightWords.2 ⟨Nat.mod_lt _ (by decide), by rw [popcount_mod_two_pow]; omega⟩
  have hzero : rotr23 u i % 2 ^ 12 = 0 := by
    by_contra hd
    have := hencode ▸ h.heavy _ hdata hd
    omega
  rw [hzero, golay23Encode_zero] at hencode
  rw [← hencode, popcount_zero] at hweight
  exact hne (eq_zero_of_popcount_eq_zero hu hweight.symm)

/-- Codewords that differ in at most 6 bits are equal. -/
theorem codeword_unique (hu : u < 2 ^ 23) (hv : v < 2 ^ 23) (hcodeu : golaySyndrome poly u = 0)
    (hcodev : golaySyndrome poly v = 0) (hnear : popcount 23 (u ^^^ v) ≤ 6) : u = v := by
  by_contra hne
  have := h.seven_le_popcount (Nat.xor_lt_two_pow hu hv) (by rw [golaySyndrome_xor, hcodeu, hcodev, Nat.xor_self])
    (mt Nat.xor_eq_zero_iff.1 hne)
  omega

/-- Every word lies within distance 3 of a codeword: the 1 + 23 + 253 + 1771 words of weight 3 or less have distinct remainders,
and there are 2^11 of both. -/
theorem exists_light_error (hv : v < 2 ^ 23) :
    ∃ e < 2 ^ 23, popcount 23 e ≤ 3 ∧ golaySyndrome poly (v ^^^ e) = 0 := by
  have hdistinct : ((lightWords 23 3).map (golayDivide poly 12)).Nodup := by
    refine (nodup_lightWords 23 3).map_on fun d hd e he heq => ?_
    obtain ⟨hd, hdweight⟩ := mem_lightWords.1 hd
    obtain ⟨he, heweight⟩ := mem_lightWords.1 he
    by_contra hne
    have hseven := h.seven_le_popcount (Nat.xor_lt_two_pow hd he)
      ((golaySyndrome_eq_zero_iff _ _).2 (by rw [golayDivide_xor, heq, Nat.xor_self])) (mt Nat.xor_eq_zero_iff.1 hne)
    have := popcount_xor_le 23 d e
    omega
  have hremainder : (lightWords 23 3).map (golayDivide poly 12) ⊆ List.range (2 ^ 11) := fun r hr => by
    obtain ⟨e, he, rfl⟩ := List.mem_map.1 hr
    exact List.mem_range.2 (golayDivide_lt h.lt 12 (mem_lightWords.1 he).1)
  have hcount : ((lightWords 23 3).map (golayDivide poly 12)).length = 2 ^ 11 := by
    rw [List.length_map, length_lightWords]
    decide
  have hperm := (List.subperm_of_subset hdistinct hremainder).perm_of_length_le (by rw [hcount, List.length_range])
  obtain ⟨e, he, heq⟩ := List.mem_map.1 (hperm.mem_iff.2 (List.mem_range.2 (golayDivide_lt h.lt 12 hv)))
  obtain ⟨he, hweight⟩ := mem_lightWords.1 he
  exact ⟨e, he, hweight, (golaySyndrome_eq_zero_iff _ _).2 (by rw [golayDivide_xor, heq, Nat.xor_self])⟩

end GolayPerfect

/-! What the search finds (R293). -/

/-- The rotations from `v` turned right by `count` on meet v turned right by each of `count`, .., 1. -/
theorem golayRotations_isSome {poly threshold count i j v : Nat} (hv : v < 2 ^ 23) (hcount : count ≤ 23) (hj : 0 < j)
    (hjcount : j ≤ count) (hweight : popcount 23 (golaySyndrome poly (rotr23 v j)) ≤ threshold) :
    (golayRotations poly threshold count i (rotr23 v count)).isSome := by
  induction count generalizing i with
  | zero => omega
  | succ count ih =>
    rw [golayRotations]
    split
    · rfl
    · rename_i hmiss
      have hne : j ≠ count + 1 := by
        rintro rfl
        exact hmiss hweight
      rw [rotl23_rotr23_succ hv hcount]
      exact ih (by omega) (by omega)

theorem golayTrial_isSome {poly threshold i v : Nat} (hv : v < 2 ^ 23) (hi : i < 23)
    (hweight : popcount 23 (golaySyndrome poly (rotr23 v i)) ≤ threshold) : (golayTrial poly threshold v).isSome := by
  unfold golayTrial
  split
  · rfl
  · have hstart := rotr23_twentyThree hv
    rcases Nat.eq_zero_or_pos i with rfl | hpos
    · rw [rotr23_zero hv, ← hstart] at hweight
      simpa only [hstart] using golayRotations_isSome (i := 0) hv le_rfl (by decide) le_rfl hweight
    · simpa only [hstart] using golayRotations_isSome (i := 0) hv le_rfl hpos hi.le hweight

/-- A trial finds a codeword when a rotation takes the few wrong bits out of the data bits. -/
theorem golayTrial_isSome_of_data_clear {poly threshold c e i : Nat} (hcyc : golayCyclic poly) (hc : c < 2 ^ 23)
    (he : e < 2 ^ 23) (hcode : golaySyndrome poly c = 0) (hi : i < 23) (hclear : rotr23 e i % 2 ^ 12 = 0)
    (hweight : popcount 23 e ≤ threshold) : (golayTrial poly threshold (c ^^^ e)).isSome := by
  refine golayTrial_isSome (Nat.xor_lt_two_pow hc he) hi ?_
  rwa [rotr23_xor hc he hi.le, golaySyndrome_xor, golaySyndrome_rotr23 hcyc hc hi.le hcode, Nat.zero_xor,
    golaySyndrome_of_data_eq_zero poly hclear, popcount_rotr23 he hi.le]

theorem exists_two_pow_of_popcount_eq_one {width v : Nat} (hv : v < 2 ^ width) (h : popcount width v = 1) :
    ∃ k < width, v = 2 ^ k := by
  induction width generalizing v with
  | zero => cases h
  | succ width ih =>
    rcases Nat.lt_or_ge v (2 ^ width) with hlow | hhigh
    · rw [popcount_succ_of_lt hlow] at h
      obtain ⟨k, hk, rfl⟩ := ih hlow h
      exact ⟨k, by omega, rfl⟩
    · obtain ⟨e, rfl⟩ := Nat.exists_eq_add_of_le hhigh
      have he : e < 2 ^ width := by rw [pow_succ] at hv; omega
      rw [popcount_succ_two_pow_add he, Nat.add_eq_right] at h
      exact ⟨width, Nat.lt_succ_self _, by rw [eq_zero_of_popcount_eq_zero he h, Nat.add_zero]⟩

theorem rotr23_two_pow {i k : Nat} (hi : i ≤ 23) (hk : k < 23) : rotr23 (2 ^ ((k + i) % 23)) i = 2 ^ k := by
  have ht : 2 ^ ((k + i) % 23) < 2 ^ 23 := Nat.pow_lt_pow_right (by decide) (Nat.mod_lt _ (by decide))
  refine eq_of_testBit_lt_23 (rotr23_lt _ _) (Nat.pow_lt_pow_right (by decide) hk) fun j hj => ?_
  rw [testBit_rotr23 ht hi hj, Nat.testBit_two_pow, Nat.testBit_two_pow]
  exact decide_eq_decide.2 (by omega)

/-- One wrong bit among the data bits of a rotation: flipping it leaves one error fewer, and none among them. -/
theorem exists_flip_clears_data {e i : Nat} (he : e < 2 ^ 23) (hi : i < 23) (hone : popcount 12 (rotr23 e i) = 1) :
    ∃ t < 23, rotr23 (e ^^^ 2 ^ t) i % 2 ^ 12 = 0 ∧ popcount 23 (e ^^^ 2 ^ t) + 1 = popcount 23 e := by
  obtain ⟨k, hk, hbit⟩ := exists_two_pow_of_popcount_eq_one (Nat.mod_lt (rotr23 e i) (by decide : 0 < 2 ^ 12))
    ((popcount_mod_two_pow _ _).trans hone)
  have ht : (k + i) % 23 < 23 := Nat.mod_lt _ (by decide)
  have hpow : 2 ^ ((k + i) % 23) < 2 ^ 23 := Nat.pow_lt_pow_right (by decide) ht
  have hrot : rotr23 (e ^^^ 2 ^ ((k + i) % 23)) i = (rotr23 e i >>> 12) <<< 12 := by
    rw [rotr23_xor he hpow hi.le, rotr23_two_pow hi.le (by omega), ← hbit, xor_mod_two_pow]
  refine ⟨_, ht, by rw [hrot, Nat.shiftLeft_eq, Nat.mul_mod_left], ?_⟩
  rw [← popcount_rotr23 (Nat.xor_lt_two_pow he hpow) hi.le, hrot, popcount_shiftLeft 12 11, ← popcount_rotr23 he hi.le,
    popcount_add 12 11, hone, Nat.add_comm]

theorem golay23Correct_isSome_of_trial {poly v : Nat} (h : (golayTrial poly 3 v).isSome) : (golay23Correct poly v).isSome := by
  obtain ⟨u, hu⟩ := Option.isSome_iff_exists.1 h
  simp [golay23Correct, hu]

theorem golay23Correct_isSome_of_flip {poly v t : Nat} (ht : t < 23) (h : (golayTrial poly 2 (v ^^^ 2 ^ t)).isSome) :
    (golay23Correct poly v).isSome := by
  unfold golay23Correct
  split
  · rfl
  · exact List.findSome?_isSome_iff.2 ⟨t, List.mem_range.2 ht, h⟩

namespace GolayPerfect

variable {poly c v : Nat} (h : GolayPerfect poly)
include h

/-- The search never fails (R295). Some rotation leaves at most one of the three wrong bits among the data bits: with none there
the first trial finds the codeword, and else the trial that flips the one. -/
theorem golay23Correct_isSome (hv : v < 2 ^ 23) : (golay23Correct poly v).isSome := by
  obtain ⟨e, he, hweight, hcode⟩ := h.exists_light_error hv
  obtain ⟨i, hi, haverage⟩ := exists_rotr23_popcount_data_le he
  have hc : v ^^^ e < 2 ^ 23 := Nat.xor_lt_two_pow hv he
  have hfew : popcount 12 (rotr23 e i) = 0 ∨ popcount 12 (rotr23 e i) = 1 := by omega
  rcases hfew with hnone | hone
  · have hclear := eq_zero_of_popcount_eq_zero (Nat.mod_lt _ (by decide)) ((popcount_mod_two_pow _ _).trans hnone)
    have htrial := golayTrial_isSome_of_data_clear h.cyclic hc he hcode hi hclear hweight
    rw [Nat.xor_xor_cancel_right] at htrial
    exact golay23Correct_isSome_of_trial htrial
  · obtain ⟨t, ht, hclear, hfewer⟩ := exists_flip_clears_data he hi hone
    have hflip : e ^^^ 2 ^ t < 2 ^ 23 := Nat.xor_lt_two_pow he (Nat.pow_lt_pow_right (by decide) ht)
    have htrial := golayTrial_isSome_of_data_clear (threshold := 2) h.cyclic hc hflip hcode hi hclear (by omega)
    rw [Nat.xor_assoc, Nat.xor_xor_cancel_left] at htrial
    exact golay23Correct_isSome_of_flip ht htrial

/-- The search answers with the codeword within distance 3. -/
theorem exists_golay23Correct (hv : v < 2 ^ 23) :
    ∃ u, golay23Correct poly v = some u ∧ u < 2 ^ 23 ∧ golaySyndrome poly u = 0 ∧ popcount 23 (u ^^^ v) ≤ 3 := by
  obtain ⟨u, hu⟩ := Option.isSome_iff_exists.1 (h.golay23Correct_isSome hv)
  exact ⟨u, hu, golay23Correct_lt hv hu, golay23Correct_codeword h.cyclic h.lt hv hu, golay23Correct_distance h.lt hv hu⟩

theorem golay23Correct_of_near (hc : c < 2 ^ 23) (hv : v < 2 ^ 23) (hcode : golaySyndrome poly c = 0)
    (hnear : popcount 23 (c ^^^ v) ≤ 3) : golay23Correct poly v = some c := by
  obtain ⟨u, hfound, hu, hcodeu, hdist⟩ := h.exists_golay23Correct hv
  have htriangle := popcount_xor_le 23 (u ^^^ v) (c ^^^ v)
  rw [xor_xor_xor_cancel_right] at htriangle
  rw [hfound, h.codeword_unique hu hc hcodeu hcode (by omega)]

end GolayPerfect

end Sys2Proof
end

section
/-! GOL23, GOL24 and GOL18 on a window (R294 to R300). -/

namespace Sys2Proof

theorem golayDifference_eq_nil_iff {u v : Nat} (hu : u < 2 ^ 23) (hv : v < 2 ^ 23) : golayDifference u v = [] ↔ u = v :=
  ⟨fun h => by_contra fun hne => golayDifference_ne_nil hu hv hne h, fun h => h ▸ golayDifference_self u⟩

/-! The 23-bit window (R290, R294). -/

/-- Bit k of the integer of a window's first 23 bits. -/
theorem testBit_bitsToNat_take_23 {w : List Bool} {k : Nat} (hw : 23 ≤ w.length) (hk : k < 23) :
    (bitsToNat (w.take 23)).testBit k = w.getD (22 - k) false := by
  have hlen : (w.take 23).length = 23 := List.length_take_of_le hw
  rw [testBit_bitsToNat _ _ (hlen.symm ▸ hk), hlen, getD_take_of_lt (by omega)]

theorem golayErrors_eq_golayDifference (u : Nat) {w : List Bool} (hw : w.length = 23) :
    golayErrors u w = golayDifference u (bitsToNat w) :=
  List.filter_congr fun q hq => by
    have hbit := testBit_bitsToNat_take_23 hw.ge (show 22 - q < 23 by omega)
    rw [List.take_of_length_le hw.le, Nat.sub_sub_self (Nat.lt_succ_iff.1 (List.mem_range.1 hq))] at hbit
    rw [Nat.testBit_xor, hbit]

theorem bitsToNat_flipWindow_golayDifference {u : Nat} {w : List Bool} (hw : w.length = 23) (hu : u < 2 ^ 23) :
    bitsToNat (flipWindow w (golayDifference u (bitsToNat w))) = u := by
  have htake := bitsToNat_take_flipWindow (golayDifference_nodup u (bitsToNat w)) hw.ge hu
    fun q hq => by rw [List.take_of_length_le hw.le]; exact mem_golayDifference hq
  rwa [List.take_of_length_le (by rw [length_flipWindow, hw])] at htake

theorem golay23Decode_of_correct {poly u : Nat} {w : List Bool} (hw : w.length = 23)
    (h : golay23Correct poly (bitsToNat w) = some u) :
    golay23Decode poly w =
      { status := if golayDifference u (bitsToNat w) = [] then .noError else .corrected,
        positions := golayDifference u (bitsToNat w) } := by
  have hv : bitsToNat w < 2 ^ 23 := hw ▸ bitsToNat_lt w
  have hsame := golayDifference_eq_nil_iff (golay23Correct_lt hv h) hv
  rw [golay23Decode]
  simp only [h]
  by_cases huv : u = bitsToNat w
  · simp [huv, golayDifference_self]
  · simp [huv, hsame]

/-! The 24-bit window (R296). -/

/-- golay24_core where the found codeword differs in the positions of `tail` too, as the parity has it, and in at most three in
all. -/
theorem golay24Decode_of_few {poly u : Nat} {w : List Bool} {tail : List Nat}
    (hfound : golay23Correct poly (bitsToNat (w.take 23)) = some u)
    (htail : tail = if (popcount 23 u + (w.getD 23 false).toNat) % 2 = 0 then [] else [23])
    (hfew : (golayDifference u (bitsToNat (w.take 23)) ++ tail).length ≤ 3) :
    golay24Decode poly w =
      { status := if golayDifference u (bitsToNat (w.take 23)) ++ tail = [] then .noError else .corrected,
        positions := golayDifference u (bitsToNat (w.take 23)) ++ tail } := by
  simp only [golay24Decode, hfound]
  by_cases heven : (popcount 23 u + (w.getD 23 false).toNat) % 2 = 0
  · rw [if_pos heven] at htail
    simp only [htail, List.append_nil, heven, if_true]
    split_ifs with hsame
    · rw [hsame]
    · rfl
  · rw [if_neg heven] at htail
    have htwo : (golayDifference u (bitsToNat (w.take 23))).length ≤ 2 := by simpa [htail, Nat.lt_succ_iff] using hfew
    simp only [htail, heven, htwo, if_true, if_false, List.append_ne_nil_of_right_ne_nil _ (List.cons_ne_nil 23 [])]
    split_ifs with hsame
    · rw [hsame, List.nil_append]
    · rfl

/-- golay24_core where the found codeword differs in three bits and the parity asks for a fourth. -/
theorem golay24Decode_of_four {poly u : Nat} {w : List Bool}
    (hfound : golay23Correct poly (bitsToNat (w.take 23)) = some u)
    (hthree : (golayDifference u (bitsToNat (w.take 23))).length = 3)
    (hodd : (popcount 23 u + (w.getD 23 false).toNat) % 2 = 1) :
    golay24Decode poly w = { status := .uncorrectable, positions := [] } := by
  have hne : golayDifference u (bitsToNat (w.take 23)) ≠ [] := List.ne_nil_of_length_pos (by omega)
  simp only [golay24Decode, hfound, hthree, hodd, hne]
  rfl

@[simp] theorem length_golay24Encode (poly d : Nat) : (golay24Encode poly d).length = 24 := by simp [golay24Encode]

/-- The first 23 bits of a codeword with the bits at `ps` wrong, as an integer. -/
def golayReceived (poly d : Nat) (ps : List Nat) : Nat := bitsToNat ((flipWindow (golay24Encode poly d) ps).take 23)

theorem golayReceived_lt (poly d : Nat) (ps : List Nat) : golayReceived poly d ps < 2 ^ 23 := by
  simpa [golayReceived] using bitsToNat_lt ((flipWindow (golay24Encode poly d) ps).take 23)

theorem testBit_golayReceived {poly d k : Nat} {ps : List Nat} (hps : ps.Nodup) (hk : k < 23) :
    (golayReceived poly d ps).testBit k = ((golay23Encode poly d).testBit k ^^ decide (22 - k ∈ ps)) := by
  rw [golayReceived, testBit_bitsToNat_take_23 (by simp) hk, getD_flipWindow_of_nodup hps (by simp; omega), golay24Encode,
    List.getD_append _ _ _ _ (by simp; omega), getD_natToBits _ _ _ (by omega)]
  congr 2
  omega

/-- An ascending list of numbers below n, found among all of them. -/
theorem filter_range_mem_eq {ps : List Nat} {n : Nat} (hps : ps.Pairwise (· < ·)) (hlt : ∀ q ∈ ps, q < n) :
    (List.range n).filter (· ∈ ps) = ps := by
  have hperm : ((List.range n).filter (· ∈ ps)).Perm ps :=
    (List.perm_ext_iff_of_nodup (List.nodup_range.filter _) hps.nodup).2 fun q => by
      simpa using hlt q
  exact hperm.eq_of_pairwise (fun a b _ _ hab hba => absurd (hab.trans hba) (lt_irrefl _)) (List.pairwise_lt_range.filter _) hps

/-- The wrong positions of a window: those in which the codeword differs, and the parity bit. -/
theorem golayDifference_golayReceived_append {poly d : Nat} {ps : List Nat} (hps : ps.Pairwise (· < ·))
    (hlt : ∀ q ∈ ps, q < 24) :
    golayDifference (golay23Encode poly d) (golayReceived poly d ps) ++ (if 23 ∈ ps then [23] else []) = ps := by
  have hdiff : golayDifference (golay23Encode poly d) (golayReceived poly d ps) = (List.range 23).filter (· ∈ ps) :=
    List.filter_congr fun q hq => by
      have hq' := List.mem_range.1 hq
      rw [Nat.testBit_xor, testBit_golayReceived hps.nodup (by omega), ← Bool.xor_assoc, Bool.xor_self, Bool.false_xor,
        Nat.sub_sub_self (by omega)]
  calc _ = (List.range 24).filter (· ∈ ps) := by
        rw [hdiff, List.range_succ (n := 23), List.filter_append]
        by_cases h : 23 ∈ ps <;> simp only [h, List.filter_singleton, decide_true, decide_false] <;> rfl
    _ = ps := filter_range_mem_eq hps hlt

/-- The wrong bits among the first 23 are the weight of the difference, and with the parity bit they are all. -/
theorem popcount_xor_golayReceived {poly d : Nat} {ps : List Nat} (hps : ps.Pairwise (· < ·)) (hlt : ∀ q ∈ ps, q < 24) :
    popcount 23 (golay23Encode poly d ^^^ golayReceived poly d ps) + (if 23 ∈ ps then 1 else 0) = ps.length := by
  have hlen := congrArg List.length (golayDifference_golayReceived_append (poly := poly) (d := d) hps hlt)
  rw [List.length_append, length_golayDifference] at hlen
  split_ifs at hlen ⊢ <;> exact hlen

/-- The parity of the found codeword with the received parity bit counts the flips the search asks for and the wrong bits
(R296). -/
theorem golay24_parity (poly d u : Nat) {ps : List Nat} (hps : ps.Pairwise (· < ·)) (hlt : ∀ q ∈ ps, q < 24) :
    (popcount 23 u + ((flipWindow (golay24Encode poly d) ps).getD 23 false).toNat) % 2 =
      (popcount 23 (u ^^^ golayReceived poly d ps) + ps.length) % 2 := by
  have hbit : (golay24Encode poly d).getD 23 false = (popcount 23 (golay23Encode poly d) % 2 == 1) := by
    rw [golay24Encode, List.getD_append_right _ _ _ _ (by simp), length_natToBits]
    rfl
  have hlast : ((popcount 23 (golay23Encode poly d) % 2 == 1) ^^ decide (23 ∈ ps)).toNat % 2 =
      (popcount 23 (golay23Encode poly d) + if 23 ∈ ps then 1 else 0) % 2 := by
    rcases Nat.mod_two_eq_zero_or_one (popcount 23 (golay23Encode poly d)) with hc | hc <;> by_cases h : 23 ∈ ps <;>
      simp [hc, h, Nat.add_mod]
  have hfound := popcount_xor_mod_two 23 u (golayReceived poly d ps)
  have hsent := popcount_xor_mod_two 23 (golay23Encode poly d) (golayReceived poly d ps)
  rw [← popcount_xor_golayReceived (poly := poly) (d := d) hps hlt, getD_flipWindow_of_nodup hps.nodup (by simp), hbit]
  omega

namespace GolayPerfect

variable {poly d : Nat} {ps : List Nat} (h : GolayPerfect poly) (hd : d < 2 ^ 12) (hps : ps.Pairwise (· < ·))
include h hd hps

/-- Up to three wrong bits: the codeword is the one within distance 3, and the parity tells whether its own bit is wrong (R300). -/
theorem golay24Decode_few (hlt : ∀ q ∈ ps, q < 24) (hfew : ps.length ≤ 3) :
    golay24Decode poly (flipWindow (golay24Encode poly d) ps) =
      { status := if ps = [] then .noError else .corrected, positions := ps } := by
  have hweight := popcount_xor_golayReceived (poly := poly) (d := d) hps hlt
  have hfound := h.golay23Correct_of_near (golay23Encode_lt h.lt hd) (golayReceived_lt poly d ps)
    (golaySyndrome_golay23Encode poly hd) (by omega)
  have hall := golayDifference_golayReceived_append (poly := poly) (d := d) hps hlt
  have htail : (if 23 ∈ ps then [23] else []) =
      if (popcount 23 (golay23Encode poly d) + ((flipWindow (golay24Encode poly d) ps).getD 23 false).toNat) % 2 = 0
        then [] else [23] := by
    rw [golay24_parity poly d _ hps hlt]
    by_cases hlast : 23 ∈ ps
    · rw [if_pos hlast] at hweight ⊢
      rw [if_neg (by omega)]
    · rw [if_neg hlast] at hweight ⊢
      rw [if_pos (by omega)]
  have hdecode := golay24Decode_of_few hfound htail (by rw [← golayReceived, hall]; exact hfew)
  rwa [← golayReceived, hall] at hdecode

/-- Four wrong bits: the codeword found differs in exactly three of the first 23, by the least weight 7, and the parity asks for a
fourth (R300). -/
theorem golay24Decode_four (hlt : ∀ q ∈ ps, q < 24) (hfour : ps.length = 4) :
    golay24Decode poly (flipWindow (golay24Encode poly d) ps) = { status := .uncorrectable, positions := [] } := by
  have hweight := popcount_xor_golayReceived (poly := poly) (d := d) hps hlt
  obtain ⟨u, hfound, hu, hcode, hnear⟩ := h.exists_golay23Correct (golayReceived_lt poly d ps)
  have hthree : popcount 23 (u ^^^ golayReceived poly d ps) = 3 := by
    by_cases hsame : u = golay23Encode poly d
    · rw [← hsame] at hweight
      split_ifs at hweight <;> omega
    · have hsum := popcount_xor_le 23 (u ^^^ golayReceived poly d ps) (golay23Encode poly d ^^^ golayReceived poly d ps)
      rw [xor_xor_xor_cancel_right] at hsum
      have hfar : 6 < popcount 23 (u ^^^ golay23Encode poly d) := by
        by_contra hclose
        exact hsame (h.codeword_unique hu (golay23Encode_lt h.lt hd) hcode (golaySyndrome_golay23Encode poly hd) (by omega))
      omega
  refine golay24Decode_of_four hfound ((length_golayDifference _ _).trans hthree) ?_
  rw [golay24_parity poly d u hps hlt, hthree, hfour]

end GolayPerfect

/-! The 18-bit window (R298). -/

theorem golay18Decode_of_golay24Decode {poly : Nat} {w : List Bool} {st : DecodeStatus} {ps : List Nat}
    (h : golay24Decode poly (List.replicate 6 false ++ w) = { status := st, positions := ps.map (6 + ·) }) :
    golay18Decode poly w = { status := st, positions := ps } := by
  have hpad : (ps.map (6 + ·)).any (fun q => decide (q < 6)) = false := by simp
  simp only [golay18Decode, h, hpad, List.map_map, Function.comp_def, Nat.add_sub_cancel_left, List.map_id']
  rfl

theorem pairwise_map_add (k : Nat) {ps : List Nat} (hps : ps.Pairwise (· < ·)) : (ps.map (k + ·)).Pairwise (· < ·) :=
  hps.map _ fun _ _ hlt => Nat.add_lt_add_left hlt k

/-- Behind the padding, wrong bits of an 18-bit window are wrong bits of the 24-bit one. -/
theorem append_flipWindow_replicate (w : List Bool) (ps : List Nat) :
    List.replicate 6 false ++ flipWindow w ps = flipWindow (List.replicate 6 false ++ w) (ps.map (6 + ·)) := by
  rw [flipWindow_append (by simp)]
  simp [Function.comp_def]

namespace GolayPerfect

variable {poly d : Nat} {w : List Bool} {ps : List Nat} (h : GolayPerfect poly) (hd : d < 2 ^ 12)
  (hw : List.replicate 6 false ++ w = golay24Encode poly d) (hps : ps.Pairwise (· < ·)) (hlt : ∀ q ∈ ps, q < 18)
include h hd hw hps hlt

theorem golay18Decode_few (hfew : ps.length ≤ 3) :
    golay18Decode poly (flipWindow w ps) = { status := if ps = [] then .noError else .corrected, positions := ps } := by
  refine golay18Decode_of_golay24Decode ?_
  rw [append_flipWindow_replicate, hw,
    h.golay24Decode_few hd (pairwise_map_add 6 hps) (List.forall_mem_map.2 fun q hq => Nat.add_lt_add_left (hlt q hq) 6)
      (by simpa using hfew)]
  simp only [List.map_eq_nil_iff]

theorem golay18Decode_four (hfour : ps.length = 4) :
    golay18Decode poly (flipWindow w ps) = { status := .uncorrectable, positions := [] } := by
  refine golay18Decode_of_golay24Decode ?_
  rw [append_flipWindow_replicate, hw,
    h.golay24Decode_four hd (pairwise_map_add 6 hps) (List.forall_mem_map.2 fun q hq => Nat.add_lt_add_left (hlt q hq) 6)
      (by simpa using hfour)]
  rfl

end GolayPerfect

end Sys2Proof

namespace Sys2Proof.Machine

variable {s : State} {i : Instr} {a : BitVec 16}

/-- A decoder of a window in BUF, by the configuration. -/
theorem State.decodesPlaced_of_windowDecode {a n : Nat} {dec : Config → List Bool → Repair}
    (hexec : ∀ u : State, exec i u = runCommand i u (windowDecode u a n (dec u.cfg))) (hs : s.fault = 0)
    (hfit : a + n ≤ s.cfg.bufLen) : s.decodesPlaced i (a + ·) n (dec s.cfg) := by
  intro u hcfg _ hfault
  rw [hexec, windowDecode_eq, hcfg, if_pos hfit, runCommand_ok (hfault.trans hs), u.window_eq_placed]

theorem decodesPlaced_gol23 (hs : s.fault = 0) (hfit : a.toNat + 23 ≤ s.cfg.bufLen) :
    s.decodesPlaced (.gol23 a) (a.toNat + ·) 23 (golay23Decode s.cfg.golayPoly) :=
  State.decodesPlaced_of_windowDecode (dec := fun c => golay23Decode c.golayPoly) (fun _ => rfl) hs hfit

theorem decodesPlaced_gol24 (hs : s.fault = 0) (hfit : a.toNat + 24 ≤ s.cfg.bufLen) :
    s.decodesPlaced (.gol24 a) (a.toNat + ·) 24 (golay24Decode s.cfg.golayPoly) :=
  State.decodesPlaced_of_windowDecode (dec := fun c => golay24Decode c.golayPoly) (fun _ => rfl) hs hfit

theorem decodesPlaced_gol18 (hs : s.fault = 0) (hfit : a.toNat + 18 ≤ s.cfg.bufLen) :
    s.decodesPlaced (.gol18 a) (a.toNat + ·) 18 (golay18Decode s.cfg.golayPoly) :=
  State.decodesPlaced_of_windowDecode (dec := fun c => golay18Decode c.golayPoly) (fun _ => rfl) hs hfit

/-- A decoder that names the wrong bits of a window restores BUF. -/
theorem State.decodesPlaced.restores {place : Nat → Nat} {n : Nat} {dec : List Bool → Repair}
    (h : s.decodesPlaced i place n dec) {ps : List Nat} (hps : ∀ p ∈ ps, p < n)
    (hplace : ∀ p < n, ∀ q < n, place p = place q → p = q) {st : DecodeStatus}
    (hr : dec (flipWindow (s.placed place n) ps) = { status := st, positions := ps }) :
    ∃ t, exec i (s.withErrors (ps.map place)) = .next t ∧ (s.withErrors (ps.map place)).repairs t st (ps.map place) ∧
      ∀ i, t.buf.read i = s.buf.read i := by
  obtain ⟨t, ht, hrepairs⟩ := h.exec_withErrors hps hplace hr
  exact ⟨t, ht, hrepairs, State.read_of_repairs_withErrors hrepairs⟩

/-- Settles O50: the search never fails on a perfect code, and what it finds is a codeword within distance 3. -/
theorem gol23Nearest : Obligations.Gol23Nearest := by
  intro s a hcfg hs hfit
  have hw : (s.window a.toNat 23).length = 23 := s.length_window _ _
  have hv : bitsToNat (s.window a.toNat 23) < 2 ^ 23 := hw ▸ bitsToNat_lt _
  obtain ⟨u, hfound, hu, hcode, hnear⟩ := (Config.golayPerfect_of_wf hcfg).exists_golay23Correct hv
  have hexec := decodesPlaced_gol23 hs hfit s rfl rfl rfl
  rw [← State.window_eq_placed, golay23Decode_of_correct hw hfound] at hexec
  refine ⟨_, u, _, hexec, ⟨_, Nat.mod_lt _ (by decide), (golay23Encode_of_codeword hcode).symm⟩,
    (golayErrors_eq_golayDifference u hw).symm, (length_golayDifference _ _).trans_le hnear,
    s.repairs_applyRepair _ _, ?_⟩
  rw [State.bufRead, s.window_applyRepair fun q => golayDifference_lt]
  exact bitsToNat_flipWindow_golayDifference hw hu

/-- Settles O51: up to three wrong bits leave the codeword the nearest one, and four have the parity of none. -/
theorem gol24Corrects : Obligations.Gol24Corrects := by
  intro s a d ps hcfg hs hfit hd hword hps hlt s' hs'
  subst hs'
  have hperfect := Config.golayPerfect_of_wf hcfg
  have hdecodes := decodesPlaced_gol24 hs hfit
  rw [s.window_eq_placed] at hword
  exact ⟨fun hfew => hdecodes.restores hlt (fun _ _ _ _ => Nat.add_left_cancel)
      (hword ▸ hperfect.golay24Decode_few hd hps hlt hfew),
    fun hfour => hdecodes.exec_withErrors hlt (fun _ _ _ _ => Nat.add_left_cancel)
      (hword ▸ hperfect.golay24Decode_four hd hps hlt hfour)⟩

/-- Settles O52: behind its padding the window is that of O51, and none of the wrong bits lies in the padding. -/
theorem gol18Corrects : Obligations.Gol18Corrects := by
  intro s a d ps hcfg hs hfit hd hword hps hlt s' hs'
  subst hs'
  have hperfect := Config.golayPerfect_of_wf hcfg
  have hdecodes := decodesPlaced_gol18 hs hfit
  rw [s.window_eq_placed] at hword
  exact ⟨fun hfew => hdecodes.restores hlt (fun _ _ _ _ => Nat.add_left_cancel)
      (hperfect.golay18Decode_few hd hword hps hlt hfew),
    fun hfour => hdecodes.exec_withErrors hlt (fun _ _ _ _ => Nat.add_left_cancel)
      (hperfect.golay18Decode_four hd hword hps hlt hfour)⟩

end Sys2Proof.Machine
end

section
/-! BPTC on a window (R333 to R338). A pass decodes lines of cells, and no two lines of a pass share a cell, so each line is read as
the pass found it. The state between two subblocks is the window with the flips made so far. -/

namespace Sys2Proof

/-! Flips that cancel or miss. -/

theorem flipWindow_of_even {w : List Bool} {ps : List Nat} (h : ∀ q, ps.count q % 2 = 0) : flipWindow w ps = w :=
  List.ext_getElem (by simp) fun q _ _ => by simp [flipWindow, h]

theorem flipWindow_nil (w : List Bool) : flipWindow w [] = w := flipWindow_of_even (by simp)

theorem flipWindow_twice (w : List Bool) (ps : List Nat) : flipWindow (flipWindow w ps) ps = w := by
  rw [flipWindow_flipWindow]
  exact flipWindow_of_even fun q => by rw [List.count_append]; omega

theorem getD_flipWindow_singleton {w : List Bool} {q : Nat} (p : Nat) (hq : q < w.length) :
    (flipWindow w [p]).getD q false = (w.getD q false ^^ decide (q = p)) := by
  rw [getD_flipWindow_of_nodup (List.nodup_singleton p) hq]
  simp only [List.mem_singleton]

/-- Of a list without repetitions, one entry alone contributes. -/
theorem flatMap_eq_of_forall_ne {α β : Type} {f : α → List β} {a : α} {l : List α} (hl : l.Nodup) (ha : a ∈ l)
    (h : ∀ b ∈ l, b ≠ a → f b = []) : l.flatMap f = f a := by
  obtain ⟨l₁, l₂, rfl⟩ := List.append_of_mem ha
  obtain ⟨-, hl₂, hdisj⟩ := List.nodup_append.1 hl
  have h₁ : l₁.flatMap f = [] := List.flatMap_eq_nil_iff.2 fun b hb =>
    h b (List.mem_append_left _ hb) (hdisj b hb a List.mem_cons_self)
  have h₂ : l₂.flatMap f = [] := List.flatMap_eq_nil_iff.2 fun b hb =>
    h b (List.mem_append_right _ (List.mem_cons_of_mem a hb)) fun hba => (List.nodup_cons.1 hl₂).1 (hba ▸ hb)
  rw [List.flatMap_append, List.flatMap_cons, h₁, h₂, List.nil_append, List.append_nil]

/-- The core is silent exactly on codewords (R258). -/
theorem hamCore_silent_iff (c : HamCode) (w : List Bool) :
    (hamCore c w).status ≠ .uncorrectable ∧ (hamCore c w).positions = [] ↔ c.syndrome w = 0 := by
  constructor
  · rintro ⟨hstatus, hpositions⟩
    rcases hamCore_cases c w with ⟨hzero, -⟩ | ⟨j, -, h⟩ | h
    · exact hzero
    · simp [h] at hpositions
    · simp [h] at hstatus
  · intro hzero
    simp [hamCore_of_syndrome_eq_zero hzero, Repair.clean]

/-! The permutation (R331): 13 is the inverse of 181 modulo 196. -/

theorem bptcPosition_inj {i j : Nat} (hi : i < 196) (hj : j < 196) (h : bptcPosition i = bptcPosition j) : i = j := by
  unfold bptcPosition at h
  omega

theorem bptcPosition_eq_zero_iff {i : Nat} (hi : i < 196) : bptcPosition i = 0 ↔ i = 0 := by
  unfold bptcPosition
  omega

/-- Every offset but 0 is the place of a cell (R332). -/
theorem exists_bptcCell {q : Nat} (hpos : 1 ≤ q) (hlt : q < 196) : ∃ c < 15, ∃ r < 13, q = bptcPosition (bptcCell r c) := by
  refine ⟨(q * 13 % 196 - 1) % 15, by omega, (q * 13 % 196 - 1) / 15, by omega, ?_⟩
  unfold bptcPosition bptcCell
  omega

@[simp] theorem length_bptcDeinterleave (w : List Bool) : (bptcDeinterleave w).length = 196 := by simp [bptcDeinterleave]

theorem getElem_bptcDeinterleave (w : List Bool) {i : Nat} (hi : i < (bptcDeinterleave w).length) :
    (bptcDeinterleave w)[i] = w.getD (bptcPosition i) false := by
  simp only [bptcDeinterleave, List.getElem_map, List.getElem_range]

theorem getD_bptcDeinterleave (w : List Bool) {i : Nat} (hi : i < 196) :
    (bptcDeinterleave w).getD i false = w.getD (bptcPosition i) false := by
  rw [List.getD_eq_getElem _ _ (by simpa using hi), getElem_bptcDeinterleave]

/-- A wrong bit of the window is a wrong bit of the matrix. -/
theorem bptcDeinterleave_flip {w : List Bool} (hw : w.length = 196) {i : Nat} (hi : i < 196) :
    bptcDeinterleave (flipWindow w [bptcPosition i]) =
      (bptcDeinterleave w).set i (!(bptcDeinterleave w).getD i false) := by
  rw [getD_bptcDeinterleave w hi]
  refine List.ext_getElem (by simp) fun k hk _ => ?_
  rw [getElem_bptcDeinterleave, getD_flipWindow_singleton _ (hw.symm ▸ bptcPosition_lt k), List.getElem_set,
    getElem_bptcDeinterleave]
  split_ifs with hik
  · simp only [hik, decide_true, Bool.xor_true]
  · have hne : bptcPosition k ≠ bptcPosition i := fun heq => hik (bptcPosition_inj (by simpa using hk) hi heq).symm
    rw [decide_eq_false hne, Bool.xor_false]

/-! A pass (R333, R334). -/

/-- A pass over the matrix: so many lines, each a word of the code, with the deinterleaved index of bit j of line k. -/
structure BptcPass where
  code : HamCode
  lines : Nat
  cell : Nat → Nat → Nat

/-- The column pass (R333). -/
def bptcColumnPass : BptcPass := { code := ham13, lines := 15, cell := fun c r => bptcCell r c }

/-- The row pass (R334). -/
def bptcRowPass : BptcPass := { code := ham15, lines := 9, cell := bptcCell }

namespace BptcPass

/-- The deinterleaved indices of line k. -/
def cells (p : BptcPass) (k : Nat) : List Nat := (List.range p.code.n).map (p.cell k)

/-- The bits of line k in a window. -/
def line (p : BptcPass) (w : List Bool) (k : Nat) : List Bool :=
  (List.range p.code.n).map fun j => w.getD (bptcPosition (p.cell k j)) false

/-- The core's answer on line k of a window. -/
def answer (p : BptcPass) (w : List Bool) (k : Nat) : Repair := hamCore p.code (p.line w k)

/-- The window positions the core flips in line k. -/
def lineFlips (p : BptcPass) (w : List Bool) (k : Nat) : List Nat :=
  (p.answer w k).positions.map fun j => bptcPosition (p.cell k j)

/-- The window positions the core flips in the lines before m, line after line. -/
def flipsBefore (p : BptcPass) (w : List Bool) (m : Nat) : List Nat := (List.range m).flatMap (p.lineFlips w)

/-- Some line before m is uncorrectable. -/
def refusesBefore (p : BptcPass) (w : List Bool) (m : Nat) : Bool :=
  (List.range m).any fun k => (p.answer w k).status == .uncorrectable

/-- What the lines of a pass have: a well-formed code, and each cell inside the matrix and in one place of one line only. -/
structure Wf (p : BptcPass) : Prop where
  code : p.code.Wf
  cell_mem : ∀ k < p.lines, ∀ j < p.code.n, 1 ≤ p.cell k j ∧ p.cell k j < 196
  cell_inj : ∀ k < p.lines, ∀ l < p.lines, ∀ i < p.code.n, ∀ j < p.code.n, p.cell k i = p.cell l j → k = l ∧ i = j

/-- The working values after flips of a window: its deinterleaved bits with the flips made (R336). -/
def stateAfter (w : List Bool) (ps : List Nat) (unc : Bool) : BptcState :=
  { matrix := bptcDeinterleave (flipWindow w ps), flips := ps, anyUnc := unc }

variable {p : BptcPass} {w : List Bool} {k l i j m : Nat} {ps : List Nat} {unc : Bool}

@[simp] theorem length_line (p : BptcPass) (w : List Bool) (k : Nat) : (p.line w k).length = p.code.n := by simp [line]

theorem getD_line (w : List Bool) (hj : j < p.code.n) :
    (p.line w k).getD j false = w.getD (bptcPosition (p.cell k j)) false := by
  rw [List.getD_eq_getElem _ _ (by simpa using hj)]
  simp only [line, List.getElem_map, List.getElem_range]

theorem refusesBefore_iff : p.refusesBefore w m = true ↔ ∃ k < m, (p.answer w k).status = .uncorrectable := by
  simp [refusesBefore]

/-- A pass flips and refuses nothing exactly where its lines are codewords. -/
theorem silent_iff :
    p.refusesBefore w m = false ∧ p.flipsBefore w m = [] ↔ ∀ k < m, p.code.syndrome (p.line w k) = 0 := by
  simp only [← hamCore_silent_iff, refusesBefore, flipsBefore, lineFlips, List.any_eq_false, List.flatMap_eq_nil_iff,
    List.map_eq_nil_iff, List.mem_range, beq_iff_eq, forall_and]
  rfl

/-- Line k is as it was where the flips miss its places. -/
theorem line_flipWindow_of_not_mem (hw : w.length = 196) (h : ∀ j < p.code.n, bptcPosition (p.cell k j) ∉ ps) :
    p.line (flipWindow w ps) k = p.line w k :=
  List.map_congr_left fun j hj => by
    rw [getD_flipWindow ps (hw.symm ▸ bptcPosition_lt _), List.count_eq_zero_of_not_mem (h j (List.mem_range.1 hj))]
    simp

namespace Wf

variable (h : p.Wf)
include h

theorem answer_lt (h' : j ∈ (p.answer w k).positions) : j < p.code.n := hamCore_positions_lt h.code.data_le _ j h'

/-- No two cells of a pass share a place. -/
theorem position_inj (hk : k < p.lines) (hl : l < p.lines) (hi : i < p.code.n) (hj : j < p.code.n)
    (heq : bptcPosition (p.cell k i) = bptcPosition (p.cell l j)) : k = l ∧ i = j :=
  h.cell_inj k hk l hl i hi j hj (bptcPosition_inj (h.cell_mem k hk i hi).2 (h.cell_mem l hl j hj).2 heq)

/-- The bit at offset 0 is no cell. -/
theorem position_ne_zero (hk : k < p.lines) (hj : j < p.code.n) : bptcPosition (p.cell k j) ≠ 0 := fun hzero => by
  obtain ⟨hpos, hlt⟩ := h.cell_mem k hk j hj
  exact absurd ((bptcPosition_eq_zero_iff hlt).1 hzero) (by omega)

theorem zero_not_mem_flipsBefore (hm : m ≤ p.lines) : 0 ∉ p.flipsBefore w m := fun hmem => by
  obtain ⟨k, hk, hflip⟩ := List.mem_flatMap.1 hmem
  obtain ⟨j, hj, hzero⟩ := List.mem_map.1 hflip
  exact h.position_ne_zero ((List.mem_range.1 hk).trans_le hm) (h.answer_lt hj) hzero

/-- The flips of the lines before line m leave line m as it was. -/
theorem line_flipWindow_flipsBefore (hw : w.length = 196) (hm : m < p.lines) :
    p.line (flipWindow w (p.flipsBefore w m)) m = p.line w m := by
  refine line_flipWindow_of_not_mem hw fun i hi hmem => ?_
  obtain ⟨k, hk, hflip⟩ := List.mem_flatMap.1 hmem
  obtain ⟨j, hj, heq⟩ := List.mem_map.1 hflip
  have hkm := List.mem_range.1 hk
  exact hkm.ne (h.position_inj (hkm.trans hm) hm (h.answer_lt hj) hi heq).1

/-! The subblocks in turn. -/

/-- One subblock: what the core answers on the line, its flips made (R333, R334). -/
theorem bptcSubblock_stateAfter (hw : w.length = 196) (hk : k < p.lines) :
    bptcSubblock p.code (stateAfter w ps unc) (p.cells k) =
      stateAfter w (ps ++ p.lineFlips (flipWindow w ps) k)
        (unc || (p.answer (flipWindow w ps) k).status == .uncorrectable) := by
  have hbits : ((p.cells k).map fun i => (bptcDeinterleave (flipWindow w ps)).getD i false) = p.line (flipWindow w ps) k := by
    rw [cells, List.map_map]
    exact List.map_congr_left fun j hj => getD_bptcDeinterleave _ (h.cell_mem k hk j (List.mem_range.1 hj)).2
  simp only [bptcSubblock, stateAfter, lineFlips, answer, ← flipWindow_flipWindow, hbits]
  rcases hamCore_cases p.code (p.line (flipWindow w ps) k) with ⟨-, hr⟩ | ⟨j, hj, hr⟩ | hr
  · simp [hr, flipWindow_nil]
  · have hlt : j < p.code.n := HamCode.errorIndex_lt h.code.data_le hj
    have hcell : (p.cells k).getD j 0 = p.cell k j := by simp [cells, hlt]
    simp only [hr, List.map_cons, List.map_nil, hcell, List.foldl_cons, List.foldl_nil]
    rw [bptcDeinterleave_flip (by simpa using hw) (h.cell_mem k hk j hlt).2]
  · simp [hr, flipWindow_nil]

/-- A pass flips what the core corrects in each line as the pass found it. -/
theorem foldl_bptcSubblock (hw : w.length = 196) (hm : m ≤ p.lines) :
    ((List.range m).map p.cells).foldl (bptcSubblock p.code) (stateAfter w ps unc) =
      stateAfter w (ps ++ p.flipsBefore (flipWindow w ps) m) (unc || p.refusesBefore (flipWindow w ps) m) := by
  induction m with
  | zero => simp [flipsBefore, refusesBefore]
  | succ m ih =>
    have hline : p.line (flipWindow w (ps ++ p.flipsBefore (flipWindow w ps) m)) m = p.line (flipWindow w ps) m := by
      rw [← flipWindow_flipWindow]
      exact h.line_flipWindow_flipsBefore (by simpa using hw) hm
    rw [List.range_succ, List.map_append, List.foldl_append, ih (Nat.le_of_succ_le hm), List.map_singleton, List.foldl_cons,
      List.foldl_nil, h.bptcSubblock_stateAfter hw hm]
    simp only [lineFlips, answer, hline]
    simp [flipsBefore, refusesBefore, lineFlips, answer, List.range_succ, Bool.or_assoc]

/-! One wrong bit. -/

/-- A wrong cell is a wrong bit of its line, and of no other. -/
theorem line_flip (hw : w.length = 196) (hk : k < p.lines) (hl : l < p.lines) (hi : i < p.code.n) :
    p.line (flipWindow w [bptcPosition (p.cell k i)]) l = if l = k then flipWindow (p.line w k) [i] else p.line w l := by
  split_ifs with hlk
  · subst hlk
    refine List.ext_getElem (by simp) fun j hj _ => ?_
    have hj' : j < p.code.n := by simpa using hj
    have hsame : bptcPosition (p.cell l j) = bptcPosition (p.cell l i) ↔ j = i :=
      ⟨fun heq => (h.position_inj hl hl hj' hi heq).2, fun heq => heq ▸ rfl⟩
    rw [← List.getD_eq_getElem _ false, ← List.getD_eq_getElem _ false, getD_flipWindow_singleton i (by simpa using hj'),
      getD_line _ hj', getD_line _ hj', getD_flipWindow_singleton _ (hw.symm ▸ bptcPosition_lt _), decide_eq_decide.2 hsame]
  · exact line_flipWindow_of_not_mem hw fun j hj hmem => hlk (h.position_inj hl hk hj hi (List.mem_singleton.1 hmem)).1

/-- One wrong cell among codewords: the core corrects it in its line, and passes the others. -/
theorem answer_flip (hw : w.length = 196) (hvalid : ∀ k < p.lines, p.code.syndrome (p.line w k) = 0) (hk : k < p.lines)
    (hl : l < p.lines) (hi : i < p.code.n) :
    p.answer (flipWindow w [bptcPosition (p.cell k i)]) l =
      if l = k then { status := .corrected, positions := [i] } else Repair.clean := by
  rw [answer, h.line_flip hw hk hl hi]
  split_ifs with hlk
  · refine h.code.hamCore_of_column hi ?_
    rw [h.code.syndrome_flip (p.length_line w k) hi, hvalid k hk, Nat.zero_xor]
  · exact hamCore_of_syndrome_eq_zero (hvalid l hl)

/-- The pass takes one wrong cell back, and refuses nothing. -/
theorem pass_flip (hw : w.length = 196) (hvalid : ∀ k < p.lines, p.code.syndrome (p.line w k) = 0) (hk : k < p.lines)
    (hi : i < p.code.n) :
    p.refusesBefore (flipWindow w [bptcPosition (p.cell k i)]) p.lines = false ∧
      p.flipsBefore (flipWindow w [bptcPosition (p.cell k i)]) p.lines = [bptcPosition (p.cell k i)] := by
  have hanswer := fun l hl => h.answer_flip hw hvalid hk (l := l) hl hi
  constructor
  · rw [← Bool.not_eq_true, refusesBefore_iff]
    rintro ⟨l, hl, hstatus⟩
    rw [hanswer l hl] at hstatus
    split_ifs at hstatus
    cases hstatus
  · rw [flipsBefore, flatMap_eq_of_forall_ne List.nodup_range (List.mem_range.2 hk) fun l hl hlk => ?_]
    · rw [lineFlips, hanswer k hk, if_pos rfl, List.map_singleton]
    · rw [lineFlips, hanswer l (List.mem_range.1 hl), if_neg hlk, Repair.clean, List.map_nil]

end Wf

end BptcPass

theorem bptcColumnPass_wf : bptcColumnPass.Wf where
  code := ham13_wf
  cell_mem k hk j hj := by
    simp only [bptcColumnPass, ham13, bptcCell] at hk hj ⊢
    omega
  cell_inj k hk l hl i hi j hj heq := by
    simp only [bptcColumnPass, ham13, bptcCell] at hk hl hi hj heq
    omega

theorem bptcRowPass_wf : bptcRowPass.Wf where
  code := ham15_wf
  cell_mem k hk j hj := by
    simp only [bptcRowPass, ham15, bptcCell] at hk hj ⊢
    omega
  cell_inj k hk l hl i hi j hj heq := by
    simp only [bptcRowPass, ham15, bptcCell] at hk hl hi hj heq
    omega

/-! Both passes (R335, R336). -/

variable {w v : List Bool}

theorem bptcColumnFlips_eq_flipsBefore (w : List Bool) : bptcColumnFlips w = bptcColumnPass.flipsBefore w 15 := rfl

theorem bptcRowFlips_eq_flipsBefore (w : List Bool) : bptcRowFlips w = bptcRowPass.flipsBefore w 9 := rfl

/-- The flips of the two passes, and whether one of them met an uncorrectable subblock. -/
theorem bptcPasses_eq (hw : w.length = 196) (hv : v = flipWindow w (bptcColumnFlips w)) :
    bptcPasses w = BptcPass.stateAfter w (bptcColumnFlips w ++ bptcRowFlips v)
      (bptcColumnPass.refusesBefore w 15 || bptcRowPass.refusesBefore v 9) := by
  subst hv
  have hcolumns := bptcColumnPass_wf.foldl_bptcSubblock (ps := []) (unc := false) hw le_rfl
  rw [List.nil_append, Bool.false_or, flipWindow_nil] at hcolumns
  have hrows := bptcRowPass_wf.foldl_bptcSubblock (ps := bptcColumnFlips w) (unc := bptcColumnPass.refusesBefore w 15) hw le_rfl
  calc bptcPasses w
      = ((List.range 9).map bptcRowPass.cells).foldl (bptcSubblock ham15)
          (((List.range 15).map bptcColumnPass.cells).foldl (bptcSubblock ham13) (BptcPass.stateAfter w [] false)) := by
        rw [BptcPass.stateAfter, flipWindow_nil]
        rfl
    _ = _ := (congrArg (List.foldl (bptcSubblock ham15) · _) hcolumns).trans hrows

theorem bptcDecode_positions (w : List Bool) : (bptcDecode w).positions = (bptcPasses w).flips := by
  rcases bptcDecode_cases w with ⟨-, h⟩ | ⟨hnil, h⟩ | ⟨-, h⟩ <;> rw [h]
  exact hnil.symm

/-- The three statuses of R335. -/
theorem bptcDecode_status (w : List Bool) :
    (bptcDecode w).status = .noError ∨ (bptcDecode w).status = .corrected ∨ (bptcDecode w).status = .uncorrectable := by
  rcases bptcDecode_cases w with ⟨-, h⟩ | ⟨-, h⟩ | ⟨-, h⟩ <;> simp [h]

theorem bptcDecode_uncorrectable_iff (w : List Bool) :
    (bptcDecode w).status = .uncorrectable ↔ (bptcPasses w).anyUnc = true := by
  simp only [bptcDecode]
  split_ifs <;> simp [*]

theorem bptcDecode_noError_iff (w : List Bool) :
    (bptcDecode w).status = .noError ↔ (bptcPasses w).anyUnc = false ∧ (bptcPasses w).flips = [] := by
  simp only [bptcDecode]
  split_ifs <;> simp [*]

theorem bptcDecode_positions_eq (hw : w.length = 196) (hv : v = flipWindow w (bptcColumnFlips w)) :
    (bptcDecode w).positions = bptcColumnFlips w ++ bptcRowFlips v := by
  rw [bptcDecode_positions, bptcPasses_eq hw hv]
  rfl

/-- UNCORRECTABLE is some uncorrectable subblock (R335). -/
theorem bptcDecode_uncorrectable_iff_exists (hw : w.length = 196) (hv : v = flipWindow w (bptcColumnFlips w)) :
    (bptcDecode w).status = .uncorrectable ↔
      (∃ c < 15, (hamCore ham13 (bptcColumnOf w c)).status = .uncorrectable) ∨
        ∃ r < 9, (hamCore ham15 (bptcRowOf v r)).status = .uncorrectable := by
  rw [bptcDecode_uncorrectable_iff, bptcPasses_eq hw hv]
  change (_ || _) = true ↔ _
  rw [Bool.or_eq_true, BptcPass.refusesBefore_iff, BptcPass.refusesBefore_iff]
  rfl

/-- The row code is perfect, so no row is refused (R261). -/
theorem ham15_correctable (w : List Bool) : (hamCore ham15 w).status ≠ .uncorrectable := fun h => by
  obtain ⟨hne, hnone⟩ := (hamCore_uncorrectable_iff rfl w).1 h
  obtain ⟨i, hi, hcol⟩ := ham15_perfect _ ham15_wf.syndrome_lt hne
  exact HamCode.errorIndex_column_ne_none hi (hcol ▸ hnone)

/-- UNCORRECTABLE is a column with a syndrome that no column of the code has (R261, R335). -/
theorem bptcDecode_uncorrectable_iff_syndrome (hw : w.length = 196) :
    (bptcDecode w).status = .uncorrectable ↔
      ∃ c < 15, ham13.syndrome (bptcColumnOf w c) = 0x9 ∨ ham13.syndrome (bptcColumnOf w c) = 0xD := by
  simp only [bptcDecode_uncorrectable_iff_exists hw rfl, ham15_correctable, and_false, exists_false, or_false,
    ham13_uncorrectable_iff]

/-- NO_ERROR is a block of codewords: columns that flip nothing leave the rows as they were (R335). -/
theorem bptcDecode_noError_iff_valid (hw : w.length = 196) : (bptcDecode w).status = .noError ↔ bptcValid w := by
  have hcolumns := BptcPass.silent_iff (p := bptcColumnPass) (w := w) (m := 15)
  have hrows := BptcPass.silent_iff (p := bptcRowPass) (w := w) (m := 9)
  rw [bptcDecode_noError_iff, bptcPasses_eq hw rfl]
  change (_ || _) = false ∧ _ ++ _ = [] ↔ (∀ c < 15, bptcColumnPass.code.syndrome (bptcColumnPass.line w c) = 0) ∧
    ∀ r < 9, bptcRowPass.code.syndrome (bptcRowPass.line w r) = 0
  rw [Bool.or_eq_false_iff, List.append_eq_nil_iff, ← hcolumns, ← hrows, bptcColumnFlips_eq_flipsBefore,
    bptcRowFlips_eq_flipsBefore, and_and_and_comm]
  refine and_congr_right fun ⟨_, hnil⟩ => ?_
  rw [hnil, flipWindow_nil]

theorem bptcDecode_of_valid (hw : w.length = 196) (hvalid : bptcValid w) : bptcDecode w = Repair.clean := by
  have hstatus := (bptcDecode_noError_iff_valid hw).2 hvalid
  rcases bptcDecode_cases w with ⟨-, h⟩ | ⟨-, h⟩ | ⟨-, h⟩
  · rw [h] at hstatus; cases hstatus
  · exact h
  · rw [h] at hstatus; cases hstatus

/-- Offset 0 never flips (R332). -/
theorem zero_not_mem_bptcDecode_positions (hw : w.length = 196) : 0 ∉ (bptcDecode w).positions := by
  rw [bptcDecode_positions_eq hw rfl, List.mem_append]
  exact not_or.2 ⟨bptcColumnPass_wf.zero_not_mem_flipsBefore le_rfl, bptcRowPass_wf.zero_not_mem_flipsBefore le_rfl⟩

/-- Offset 0 is in no subblock (R332). -/
theorem bptcValid_flip_zero (hw : w.length = 196) (hvalid : bptcValid w) : bptcValid (flipWindow w [0]) := by
  have hline : ∀ {p : BptcPass}, p.Wf → ∀ k < p.lines, p.line (flipWindow w [0]) k = p.line w k := fun h k hk =>
    BptcPass.line_flipWindow_of_not_mem hw fun j hj => by simpa using h.position_ne_zero hk hj
  obtain ⟨hcolumns, hrows⟩ := hvalid
  exact ⟨fun c hc => (congrArg ham13.syndrome (hline bptcColumnPass_wf c hc)).trans (hcolumns c hc),
    fun r hr => (congrArg ham15.syndrome (hline bptcRowPass_wf r hr)).trans (hrows r hr)⟩

/-- One wrong cell of a block of codewords is taken back by its column, and the rows find nothing (R338). -/
theorem bptcDecode_flip (hw : w.length = 196) (hvalid : bptcValid w) {q : Nat} (hpos : 1 ≤ q) (hlt : q < 196) :
    bptcDecode (flipWindow w [q]) = { status := .corrected, positions := [q] } := by
  obtain ⟨c, hc, r, hr, rfl⟩ := exists_bptcCell hpos hlt
  obtain ⟨hcolumns, hrows⟩ := hvalid
  obtain ⟨hcolumnsRefuse, hcolumnFlips⟩ := bptcColumnPass_wf.pass_flip (k := c) (i := r) hw hcolumns hc hr
  obtain ⟨hrowsRefuse, hrowFlips⟩ := (BptcPass.silent_iff (p := bptcRowPass)).2 hrows
  have hpasses : bptcPasses (flipWindow w [bptcPosition (bptcCell r c)]) =
      BptcPass.stateAfter (flipWindow w [bptcPosition (bptcCell r c)]) ([bptcPosition (bptcCell r c)] ++ []) (false || false) := by
    rw [bptcPasses_eq (v := w) (by simpa using hw) (by
      rw [bptcColumnFlips_eq_flipsBefore]
      exact ((congrArg _ hcolumnFlips).trans (flipWindow_twice w _)).symm)]
    exact congrArg₂ _ (congrArg₂ _ hcolumnFlips hrowFlips) (congrArg₂ _ hcolumnsRefuse hrowsRefuse)
  rw [bptcDecode, hpasses]
  rfl

end Sys2Proof

namespace Sys2Proof.Machine

variable {s t : State} {a : BitVec 16}

theorem decodesPlaced_bptc (hs : s.fault = 0) (hfit : a.toNat + 196 ≤ s.cfg.bufLen) :
    s.decodesPlaced (.bptc a) (a.toNat + ·) 196 bptcDecode :=
  State.decodesPlaced_of_windowDecode (dec := fun _ => bptcDecode) (fun _ => rfl) hs hfit

/-- A BUF bit that is not reported is as it was. -/
theorem State.read_of_repairs_of_not_mem {st : DecodeStatus} {ps : List Nat} (h : s.repairs t st ps) {i : Nat} (hi : i ∉ ps) :
    t.buf.read i = s.buf.read i := by
  obtain ⟨-, -, hflip⟩ := h
  rw [hflip, List.count_eq_zero_of_not_mem hi]
  simp

/-- Settles O53: each pass reads its lines as it found them, a single wrong cell is its column's, and the bit at offset 0 is in no
subblock. -/
theorem bptcSingleError : Obligations.BptcSingleError := by
  intro s a w v hs hfit hw hv
  have hlen : w.length = 196 := hw ▸ s.length_window _ _
  have hplaced : s.placed (a.toNat + ·) 196 = w := (s.window_eq_placed _ _).symm.trans hw.symm
  have hdecodes := decodesPlaced_bptc hs hfit
  have hexec := hdecodes s rfl rfl rfl
  rw [hplaced] at hexec
  have hrepairs := s.repairs_applyRepair (a.toNat + ·) (bptcDecode w)
  have hzero : a.toNat ∉ (bptcDecode w).positions.map (a.toNat + ·) := by
    simpa using zero_not_mem_bptcDecode_positions hlen
  refine ⟨⟨_, (bptcDecode w).status, hexec, bptcDecode_positions_eq hlen hv ▸ hrepairs,
    State.read_of_repairs_of_not_mem hrepairs hzero, bptcDecode_uncorrectable_iff_exists hlen hv,
    bptcDecode_uncorrectable_iff_syndrome hlen, bptcDecode_noError_iff_valid hlen, bptcDecode_status w⟩,
    fun hvalid => ⟨?_, ?_, ?_⟩⟩
  · rw [bptcDecode_of_valid hlen hvalid] at hexec
    exact State.findsNoError_of_clean hexec
  · rintro q hpos hlt s' rfl
    exact hdecodes.restores (ps := [q]) (by simpa using hlt) (fun _ _ _ _ => Nat.add_left_cancel)
      (hplaced ▸ bptcDecode_flip hlen hvalid hpos hlt)
  · rintro s' rfl
    exact hdecodes.exec_withErrors (ps := [0]) (by simp) (fun _ _ _ _ => Nat.add_left_cancel)
      (hplaced ▸ bptcDecode_of_valid (by simpa using hlen) (bptcValid_flip_zero hlen hvalid))

end Sys2Proof.Machine
end

section
/-! The checksum tables (R360 to R366) as powers of x modulo G(x). Shifting a message through the register is linear, so a
message's checksum is the sum of what its set bits add, and what bit i adds is a power of x. G has
constant term 1, so no power of x is 0. -/

namespace Sys2Proof

/-! Sums of powers of two. -/

/-- An integer is the sum of the powers of two of its set bits. -/
theorem xorAll_testBit (n a : Nat) :
    xorAll ((List.range n).map fun i => if a.testBit i then 2 ^ i else 0) = a % 2 ^ n := by
  induction n with
  | zero => simp [Nat.mod_one]
  | succ n ih =>
    rw [List.range_succ, List.map_append, xorAll_append, ih]
    refine Nat.eq_of_testBit_eq fun k => ?_
    simp only [List.map_singleton, xorAll_cons, xorAll_nil, Nat.xor_zero, Nat.testBit_xor, Nat.testBit_mod_two_pow]
    rcases lt_trichotomy k n with hk | rfl | hk
    · cases a.testBit n <;> simp [hk, hk.trans n.lt_succ_self, hk.ne']
    · cases a.testBit k <;> simp
    · cases a.testBit n <;> simp [hk.not_gt, hk.ne, show ¬ k < n + 1 by omega]

/-- The powers of two below 2^n, the highest first, add to n ones. -/
theorem xorAll_falling_powers (n : Nat) : xorAll ((List.range n).map fun j => 2 ^ (n - 1 - j)) = mask n := by
  induction n with
  | zero => rfl
  | succ n ih =>
    have htail : ∀ j ∈ List.range n, ((fun j => 2 ^ (n + 1 - 1 - j)) ∘ Nat.succ) j = 2 ^ (n - 1 - j) := fun j _ => by
      rw [Function.comp_apply, show n + 1 - 1 - j.succ = n - 1 - j by omega]
    rw [List.range_succ_eq_map, List.map_cons, xorAll_cons, List.map_map, List.map_congr_left htail, ih]
    refine Nat.eq_of_testBit_eq fun k => ?_
    simp only [mask, Nat.testBit_xor, Nat.testBit_two_pow, Nat.testBit_two_pow_sub_one]
    rcases lt_trichotomy k n with hk | rfl | hk
    · simp [hk, hk.ne', hk.trans n.lt_succ_self]
    · simp
    · simp [hk.ne, hk.not_gt, show ¬ k < n + 1 by omega]

namespace CrcCode

/-! One turn of the division (R362). -/

/-- The register's turn is linear in the register and the message bit together. -/
theorem shiftIn_xor (c : CrcCode) (p q : Nat) (x y : Bool) :
    c.shiftIn (p ^^^ q) (x ^^ y) = c.shiftIn p x ^^^ c.shiftIn q y := by
  have hpoly : ∀ u v : Nat, (u ^^^ c.poly) ^^^ (v ^^^ c.poly) = u ^^^ v := fun u v => by
    rw [Nat.xor_right_comm, ← Nat.xor_assoc, Nat.xor_assoc, Nat.xor_self, Nat.xor_zero]
  have hfeedback : ((p ^^^ q).testBit (c.crcLen - 1) != (x ^^ y)) =
      ((p.testBit (c.crcLen - 1) != x) ^^ (q.testBit (c.crcLen - 1) != y)) := by
    rw [Nat.testBit_xor]
    cases p.testBit (c.crcLen - 1) <;> cases q.testBit (c.crcLen - 1) <;> cases x <;> cases y <;> rfl
  simp only [shiftIn, hfeedback, Nat.shiftLeft_xor_distrib, Nat.and_xor_distrib_right]
  cases p.testBit (c.crcLen - 1) != x <;> cases q.testBit (c.crcLen - 1) != y
  · rfl
  · exact Nat.xor_assoc _ _ _
  · exact Nat.xor_right_comm _ _ _
  · exact (hpoly _ _).symm

/-- A message bit 1 folds the polynomial in. -/
theorem shiftIn_bit (c : CrcCode) (q : Nat) (bit : Bool) :
    c.shiftIn q bit = c.shiftIn q false ^^^ (if bit then c.poly else 0) := by
  have hzero : c.shiftIn 0 bit = if bit then c.poly else 0 := by cases bit <;> simp [shiftIn]
  rw [← hzero, ← c.shiftIn_xor, Nat.xor_zero, Bool.false_xor]

/-! Products modulo G, and the powers of x that they reach (R372). -/

/-- The product of two remainders modulo G. -/
def product (c : CrcCode) (a v : Nat) : Nat :=
  xorAll ((List.range c.crcLen).map fun i => if a.testBit i then c.timesX^[i] v else 0)

/-- x to the power that a list of bits reads as, by squaring and multiplying. -/
def powerByBits (c : CrcCode) (bits : List Bool) : Nat :=
  bits.foldl (fun v bit => if bit then c.timesX (c.product v v) else c.product v v) 1

/-! The powers of x (R360, R372). -/

section Powers

variable {c : CrcCode} (h : c.wf = true)
include h

/-- What R360 asks of a checksum code. -/
theorem bounds_of_wf :
    1 ≤ c.msgLen ∧ 1 ≤ c.crcLen ∧ c.poly < 2 ^ c.crcLen ∧ c.poly % 2 = 1 ∧ c.fill < 2 ^ c.crcLen := by
  simp only [wf, Bool.and_eq_true, decide_eq_true_eq] at h
  obtain ⟨⟨⟨⟨⟨hmsg, hcrc⟩, -⟩, hpoly⟩, hodd⟩, hfill⟩ := h
  exact ⟨hmsg, hcrc, hpoly, hodd, hfill⟩

theorem shiftIn_lt (q : Nat) (bit : Bool) : c.shiftIn q bit < 2 ^ c.crcLen := by
  obtain ⟨-, -, hpoly, -⟩ := bounds_of_wf h
  have hmask : q <<< 1 &&& mask c.crcLen < 2 ^ c.crcLen :=
    Nat.and_lt_two_pow _ (Nat.sub_lt (Nat.two_pow_pos _) one_pos)
  unfold shiftIn
  simp only
  split_ifs
  · exact Nat.xor_lt_two_pow hmask hpoly
  · exact hmask

/-- Without a message bit the register is multiplied by x (R362). -/
theorem shiftIn_false {q : Nat} (hq : q < 2 ^ c.crcLen) : c.shiftIn q false = c.timesX q := by
  obtain ⟨-, hcrc, -⟩ := bounds_of_wf h
  have hpow : 2 ^ c.crcLen = 2 * 2 ^ (c.crcLen - 1) := by rw [← pow_succ', Nat.sub_add_cancel hcrc]
  have hshift : q <<< 1 &&& mask c.crcLen = 2 * q % 2 ^ c.crcLen := by
    rw [mask, Nat.and_two_pow_sub_one_eq_mod, Nat.shiftLeft_eq, pow_one, Nat.mul_comm]
  have htop : q.testBit (c.crcLen - 1) = decide (2 ^ c.crcLen ≤ 2 * q) := by
    rw [Nat.testBit_eq_decide_div_mod_eq]
    refine decide_eq_decide.2 ?_
    rw [hpow] at hq ⊢
    have hlt : q / 2 ^ (c.crcLen - 1) < 2 := Nat.div_lt_of_lt_mul (by omega)
    rw [Nat.mod_eq_of_lt hlt, Nat.mul_le_mul_left_iff (by decide), ← Nat.one_le_div_iff (by positivity)]
    omega
  simp only [shiftIn, hshift, htop, Bool.bne_false, decide_eq_true_eq, timesX]
  split_ifs with hle hlt
  · omega
  · rw [Nat.mod_eq_sub_mod hle, Nat.mod_eq_of_lt (by omega)]
  · exact Nat.mod_eq_of_lt (by omega)
  · omega

theorem timesX_lt {q : Nat} (hq : q < 2 ^ c.crcLen) : c.timesX q < 2 ^ c.crcLen :=
  shiftIn_false h hq ▸ shiftIn_lt h q false

theorem timesX_xor {p q : Nat} (hp : p < 2 ^ c.crcLen) (hq : q < 2 ^ c.crcLen) :
    c.timesX (p ^^^ q) = c.timesX p ^^^ c.timesX q := by
  rw [← shiftIn_false h hp, ← shiftIn_false h hq, ← c.shiftIn_xor]
  exact (shiftIn_false h (Nat.xor_lt_two_pow hp hq)).symm

omit h in
theorem timesX_zero (c : CrcCode) : c.timesX 0 = 0 := by simp [timesX]

/-- x is no divisor of 0 modulo G, whose constant term is 1. -/
theorem timesX_ne_zero {q : Nat} (hq : q ≠ 0) : c.timesX q ≠ 0 := by
  obtain ⟨-, hcrc, -, hodd, -⟩ := bounds_of_wf h
  have heven : 2 ^ c.crcLen % 2 = 0 := by rw [← Nat.sub_add_cancel hcrc, pow_succ, Nat.mul_mod_left]
  unfold timesX
  split_ifs
  · omega
  · intro hzero
    have hsum : ((2 * q - 2 ^ c.crcLen) ^^^ c.poly) % 2 = (2 * q - 2 ^ c.crcLen + c.poly) % 2 := Nat.xor_mod_two_eq
    omega

theorem iterate_timesX_lt (k : Nat) {q : Nat} (hq : q < 2 ^ c.crcLen) : c.timesX^[k] q < 2 ^ c.crcLen :=
  Function.Iterate.rec (· < 2 ^ c.crcLen) hq (fun _ => timesX_lt h) k

theorem iterate_timesX_xor (k : Nat) {p q : Nat} (hp : p < 2 ^ c.crcLen) (hq : q < 2 ^ c.crcLen) :
    c.timesX^[k] (p ^^^ q) = c.timesX^[k] p ^^^ c.timesX^[k] q := by
  induction k with
  | zero => rfl
  | succ k ih =>
    simp only [Function.iterate_succ_apply', ih]
    exact timesX_xor h (iterate_timesX_lt h k hp) (iterate_timesX_lt h k hq)

theorem one_lt_two_pow_crcLen : 1 < 2 ^ c.crcLen := by
  obtain ⟨-, hcrc, -⟩ := bounds_of_wf h
  exact Nat.one_lt_two_pow (by omega)

theorem powerOfX_ne_zero (k : Nat) : c.powerOfX k ≠ 0 :=
  Function.Iterate.rec (· ≠ 0) one_ne_zero (fun _ => timesX_ne_zero h) k

theorem powerOfX_lt (k : Nat) : c.powerOfX k < 2 ^ c.crcLen := iterate_timesX_lt h k (one_lt_two_pow_crcLen h)

omit h in
theorem powerOfX_succ (c : CrcCode) (k : Nat) : c.powerOfX (k + 1) = c.timesX (c.powerOfX k) :=
  Function.iterate_succ_apply' _ _ _

omit h in
/-- Below x^C no reduction happens. -/
theorem powerOfX_of_lt {c : CrcCode} {k : Nat} (hk : k < c.crcLen) : c.powerOfX k = 2 ^ k := by
  induction k with
  | zero => rfl
  | succ k ih =>
    have hlt : 2 * 2 ^ k < 2 ^ c.crcLen := by
      rw [← pow_succ']
      exact Nat.pow_lt_pow_right (by decide) hk
    rw [c.powerOfX_succ, ih (by omega), timesX, if_pos hlt, pow_succ']

/-- x^C is P modulo G(x) = x^C + P(x). -/
theorem powerOfX_crcLen : c.powerOfX c.crcLen = c.poly := by
  obtain ⟨-, hcrc, -⟩ := bounds_of_wf h
  obtain ⟨k, hk⟩ := Nat.exists_eq_add_of_le' hcrc
  rw [hk, c.powerOfX_succ, powerOfX_of_lt (by omega), timesX, ← pow_succ', ← hk, if_neg (lt_irrefl _), Nat.sub_self,
    Nat.zero_xor]

/-! The division of a whole message (R362, R365). -/

/-- The register after a message: what it held, shifted by the message's length, and a power of x for each set bit. -/
theorem foldl_shiftIn (message : List Bool) {q : Nat} (hq : q < 2 ^ c.crcLen) :
    message.foldl c.shiftIn q = c.timesX^[message.length] q ^^^
      xorAll ((List.range message.length).map fun i =>
        if message.getD i false then c.powerOfX (message.length + c.crcLen - 1 - i) else 0) := by
  obtain ⟨-, hcrc, hpoly, -⟩ := bounds_of_wf h
  induction message generalizing q with
  | nil => simp
  | cons bit bits ih =>
    have hbit : c.timesX^[bits.length] (if bit then c.poly else 0) =
        if bit then c.powerOfX (bits.length + c.crcLen) else 0 := by
      cases bit
      · exact Function.iterate_fixed c.timesX_zero _
      · rw [if_pos rfl, if_pos rfl, ← powerOfX_crcLen h, powerOfX, powerOfX, Function.iterate_add_apply]
    have hlt : (if bit then c.poly else 0) < 2 ^ c.crcLen := by split_ifs <;> [exact hpoly; positivity]
    rw [List.foldl_cons, ih (shiftIn_lt h q bit), c.shiftIn_bit, shiftIn_false h hq,
      iterate_timesX_xor h _ (timesX_lt h hq) hlt, hbit, List.length_cons, Function.iterate_succ_apply, Nat.xor_assoc,
      List.range_succ_eq_map, List.map_cons, xorAll_cons, List.map_map]
    congr 2
    · simp
    · refine congrArg xorAll (List.map_congr_left fun i _ => ?_)
      rw [Function.comp_apply, List.getD_cons_succ,
        show bits.length + 1 + c.crcLen - 1 - i.succ = bits.length + c.crcLen - 1 - i by omega]

theorem crc0_eq {message : List Bool} {n : Nat} (hn : message.length = n) :
    c.crc0 message = xorAll ((List.range n).map fun i =>
      if message.getD i false then c.powerOfX (n + c.crcLen - 1 - i) else 0) := by
  subst hn
  rw [crc0, foldl_shiftIn h message (by positivity), Function.iterate_fixed c.timesX_zero, Nat.zero_xor]

theorem crc0_lt (message : List Bool) : c.crc0 message < 2 ^ c.crcLen := by
  rw [crc0_eq h rfl]
  refine xorAll_lt _ _ fun v hv => ?_
  obtain ⟨i, -, rfl⟩ := List.mem_map.1 hv
  split_ifs
  · exact powerOfX_lt h _
  · positivity

/-- The table holds the powers of x, from the first message bit down to the last synthetic entry, which is 1 (R362). -/
theorem entry_eq_powerOfX {i : Nat} (hi : i < c.msgLen + c.crcLen) :
    c.entry i = c.powerOfX (c.msgLen + c.crcLen - 1 - i) := by
  unfold entry
  split_ifs with hmsg
  · have hlone : ∀ j ∈ List.range c.msgLen,
        (if (c.loneBit i).getD j false then c.powerOfX (c.msgLen + c.crcLen - 1 - j) else 0) =
          if j = i then c.powerOfX (c.msgLen + c.crcLen - 1 - j) else 0 := fun j hj => by
      simp [loneBit, List.mem_range.1 hj]
    rw [crc0_eq h (n := c.msgLen) (by simp [loneBit]), List.map_congr_left hlone, xorAll_map_ite_eq, if_pos hmsg]
  · rw [powerOfX_of_lt (by omega)]
    congr 1
    omega

theorem entry_ne_zero {i : Nat} (hi : i < c.msgLen + c.crcLen) : c.entry i ≠ 0 :=
  entry_eq_powerOfX h hi ▸ powerOfX_ne_zero h _

/-- The table gives what the division gives (R365). -/
theorem accumulate_eq {w : List Bool} (hw : c.msgLen ≤ w.length) :
    c.accumulate w = c.crc0 (w.take c.msgLen) ^^^ c.fill := by
  rw [accumulate, crc0_eq h (List.length_take_of_le hw), Nat.xor_comm]
  congr 2
  refine List.map_congr_left fun i hi => ?_
  rw [List.mem_range] at hi
  rw [getD_take_of_lt hi, entry_eq_powerOfX h (by omega)]

/-- A valid frame has the syndrome 0, whatever follows it (R373). -/
theorem syndrome_encode_append {message : List Bool} (hmessage : message.length = c.msgLen) (rest : List Bool) :
    c.syndrome (c.encode message ++ rest) = 0 := by
  obtain ⟨-, -, -, -, hfill⟩ := bounds_of_wf h
  have htransmitted : c.transmitted (c.encode message ++ rest) = c.crc0 message ^^^ c.fill := calc
    c.transmitted (c.encode message ++ rest) = bitsToNat (natToBits c.crcLen (c.crc0 message ^^^ c.fill)) := by
      refine congrArg bitsToNat (List.map_congr_left fun j hj => ?_)
      rw [encode, List.append_assoc, ← hmessage, List.getD_append_right _ _ _ _ (by omega), Nat.add_sub_cancel_left,
        List.getD_append _ _ _ _ (by simpa using hj), getD_natToBits _ _ _ (by simpa using hj)]
    _ = (c.crc0 message ^^^ c.fill) % 2 ^ c.crcLen := bitsToNat_natToBits _ _
    _ = c.crc0 message ^^^ c.fill := Nat.mod_eq_of_lt (Nat.xor_lt_two_pow (crc0_lt h message) hfill)
  rw [syndrome, accumulate_eq h (by simp [encode, hmessage]), htransmitted, encode, List.append_assoc,
    List.take_left' hmessage, Nat.xor_self]

/-! Products modulo G: a power of x is reached by squarings. -/

theorem iterate_timesX_xorAll (k : Nat) {l : List Nat} (hl : ∀ v ∈ l, v < 2 ^ c.crcLen) :
    c.timesX^[k] (xorAll l) = xorAll (l.map c.timesX^[k]) := by
  induction l with
  | nil => exact Function.iterate_fixed c.timesX_zero k
  | cons v l ih =>
    rw [List.forall_mem_cons] at hl
    rw [xorAll_cons, iterate_timesX_xor h k hl.1 (xorAll_lt l _ hl.2), ih hl.2, List.map_cons, xorAll_cons]

theorem powerOfX_add (j k : Nat) : c.powerOfX (j + k) = c.product (c.powerOfX j) (c.powerOfX k) := by
  have hterm : ∀ i ∈ List.range c.crcLen, c.timesX^[k] (if (c.powerOfX j).testBit i then 2 ^ i else 0) =
      if (c.powerOfX j).testBit i then c.timesX^[i] (c.powerOfX k) else 0 := fun i hi => by
    split_ifs
    · rw [← powerOfX_of_lt (List.mem_range.1 hi), powerOfX, powerOfX, ← Function.iterate_add_apply,
        ← Function.iterate_add_apply, Nat.add_comm]
    · exact Function.iterate_fixed c.timesX_zero k
  have hbound : ∀ v ∈ (List.range c.crcLen).map (fun i => if (c.powerOfX j).testBit i then 2 ^ i else 0),
      v < 2 ^ c.crcLen := List.forall_mem_map.2 fun i hi => by
    split_ifs
    · exact Nat.pow_lt_pow_right (by decide) (List.mem_range.1 hi)
    · positivity
  calc c.powerOfX (j + k) = c.timesX^[k] (c.powerOfX j) := by
        rw [powerOfX, powerOfX, Nat.add_comm, Function.iterate_add_apply]
    _ = c.product (c.powerOfX j) (c.powerOfX k) := by
        have hbits := xorAll_testBit c.crcLen (c.powerOfX j)
        rw [Nat.mod_eq_of_lt (powerOfX_lt h j)] at hbits
        rw [product, ← congrArg c.timesX^[k] hbits, iterate_timesX_xorAll h k hbound, List.map_map]
        exact congrArg xorAll (List.map_congr_left hterm)

theorem powerByBits_eq (bits : List Bool) : c.powerByBits bits = c.powerOfX (bitsToNat bits) := by
  refine List.foldl_hom (l := bits) (init := 0) c.powerOfX fun k bit => ?_
  cases bit
  · rw [if_neg Bool.false_ne_true, ← powerOfX_add h, ← two_mul, Bool.toNat_false, Nat.add_zero]
  · rw [if_pos rfl, ← powerOfX_add h, ← two_mul, ← c.powerOfX_succ, Bool.toNat_true]

end Powers

end CrcCode

end Sys2Proof
end

section
/-! The order of x modulo x^16 + x^12 + x^5 + 1 is 32767 (R372): x^32767 is 1, and no x^(32767 / p) with a prime p is. -/

namespace Sys2Proof

/-- A period n is the least one where no n / p with a prime p is a period. -/
theorem minimalPeriod_eq_of_prime {α : Type} {f : α → α} {x : α} {n : Nat} (hperiod : f^[n] x = x)
    (hsmaller : ∀ p, p.Prime → p ∣ n → f^[n / p] x ≠ x) : Function.minimalPeriod f x = n := by
  obtain ⟨d, hd⟩ := Function.IsPeriodicPt.minimalPeriod_dvd hperiod
  by_contra hne
  have hd1 : d ≠ 1 := fun h1 => hne (by rw [hd, h1, Nat.mul_one])
  obtain ⟨p, hp, q, rfl⟩ := Nat.exists_prime_and_dvd hd1
  have hdiv : n / p = Function.minimalPeriod f x * q := by
    rw [hd, Nat.mul_left_comm, Nat.mul_div_cancel_left _ hp.pos]
  exact hsmaller p hp ⟨Function.minimalPeriod f x * q, by rw [hd, Nat.mul_left_comm]⟩
    (hdiv ▸ (Function.isPeriodicPt_minimalPeriod f x).mul_const q)

namespace CrcCode

theorem crc16Code_wf {n : Nat} (hn : 1 ≤ n) : (crc16Code n).wf = true := by
  simp [wf, crc16Code, hn]

theorem iterate_timesX_crc16 {k : Nat} (hk : k < 2 ^ 15) :
    (crc16Code 1).timesX^[k] 1 = (crc16Code 1).powerByBits (natToBits 15 k) := by
  rw [powerByBits_eq (crc16Code_wf le_rfl), bitsToNat_natToBits, Nat.mod_eq_of_lt hk]
  rfl

theorem minimalPeriod_crc16 : Function.minimalPeriod (crc16Code 1).timesX 1 = 32767 := by
  refine minimalPeriod_eq_of_prime ?_ fun p hp hdvd => ?_
  · rw [iterate_timesX_crc16 (by decide)]
    decide +kernel
  · have hfactors : p ∣ 7 * 31 * 151 := hdvd
    rw [hp.dvd_mul, hp.dvd_mul, Nat.prime_dvd_prime_iff_eq hp (by norm_num), Nat.prime_dvd_prime_iff_eq hp (by norm_num),
      Nat.prime_dvd_prime_iff_eq hp (by norm_num)] at hfactors
    rcases hfactors with (rfl | rfl) | rfl <;> rw [iterate_timesX_crc16 (by decide)] <;> decide +kernel

/-- Up to M = 32751 the entries of CRC16 are distinct (R372). -/
theorem entry_crc16_inj {n i k : Nat} (hpos : 1 ≤ n) (hn : n ≤ 32751) (hi : i < n + 16) (hk : k < n + 16)
    (heq : (crc16Code n).entry i = (crc16Code n).entry k) : i = k := by
  have hwf := crc16Code_wf hpos
  rw [entry_eq_powerOfX hwf hi, entry_eq_powerOfX hwf hk] at heq
  have hinj := (Function.iterate_eq_iterate_iff_of_lt_minimalPeriod (f := (crc16Code 1).timesX) (x := 1)
    (m := n + 16 - 1 - i) (n := n + 16 - 1 - k) (by rw [minimalPeriod_crc16]; omega)
    (by rw [minimalPeriod_crc16]; omega)).1 heq
  omega

end CrcCode

end Sys2Proof
end

section
/-! The checksum decoders on frames with wrong bits (R366 to R369). Each wrong bit adds its table entry to the syndrome, and
nothing where it stands behind the frame; the modes then differ in what they ask of the syndrome. -/

namespace Sys2Proof

/-! Windows cut and flipped. -/

theorem take_flipWindow (w : List Bool) (ps : List Nat) (n : Nat) :
    (flipWindow w ps).take n = flipWindow (w.take n) ps :=
  List.ext_getElem (by simp) fun q _ _ => by simp [flipWindow]

theorem flipWindow_singleton {w : List Bool} {q : Nat} (hq : q < w.length) : flipWindow w [q] = w.set q (!w[q]) := by
  refine List.ext_getElem (by simp) fun k _ _ => ?_
  by_cases hk : q = k
  · subst hk
    simp [flipWindow]
  · simp [flipWindow, hk]

/-- A flip behind the window's end flips nothing. -/
theorem flipWindow_singleton_of_le {w : List Bool} {q : Nat} (hq : w.length ≤ q) : flipWindow w [q] = w :=
  List.ext_getElem (by simp) fun k _ hk => by simp [flipWindow, (hk.trans_le hq).ne']

/-- Each flip turns the parity over (R369). -/
theorem parity_flipWindow {w : List Bool} {ps : List Nat} (hps : ∀ p ∈ ps, p < w.length) :
    parity (flipWindow w ps) = (parity w + ps.length) % 2 := by
  induction ps generalizing w with
  | nil => simp [flipWindow_nil, parity]
  | cons p ps ih =>
    rw [List.forall_mem_cons] at hps
    have hsingle : parity (flipWindow w [p]) = (parity w + 1) % 2 := by
      have hcount := List.boole_getElem_le_countP (p := id) hps.1
      rw [flipWindow_singleton hps.1, parity, parity, List.countP_set hps.1]
      generalize w.countP id = count at hcount ⊢
      cases hbit : w[p] <;> simp [hbit] at hcount ⊢
      omega
    rw [show p :: ps = [p] ++ ps from rfl, ← flipWindow_flipWindow, ih (by simpa using hps.2), hsingle, List.length_append,
      List.length_singleton]
    omega

theorem parity_append (v w : List Bool) : parity (v ++ w) = (parity v + parity w) % 2 := by
  rw [parity, List.countP_append, Nat.add_mod]
  rfl

/-- A frame and its parity bit have even parity (R373). -/
theorem parity_append_parity (w : List Bool) : parity (w ++ [parity w == 1]) = 0 := by
  rw [parity_append]
  rcases Nat.mod_two_eq_zero_or_one (w.countP id) with h | h <;> simp [parity, h]

namespace CrcCode

variable {c : CrcCode} {w : List Bool} {syn i : Nat}

/-! The syndrome of a window with wrong bits (R365). -/

/-- What window bit q adds to the syndrome: its table entry, and nothing behind the frame. -/
def column (c : CrcCode) (q : Nat) : Nat := if q < c.msgLen + c.crcLen then c.entry q else 0

theorem column_of_lt (hi : i < c.msgLen + c.crcLen) : c.column i = c.entry i := if_pos hi

theorem column_of_le (hi : c.msgLen + c.crcLen ≤ i) : c.column i = 0 := if_neg (Nat.not_lt.2 hi)

/-- The syndrome looks at the frame's bits only. -/
theorem syndrome_take (c : CrcCode) (w : List Bool) : c.syndrome (w.take (c.msgLen + c.crcLen)) = c.syndrome w := by
  have hmessage : ∀ j ∈ List.range c.msgLen, (w.take (c.msgLen + c.crcLen)).getD j false = w.getD j false := fun j hj =>
    getD_take_of_lt (by rw [List.mem_range] at hj; omega)
  have hchecksum : ∀ j ∈ List.range c.crcLen,
      (w.take (c.msgLen + c.crcLen)).getD (c.msgLen + j) false = w.getD (c.msgLen + j) false := fun j hj =>
    getD_take_of_lt (by rw [List.mem_range] at hj; omega)
  rw [syndrome, syndrome, accumulate, accumulate, transmitted, transmitted, List.map_congr_left hchecksum,
    List.map_congr_left fun j hj => by rw [hmessage j hj]]

theorem syndrome_flip_column (hw : c.msgLen + c.crcLen ≤ w.length) (q : Nat) :
    c.syndrome (flipWindow w [q]) = c.syndrome w ^^^ c.column q := by
  have hlen : (w.take (c.msgLen + c.crcLen)).length = c.msgLen + c.crcLen := List.length_take_of_le hw
  rw [← c.syndrome_take (flipWindow w [q]), take_flipWindow, ← c.syndrome_take w]
  by_cases hq : q < c.msgLen + c.crcLen
  · rw [syndrome_flip hlen hq, column_of_lt hq]
  · rw [flipWindow_singleton_of_le (by omega), column_of_le (Nat.le_of_not_lt hq), Nat.xor_zero]

theorem syndrome_flipWindow (hw : c.msgLen + c.crcLen ≤ w.length) (ps : List Nat) :
    c.syndrome (flipWindow w ps) = c.syndrome w ^^^ xorAll (ps.map c.column) := by
  induction ps generalizing w with
  | nil => simp [flipWindow_nil]
  | cons p ps ih =>
    rw [show p :: ps = [p] ++ ps from rfl, ← flipWindow_flipWindow, ih (by simpa using hw), syndrome_flip_column hw,
      Nat.xor_assoc, List.map_append, xorAll_append, List.map_singleton, xorAll_cons, xorAll_nil, Nat.xor_zero]

/-- The frame bits of the checksum add all ones together. -/
theorem xorAll_column_checksum (c : CrcCode) :
    xorAll ((List.range' c.msgLen c.crcLen).map c.column) = mask c.crcLen := by
  rw [← xorAll_falling_powers, List.range'_eq_map_range, List.map_map]
  refine congrArg xorAll (List.map_congr_left fun j hj => ?_)
  rw [List.mem_range] at hj
  rw [Function.comp_apply, column_of_lt (by omega), entry, if_neg (by omega), Nat.add_sub_cancel_left]

/-! The single-bit search (R366). -/

theorem scan_eq_some_iff :
    c.scan syn = some i ↔ i < c.msgLen + c.crcLen ∧ c.entry i = syn ∧ ∀ k < i, c.entry k ≠ syn := by
  rw [scan, List.find?_range_eq_some]
  simp only [beq_iff_eq, List.mem_range, Bool.not_eq_true', beq_eq_false_iff_ne]
  tauto

theorem scan_eq_none_iff : c.scan syn = none ↔ ∀ i < c.msgLen + c.crcLen, c.entry i ≠ syn := by
  simp [scan]

theorem scanRepair_of_lowest (hi : i < c.msgLen + c.crcLen) (hentry : c.entry i = syn) (hlowest : ∀ k < i, c.entry k ≠ syn) :
    c.scanRepair syn = { status := .corrected, positions := [i] } := by
  rw [scanRepair, scan_eq_some_iff.2 ⟨hi, hentry, hlowest⟩]

theorem scanRepair_of_absent (h : ∀ i < c.msgLen + c.crcLen, c.entry i ≠ syn) :
    c.scanRepair syn = { status := .uncorrectable, positions := [] } := by
  rw [scanRepair, scan_eq_none_iff.2 h]

/-- The search names a position exactly where its entry is the first with the syndrome. -/
theorem scanRepair_corrected_iff :
    (c.scanRepair syn).status = .corrected ∧ (c.scanRepair syn).positions = [i] ↔
      i < c.msgLen + c.crcLen ∧ c.entry i = syn ∧ ∀ k < i, c.entry k ≠ syn := by
  rw [← scan_eq_some_iff]
  rcases c.scanRepair_cases syn with ⟨j, hj, h⟩ | ⟨hnone, h⟩
  · simp [h, hj]
  · simp [h, hnone]

theorem scanRepair_status_ne_passInverted (c : CrcCode) (syn : Nat) : (c.scanRepair syn).status ≠ .passInverted := by
  rcases c.scanRepair_cases syn with ⟨j, -, h⟩ | ⟨-, h⟩ <;> simp [h]

end CrcCode

/-! GENERIC mode (R367). -/

section Generic

variable {c : CrcCode} {acceptInverted inbound : Bool} {w message : List Bool} {i : Nat}

theorem crcGeneric_of_inverted (hsyn : c.syndrome w ≠ 0)
    (hinverted : (acceptInverted = true ∧ inbound = true) ∧ c.syndrome w = mask c.crcLen) :
    crcGeneric c acceptInverted inbound w = { status := .passInverted, positions := [] } := by
  obtain ⟨⟨rfl, rfl⟩, hmask⟩ := hinverted
  simp only [crcGeneric, if_neg hsyn]
  simp [hmask]

theorem crcGeneric_of_not_inverted (hsyn : c.syndrome w ≠ 0)
    (hinverted : ¬ ((acceptInverted = true ∧ inbound = true) ∧ c.syndrome w = mask c.crcLen)) :
    crcGeneric c acceptInverted inbound w = c.scanRepair (c.syndrome w) := by
  simp only [crcGeneric, if_neg hsyn]
  exact if_neg (by simpa using hinverted)

section ValidFrame

variable (h : c.wf = true) (hmessage : message.length = c.msgLen)
include h hmessage

omit h in
theorem CrcCode.length_encode : (c.encode message).length = c.msgLen + c.crcLen := by
  simp [CrcCode.encode, hmessage]

theorem CrcCode.syndrome_encode : c.syndrome (c.encode message) = 0 := by
  simpa using CrcCode.syndrome_encode_append h hmessage []

theorem crcGeneric_encode : crcGeneric c acceptInverted inbound (c.encode message) = Repair.clean :=
  crcGeneric_of_syndrome_eq_zero (CrcCode.syndrome_encode h hmessage)

theorem CrcCode.syndrome_flip_encode (hi : i < c.msgLen + c.crcLen) :
    c.syndrome (flipWindow (c.encode message) [i]) = c.entry i := by
  rw [CrcCode.syndrome_flip (CrcCode.length_encode hmessage) hi, CrcCode.syndrome_encode h hmessage, Nat.zero_xor]

/-- One wrong bit is found exactly where its entry is the table's first and no inverted pass hides it (R367, R372). -/
theorem crcGeneric_flip_corrected_iff (hi : i < c.msgLen + c.crcLen) :
    (crcGeneric c acceptInverted inbound (flipWindow (c.encode message) [i])).status = .corrected ∧
        (crcGeneric c acceptInverted inbound (flipWindow (c.encode message) [i])).positions = [i] ↔
      (∀ k < i, c.entry k ≠ c.entry i) ∧ ¬ ((acceptInverted = true ∧ inbound = true) ∧ c.entry i = mask c.crcLen) := by
  have hsyn := CrcCode.syndrome_flip_encode h hmessage hi
  have hne := hsyn.trans_ne (CrcCode.entry_ne_zero h hi)
  by_cases hinverted : (acceptInverted = true ∧ inbound = true) ∧ c.entry i = mask c.crcLen
  · rw [crcGeneric_of_inverted hne (hsyn ▸ hinverted)]
    simp [hinverted]
  · rw [crcGeneric_of_not_inverted hne (hsyn ▸ hinverted), hsyn, CrcCode.scanRepair_corrected_iff]
    simp [hi, hinverted]

/-- A complemented checksum passes inverted exactly where an inverted checksum is accepted (R367). -/
theorem crcGeneric_complement :
    crcGeneric c acceptInverted inbound (flipWindow (c.encode message) (List.range' c.msgLen c.crcLen)) =
      if acceptInverted = true ∧ inbound = true then { status := .passInverted, positions := [] }
      else c.scanRepair (mask c.crcLen) := by
  have hsyn : c.syndrome (flipWindow (c.encode message) (List.range' c.msgLen c.crcLen)) = mask c.crcLen := by
    rw [CrcCode.syndrome_flipWindow (CrcCode.length_encode hmessage).ge, CrcCode.syndrome_encode h hmessage, Nat.zero_xor,
      c.xorAll_column_checksum]
  have hne : mask c.crcLen ≠ 0 := by
    have := CrcCode.one_lt_two_pow_crcLen h
    rw [mask]
    omega
  split_ifs with haccept
  · exact crcGeneric_of_inverted (hsyn.trans_ne hne) ⟨haccept, hsyn⟩
  · rw [crcGeneric_of_not_inverted (hsyn.trans_ne hne) (mt And.left haccept), hsyn]

end ValidFrame

end Generic

/-! FLEETSYNC mode (R369). -/

section Fleetsync

variable {c : CrcCode} {w message : List Bool} {q r : Nat}

/-- The table entries that R372 asks of the Fleetsync code. -/
theorem CrcCode.entry_inj_of_entriesDistinct (h : c.entriesDistinct = true) (hq : q < c.msgLen + c.crcLen)
    (hr : r < c.msgLen + c.crcLen) (heq : c.entry q = c.entry r) : q = r := by
  simp only [entriesDistinct, Bool.and_eq_true, decide_eq_true_eq] at h
  exact List.inj_on_of_nodup_map h.1 (List.mem_range.2 hq) (List.mem_range.2 hr) heq

/-- FLEETSYNC mode by the syndrome and the parity of the whole frame. -/
theorem crcFleetsync_eq (hw : w.length = c.msgLen + c.crcLen + 1) :
    crcFleetsync c w =
      if c.syndrome w = 0 then { status := if parity w = 0 then .noError else .failParity, positions := [] }
      else if parity w = 0 then { status := .uncorrectable, positions := [] }
      else c.scanRepair (c.syndrome w) := by
  simp only [crcFleetsync, List.take_of_length_le hw.le]
  split_ifs <;> rfl

/-- A valid Fleetsync frame: the frame of the code and its parity bit (R373). -/
def fleetsyncFrame (c : CrcCode) (message : List Bool) : List Bool :=
  c.encode message ++ [parity (c.encode message) == 1]

section ValidFrame

variable (h : c.wf = true) (hdistinct : c.entriesDistinct = true) (hmessage : message.length = c.msgLen)
include hmessage

theorem length_fleetsyncFrame : (fleetsyncFrame c message).length = c.msgLen + c.crcLen + 1 := by
  simp [fleetsyncFrame, CrcCode.length_encode hmessage]

theorem parity_flip_fleetsyncFrame {ps : List Nat} (hps : ∀ p ∈ ps, p < c.msgLen + c.crcLen + 1) :
    parity (flipWindow (fleetsyncFrame c message) ps) = ps.length % 2 := by
  rw [parity_flipWindow (by rwa [length_fleetsyncFrame hmessage]), fleetsyncFrame, parity_append_parity, Nat.zero_add]

include h

theorem syndrome_flip_fleetsyncFrame (ps : List Nat) :
    c.syndrome (flipWindow (fleetsyncFrame c message) ps) = xorAll (ps.map c.column) := by
  rw [CrcCode.syndrome_flipWindow (by rw [length_fleetsyncFrame hmessage]; omega), fleetsyncFrame,
    CrcCode.syndrome_encode_append h hmessage, Nat.zero_xor]

theorem crcFleetsync_frame : crcFleetsync c (fleetsyncFrame c message) = Repair.clean := by
  have hsyn := syndrome_flip_fleetsyncFrame h hmessage []
  have hparity := parity_flip_fleetsyncFrame (c := c) hmessage (ps := []) (by simp)
  rw [flipWindow_nil] at hsyn hparity
  rw [crcFleetsync_eq (length_fleetsyncFrame hmessage), hsyn, hparity]
  rfl

/-- The parity bit alone is outside the checksum (R369). -/
theorem crcFleetsync_flip_parity :
    crcFleetsync c (flipWindow (fleetsyncFrame c message) [c.msgLen + c.crcLen]) =
      { status := .failParity, positions := [] } := by
  rw [crcFleetsync_eq (by simpa using length_fleetsyncFrame hmessage), syndrome_flip_fleetsyncFrame h hmessage,
    parity_flip_fleetsyncFrame hmessage (by simp)]
  simp [CrcCode.column_of_le]

include hdistinct

theorem crcFleetsync_flip (hq : q < c.msgLen + c.crcLen) :
    crcFleetsync c (flipWindow (fleetsyncFrame c message) [q]) = { status := .corrected, positions := [q] } := by
  rw [crcFleetsync_eq (by simpa using length_fleetsyncFrame hmessage), syndrome_flip_fleetsyncFrame h hmessage,
    parity_flip_fleetsyncFrame hmessage (by simpa using hq.trans (Nat.lt_succ_self _))]
  have hsyn : xorAll ([q].map c.column) = c.entry q := by simp [CrcCode.column_of_lt hq]
  rw [hsyn, if_neg (CrcCode.entry_ne_zero h hq), if_neg (by simp), CrcCode.scanRepair_of_lowest hq rfl]
  exact fun k hk heq => hk.ne (CrcCode.entry_inj_of_entriesDistinct hdistinct (hk.trans hq) hq heq)

/-- No two columns cancel: distinct entries differ, and the parity bit's column is 0. -/
theorem crcFleetsync_flip_pair (hqr : q < r) (hr : r < c.msgLen + c.crcLen + 1) :
    crcFleetsync c (flipWindow (fleetsyncFrame c message) [q, r]) = { status := .uncorrectable, positions := [] } := by
  have hq : q < c.msgLen + c.crcLen := by omega
  have hsyn : xorAll ([q, r].map c.column) ≠ 0 := by
    simp only [List.map_cons, List.map_nil, xorAll_cons, xorAll_nil, Nat.xor_zero, CrcCode.column_of_lt hq]
    rcases Nat.lt_succ_iff_lt_or_eq.1 hr with hr | rfl
    · rw [CrcCode.column_of_lt hr, ne_eq, Nat.xor_eq_zero_iff]
      exact fun heq => hqr.ne (CrcCode.entry_inj_of_entriesDistinct hdistinct hq hr heq)
    · rw [CrcCode.column_of_le le_rfl, Nat.xor_zero]
      exact CrcCode.entry_ne_zero h hq
  rw [crcFleetsync_eq (by simpa using length_fleetsyncFrame hmessage), syndrome_flip_fleetsyncFrame h hmessage,
    parity_flip_fleetsyncFrame hmessage (by simp; omega), if_neg hsyn,
    List.length_cons, List.length_singleton, if_pos rfl]

end ValidFrame

end Fleetsync

/-! RESIDUAL_MAP mode (R368). -/

section ResidualMap

variable {c : CrcCode} {pairs : List (Nat × List Nat)} {w : List Bool}

theorem crcResidualMap_of_syndrome_eq_zero (h : c.syndrome w = 0) : crcResidualMap c pairs w = Repair.clean := by
  simp [crcResidualMap, h, Repair.clean]

/-- The first pair with the syndrome's value wins. -/
theorem crcResidualMap_of_first {before after : List (Nat × List Nat)} {qs : List Nat} (h : c.syndrome w ≠ 0)
    (hpairs : pairs = before ++ (c.syndrome w, qs) :: after) (hbefore : ∀ e ∈ before, e.1 ≠ c.syndrome w) :
    crcResidualMap c pairs w = { status := .corrected, positions := qs } := by
  have hfind : pairs.find? (fun e => e.1 == c.syndrome w) = some (c.syndrome w, qs) := by
    rw [hpairs, List.find?_append, List.find?_eq_none.2 (by simpa using hbefore)]
    simp
  simp [crcResidualMap, h, hfind]

theorem crcResidualMap_of_absent (h : c.syndrome w ≠ 0) (hpairs : ∀ e ∈ pairs, e.1 ≠ c.syndrome w) :
    crcResidualMap c pairs w = { status := .uncorrectable, positions := [] } := by
  have hfind : pairs.find? (fun e => e.1 == c.syndrome w) = none := List.find?_eq_none.2 (by simpa using hpairs)
  simp [crcResidualMap, h, hfind]

end ResidualMap

/-! The slots (R361, R370). -/

section Slots

variable {slot : CrcSlot}

theorem CrcSlot.run_of_generic (h : slot.mode = .generic) (inbound : Bool) :
    slot.run inbound = crcGeneric slot.code slot.acceptInverted inbound := by
  funext w
  simp [CrcSlot.run, h]

theorem CrcSlot.run_of_residualMap {pairs : List (Nat × List Nat)} (h : slot.mode = .residualMap pairs) (inbound : Bool) :
    slot.run inbound = crcResidualMap slot.code pairs := by
  funext w
  simp [CrcSlot.run, h]

theorem CrcSlot.run_of_fleetsync (h : slot.mode = .fleetsync) (inbound : Bool) :
    slot.run inbound = crcFleetsync slot.code := by
  funext w
  simp [CrcSlot.run, h]

theorem CrcSlot.frameLen_of_fleetsync (h : slot.mode = .fleetsync) :
    slot.frameLen = slot.code.msgLen + slot.code.crcLen + 1 := by
  simp [CrcSlot.frameLen, h]

theorem CrcSlot.frameLen_of_ne_fleetsync (h : slot.mode ≠ .fleetsync) :
    slot.frameLen = slot.code.msgLen + slot.code.crcLen := by
  simp [CrcSlot.frameLen, h]

theorem CrcSlot.encode_of_fleetsync (h : slot.mode = .fleetsync) (message : List Bool) :
    slot.encode message = fleetsyncFrame slot.code message := by
  simp [CrcSlot.encode, h, fleetsyncFrame]

/-- Slot 0 of a well-formed configuration (R361, R372). -/
theorem Config.fleetsyncSlot_of_wf {c : Config} (h : c.wf = true) (hslot : c.crcSlot 0 = some slot) :
    slot.mode = .fleetsync ∧ slot.code.msgLen = 48 ∧ slot.code.crcLen = 15 ∧ slot.code.wf = true ∧
      slot.code.entriesDistinct = true := by
  cases hslot
  have hok : c.fsPolyOk = true := Config.check_of_wf h (e := (c.fsPolyOk, .fsPoly)) (by simp [Config.checks])
  exact ⟨rfl, rfl, rfl, Bool.and_eq_true_iff.1 hok⟩

end Slots

end Sys2Proof
end

section
/-! CRCCHK and CRC16 (R370, R371): each decodes a placed window by its slot's mode, and its end is the mode's answer. -/

namespace Sys2Proof

/-- Settles O54: a message's checksum is the sum of the powers of x of its set bits. -/
theorem crcTableEntries : Obligations.CrcTableEntries := fun _ h =>
  ⟨fun _ => CrcCode.entry_eq_powerOfX h, fun _ => CrcCode.accumulate_eq h⟩

end Sys2Proof

namespace Sys2Proof.Machine

variable {s t : State} {i : Instr} {a : BitVec 16} {x : BitVec 8} {inbound : BitVec 1} {slot : CrcSlot}

/-! The commands as placed decoders. -/

theorem decodesPlaced_crcchk (hs : s.fault = 0) (hslot : s.cfg.crcSlot x.toNat = some slot)
    (hfit : a.toNat + slot.frameLen ≤ s.cfg.bufLen) :
    s.decodesPlaced (.crcchk x a inbound) (a.toNat + ·) slot.frameLen (slot.run (inbound == 1)) := by
  intro u hcfg _ hfault
  rw [← hcfg] at hslot hfit
  simp only [exec, execCrcchk, hslot]
  rw [windowDecode_eq, if_pos hfit, runCommand_ok (hfault.trans hs), u.window_eq_placed]

theorem exec_crc16_runs {m : BitVec 16} (s : State) (hm : m ≠ 0) :
    exec (.crc16 a m) s = runCommand (.crc16 a m) s
      (windowDecode s a.toNat (m.toNat + 16) (crcGeneric (crc16Code m.toNat) false false)) := by
  simp only [exec, execCrc16, if_neg hm]

theorem decodesPlaced_crc16 {m : BitVec 16} (hs : s.fault = 0) (hm : m ≠ 0) (hfit : a.toNat + m.toNat + 16 ≤ s.cfg.bufLen) :
    s.decodesPlaced (.crc16 a m) (a.toNat + ·) (m.toNat + 16) (crcGeneric (crc16Code m.toNat) false false) :=
  State.decodesPlaced_of_windowDecode (dec := fun _ => crcGeneric (crc16Code m.toNat) false false)
    (fun u => exec_crc16_runs u hm) hs (by omega)

/-! The ends. -/

/-- A placed decoder of a window ends with its answer on the window. -/
theorem State.decodesPlaced.ends {a n : Nat} {dec : List Bool → Repair} (h : s.decodesPlaced i (a + ·) n dec) {r : Repair}
    (hr : dec (s.window a n) = r) : ∃ t, exec i s = .next t ∧ s.repairs t r.status (r.positions.map (a + ·)) := by
  subst hr
  exact ⟨_, h s rfl rfl rfl, s.repairs_applyRepair _ _⟩

/-- The end on a window with wrong bits. -/
theorem State.decodesPlaced.ends_withErrors {a n : Nat} {dec : List Bool → Repair} (h : s.decodesPlaced i (a + ·) n dec)
    {ps : List Nat} (hps : ∀ p ∈ ps, p < n) {w : List Bool} (hw : s.window a n = w) {r : Repair}
    (hr : dec (flipWindow w ps) = r) :
    ∃ t, exec i (s.withErrors (ps.map (a + ·))) = .next t ∧
      (s.withErrors (ps.map (a + ·))).repairs t r.status (r.positions.map (a + ·)) :=
  h.exec_withErrors hps (fun _ _ _ _ => Nat.add_left_cancel) (by rwa [← s.window_eq_placed, hw])

/-- A repair by the single-bit search ends as the search does (R366). -/
theorem State.searchEnds_of_repairs {c : CrcCode} {a syn : Nat}
    (h : s.repairs t (c.scanRepair syn).status ((c.scanRepair syn).positions.map (a + ·))) : s.searchEnds t c a syn := by
  refine ⟨fun i hi hentry hlowest => ?_, fun habsent => ?_⟩
  · rwa [CrcCode.scanRepair_of_lowest hi hentry hlowest] at h
  · rwa [CrcCode.scanRepair_of_absent habsent] at h

/-- A repair by GENERIC mode ends as the mode does (R367). -/
theorem State.genericEnds_of_repairs {c : CrcCode} {acceptInverted inbound : Bool} {w : List Bool} {a : Nat} {inverted : Prop}
    (hinverted : inverted ↔ acceptInverted = true ∧ inbound = true)
    (h : s.repairs t (crcGeneric c acceptInverted inbound w).status
      ((crcGeneric c acceptInverted inbound w).positions.map (a + ·))) :
    s.genericEnds t c inverted a (c.syndrome w) := by
  unfold State.genericEnds
  rw [hinverted]
  refine ⟨fun hzero => ?_, fun hne hmask => ?_, fun hne hmask => ?_⟩
  · rwa [crcGeneric_of_syndrome_eq_zero hzero] at h
  · rwa [crcGeneric_of_inverted hne hmask] at h
  · rw [crcGeneric_of_not_inverted hne hmask] at h
    exact State.searchEnds_of_repairs h

/-! CRC16 (R371). -/

/-- Settles O57: GENERIC mode without an inverted pass, on a table whose entries are distinct up to M = 32751. -/
theorem crc16SingleError : Obligations.Crc16SingleError := by
  intro s a m hs
  refine ⟨raises_of_check hs rfl, fun hm hout => ?_, fun hm hfit => ?_, fun message hm hfit hmessage hframe => ?_⟩
  · have hruns := exec_crc16_runs (a := a) s hm
    rw [windowDecode_eq, if_neg (by omega)] at hruns
    exact raises_of_runs hs hruns
  · obtain ⟨t, ht, hrepairs⟩ := (decodesPlaced_crc16 hs hm hfit).ends rfl
    exact ⟨t, ht, State.genericEnds_of_repairs (by simp) hrepairs⟩
  · have hpos : 1 ≤ m.toNat := Nat.one_le_iff_ne_zero.2 fun h0 => hm (BitVec.eq_of_toNat_eq h0)
    have hwf := CrcCode.crc16Code_wf hpos
    have hdecodes := decodesPlaced_crc16 hs hm hfit
    refine ⟨hdecodes.ends (hframe ▸ crcGeneric_encode hwf hmessage), fun hle i hi s' hs' => ?_⟩
    subst hs'
    have hcorrected := (crcGeneric_flip_corrected_iff (acceptInverted := false) (inbound := false) hwf hmessage hi).2
      ⟨fun k hk heq => hk.ne (CrcCode.entry_crc16_inj hpos hle (hk.trans hi) hi heq), by simp⟩
    obtain ⟨t, ht, hrepairs⟩ := hdecodes.ends_withErrors (ps := [i]) (by simpa using hi) hframe rfl
    rw [hcorrected.1, hcorrected.2] at hrepairs
    exact ⟨t, ht, hrepairs, State.read_of_repairs_withErrors hrepairs⟩

/-! CRCCHK in GENERIC mode (R367). -/

/-- Settles O55: one wrong bit leaves its own entry as the syndrome, and a complemented checksum leaves all ones. -/
theorem crcGenericFrames : Obligations.CrcGenericFrames := by
  intro s x a inbound slot n hcfg hs hslot hmode hn hfit
  have hframeLen := (CrcSlot.frameLen_of_ne_fleetsync (by simp [hmode])).trans hn.symm
  have hdecodes := decodesPlaced_crcchk (inbound := inbound) hs hslot (hframeLen ▸ hfit)
  rw [hframeLen, CrcSlot.run_of_generic hmode] at hdecodes
  have hinverted : slot.acceptInverted = true ∧ inbound = 1 ↔ slot.acceptInverted = true ∧ (inbound == 1) = true := by
    rw [beq_iff_eq]
  have hwf : slot.code.wf = true := (Bool.and_eq_true_iff.1 (Config.crcSlot_wf hcfg hslot)).1
  refine ⟨?_, fun message hmessage hframe => ⟨hdecodes.ends (hframe ▸ crcGeneric_encode hwf hmessage), ?_, ?_⟩⟩
  · obtain ⟨t, ht, hrepairs⟩ := hdecodes.ends rfl
    exact ⟨t, ht, State.genericEnds_of_repairs hinverted hrepairs⟩
  · rintro i hi s' rfl
    obtain ⟨t, ht, hrepairs⟩ := hdecodes.ends_withErrors (ps := [i]) (by simpa using hi) hframe rfl
    have hiff := crcGeneric_flip_corrected_iff (acceptInverted := slot.acceptInverted) (inbound := inbound == 1) hwf hmessage
      (hn ▸ hi)
    have hplaced : ∀ ps : List Nat, ps.map (a.toNat + ·) = [a.toNat + i] ↔ ps = [i] := fun ps =>
      (List.map_injective_iff.2 (add_right_injective a.toNat)).eq_iff (b := [i])
    refine ⟨t, _, _, ht, hrepairs, ?_⟩
    rw [hplaced, hiff, ← hinverted, and_assoc]
  · rintro s' rfl
    obtain ⟨t, ht, hrepairs⟩ := hdecodes.ends_withErrors (ps := List.range' slot.code.msgLen slot.code.crcLen)
      (fun p hp => by rw [List.mem_range'_1] at hp; omega) hframe (crcGeneric_complement hwf hmessage)
    rw [← List.map_add_range']
    by_cases haccept : slot.acceptInverted = true ∧ (inbound == 1) = true
    · rw [if_pos haccept] at hrepairs
      exact ⟨t, _, _, ht, hrepairs, iff_of_true rfl (hinverted.2 haccept), fun _ => rfl⟩
    · rw [if_neg haccept] at hrepairs
      have hne := slot.code.scanRepair_status_ne_passInverted (mask slot.code.crcLen)
      exact ⟨t, _, _, ht, hrepairs, iff_of_false hne (mt hinverted.1 haccept), fun h => absurd h hne⟩

/-! CRCCHK in RESIDUAL_MAP mode (R368). -/

/-- Settles O58: the mode is one lookup of the syndrome in the slot's list. -/
theorem residualMapMode : Obligations.ResidualMapMode := by
  rintro s x a inbound slot pairs _ hs hslot hmode hfit rfl
  have hframeLen := CrcSlot.frameLen_of_ne_fleetsync (slot := slot) (by simp [hmode])
  have hdecodes := decodesPlaced_crcchk (a := a) (inbound := inbound) hs hslot (by omega)
  rw [hframeLen, CrcSlot.run_of_residualMap hmode] at hdecodes
  exact ⟨fun hzero => hdecodes.ends (crcResidualMap_of_syndrome_eq_zero hzero),
    fun hne before qs after hpairs hbefore => hdecodes.ends (crcResidualMap_of_first hne hpairs hbefore),
    fun hne habsent => hdecodes.ends (crcResidualMap_of_absent hne habsent)⟩

/-! CRCCHK in FLEETSYNC mode (R369). -/

theorem State.parity_window (s : State) (a n : Nat) :
    parity (s.window a n) = (∑ q ∈ Finset.range n, (s.buf.read (a + q)).toNat) % 2 := by
  rw [parity, State.window, List.countP_map, ← countP_range_eq_sum]
  rfl

/-- Settles O56: the frame's distinct entries name a wrong bit, and the parity tells one wrong bit from two. -/
theorem fleetsyncFrames : Obligations.FleetsyncFrames := by
  intro s a inbound slot syn par hcfg hs hslot hfit hsyndrome hparity
  rw [← s.parity_window] at hparity
  subst hsyndrome hparity
  obtain ⟨hmode, hmsg, hcrc, hwf, hdistinct⟩ := Config.fleetsyncSlot_of_wf hcfg hslot
  have hsize : slot.code.msgLen + slot.code.crcLen = 63 := by rw [hmsg, hcrc]
  have hframeLen : slot.frameLen = 64 := by rw [CrcSlot.frameLen_of_fleetsync hmode, hsize]
  have hdecodes := decodesPlaced_crcchk (x := 0) (inbound := inbound) hs hslot (hframeLen ▸ hfit)
  rw [hframeLen, CrcSlot.run_of_fleetsync hmode] at hdecodes
  refine ⟨?_, fun message hmessage hframe => ?_⟩
  · have hrun := crcFleetsync_eq (c := slot.code) (w := s.window a.toNat 64) (by simp [hsize])
    obtain ⟨t, ht, hrepairs⟩ := hdecodes.ends hrun
    refine ⟨t, ht, fun hsyn hpar => ?_, fun hsyn hpar => ?_, fun hsyn hpar => ?_, fun hsyn hpar => ?_⟩
    · rwa [if_pos hsyn, if_pos hpar] at hrepairs
    · rwa [if_pos hsyn, if_neg (by omega)] at hrepairs
    · rwa [if_neg hsyn, if_pos hpar] at hrepairs
    · rw [if_neg hsyn, if_neg (by omega)] at hrepairs
      exact State.searchEnds_of_repairs hrepairs
  · rw [CrcSlot.encode_of_fleetsync hmode] at hframe
    rw [← hmsg] at hmessage
    refine ⟨hdecodes.ends (hframe ▸ crcFleetsync_frame hwf hmessage), ?_, ?_, ?_⟩
    · rintro q hq s' rfl
      obtain ⟨t, ht, hrepairs⟩ := hdecodes.ends_withErrors (ps := [q]) (by simp; omega) hframe
        (crcFleetsync_flip hwf hdistinct hmessage (hsize ▸ hq))
      exact ⟨t, ht, hrepairs, State.read_of_repairs_withErrors hrepairs⟩
    · rintro s' rfl
      exact hdecodes.ends_withErrors (ps := [63]) (by simp) hframe (hsize ▸ crcFleetsync_flip_parity hwf hmessage)
    · rintro q r hqr hr s' rfl
      exact hdecodes.ends_withErrors (ps := [q, r]) (by simp; omega) hframe
        (crcFleetsync_flip_pair hwf hdistinct hmessage hqr (hsize ▸ hr))

end Sys2Proof.Machine
end

section
/-! The halt, the host's moves and the draws (R421 to R425, R460 to R470). A command is compared with itself in two states that agree
on the registers and on the cells it reads: its checks decide alike, and its ends agree. `exec_agrees` says so once for all commands;
the steps of one block and the runs from two draws follow from it. -/

namespace Sys2Proof.Machine

/-! States that agree on the registers and on some cells (R468). -/

/-- Two states agree on every register, on EPOS below ECNT and on the cells that `held` names, whatever the host does next. -/
structure State.Agrees (held : Cell → Prop) (s t : State) : Prop where
  cfg : s.cfg = t.cfg
  res : s.res = t.res
  status : s.status = t.status
  ncorr : s.ncorr = t.ncorr
  ecnt : s.ecnt = t.ecnt
  fault : s.fault = t.fault
  fcmd : s.fcmd = t.fcmd
  epos : ∀ j < s.ecnt.toNat, s.epos.read j = t.epos.read j
  cells : ∀ x, held x → sameCell s t x

theorem sameResult_iff {held : Cell → Prop} {s t : State} : sameResult held s t ↔ s.port = t.port ∧ s.Agrees held t := by
  constructor
  · rintro ⟨hcfg, hport, hres, hstatus, hncorr, hecnt, hfault, hfcmd, hepos, hcells⟩
    exact ⟨hport, hcfg, hres, hstatus, hncorr, hecnt, hfault, hfcmd, hepos, hcells⟩
  · rintro ⟨hport, hcfg, hres, hstatus, hncorr, hecnt, hfault, hfcmd, hepos, hcells⟩
    exact ⟨hcfg, hport, hres, hstatus, hncorr, hecnt, hfault, hfcmd, hepos, hcells⟩

theorem sameCell_refl (s : State) (x : Cell) : sameCell s s x := by cases x <;> rfl

/-- A state agrees with itself on every cell, whatever moves the host has left. -/
theorem State.agrees_withPort (held : Cell → Prop) (s : State) (port port' : List HostAction) :
    ({ s with port := port } : State).Agrees held { s with port := port' } :=
  ⟨rfl, rfl, rfl, rfl, rfl, rfl, rfl, fun _ _ => rfl, fun x _ => sameCell_refl s x⟩

variable {held held' : Cell → Prop} {s t u : State} {i : Instr}

namespace State.Agrees

theorem withPort (h : s.Agrees held t) (port port' : List HostAction) :
    ({ s with port := port } : State).Agrees held { t with port := port' } :=
  ⟨h.cfg, h.res, h.status, h.ncorr, h.ecnt, h.fault, h.fcmd, h.epos, h.cells⟩

theorem mono (h : s.Agrees held t) (hle : ∀ x, held' x → held x) : s.Agrees held' t :=
  { h with cells := fun x hx => h.cells x (hle x hx) }

/-! What agreeing states read. -/

theorem window (h : s.Agrees held t) {a n : Nat} (hheld : ∀ x ∈ (List.range' a n).map Cell.buf, held x) :
    s.window a n = t.window a n := by
  refine List.map_congr_left fun j hj => h.cells (.buf (a + j)) (hheld _ (List.mem_map_of_mem ?_))
  have := List.mem_range.1 hj
  rw [List.mem_range'_1]
  omega

theorem map_buf (h : s.Agrees held t) {l : List Nat} (hheld : ∀ x ∈ l.map Cell.buf, held x) :
    l.map (fun p => s.buf.read p) = l.map fun p => t.buf.read p :=
  List.map_congr_left fun p hp => h.cells (.buf p) (hheld _ (List.mem_map_of_mem hp))

theorem scattered (h : s.Agrees held t) {n : Nat} (hheld : ∀ x ∈ (List.range n).map Cell.idx, held x) :
    s.scattered n = t.scattered n :=
  List.map_congr_left fun j hj => congrArg BitVec.toNat (h.cells (.idx j) (hheld _ (List.mem_map_of_mem hj)))

theorem symbols (h : s.Agrees held t) {n : Nat} (hheld : ∀ x ∈ (List.range n).map Cell.sym, held x) :
    s.symbols n = t.symbols n :=
  List.map_congr_left fun j hj => congrArg BitVec.toNat (h.cells (.sym j) (hheld _ (List.mem_map_of_mem hj)))

theorem countP_buf (h : s.Agrees held t) {n : Nat} (hheld : ∀ x ∈ (List.range n).map Cell.buf, held x) :
    (List.range n).countP (fun p => s.buf.read p) = (List.range n).countP fun p => t.buf.read p :=
  List.countP_congr fun p hp => by rw [h.cells (.buf p) (hheld _ (List.mem_map_of_mem hp))]

theorem nextSetBit (h : s.Agrees held t) {start : Nat}
    (hheld : ∀ x ∈ (List.range' start (s.cfg.bufLen - start)).map Cell.buf, held x) :
    s.nextSetBit start = t.nextSetBit start := by
  rw [State.nextSetBit, State.nextSetBit, ← h.cfg]
  exact List.find?_congr fun p hp => h.cells (.buf p) (hheld _ (List.mem_map_of_mem hp))

/-! The shared updates. -/

theorem setRes (h : s.Agrees held t) (v : BitVec 32) : (s.setRes v).Agrees held (t.setRes v) :=
  { h with res := rfl, cells := fun x hx => by cases x <;> exact h.cells _ hx }

theorem enterFault (h : s.Agrees held t) (c : FaultCause) (w : CmdWord) :
    (s.enterFault c w).Agrees held (t.enterFault c w) :=
  { h with fault := rfl, fcmd := rfl, cells := fun x hx => by cases x <;> exact h.cells _ hx }

/-- A run of bits written with the same values is held from then on. -/
theorem writeBits (h : s.Agrees held t) (a : Nat) (vs : List Bool) :
    (s.writeBits a vs).Agrees (fun x => held x ∨ x ∈ (List.range' a vs.length).map .buf) (t.writeBits a vs) := by
  refine { h with cells := fun x hx => ?_ }
  cases x with
  | buf p =>
    change (s.writeBits a vs).buf.read p = (t.writeBits a vs).buf.read p
    rw [State.read_writeBits, State.read_writeBits]
    split_ifs with hin
    · rfl
    · refine h.cells (.buf p) (hx.resolve_right fun hmem => hin ?_)
      simpa [List.mem_range'_1] using hmem
  | sym j => exact h.cells _ (hx.resolve_right (by simp))
  | idx j => exact h.cells _ (hx.resolve_right (by simp))

theorem writeSym (h : s.Agrees held t) (k : Nat) (v : BitVec 32) :
    ({ s with sym := s.sym.write k v } : State).Agrees (fun x => held x ∨ x = .sym k) { t with sym := t.sym.write k v } := by
  refine { h with cells := fun x hx => ?_ }
  cases x with
  | sym j =>
    change (s.sym.write k v).read j = (t.sym.write k v).read j
    rw [Mem.read_write, Mem.read_write]
    split_ifs with hjk
    · rfl
    · exact h.cells (.sym j) (hx.resolve_right (by simpa using hjk))
  | buf p => exact h.cells _ (hx.resolve_right (by simp))
  | idx j => exact h.cells _ (hx.resolve_right (by simp))

theorem writeIdx (h : s.Agrees held t) (k : Nat) (v : BitVec 16) :
    ({ s with idx := s.idx.write k v } : State).Agrees (fun x => held x ∨ x = .idx k) { t with idx := t.idx.write k v } := by
  refine { h with cells := fun x hx => ?_ }
  cases x with
  | idx j =>
    change (s.idx.write k v).read j = (t.idx.write k v).read j
    rw [Mem.read_write, Mem.read_write]
    split_ifs with hjk
    · rfl
    · exact h.cells (.idx j) (hx.resolve_right (by simpa using hjk))
  | buf p => exact h.cells _ (hx.resolve_right (by simp))
  | sym j => exact h.cells _ (hx.resolve_right (by simp))

/-- The flips keep agreeing bits in agreement, wherever they fall. -/
theorem flipBits (h : s.Agrees held t) (ps : List Nat) :
    ({ s with buf := Machine.flipBits s.buf ps } : State).Agrees held { t with buf := Machine.flipBits t.buf ps } := by
  refine { h with cells := fun x hx => ?_ }
  cases x with
  | buf p =>
    change (Machine.flipBits s.buf ps).read p = (Machine.flipBits t.buf ps).read p
    rw [read_flipBits, read_flipBits, h.cells (.buf p) hx]
  | sym j => exact h.cells _ hx
  | idx j => exact h.cells _ hx

/-- EPOS below the new ECNT is the reported list, whatever EPOS held before (R34). -/
theorem outcome (h : s.Agrees held t) (st : DecodeStatus) (ps : List Nat) :
    (s.outcome st ps).Agrees held (t.outcome st ps) := by
  refine { h with
    status := rfl, ncorr := rfl, ecnt := rfl, epos := fun j hj => ?_, cells := fun x hx => by cases x <;> exact h.cells _ hx }
  have hlt : j < ps.length := lt_of_lt_of_le hj (by simpa using Nat.mod_le _ _)
  rw [State.read_outcome_epos, State.read_outcome_epos, if_pos hlt, if_pos hlt]

theorem applyRepair (h : s.Agrees held t) (place : Nat → Nat) (r : Repair) :
    (s.applyRepair place r).Agrees held (t.applyRepair place r) :=
  (h.flipBits _).outcome _ _

/-- The corrections write values of the working copy, so agreeing symbols stay in agreement. -/
theorem correctSymbols (h : s.Agrees held t) (r : List Nat) (errors : List (Nat × Nat)) :
    ({ s with sym := Machine.correctSymbols s.sym r errors } : State).Agrees held
      { t with sym := Machine.correctSymbols t.sym r errors } := by
  induction errors generalizing s t with
  | nil => exact h
  | cons e errors ih => exact ih ((h.writeSym e.1 (BitVec.ofNat 32 (r.getD e.1 0 ^^^ e.2))).mono fun _ => .inl)

theorem applyRs (h : s.Agrees held t) (g : GfSlot) {c : RsConfig} (hsym : s.symbols c.n = t.symbols c.n) (r : RsResult) :
    (s.applyRs g c r).Agrees held (t.applyRs g c r) := by
  have hout := (h.correctSymbols (workingCopy g c (s.symbols c.n)) r.errors).outcome r.status (r.errors.map Prod.fst)
  rwa [State.applyRs, State.applyRs, ← hsym]

end State.Agrees

/-! Effects that agree. -/

/-- The update leaves the host's moves and FAULT alone. -/
structure State.Keeps (s u : State) : Prop where
  port : u.port = s.port
  fault : u.fault = s.fault

/-- The effects of one command in two states agree: both raise the same cause, or both end, and where the cells of R462 are held the
ends agree on these and on the cells stored. -/
inductive EffectsAgree (held : Cell → Prop) (i : Instr) (s t : State) : Effect → Effect → Prop
  | raised (c : FaultCause) : EffectsAgree held i s t (.error c) (.error c)
  | ended {u v : State} (keeps : s.Keeps u) (keeps' : t.Keeps v)
      (agrees : (∀ x ∈ cellsRead s i, held x) → u.Agrees (fun x => held x ∨ x ∈ cellsStored i) v) :
      EffectsAgree held i s t (.ok u) (.ok v)

namespace EffectsAgree

variable {e e' : Effect}

/-- An end of a command that stores no cell. -/
theorem unstored {u v : State} (hstored : cellsStored i = []) (keeps : s.Keeps u) (keeps' : t.Keeps v)
    (agrees : (∀ x ∈ cellsRead s i, held x) → u.Agrees held v) : EffectsAgree held i s t (.ok u) (.ok v) :=
  .ended keeps keeps' fun hread => (agrees hread).mono fun x hx => hx.resolve_right (by simp [hstored])

theorem result (h : s.Agrees held t) {v v' : BitVec 32} (hstored : cellsStored i = [])
    (hv : (∀ x ∈ cellsRead s i, held x) → v = v') : EffectsAgree held i s t (.ok (s.setRes v)) (.ok (t.setRes v')) :=
  .unstored hstored ⟨rfl, rfl⟩ ⟨rfl, rfl⟩ fun hread => hv hread ▸ h.setRes v

theorem bits (h : s.Agrees held t) {a : Nat} {vs vs' : List Bool}
    (hstored : ∀ x ∈ cellsStored i, x ∈ (List.range' a vs.length).map Cell.buf)
    (hvs : (∀ x ∈ cellsRead s i, held x) → vs = vs') :
    EffectsAgree held i s t (.ok (s.writeBits a vs)) (.ok (t.writeBits a vs')) :=
  .ended ⟨rfl, rfl⟩ ⟨rfl, rfl⟩ fun hread => hvs hread ▸ (h.writeBits a vs).mono fun x => Or.imp_right (hstored x)

theorem repair (h : s.Agrees held t) {place : Nat → Nat} {r r' : Repair} (hstored : cellsStored i = [])
    (hr : (∀ x ∈ cellsRead s i, held x) → r = r') :
    EffectsAgree held i s t (.ok (s.applyRepair place r)) (.ok (t.applyRepair place r')) :=
  .unstored hstored ⟨rfl, rfl⟩ ⟨rfl, rfl⟩ fun hread => hr hread ▸ h.applyRepair place r

/-! The checks decide alike (R107, R422). -/

theorem check_passed {p q : Prop} [Decidable p] [Decidable q] {c : FaultCause} (hpq : p ↔ q)
    (h : ¬ p → EffectsAgree held i s t e e') :
    EffectsAgree held i s t (if p then .error c else e) (if q then .error c else e') := by
  by_cases hp : p
  · rw [if_pos hp, if_pos (hpq.1 hp)]
    exact .raised c
  · rw [if_neg hp, if_neg (mt hpq.2 hp)]
    exact h hp

theorem check {p q : Prop} [Decidable p] [Decidable q] {c : FaultCause} (hpq : p ↔ q) (h : EffectsAgree held i s t e e') :
    EffectsAgree held i s t (if p then .error c else e) (if q then .error c else e') :=
  .check_passed hpq fun _ => h

theorem checkBit (h : s.Agrees held t) {k : Nat} (he : EffectsAgree held i s t e e') :
    EffectsAgree held i s t (if s.cfg.bufLen ≤ k then .error .bufRange else e)
      (if t.cfg.bufLen ≤ k then .error .bufRange else e') :=
  .check (by rw [h.cfg]) he

theorem checkedRun (h : s.Agrees held t) {a n : Nat} (he : EffectsAgree held i s t e e') :
    EffectsAgree held i s t (checkedRun s a n e) (checkedRun t a n e') := by
  rw [checkedRun_eq, checkedRun_eq, ← h.cfg]
  exact .check Iff.rfl (.check Iff.rfl he)

theorem checkedRange (h : s.Agrees held t) {a b : Nat} (he : EffectsAgree held i s t e e') :
    EffectsAgree held i s t (checkedRange s a b e) (checkedRange t a b e') :=
  .check Iff.rfl (.checkBit h he)

theorem withSlot (h : s.Agrees held t) {f : BitVec 8} {e e' : GfSlot → Effect}
    (he : ∀ g, EffectsAgree held i s t (e g) (e' g)) : EffectsAgree held i s t (withSlot s f e) (withSlot t f e') := by
  rw [Machine.withSlot, Machine.withSlot, ← h.cfg]
  split
  · exact .raised _
  · exact he _

theorem withHamCode (h : s.Agrees held t) {f : BitVec 8} {e e' : HamCode → Effect}
    (he : ∀ code, s.cfg.hamCode f.toNat = some code → EffectsAgree held i s t (e code) (e' code)) :
    EffectsAgree held i s t (withHamCode s f e) (withHamCode t f e') := by
  rw [Machine.withHamCode, Machine.withHamCode, ← h.cfg]
  split
  · exact .raised _
  · exact he _ ‹_›

/-- The decoder of a contiguous window: the window is what R462 asks to be held. -/
theorem windowDecode (h : s.Agrees held t) {a n : Nat} {dec dec' : List Bool → Repair} (hdec : dec = dec')
    (hstored : cellsStored i = []) (hread : cellsRead s i = (List.range' a n).map Cell.buf) :
    EffectsAgree held i s t (windowDecode s a n dec) (windowDecode t a n dec') := by
  subst hdec
  rw [windowDecode_eq, windowDecode_eq, ← h.cfg, ← ite_not, ← ite_not (a + n ≤ _)]
  exact .check Iff.rfl (.repair h hstored fun hheld => by rw [h.window (hread ▸ hheld)])

/-- The decoder of a scattered window: its checks look at the indices alone (R260). -/
theorem scatteredDecode (h : s.Agrees held t) {l : List Nat} {dec : List Bool → Repair} (hstored : cellsStored i = [])
    (hread : ∀ x ∈ l.map Cell.buf, x ∈ cellsRead s i) :
    EffectsAgree held i s t (scatteredDecode s l dec) (scatteredDecode t l dec) := by
  rw [Machine.scatteredDecode, Machine.scatteredDecode, ← h.cfg]
  exact .check Iff.rfl (.check Iff.rfl
    (.repair h hstored fun hheld => by rw [h.map_buf fun x hx => hheld x (hread x hx)]))

end EffectsAgree

/-! Every command in two agreeing states. -/

/-- The command runs as effects that agree. -/
def RunsAgree (held : Cell → Prop) (i : Instr) (s t : State) : Prop :=
  ∃ e e', exec i s = runCommand i s e ∧ exec i t = runCommand i t e' ∧ EffectsAgree held i s t e e'

/-- BNEXT answers in RES, whether its scan finds a bit or not (R150). -/
theorem exec_bnext_runs (s : State) (f : BitVec 16) :
    exec (.bnext f) s = runCommand (.bnext f) s (if s.cfg.bufLen < f.toNat then .error .bufRange
      else .ok (s.setRes ((s.nextSetBit f.toNat).elim noSetBit (BitVec.ofNat 32)))) := by
  simp only [exec, execBnext]
  cases s.nextSetBit f.toNat <;> rfl

/-- HAMDECX (R260): the checked entries of IDX give both states the same window. -/
theorem runsAgree_hamdecx (h : s.Agrees held t) {x : BitVec 8} (hchecked : ∀ y ∈ cellsChecked s (.hamdecx x), held y) :
    RunsAgree held (.hamdecx x) s t := by
  refine ⟨_, _, rfl, rfl, .withHamCode h fun code hcode => ?_⟩
  have hindices : s.scattered code.n = t.scattered code.n := h.scattered (by simpa [cellsChecked, hcode] using hchecked)
  rw [← hindices]
  exact .scatteredDecode h rfl (by simp [cellsRead, bufWindow, hcode])

/-- Every command: its checks are of the configuration, its operands, ECNT and the cells of `cellsChecked`, and where they pass, what
it writes is a function of these and of the cells of `cellsRead`. -/
theorem exec_agrees (h : s.Agrees held t) (i : Instr) (hchecked : ∀ x ∈ cellsChecked s i, held x) : RunsAgree held i s t := by
  cases i with
  | nop => exact ⟨.ok s, .ok t, rfl, rfl, .unstored rfl ⟨rfl, rfl⟩ ⟨rfl, rfl⟩ fun _ => h⟩
  | bget k =>
    exact ⟨_, _, rfl, rfl, .checkBit h (.result h rfl fun hread => by rw [h.cells (.buf _) (hread _ (by simp [cellsRead]))])⟩
  | bset k => exact ⟨_, _, rfl, rfl, .checkBit h (.bits (vs := [true]) h (by simp [cellsStored]) fun _ => rfl)⟩
  | bclr k => exact ⟨_, _, rfl, rfl, .checkBit h (.bits (vs := [false]) h (by simp [cellsStored]) fun _ => rfl)⟩
  | bflip k =>
    exact ⟨_, _, rfl, rfl, .checkBit h (.bits (vs := [!s.buf.read k.toNat]) (vs' := [!t.buf.read k.toNat]) h
      (by simp [cellsStored]) fun hread => by rw [h.cells (.buf _) (hread _ (by simp [cellsRead]))])⟩
  | bread a n =>
    exact ⟨_, _, rfl, rfl, .checkedRun h (.result h rfl fun hread => by rw [State.bufRead, State.bufRead, h.window hread])⟩
  | bwrite a n v =>
    exact ⟨_, _, rfl, rfl, .checkedRun h (.check Iff.rfl (.bits h (by simp [cellsStored]) fun _ => rfl))⟩
  | bxor a n v =>
    exact ⟨_, _, rfl, rfl, .checkedRun h (.check Iff.rfl (.bits h (by simp [cellsStored]) fun hread => by rw [h.window hread]))⟩
  | brotl a e =>
    exact ⟨_, _, rfl, rfl, .checkedRange h (.bits h (by simp [cellsStored]) fun hread => by rw [h.window hread])⟩
  | brotr a e =>
    exact ⟨_, _, rfl, rfl, .checkedRange h (.bits h (by simp [cellsStored]) fun hread => by rw [h.window hread])⟩
  | bpopc =>
    have hexec := fun s => show exec .bpopc s = runCommand .bpopc s (.ok (s.setRes _)) by rw [exec, execBpopc, State.setResNat]
    exact ⟨_, _, hexec s, hexec t, .result h rfl fun hread => by rw [← h.cfg, h.countP_buf hread]⟩
  | bnext a =>
    exact ⟨_, _, exec_bnext_runs s a, exec_bnext_runs t a,
      .check (by rw [h.cfg]) (.result h rfl fun hread => by rw [h.nextSetBit hread])⟩
  | symwr j v =>
    exact ⟨_, _, rfl, rfl, .check Iff.rfl (.ended ⟨rfl, rfl⟩ ⟨rfl, rfl⟩ fun _ =>
      (h.writeSym _ v).mono fun x => Or.imp_right List.mem_singleton.1)⟩
  | symrd j =>
    exact ⟨_, _, rfl, rfl, .check Iff.rfl (.result h rfl fun hread => h.cells (.sym _) (hread _ (by simp [cellsRead])))⟩
  | idxwr j v =>
    exact ⟨_, _, rfl, rfl, .check Iff.rfl (.ended ⟨rfl, rfl⟩ ⟨rfl, rfl⟩ fun _ =>
      (h.writeIdx _ v).mono fun x => Or.imp_right List.mem_singleton.1)⟩
  | idxrd j =>
    exact ⟨_, _, rfl, rfl, .check Iff.rfl (.result h rfl fun hread => by rw [h.cells (.idx _) (hread _ (by simp [cellsRead]))])⟩
  | eposrd j =>
    exact ⟨_, _, rfl, rfl, .check_passed (by rw [h.ecnt]) fun hj => .result h rfl fun _ => h.epos _ (Nat.not_le.1 hj)⟩
  | gfexp f k => exact ⟨_, _, rfl, rfl, .withSlot h fun g => .check Iff.rfl (.result h rfl fun _ => by rw [h.cfg])⟩
  | gflog f v => exact ⟨_, _, rfl, rfl, .withSlot h fun g => .check Iff.rfl (.result h rfl fun _ => rfl)⟩
  | gfmul f x y =>
    exact ⟨_, _, rfl, rfl, .withSlot h fun g => .check Iff.rfl (.check Iff.rfl (.result h rfl fun _ => rfl))⟩
  | gfinv f x =>
    exact ⟨_, _, rfl, rfl, .withSlot h fun g => .check Iff.rfl (.check Iff.rfl (.result h rfl fun _ => by rw [h.cfg]))⟩
  | gfadd f x y =>
    exact ⟨_, _, rfl, rfl, .withSlot h fun g => .check Iff.rfl (.check Iff.rfl (.result h rfl fun _ => rfl))⟩
  | rsdec c =>
    refine ⟨_, _, rfl, rfl, ?_⟩
    rw [← h.cfg]
    split
    · exact .raised _
    · rename_i g code hcode
      obtain ⟨hconfig, -⟩ := Config.rsCode_eq_some_iff.1 hcode
      refine .unstored rfl ⟨rfl, rfl⟩ ⟨rfl, rfl⟩ fun hread => ?_
      have hsym : s.symbols code.n = t.symbols code.n := h.symbols (by simpa [cellsRead, hconfig] using hread)
      exact hsym ▸ h.applyRs g hsym _
  | hamdec x a =>
    exact ⟨_, _, rfl, rfl, .withHamCode h fun code hcode => .windowDecode h rfl rfl (by simp [cellsRead, bufWindow, hcode])⟩
  | hamdecx x => exact runsAgree_hamdecx h hchecked
  | gol23 a => exact ⟨_, _, rfl, rfl, .windowDecode h (by rw [h.cfg]) rfl rfl⟩
  | gol24 a => exact ⟨_, _, rfl, rfl, .windowDecode h (by rw [h.cfg]) rfl rfl⟩
  | gol18 a => exact ⟨_, _, rfl, rfl, .windowDecode h (by rw [h.cfg]) rfl rfl⟩
  | bptc a => exact ⟨_, _, rfl, rfl, .windowDecode h rfl rfl rfl⟩
  | crcchk c a inbound =>
    refine ⟨_, _, rfl, rfl, ?_⟩
    rw [← h.cfg]
    split
    · exact .raised _
    · rename_i slot hslot
      exact .windowDecode h rfl rfl (by simp [cellsRead, bufWindow, hslot])
  | crc16 a m => exact ⟨_, _, rfl, rfl, .check Iff.rfl (.windowDecode h rfl rfl rfl)⟩

/-! One step of one block. -/

/-- A command answers a state in which the host's moves are as before, and FAULT too unless the command enters its fault: the effect
that `exec_agrees` finds when it compares the command with itself. -/
theorem exec_keeps (i : Instr) (s : State) :
    ∃ t, exec i s = .next t ∧ t.port = s.port ∧ (t.fault = s.fault ∨ ∃ c, t = s.enterFault c (encode i)) := by
  obtain ⟨e, e', hexec, -, hagree⟩ := exec_agrees (s.agrees_withPort (fun _ => True) s.port s.port) i fun _ _ => trivial
  by_cases hs : s.fault = 0
  · cases hagree with
    | raised c => exact ⟨_, hexec.trans (runCommand_error hs i c), rfl, .inr ⟨c, rfl⟩⟩
    | ended keeps => exact ⟨_, hexec.trans (runCommand_ok hs i _), keeps.port, .inl keeps.fault⟩
  · exact ⟨s, exec_halted hs i, rfl, .inl rfl⟩

/-- Settles O7: the move goes when it is fetched, and neither a command, a rejected word nor a reset touches the moves behind it. -/
theorem hostMovesTaken : Obligations.HostMovesTaken := by
  refine ⟨fun s => step_idle, fun s a rest hport => ?_⟩
  cases a with
  | reset d => exact ⟨_, step_reset hport, rfl⟩
  | command w =>
    cases hdecode : decode w with
    | ok i =>
      obtain ⟨t, ht, hkept, -⟩ := exec_keeps i { s with port := rest }
      exact ⟨t, (step_command hport hdecode).trans ht, hkept⟩
    | error c =>
      refine ⟨_, (step_reject hport hdecode).trans (rejectWord_eq c w _), ?_⟩
      split <;> rfl

/-- Settles O13: a fault is a next state as well, and a step takes the host's next move or stays. -/
theorem everyCommandAnswers : Obligations.EveryCommandAnswers := by
  obtain ⟨hidle, hmove⟩ := hostMovesTaken
  refine ⟨fun i s => ?_, fun s => ?_⟩
  · obtain ⟨t, ht, -⟩ := exec_keeps i s
    exact ⟨t, ht⟩
  · cases hport : s.port with
    | nil => exact ⟨s, hidle s hport⟩
    | cons a rest =>
      obtain ⟨t, ht, -⟩ := hmove s a rest hport
      exact ⟨t, ht⟩

/-- Settles O8: a halted block ignores a command, and the word that is none as well. -/
theorem haltedBlockIgnores : Obligations.HaltedBlockIgnores := by
  intro s hs
  refine ⟨exec_halted hs, fun w rest hport => ?_⟩
  have hrest : ({ s with port := rest } : State).fault ≠ 0 := hs
  cases hdecode : decode w with
  | ok i => exact (step_command hport hdecode).trans (exec_halted hrest i)
  | error c => rw [step_reject hport hdecode, rejectWord_eq, if_neg hrest]

/-- Settles O14: only the entry of a fault changes FAULT, and the command's encoding is the word it was decoded from. -/
theorem faultEntryPrecise : Obligations.FaultEntryPrecise := by
  intro s t w rest hport hs hstep hfault
  cases hdecode : decode w with
  | ok i =>
    obtain ⟨u, hu, -, hkept | ⟨c, rfl⟩⟩ := exec_keeps i { s with port := rest }
    · cases hstep.symm.trans ((step_command hport hdecode).trans hu)
      exact absurd (hkept.trans hs) hfault
    · cases hstep.symm.trans ((step_command hport hdecode).trans hu)
      exact ⟨c, by rw [← encodeInvertsDecode w i hdecode]; rfl⟩
  | error c =>
    obtain ⟨u, hu, hentry⟩ := step_enters_fault hport hs hdecode
    cases hstep.symm.trans hu
    exact ⟨c, hentry⟩

/-! One step of two agreeing blocks. -/

theorem cellsRead_withPort (s : State) (port : List HostAction) (i : Instr) :
    cellsRead { s with port := port } i = cellsRead s i := by cases i <;> rfl

theorem cellsChecked_withPort (s : State) (port : List HostAction) (i : Instr) :
    cellsChecked { s with port := port } i = cellsChecked s i := by cases i <;> rfl

/-- What a command checks is among what it reads. -/
theorem cellsChecked_subset_cellsRead (s : State) (i : Instr) : cellsChecked s i ⊆ cellsRead s i := by
  cases i with
  | hamdecx x => exact List.subset_append_left _ _
  | _ => exact List.nil_subset _

theorem cellsChecked_subset_cellsUsed (hs : s.fault = 0) (i : Instr) : cellsChecked s i ⊆ cellsUsed s i := by
  rw [cellsUsed, (State.halted_eq_false s).2 hs]
  by_cases hc : completes s i = true
  · simpa [hc] using cellsChecked_subset_cellsRead s i
  · simp [hc]

theorem completes_runCommand {e : Effect} (hs : s.fault = 0) (hexec : exec i s = runCommand i s e) :
    completes s i = true ↔ ∃ u, e = .ok u ∧ u.fault = 0 := by
  rw [completes_iff, hexec]
  cases e with
  | ok u => simp [runCommand_ok hs]
  | error c =>
    have hc : c.code ≠ 0 := FaultCause.code_ne_zero c
    simpa [runCommand_error hs] using hc

theorem completes_of_halted (hs : s.fault ≠ 0) (i : Instr) : completes s i = false := by
  have hc : ¬ completes s i = true := by
    rw [completes_iff, exec_halted hs]
    rintro ⟨u, hu, hzero⟩
    cases hu
    exact hs hzero
  simpa using hc

/-- Whether a command completes depends on the registers and on the cells its checks look at. -/
theorem completes_congr (h : s.Agrees held t) (hchecked : ∀ x ∈ cellsChecked s i, held x) :
    completes s i = completes t i := by
  obtain ⟨e, e', hexec, hexec', hagree⟩ := exec_agrees h i hchecked
  by_cases hs : s.fault = 0
  · have ht : t.fault = 0 := h.fault.symm.trans hs
    rw [Bool.eq_iff_iff, completes_runCommand hs hexec, completes_runCommand ht hexec']
    cases hagree with
    | raised c => simp
    | ended keeps keeps' => simp [keeps.fault, keeps'.fault, h.fault]
  · rw [completes_of_halted hs, completes_of_halted (h.fault ▸ hs)]

/-- Whether a command completes does not depend on what the host does next. -/
theorem completes_withPort (s : State) (port : List HostAction) (i : Instr) :
    completes { s with port := port } i = completes s i :=
  completes_congr (s.agrees_withPort (fun _ => True) port s.port) fun _ _ => trivial

theorem cellsUsed_withPort (s : State) (port : List HostAction) (i : Instr) :
    cellsUsed { s with port := port } i = cellsUsed s i := by
  rw [cellsUsed, cellsUsed, completes_withPort, cellsRead_withPort, cellsChecked_withPort]
  rfl

/-- The cells held after a command: a command that completes stores some. -/
def heldAfter (held : Cell → Prop) (s : State) (i : Instr) (x : Cell) : Prop :=
  held x ∨ completes s i = true ∧ x ∈ cellsStored i

/-- A command that reads held cells only takes two agreeing states to agreeing states. -/
theorem exec_sameResult (h : sameResult held s t) (i : Instr) (hused : ∀ x ∈ cellsUsed s i, held x) :
    ∃ u v, exec i s = .next u ∧ exec i t = .next v ∧ sameResult (heldAfter held s i) u v := by
  obtain ⟨hport, hst⟩ := sameResult_iff.1 h
  by_cases hs : s.fault = 0
  · have ht : t.fault = 0 := hst.fault.symm.trans hs
    obtain ⟨e, e', hexec, hexec', hagree⟩ :=
      exec_agrees hst i fun x hx => hused x (cellsChecked_subset_cellsUsed hs i hx)
    have hcompletes := completes_runCommand hs hexec
    cases hagree with
    | raised c =>
      refine ⟨_, _, hexec.trans (runCommand_error hs i c), hexec'.trans (runCommand_error ht i c), sameResult_iff.2 ⟨hport, ?_⟩⟩
      refine (hst.enterFault c (encode i)).mono fun x hx => hx.resolve_right fun hstored => ?_
      simp [hcompletes] at hstored
    | @ended u v keeps keeps' agrees =>
      refine ⟨u, v, hexec.trans (runCommand_ok hs i u), hexec'.trans (runCommand_ok ht i v), sameResult_iff.2 ⟨?_, ?_⟩⟩
      · rw [keeps.port, keeps'.port, hport]
      · have hc := hcompletes.2 ⟨u, rfl, keeps.fault.trans hs⟩
        rw [cellsUsed_completes hc] at hused
        exact (agrees hused).mono fun x => Or.imp_right And.right
  · have ht : t.fault ≠ 0 := fun h0 => hs (hst.fault.trans h0)
    refine ⟨s, t, exec_halted hs i, exec_halted ht i, sameResult_iff.2 ⟨hport, hst.mono fun x hx => hx.resolve_right ?_⟩⟩
    simp [completes_of_halted hs]

theorem rejectWord_sameResult (h : sameResult held s t) (c : FaultCause) (w : CmdWord) :
    ∃ u v, rejectWord c w s = .next u ∧ rejectWord c w t = .next v ∧ sameResult held u v := by
  obtain ⟨hport, hst⟩ := sameResult_iff.1 h
  refine ⟨_, _, rejectWord_eq c w s, rejectWord_eq c w t, sameResult_iff.2 ?_⟩
  rw [← hst.fault]
  split_ifs
  · exact ⟨hport, hst.enterFault c w⟩
  · exact ⟨hport, hst⟩

/-- The cells a claim may read when the host has written those of `done`: these, and every cell not named. -/
def heldCells (cells done : List Cell) (x : Cell) : Prop := x ∉ cells ∨ x ∈ done

/-- A word that decodes adds the cells its command stores. -/
theorem heldCells_nextDone {cells done : List Cell} {w : CmdWord} {rest : List HostAction} (hport : s.port = .command w :: rest)
    (hdecode : decode w = .ok i) (x : Cell) :
    heldCells cells (s.nextDone done) x ↔ heldAfter (heldCells cells done) s i x := by
  have hnext : s.nextDone done = if completes s i then cellsStored i ++ done else done := by
    simp [State.nextDone, hport, hdecode]
  rw [hnext]
  by_cases hc : completes s i = true
  · simp only [heldAfter, heldCells, hc, if_true, List.mem_append, true_and]
    tauto
  · simp [heldAfter, heldCells, hc]

/-- A reset leaves nothing of the state before it but the configuration and the host's moves (R460, R461). -/
theorem sameResult_hostReset (hcfg : s.cfg = t.cfg) (hport : s.port = t.port) (d : Draws) :
    sameResult held (s.hostReset d) (t.hostReset d) := by
  rw [State.hostReset, State.hostReset, hcfg, hport]
  exact sameResult_iff.2 ⟨rfl, State.agrees_withPort held _ _ _⟩

/-- A step that reads held cells only takes two agreeing blocks to agreeing blocks. -/
theorem step_sameResult {cells done : List Cell} (h : sameResult (heldCells cells done) s t)
    (hreads : ∀ x ∈ s.nextReads, heldCells cells done x) :
    ∃ u v, step s = .next u ∧ step t = .next v ∧ sameResult (heldCells cells (s.nextDone done)) u v := by
  obtain ⟨hport, hst⟩ := sameResult_iff.1 h
  cases hs : s.port with
  | nil =>
    refine ⟨s, t, step_idle hs, step_idle (hport.symm.trans hs), ?_⟩
    simpa [State.nextDone, hs] using h
  | cons a rest =>
    have ht := hport.symm.trans hs
    have hrest : sameResult (heldCells cells done) { s with port := rest } { t with port := rest } :=
      sameResult_iff.2 ⟨rfl, hst.withPort rest rest⟩
    cases a with
    | reset d =>
      exact ⟨_, _, step_reset hs, step_reset ht, sameResult_hostReset (hst.withPort rest rest).cfg rfl d⟩
    | command w =>
      cases hdecode : decode w with
      | ok i =>
        have hused : ∀ x ∈ cellsUsed { s with port := rest } i, heldCells cells done x := by
          rw [cellsUsed_withPort]
          simpa [State.nextReads, hs, hdecode] using hreads
        obtain ⟨u, v, hu, hv, huv⟩ := exec_sameResult hrest i hused
        refine ⟨u, v, (step_command hs hdecode).trans hu, (step_command ht hdecode).trans hv, ?_⟩
        obtain ⟨huvport, huv⟩ := sameResult_iff.1 huv
        refine sameResult_iff.2 ⟨huvport, huv.mono fun x => ?_⟩
        rw [heldAfter, completes_withPort]
        exact (heldCells_nextDone hs hdecode x).1
      | error c =>
        obtain ⟨u, v, hu, hv, huv⟩ := rejectWord_sameResult hrest c w
        refine ⟨u, v, (step_reject hs hdecode).trans hu, (step_reject ht hdecode).trans hv, ?_⟩
        simpa [State.nextDone, hs, hdecode] using huv

/-! Runs from two draws (R463, R468, R469). -/

theorem runSteps_sameResult (cells : List Cell) (n : Nat) {done : List Cell} (h : sameResult (heldCells cells done) s t)
    (hwritten : written cells n done s = true) :
    sameResult (heldCells cells (writtenAfter n done s)) (runSteps n s) (runSteps n t) := by
  induction n generalizing done s t with
  | zero => exact h
  | succ n ih =>
    simp only [written, Bool.and_eq_true, List.all_eq_true, decide_eq_true_eq] at hwritten
    obtain ⟨hreads, hwritten⟩ := hwritten
    obtain ⟨u, v, hu, hv, huv⟩ := step_sameResult h fun x hx => Decidable.imp_iff_not_or.1 (hreads x hx)
    rw [hu] at hwritten
    simpa only [writtenAfter, runSteps, hu, hv] using ih huv hwritten

/-- Runs of the same words start in agreement on the cells the draws agree on; no EPOS entry is reported yet. -/
theorem runStart_sameResult {held : Cell → Prop} (c : Config) {d₁ d₂ : Draws} (words : List CmdWord)
    (h : ∀ x, held x → sameCell (runStart c d₁ words) (runStart c d₂ words) x) :
    sameResult held (runStart c d₁ words) (runStart c d₂ words) :=
  ⟨rfl, rfl, rfl, rfl, rfl, rfl, rfl, rfl, fun j hj => absurd hj (Nat.not_lt_zero j), h⟩

/-- Settles O18: the runs agree at the start on the cells not named, and every step keeps the agreement, since it reads a named cell
only once the host has written it. -/
theorem drawIndependence : Obligations.DrawIndependence := by
  intro c d₁ d₂ words cells _ hdraws hwritten
  refine runSteps_sameResult cells words.length (runStart_sameResult c words fun x hx => hdraws x ?_) hwritten
  exact hx.resolve_right List.not_mem_nil

end Sys2Proof.Machine
end
